-- ==== Sys2Proof/Word.lean ====
section
/-! DEFINITION. The word types of the GMS30C2116/2132 (spec/00_scope.md R8: bit 31 of a word and bit 15 of an
instruction halfword are the most significant) and their plainest conversions. -/

namespace Sys2Proof

/-- A 32-bit register or address (R6). -/
abbrev Word := BitVec 32

/-- A 16-bit halfword (R13). -/
abbrev Half := BitVec 16

/-- An 8-bit byte, the smallest addressable unit (R100). -/
abbrev Byte := BitVec 8

/-- A double-word `X//Xf`, high-order word first (R8). -/
abbrev Double := BitVec 64

/-- The one-bit vector of a truth value ("relations evaluate to one or zero", R9). -/
def bit (b : Bool) : BitVec 1 := if b then 1#1 else 0#1

end Sys2Proof
end

