-- ==== Sys2Proof/Config.lean ====
section
/-! DEFINITION. What the platform fixes and the values the spec leaves open (spec/00_scope.md R7, R11 `undefined(N)`;
spec/93_implementation_defined.md "any value"). A free value has no body: nothing can be proved of it. -/

namespace Sys2Proof

/-- Which undefined item a free value stands for; two items drawn in one instruction are independent. -/
inductive FreeItem where
  /-- an undefined condition flag: SR bit 0 to 3 (I4.1 to I4.7) -/
  | flag (bit : Nat)
  /-- SR.ILC where it is "invalid" (I4.8, D18) -/
  | ilc
  /-- SR bit 6 after a one was written to it (I7.1) -/
  | srBit6
  /-- an undefined result word: 0 the high-order, 1 the low-order word (I4.3, I4.4, I4.6, I2.13) -/
  | result (word : Nat)
  /-- a read of a write-only or reserved high global register (I5, I6) -/
  | highRead
  /-- bits 31..16 of a read of WCR after a move wrote them otherwise than zero (I7.2) -/
  | wcrUpper
  /-- the level of IO2 or IO3 configured as a reserved output (I10) -/
  | ioLevel (pin : Nat)
  /-- whether IO2 or IO3 configured as a reserved output requests (I10) -/
  | ioRequest (pin : Nat)
  /-- an instruction halfword beyond the third of an oversize delayed-branch pair (I2.12) -/
  | fetchHalf (index : Nat)
  /-- how many words the prefetch has run ahead when an instruction is executed (R128) -/
  | prefetch
  /-- old or new, at the fetch of a halfword modified since the last flush (I22, D12) -/
  | staleChoice (address : Nat)
  /-- a register after a run-time Reset (I4.10), numbered by `resetWord` of Machine/Devices.lean's order -/
  | resetWord (index : Nat)
  /-- a byte of the IRAM after a run-time Reset (R590) -/
  | iramByte (index : Nat)
deriving DecidableEq, Repr

/-- The free value of width `w` that the `k`-th draw gives `item` (notes/assumptions/3.md). -/
opaque Config.freeValue (w k : Nat) (item : FreeItem) : BitVec w

/-- What a read of an address where no memory exists returns: "whatever the floating bus holds" (R119). -/
opaque Config.floatingBus (k : Nat) (a : Word) : Byte

/-- What the I/O device at address `a` answers at the `k`-th draw (parameter `IO`, D15; notes/assumptions/10.md). -/
opaque Config.ioRead (k : Nat) (a : Word) : Word

end Sys2Proof
end

