-- ==== Sys2Proof/Syntax.lean ====
section
/-! DEFINITION. The instruction set as syntax: one constructor per row of the opcode table
(spec/30_encoding.md R198 to R201; formats R181 to R193). -/

namespace Sys2Proof

/-- An operand register (R197): a bank bit and a 4-bit code. `glob 0` is the PC, `glob 1` the SR. -/
inductive Reg where
  /-- bank bit 0: G(code), or G(code+16) in the H window (R33) -/
  | glob (c : BitVec 4)
  /-- bank bit 1: L(code), relative to FP (R60) -/
  | loc (c : BitVec 4)
deriving DecidableEq, Repr

/-- The immediate of format Rimm (R192, R194), in the form its halfwords carry it. -/
inductive Imm where
  /-- any n other than 17, 18, 19: the value is a function of n alone -/
  | code (n : BitVec 5)
  /-- n = 17: imm1//imm2 -/
  | word (v : BitVec 32)
  /-- n = 18: sixteen zeros // imm1 -/
  | low (v : BitVec 16)
  /-- n = 19: sixteen ones // imm1 -/
  | ones (v : BitVec 16)
deriving DecidableEq, Repr

/-- The constant of formats LRconst and RRconst (R189, R190): S//const1 or S//const1//const2. -/
inductive Const where
  | short (v : BitVec 15)
  | long (v : BitVec 31)
deriving DecidableEq, Repr

/-- The effective displacement of format RRdis (R191), its type-selector bits already cleared (R231):
S//dis1 or S//dis1//dis2. -/
inductive Dis where
  | short (v : BitVec 13)
  | long (v : BitVec 29)
deriving DecidableEq, Repr

/-- The limit of format RRlim (R193): lim1 or lim1//lim2. -/
inductive Lim where
  | short (v : BitVec 12)
  | long (v : BitVec 28)
deriving DecidableEq, Repr

/-- The displacement of format PCrel (R188), counted in halfwords (bit 0 of rel is always 0):
S//low-rel or S//high-rel//low-rel. -/
inductive Rel where
  | short (v : BitVec 7)
  | long (v : BitVec 23)
deriving DecidableEq, Repr

/-- The length in halfwords of an instruction with this operand (R196). -/
def Imm.length : Imm → Nat
  | .code _ => 1 | .word _ => 3 | .low _ => 2 | .ones _ => 2

/-- Two halfwords with e = 0, three with e = 1 (R196). -/
def Const.length : Const → Nat
  | .short _ => 2 | .long _ => 3

/-- Two halfwords with e = 0, three with e = 1 (R196). -/
def Dis.length : Dis → Nat
  | .short _ => 2 | .long _ => 3

/-- Two halfwords with e = 0, three with e = 1 (R196). -/
def Lim.length : Lim → Nat
  | .short _ => 2 | .long _ => 3

/-- One halfword in the short form, two in the long form (R196). -/
def Rel.length : Rel → Nat
  | .short _ => 1 | .long _ => 2

/-- The instructions, in the order of the opcode table; each docstring names the mnemonic and its rule. -/
inductive Instr where
  /-- CHK (R390) -/
  | chk (rd : Reg) (rs : Reg)
  /-- CHKZ (R391) -/
  | chkz (rd : Reg)
  /-- NOP (R392) -/
  | nop
  /-- MOVD (R283) -/
  | movd (rd : Reg) (rs : Reg)
  /-- RET (R446) -/
  | ret (rs : Reg)
  /-- DIVU (R329) -/
  | divu (rd : Reg) (rs : Reg)
  /-- DIVS (R328) -/
  | divs (rd : Reg) (rs : Reg)
  /-- XM1 (R385) -/
  | xm1 (rd : Reg) (rs : Reg) (lim : Lim)
  /-- XM2 (R385) -/
  | xm2 (rd : Reg) (rs : Reg) (lim : Lim)
  /-- XM4 (R385) -/
  | xm4 (rd : Reg) (rs : Reg) (lim : Lim)
  /-- XM8 (R385) -/
  | xm8 (rd : Reg) (rs : Reg) (lim : Lim)
  /-- XX1 (R385) -/
  | xx1 (rd : Reg) (rs : Reg) (lim : Lim)
  /-- XX2 (R385) -/
  | xx2 (rd : Reg) (rs : Reg) (lim : Lim)
  /-- XX4 (R385) -/
  | xx4 (rd : Reg) (rs : Reg) (lim : Lim)
  /-- XX8 (R385) -/
  | xx8 (rd : Reg) (rs : Reg) (lim : Lim)
  /-- MASK (R292) -/
  | mask (rd : Reg) (rs : Reg) (c : Const)
  /-- SUM (R318) -/
  | sum (rd : Reg) (rs : Reg) (c : Const)
  /-- SUMS (R319) -/
  | sums (rd : Reg) (rs : Reg) (c : Const)
  /-- CMP (R395) -/
  | cmp (rd : Reg) (rs : Reg)
  /-- MOV (R281) -/
  | mov (rd : Reg) (rs : Reg)
  /-- ADD (R313) -/
  | add (rd : Reg) (rs : Reg)
  /-- ADDS (R314) -/
  | adds (rd : Reg) (rs : Reg)
  /-- CMPB (R397) -/
  | cmpb (rd : Reg) (rs : Reg)
  /-- ANDN (R285) -/
  | andn (rd : Reg) (rs : Reg)
  /-- OR (R286) -/
  | or (rd : Reg) (rs : Reg)
  /-- XOR (R287) -/
  | xor (rd : Reg) (rs : Reg)
  /-- SUBC (R322) -/
  | subc (rd : Reg) (rs : Reg)
  /-- NOT (R291) -/
  | not (rd : Reg) (rs : Reg)
  /-- SUB (R320) -/
  | sub (rd : Reg) (rs : Reg)
  /-- SUBS (R321) -/
  | subs (rd : Reg) (rs : Reg)
  /-- ADDC (R315) -/
  | addc (rd : Reg) (rs : Reg)
  /-- AND (R284) -/
  | and (rd : Reg) (rs : Reg)
  /-- NEG (R323) -/
  | neg (rd : Reg) (rs : Reg)
  /-- NEGS (R324) -/
  | negs (rd : Reg) (rs : Reg)
  /-- CMPI (R396) -/
  | cmpi (rd : Reg) (imm : Imm)
  /-- MOVI (R282) -/
  | movi (rd : Reg) (imm : Imm)
  /-- ADDI (R316) -/
  | addi (rd : Reg) (imm : Imm)
  /-- ADDSI (R317) -/
  | addsi (rd : Reg) (imm : Imm)
  /-- CMPBI (R398) -/
  | cmpbi (rd : Reg) (imm : Imm)
  /-- ANDNI (R288) -/
  | andni (rd : Reg) (imm : Imm)
  /-- ORI (R289) -/
  | ori (rd : Reg) (imm : Imm)
  /-- XORI (R290) -/
  | xori (rd : Reg) (imm : Imm)
  /-- SHRDI (R362) -/
  | shrdi (ld : BitVec 4) (n : BitVec 5)
  /-- SHRD (R364) -/
  | shrd (ld : BitVec 4) (ls : BitVec 4)
  /-- SHR (R363) -/
  | shr (ld : BitVec 4) (ls : BitVec 4)
  /-- SARDI (R358) -/
  | sardi (ld : BitVec 4) (n : BitVec 5)
  /-- SARD (R360) -/
  | sard (ld : BitVec 4) (ls : BitVec 4)
  /-- SAR (R359) -/
  | sar (ld : BitVec 4) (ls : BitVec 4)
  /-- SHLDI (R354) -/
  | shldi (ld : BitVec 4) (n : BitVec 5)
  /-- SHLD (R356) -/
  | shld (ld : BitVec 4) (ls : BitVec 4)
  /-- SHL (R355) -/
  | shl (ld : BitVec 4) (ls : BitVec 4)
  /-- TESTLZ (R400) -/
  | testlz (ld : BitVec 4) (ls : BitVec 4)
  /-- ROL (R365) -/
  | rol (ld : BitVec 4) (ls : BitVec 4)
  /-- LDBS.D (R244) -/
  | ldbsD (rd : Reg) (rs : Reg) (dis : Dis)
  /-- LDBU.D (R244) -/
  | ldbuD (rd : Reg) (rs : Reg) (dis : Dis)
  /-- LDHU.D (R244) -/
  | ldhuD (rd : Reg) (rs : Reg) (dis : Dis)
  /-- LDHS.D (R244) -/
  | ldhsD (rd : Reg) (rs : Reg) (dis : Dis)
  /-- LDW.D (R244) -/
  | ldwD (rd : Reg) (rs : Reg) (dis : Dis)
  /-- LDD.D (R244) -/
  | lddD (rd : Reg) (rs : Reg) (dis : Dis)
  /-- LDBS.A (R245) -/
  | ldbsA (rs : Reg) (dis : Dis)
  /-- LDBU.A (R245) -/
  | ldbuA (rs : Reg) (dis : Dis)
  /-- LDHU.A (R245) -/
  | ldhuA (rs : Reg) (dis : Dis)
  /-- LDHS.A (R245) -/
  | ldhsA (rs : Reg) (dis : Dis)
  /-- LDW.A (R245) -/
  | ldwA (rs : Reg) (dis : Dis)
  /-- LDD.A (R245) -/
  | lddA (rs : Reg) (dis : Dis)
  /-- LDW.IOD (R250) -/
  | ldwIOD (rd : Reg) (rs : Reg) (dis : Dis)
  /-- LDD.IOD (R250) -/
  | lddIOD (rd : Reg) (rs : Reg) (dis : Dis)
  /-- LDW.IOA (R251) -/
  | ldwIOA (rs : Reg) (dis : Dis)
  /-- LDD.IOA (R251) -/
  | lddIOA (rs : Reg) (dis : Dis)
  /-- LDBS.N (R246) -/
  | ldbsN (rd : Reg) (rs : Reg) (dis : Dis)
  /-- LDBU.N (R246) -/
  | ldbuN (rd : Reg) (rs : Reg) (dis : Dis)
  /-- LDHU.N (R246) -/
  | ldhuN (rd : Reg) (rs : Reg) (dis : Dis)
  /-- LDHS.N (R246) -/
  | ldhsN (rd : Reg) (rs : Reg) (dis : Dis)
  /-- LDW.N (R246) -/
  | ldwN (rd : Reg) (rs : Reg) (dis : Dis)
  /-- LDD.N (R246) -/
  | lddN (rd : Reg) (rs : Reg) (dis : Dis)
  /-- LDW.S (R247) -/
  | ldwS (rd : Reg) (rs : Reg) (dis : Dis)
  /-- STBS.D (R258) -/
  | stbsD (rd : Reg) (rs : Reg) (dis : Dis)
  /-- STBU.D (R258) -/
  | stbuD (rd : Reg) (rs : Reg) (dis : Dis)
  /-- STHU.D (R258) -/
  | sthuD (rd : Reg) (rs : Reg) (dis : Dis)
  /-- STHS.D (R258) -/
  | sthsD (rd : Reg) (rs : Reg) (dis : Dis)
  /-- STW.D (R258) -/
  | stwD (rd : Reg) (rs : Reg) (dis : Dis)
  /-- STD.D (R258) -/
  | stdD (rd : Reg) (rs : Reg) (dis : Dis)
  /-- STBS.A (R259) -/
  | stbsA (rs : Reg) (dis : Dis)
  /-- STBU.A (R259) -/
  | stbuA (rs : Reg) (dis : Dis)
  /-- STHU.A (R259) -/
  | sthuA (rs : Reg) (dis : Dis)
  /-- STHS.A (R259) -/
  | sthsA (rs : Reg) (dis : Dis)
  /-- STW.A (R259) -/
  | stwA (rs : Reg) (dis : Dis)
  /-- STD.A (R259) -/
  | stdA (rs : Reg) (dis : Dis)
  /-- STW.IOD (R252) -/
  | stwIOD (rd : Reg) (rs : Reg) (dis : Dis)
  /-- STD.IOD (R252) -/
  | stdIOD (rd : Reg) (rs : Reg) (dis : Dis)
  /-- STW.IOA (R253) -/
  | stwIOA (rs : Reg) (dis : Dis)
  /-- STD.IOA (R253) -/
  | stdIOA (rs : Reg) (dis : Dis)
  /-- STBS.N (R260) -/
  | stbsN (rd : Reg) (rs : Reg) (dis : Dis)
  /-- STBU.N (R260) -/
  | stbuN (rd : Reg) (rs : Reg) (dis : Dis)
  /-- STHU.N (R260) -/
  | sthuN (rd : Reg) (rs : Reg) (dis : Dis)
  /-- STHS.N (R260) -/
  | sthsN (rd : Reg) (rs : Reg) (dis : Dis)
  /-- STW.N (R260) -/
  | stwN (rd : Reg) (rs : Reg) (dis : Dis)
  /-- STD.N (R260) -/
  | stdN (rd : Reg) (rs : Reg) (dis : Dis)
  /-- STW.S (R261) -/
  | stwS (rd : Reg) (rs : Reg) (dis : Dis)
  /-- SHRI (R361) -/
  | shri (rd : Reg) (n : BitVec 5)
  /-- SARI (R357) -/
  | sari (rd : Reg) (n : BitVec 5)
  /-- SHLI (R353) -/
  | shli (rd : Reg) (n : BitVec 5)
  /-- MULU (R327) -/
  | mulu (rd : Reg) (rs : Reg)
  /-- MULS (R326) -/
  | muls (rd : Reg) (rs : Reg)
  /-- SETADR (R405) -/
  | setadr (rd : Reg)
  /-- SET1 (R408) -/
  | set1 (rd : Reg)
  /-- SET0 (R408) -/
  | set0 (rd : Reg)
  /-- SETLE (R409) -/
  | setle (rd : Reg)
  /-- SETGT (R409) -/
  | setgt (rd : Reg)
  /-- SETLT (R409) -/
  | setlt (rd : Reg)
  /-- SETGE (R409) -/
  | setge (rd : Reg)
  /-- SETSE (R410) -/
  | setse (rd : Reg)
  /-- SETHT (R410) -/
  | setht (rd : Reg)
  /-- SETST (R410) -/
  | setst (rd : Reg)
  /-- SETHE (R410) -/
  | sethe (rd : Reg)
  /-- SETE (R411) -/
  | sete (rd : Reg)
  /-- SETNE (R411) -/
  | setne (rd : Reg)
  /-- SETV (R411) -/
  | setv (rd : Reg)
  /-- SETNV (R411) -/
  | setnv (rd : Reg)
  /-- SET1M (R408) -/
  | set1m (rd : Reg)
  /-- SETLEM (R409) -/
  | setlem (rd : Reg)
  /-- SETGTM (R409) -/
  | setgtm (rd : Reg)
  /-- SETLTM (R409) -/
  | setltm (rd : Reg)
  /-- SETGEM (R409) -/
  | setgem (rd : Reg)
  /-- SETSEM (R410) -/
  | setsem (rd : Reg)
  /-- SETHTM (R410) -/
  | sethtm (rd : Reg)
  /-- SETSTM (R410) -/
  | setstm (rd : Reg)
  /-- SETHEM (R410) -/
  | sethem (rd : Reg)
  /-- SETEM (R411) -/
  | setem (rd : Reg)
  /-- SETNEM (R411) -/
  | setnem (rd : Reg)
  /-- SETVM (R411) -/
  | setvm (rd : Reg)
  /-- SETNVM (R411) -/
  | setnvm (rd : Reg)
  /-- FETCH (R412) -/
  | fetch (half : BitVec 4)
  /-- MUL (R325) -/
  | mul (rd : Reg) (rs : Reg)
  /-- FADD (R510) -/
  | fadd (ld : BitVec 4) (ls : BitVec 4)
  /-- FADDD (R511) -/
  | faddd (ld : BitVec 4) (ls : BitVec 4)
  /-- FSUB (R512) -/
  | fsub (ld : BitVec 4) (ls : BitVec 4)
  /-- FSUBD (R513) -/
  | fsubd (ld : BitVec 4) (ls : BitVec 4)
  /-- FMUL (R514) -/
  | fmul (ld : BitVec 4) (ls : BitVec 4)
  /-- FMULD (R515) -/
  | fmuld (ld : BitVec 4) (ls : BitVec 4)
  /-- FDIV (R516) -/
  | fdiv (ld : BitVec 4) (ls : BitVec 4)
  /-- FDIVD (R517) -/
  | fdivd (ld : BitVec 4) (ls : BitVec 4)
  /-- FCMP (R518) -/
  | fcmp (ld : BitVec 4) (ls : BitVec 4)
  /-- FCMPD (R519) -/
  | fcmpd (ld : BitVec 4) (ls : BitVec 4)
  /-- FCMPU (R522) -/
  | fcmpu (ld : BitVec 4) (ls : BitVec 4)
  /-- FCMPUD (R523) -/
  | fcmpud (ld : BitVec 4) (ls : BitVec 4)
  /-- FCVT (R520) -/
  | fcvt (ld : BitVec 4) (ls : BitVec 4)
  /-- FCVTD (R521) -/
  | fcvtd (ld : BitVec 4) (ls : BitVec 4)
  /-- EMUL (R474) -/
  | emul (ld : BitVec 4) (ls : BitVec 4)
  /-- EMULU (R475) -/
  | emulu (ld : BitVec 4) (ls : BitVec 4)
  /-- EMULS (R476) -/
  | emuls (ld : BitVec 4) (ls : BitVec 4)
  /-- EMAC (R477) -/
  | emac (ld : BitVec 4) (ls : BitVec 4)
  /-- EMACD (R478) -/
  | emacd (ld : BitVec 4) (ls : BitVec 4)
  /-- EMSUB (R479) -/
  | emsub (ld : BitVec 4) (ls : BitVec 4)
  /-- EMSUBD (R480) -/
  | emsubd (ld : BitVec 4) (ls : BitVec 4)
  /-- EHMAC (R482) -/
  | ehmac (ld : BitVec 4) (ls : BitVec 4)
  /-- EHMACD (R483) -/
  | ehmacd (ld : BitVec 4) (ls : BitVec 4)
  /-- EHCMULD (R484) -/
  | ehcmuld (ld : BitVec 4) (ls : BitVec 4)
  /-- EHCMACD (R485) -/
  | ehcmacd (ld : BitVec 4) (ls : BitVec 4)
  /-- EHCSUMD (R486) -/
  | ehcsumd (ld : BitVec 4) (ls : BitVec 4)
  /-- EHCFFTD (R487) -/
  | ehcfftd (ld : BitVec 4) (ls : BitVec 4)
  /-- DO (R503) -/
  | softDo (ld : BitVec 4) (ls : BitVec 4)
  /-- LDW.R (R240) -/
  | ldwR (ld : BitVec 4) (rs : Reg)
  /-- LDD.R (R241) -/
  | lddR (ld : BitVec 4) (rs : Reg)
  /-- LDW.P (R242) -/
  | ldwP (ld : BitVec 4) (rs : Reg)
  /-- LDD.P (R243) -/
  | lddP (ld : BitVec 4) (rs : Reg)
  /-- STW.R (R254) -/
  | stwR (ld : BitVec 4) (rs : Reg)
  /-- STD.R (R255) -/
  | stdR (ld : BitVec 4) (rs : Reg)
  /-- STW.P (R256) -/
  | stwP (ld : BitVec 4) (rs : Reg)
  /-- STD.P (R257) -/
  | stdP (ld : BitVec 4) (rs : Reg)
  /-- DBV (R653) -/
  | dbv (rel : Rel)
  /-- DBNV (R654) -/
  | dbnv (rel : Rel)
  /-- DBE (R655) -/
  | dbe (rel : Rel)
  /-- DBNE (R656) -/
  | dbne (rel : Rel)
  /-- DBST (R657) -/
  | dbst (rel : Rel)
  /-- DBHE (R658) -/
  | dbhe (rel : Rel)
  /-- DBSE (R659) -/
  | dbse (rel : Rel)
  /-- DBHT (R660) -/
  | dbht (rel : Rel)
  /-- DBLT (R661) -/
  | dblt (rel : Rel)
  /-- DBGE (R662) -/
  | dbge (rel : Rel)
  /-- DBLE (R663) -/
  | dble (rel : Rel)
  /-- DBGT (R664) -/
  | dbgt (rel : Rel)
  /-- DBR (R665) -/
  | dbr (rel : Rel)
  /-- FRAME (R440) -/
  | frame (ld : BitVec 4) (ls : BitVec 4)
  /-- CALL (R430) -/
  | call (ld : BitVec 4) (rs : Reg) (c : Const)
  /-- BV (R640) -/
  | bv (rel : Rel)
  /-- BNV (R641) -/
  | bnv (rel : Rel)
  /-- BE (R642) -/
  | be (rel : Rel)
  /-- BNE (R643) -/
  | bne (rel : Rel)
  /-- BST (R644) -/
  | bst (rel : Rel)
  /-- BHE (R645) -/
  | bhe (rel : Rel)
  /-- BSE (R646) -/
  | bse (rel : Rel)
  /-- BHT (R647) -/
  | bht (rel : Rel)
  /-- BLT (R648) -/
  | blt (rel : Rel)
  /-- BGE (R649) -/
  | bge (rel : Rel)
  /-- BLE (R650) -/
  | ble (rel : Rel)
  /-- BGT (R651) -/
  | bgt (rel : Rel)
  /-- BR (R652) -/
  | br (rel : Rel)
  /-- TRAPLE (R666) -/
  | traple (k : BitVec 6)
  /-- TRAPGT (R667) -/
  | trapgt (k : BitVec 6)
  /-- TRAPLT (R668) -/
  | traplt (k : BitVec 6)
  /-- TRAPGE (R669) -/
  | trapge (k : BitVec 6)
  /-- TRAPSE (R670) -/
  | trapse (k : BitVec 6)
  /-- TRAPHT (R671) -/
  | trapht (k : BitVec 6)
  /-- TRAPST (R672) -/
  | trapst (k : BitVec 6)
  /-- TRAPHE (R673) -/
  | traphe (k : BitVec 6)
  /-- TRAPE (R674) -/
  | trape (k : BitVec 6)
  /-- TRAPNE (R675) -/
  | trapne (k : BitVec 6)
  /-- TRAPV (R676) -/
  | trapv (k : BitVec 6)
  /-- TRAP (R677) -/
  | trap (k : BitVec 6)
  /-- RESERVED_8C_8D (R201) -/
  | reserved8C8D (operands : BitVec 9)
  /-- RESERVED_AC_AF (R201) -/
  | reservedACAF (operands : BitVec 10)
deriving DecidableEq, Repr

/-- The length of an instruction in halfwords (R196). -/
def Instr.length : Instr → Nat
  | .chk _ _ => 1
  | .chkz _ => 1
  | .nop => 1
  | .movd _ _ => 1
  | .ret _ => 1
  | .divu _ _ => 1
  | .divs _ _ => 1
  | .xm1 _ _ lim => lim.length
  | .xm2 _ _ lim => lim.length
  | .xm4 _ _ lim => lim.length
  | .xm8 _ _ lim => lim.length
  | .xx1 _ _ lim => lim.length
  | .xx2 _ _ lim => lim.length
  | .xx4 _ _ lim => lim.length
  | .xx8 _ _ lim => lim.length
  | .mask _ _ c => c.length
  | .sum _ _ c => c.length
  | .sums _ _ c => c.length
  | .cmp _ _ => 1
  | .mov _ _ => 1
  | .add _ _ => 1
  | .adds _ _ => 1
  | .cmpb _ _ => 1
  | .andn _ _ => 1
  | .or _ _ => 1
  | .xor _ _ => 1
  | .subc _ _ => 1
  | .not _ _ => 1
  | .sub _ _ => 1
  | .subs _ _ => 1
  | .addc _ _ => 1
  | .and _ _ => 1
  | .neg _ _ => 1
  | .negs _ _ => 1
  | .cmpi _ imm => imm.length
  | .movi _ imm => imm.length
  | .addi _ imm => imm.length
  | .addsi _ imm => imm.length
  | .cmpbi _ imm => imm.length
  | .andni _ imm => imm.length
  | .ori _ imm => imm.length
  | .xori _ imm => imm.length
  | .shrdi _ _ => 1
  | .shrd _ _ => 1
  | .shr _ _ => 1
  | .sardi _ _ => 1
  | .sard _ _ => 1
  | .sar _ _ => 1
  | .shldi _ _ => 1
  | .shld _ _ => 1
  | .shl _ _ => 1
  | .testlz _ _ => 1
  | .rol _ _ => 1
  | .ldbsD _ _ dis => dis.length
  | .ldbuD _ _ dis => dis.length
  | .ldhuD _ _ dis => dis.length
  | .ldhsD _ _ dis => dis.length
  | .ldwD _ _ dis => dis.length
  | .lddD _ _ dis => dis.length
  | .ldbsA _ dis => dis.length
  | .ldbuA _ dis => dis.length
  | .ldhuA _ dis => dis.length
  | .ldhsA _ dis => dis.length
  | .ldwA _ dis => dis.length
  | .lddA _ dis => dis.length
  | .ldwIOD _ _ dis => dis.length
  | .lddIOD _ _ dis => dis.length
  | .ldwIOA _ dis => dis.length
  | .lddIOA _ dis => dis.length
  | .ldbsN _ _ dis => dis.length
  | .ldbuN _ _ dis => dis.length
  | .ldhuN _ _ dis => dis.length
  | .ldhsN _ _ dis => dis.length
  | .ldwN _ _ dis => dis.length
  | .lddN _ _ dis => dis.length
  | .ldwS _ _ dis => dis.length
  | .stbsD _ _ dis => dis.length
  | .stbuD _ _ dis => dis.length
  | .sthuD _ _ dis => dis.length
  | .sthsD _ _ dis => dis.length
  | .stwD _ _ dis => dis.length
  | .stdD _ _ dis => dis.length
  | .stbsA _ dis => dis.length
  | .stbuA _ dis => dis.length
  | .sthuA _ dis => dis.length
  | .sthsA _ dis => dis.length
  | .stwA _ dis => dis.length
  | .stdA _ dis => dis.length
  | .stwIOD _ _ dis => dis.length
  | .stdIOD _ _ dis => dis.length
  | .stwIOA _ dis => dis.length
  | .stdIOA _ dis => dis.length
  | .stbsN _ _ dis => dis.length
  | .stbuN _ _ dis => dis.length
  | .sthuN _ _ dis => dis.length
  | .sthsN _ _ dis => dis.length
  | .stwN _ _ dis => dis.length
  | .stdN _ _ dis => dis.length
  | .stwS _ _ dis => dis.length
  | .shri _ _ => 1
  | .sari _ _ => 1
  | .shli _ _ => 1
  | .mulu _ _ => 1
  | .muls _ _ => 1
  | .setadr _ => 1
  | .set1 _ => 1
  | .set0 _ => 1
  | .setle _ => 1
  | .setgt _ => 1
  | .setlt _ => 1
  | .setge _ => 1
  | .setse _ => 1
  | .setht _ => 1
  | .setst _ => 1
  | .sethe _ => 1
  | .sete _ => 1
  | .setne _ => 1
  | .setv _ => 1
  | .setnv _ => 1
  | .set1m _ => 1
  | .setlem _ => 1
  | .setgtm _ => 1
  | .setltm _ => 1
  | .setgem _ => 1
  | .setsem _ => 1
  | .sethtm _ => 1
  | .setstm _ => 1
  | .sethem _ => 1
  | .setem _ => 1
  | .setnem _ => 1
  | .setvm _ => 1
  | .setnvm _ => 1
  | .fetch _ => 1
  | .mul _ _ => 1
  | .fadd _ _ => 1
  | .faddd _ _ => 1
  | .fsub _ _ => 1
  | .fsubd _ _ => 1
  | .fmul _ _ => 1
  | .fmuld _ _ => 1
  | .fdiv _ _ => 1
  | .fdivd _ _ => 1
  | .fcmp _ _ => 1
  | .fcmpd _ _ => 1
  | .fcmpu _ _ => 1
  | .fcmpud _ _ => 1
  | .fcvt _ _ => 1
  | .fcvtd _ _ => 1
  | .emul _ _ => 2
  | .emulu _ _ => 2
  | .emuls _ _ => 2
  | .emac _ _ => 2
  | .emacd _ _ => 2
  | .emsub _ _ => 2
  | .emsubd _ _ => 2
  | .ehmac _ _ => 2
  | .ehmacd _ _ => 2
  | .ehcmuld _ _ => 2
  | .ehcmacd _ _ => 2
  | .ehcsumd _ _ => 2
  | .ehcfftd _ _ => 2
  | .softDo _ _ => 1
  | .ldwR _ _ => 1
  | .lddR _ _ => 1
  | .ldwP _ _ => 1
  | .lddP _ _ => 1
  | .stwR _ _ => 1
  | .stdR _ _ => 1
  | .stwP _ _ => 1
  | .stdP _ _ => 1
  | .dbv rel => rel.length
  | .dbnv rel => rel.length
  | .dbe rel => rel.length
  | .dbne rel => rel.length
  | .dbst rel => rel.length
  | .dbhe rel => rel.length
  | .dbse rel => rel.length
  | .dbht rel => rel.length
  | .dblt rel => rel.length
  | .dbge rel => rel.length
  | .dble rel => rel.length
  | .dbgt rel => rel.length
  | .dbr rel => rel.length
  | .frame _ _ => 1
  | .call _ _ c => c.length
  | .bv rel => rel.length
  | .bnv rel => rel.length
  | .be rel => rel.length
  | .bne rel => rel.length
  | .bst rel => rel.length
  | .bhe rel => rel.length
  | .bse rel => rel.length
  | .bht rel => rel.length
  | .blt rel => rel.length
  | .bge rel => rel.length
  | .ble rel => rel.length
  | .bgt rel => rel.length
  | .br rel => rel.length
  | .traple _ => 1
  | .trapgt _ => 1
  | .traplt _ => 1
  | .trapge _ => 1
  | .trapse _ => 1
  | .trapht _ => 1
  | .trapst _ => 1
  | .traphe _ => 1
  | .trape _ => 1
  | .trapne _ => 1
  | .trapv _ => 1
  | .trap _ => 1
  | .reserved8C8D _ => 1
  | .reservedACAF _ => 1

end Sys2Proof
end

