-- ==== Sys2Proof/WellFormed.lean ====
section
/-! DEFINITION. Which terms of `Instr` are the reading of some encoding (spec/30_encoding.md R192, R197, R199,
R231; spec/40_memory_instructions.md R231). -/

namespace Sys2Proof

/-- n = 17, 18, 19 announce immediate halfwords, so they are no `code` (R192). -/
def Imm.wf : Imm → Bool
  | .code n => n != 17#5 && n != 18#5 && n != 19#5
  | _ => true

/-- A halfword displacement has bit 0 clear (R231: bit 0 of dis selects the type). -/
def Dis.wfHalf : Dis → Bool
  | .short v => v.extractLsb' 0 1 == 0#1
  | .long v => v.extractLsb' 0 1 == 0#1

/-- A word, double-word, I/O or stack displacement has bits 1..0 clear (R231). -/
def Dis.wfWord : Dis → Bool
  | .short v => v.extractLsb' 0 2 == 0#2
  | .long v => v.extractLsb' 0 2 == 0#2

/-- The register field denotes the SR: bank bit 0, code 1 (R197). -/
def Reg.isSR (r : Reg) : Bool := r == .glob 1#4

/-- The register field denotes the PC: bank bit 0, code 0 (R197). -/
def Reg.isPC (r : Reg) : Bool := r == .glob 0#4

/-- The instruction is the reading of one of its encodings: no field takes a value that selects another row (R199). -/
def Instr.wf : Instr → Bool
  | .chk rd rs => !rs.isSR && !(rd == .loc 0#4 && rs == .loc 0#4)
  | .chkz _ => true
  | .nop => true
  | .movd rd _ => !rd.isPC
  | .ret _ => true
  | .divu _ _ => true
  | .divs _ _ => true
  | .xm1 _ _ _ => true
  | .xm2 _ _ _ => true
  | .xm4 _ _ _ => true
  | .xm8 _ _ _ => true
  | .xx1 _ _ _ => true
  | .xx2 _ _ _ => true
  | .xx4 _ _ _ => true
  | .xx8 _ _ _ => true
  | .mask _ _ _ => true
  | .sum _ _ _ => true
  | .sums _ _ _ => true
  | .cmp _ _ => true
  | .mov _ _ => true
  | .add _ _ => true
  | .adds _ _ => true
  | .cmpb _ _ => true
  | .andn _ _ => true
  | .or _ _ => true
  | .xor _ _ => true
  | .subc _ _ => true
  | .not _ _ => true
  | .sub _ _ => true
  | .subs _ _ => true
  | .addc _ _ => true
  | .and _ _ => true
  | .neg _ _ => true
  | .negs _ _ => true
  | .cmpi _ imm => imm.wf
  | .movi _ imm => imm.wf
  | .addi _ imm => imm.wf
  | .addsi _ imm => imm.wf
  | .cmpbi _ imm => imm.wf
  | .andni _ imm => imm.wf
  | .ori _ imm => imm.wf
  | .xori _ imm => imm.wf
  | .shrdi _ _ => true
  | .shrd _ _ => true
  | .shr _ _ => true
  | .sardi _ _ => true
  | .sard _ _ => true
  | .sar _ _ => true
  | .shldi _ _ => true
  | .shld _ _ => true
  | .shl _ _ => true
  | .testlz _ _ => true
  | .rol _ _ => true
  | .ldbsD rd _ _ => !rd.isSR
  | .ldbuD rd _ _ => !rd.isSR
  | .ldhuD rd _ dis => !rd.isSR && dis.wfHalf
  | .ldhsD rd _ dis => !rd.isSR && dis.wfHalf
  | .ldwD rd _ dis => !rd.isSR && dis.wfWord
  | .lddD rd _ dis => !rd.isSR && dis.wfWord
  | .ldbsA _ _ => true
  | .ldbuA _ _ => true
  | .ldhuA _ dis => dis.wfHalf
  | .ldhsA _ dis => dis.wfHalf
  | .ldwA _ dis => dis.wfWord
  | .lddA _ dis => dis.wfWord
  | .ldwIOD rd _ dis => !rd.isSR && dis.wfWord
  | .lddIOD rd _ dis => !rd.isSR && dis.wfWord
  | .ldwIOA _ dis => dis.wfWord
  | .lddIOA _ dis => dis.wfWord
  | .ldbsN _ _ _ => true
  | .ldbuN _ _ _ => true
  | .ldhuN _ _ dis => dis.wfHalf
  | .ldhsN _ _ dis => dis.wfHalf
  | .ldwN _ _ dis => dis.wfWord
  | .lddN _ _ dis => dis.wfWord
  | .ldwS _ _ dis => dis.wfWord
  | .stbsD rd _ _ => !rd.isSR
  | .stbuD rd _ _ => !rd.isSR
  | .sthuD rd _ dis => !rd.isSR && dis.wfHalf
  | .sthsD rd _ dis => !rd.isSR && dis.wfHalf
  | .stwD rd _ dis => !rd.isSR && dis.wfWord
  | .stdD rd _ dis => !rd.isSR && dis.wfWord
  | .stbsA _ _ => true
  | .stbuA _ _ => true
  | .sthuA _ dis => dis.wfHalf
  | .sthsA _ dis => dis.wfHalf
  | .stwA _ dis => dis.wfWord
  | .stdA _ dis => dis.wfWord
  | .stwIOD rd _ dis => !rd.isSR && dis.wfWord
  | .stdIOD rd _ dis => !rd.isSR && dis.wfWord
  | .stwIOA _ dis => dis.wfWord
  | .stdIOA _ dis => dis.wfWord
  | .stbsN _ _ _ => true
  | .stbuN _ _ _ => true
  | .sthuN _ _ dis => dis.wfHalf
  | .sthsN _ _ dis => dis.wfHalf
  | .stwN _ _ dis => dis.wfWord
  | .stdN _ _ dis => dis.wfWord
  | .stwS _ _ dis => dis.wfWord
  | .shri _ _ => true
  | .sari _ _ => true
  | .shli _ _ => true
  | .mulu _ _ => true
  | .muls _ _ => true
  | .setadr rd => !rd.isSR
  | .set1 rd => !rd.isSR
  | .set0 rd => !rd.isSR
  | .setle rd => !rd.isSR
  | .setgt rd => !rd.isSR
  | .setlt rd => !rd.isSR
  | .setge rd => !rd.isSR
  | .setse rd => !rd.isSR
  | .setht rd => !rd.isSR
  | .setst rd => !rd.isSR
  | .sethe rd => !rd.isSR
  | .sete rd => !rd.isSR
  | .setne rd => !rd.isSR
  | .setv rd => !rd.isSR
  | .setnv rd => !rd.isSR
  | .set1m rd => !rd.isSR
  | .setlem rd => !rd.isSR
  | .setgtm rd => !rd.isSR
  | .setltm rd => !rd.isSR
  | .setgem rd => !rd.isSR
  | .setsem rd => !rd.isSR
  | .sethtm rd => !rd.isSR
  | .setstm rd => !rd.isSR
  | .sethem rd => !rd.isSR
  | .setem rd => !rd.isSR
  | .setnem rd => !rd.isSR
  | .setvm rd => !rd.isSR
  | .setnvm rd => !rd.isSR
  | .fetch _ => true
  | .mul _ _ => true
  | .fadd _ _ => true
  | .faddd _ _ => true
  | .fsub _ _ => true
  | .fsubd _ _ => true
  | .fmul _ _ => true
  | .fmuld _ _ => true
  | .fdiv _ _ => true
  | .fdivd _ _ => true
  | .fcmp _ _ => true
  | .fcmpd _ _ => true
  | .fcmpu _ _ => true
  | .fcmpud _ _ => true
  | .fcvt _ _ => true
  | .fcvtd _ _ => true
  | .emul _ _ => true
  | .emulu _ _ => true
  | .emuls _ _ => true
  | .emac _ _ => true
  | .emacd _ _ => true
  | .emsub _ _ => true
  | .emsubd _ _ => true
  | .ehmac _ _ => true
  | .ehmacd _ _ => true
  | .ehcmuld _ _ => true
  | .ehcmacd _ _ => true
  | .ehcsumd _ _ => true
  | .ehcfftd _ _ => true
  | .softDo _ _ => true
  | .ldwR _ _ => true
  | .lddR _ _ => true
  | .ldwP _ _ => true
  | .lddP _ _ => true
  | .stwR _ _ => true
  | .stdR _ _ => true
  | .stwP _ _ => true
  | .stdP _ _ => true
  | .dbv _ => true
  | .dbnv _ => true
  | .dbe _ => true
  | .dbne _ => true
  | .dbst _ => true
  | .dbhe _ => true
  | .dbse _ => true
  | .dbht _ => true
  | .dblt _ => true
  | .dbge _ => true
  | .dble _ => true
  | .dbgt _ => true
  | .dbr _ => true
  | .frame _ _ => true
  | .call _ _ _ => true
  | .bv _ => true
  | .bnv _ => true
  | .be _ => true
  | .bne _ => true
  | .bst _ => true
  | .bhe _ => true
  | .bse _ => true
  | .bht _ => true
  | .blt _ => true
  | .bge _ => true
  | .ble _ => true
  | .bgt _ => true
  | .br _ => true
  | .traple _ => true
  | .trapgt _ => true
  | .traplt _ => true
  | .trapge _ => true
  | .trapse _ => true
  | .trapht _ => true
  | .trapst _ => true
  | .traphe _ => true
  | .trape _ => true
  | .trapne _ => true
  | .trapv _ => true
  | .trap _ => true
  | .reserved8C8D _ => true
  | .reservedACAF _ => true

end Sys2Proof
end

