-- ==== Sys2Proof/Decode.lean ====
section
/-! DEFINITION. The decoder, total on any three halfwords and on any bytes, rejecting by name, and the encoder
(spec/30_encoding.md R181 to R202, spec/40_memory_instructions.md R231; the opcode numbers are the spec's table, of which
the rows marked GK are its own outside knowledge, I1: PRESUMED, notes/assumptions/1.md). -/

namespace Sys2Proof

/-- Why no instruction can be read (R201; the spec's model refuses these, D10). -/
inductive DecodeError where
  /-- opcode CE with a second halfword outside Table 2.5 (R200): refused, safe -/
  | unknownExtend (hw2 : BitVec 16)
  /-- .N/.S opcode with DD = 3 and dis(1..0) = 10, "Reserved" (R231): refused, safe -/
  | reservedSelector
  /-- SETxx with n = 1, 16, 17 or 19, "reserved" (R404): refused, safe -/
  | reservedSet (n : BitVec 5)
  /-- FETCH with n odd, "bit 0 of n must be zero" (R412): refused, safe -/
  | oddFetch (n : BitVec 5)
  /-- fewer bytes than the instruction is long: refused, safe -/
  | truncated
deriving DecidableEq, Repr

/-- An operand register from its bank bit and its code (R184, R197). -/
def regOf (bank : BitVec 1) (code : BitVec 4) : Reg :=
  if bank = 1#1 then .loc code else .glob code

/-- Rd of formats RR, RRconst, RRdis, RRlim, Rn, Rimm: d = hw1(9), code = hw1(7..4) (R184). -/
def rdOf (h1 : Half) : Reg := regOf (h1.extractLsb' 9 1) (h1.extractLsb' 4 4)

/-- Rs of formats RR, RRconst, RRdis, RRlim, LR, LRconst: s = hw1(8), code = hw1(3..0) (R183, R184). -/
def rsOf (h1 : Half) : Reg := regOf (h1.extractLsb' 8 1) (h1.extractLsb' 0 4)

/-- Ld-code hw1(7..4) (R181). -/
def ldOf (h1 : Half) : BitVec 4 := h1.extractLsb' 4 4

/-- Ls-code hw1(3..0) (R181). -/
def lsOf (h1 : Half) : BitVec 4 := h1.extractLsb' 0 4

/-- n = hw1(8)//hw1(3..0) (R185, R186). -/
def nOf (h1 : Half) : BitVec 5 := h1.extractLsb' 8 1 ++ h1.extractLsb' 0 4

/-- The immediate of format Rimm (R192). -/
def immOf (h1 h2 h3 : Half) : Imm :=
  if nOf h1 = 17#5 then .word (h2 ++ h3)
  else if nOf h1 = 18#5 then .low h2
  else if nOf h1 = 19#5 then .ones h2
  else .code (nOf h1)

/-- The constant of formats LRconst and RRconst: e = hw2(15), S//const1 = hw2(14..0), const2 = hw3 (R189). -/
def constOf (h2 h3 : Half) : Const :=
  if h2.extractLsb' 15 1 = 1#1 then .long (h2.extractLsb' 0 15 ++ h3) else .short (h2.extractLsb' 0 15)

/-- The displacement field of format RRdis as it stands: S = hw2(14), dis1 = hw2(11..0), dis2 = hw3 (R191). -/
def disOf (h2 h3 : Half) : Dis :=
  if h2.extractLsb' 15 1 = 1#1 then .long (h2.extractLsb' 14 1 ++ h2.extractLsb' 0 12 ++ h3)
  else .short (h2.extractLsb' 14 1 ++ h2.extractLsb' 0 12)

/-- dis(1..0), the type selector (R231). -/
def Dis.low : Dis → BitVec 2
  | .short v => v.extractLsb' 0 2
  | .long v => v.extractLsb' 0 2

/-- dis with bit 0 replaced (R231: "bit zero of dis is treated as zero"; the encoder puts the selector back). -/
def Dis.setBit0 (b : BitVec 1) : Dis → Dis
  | .short v => .short (v.extractLsb' 1 12 ++ b)
  | .long v => .long (v.extractLsb' 1 28 ++ b)

/-- dis with bits 1..0 replaced (R231). -/
def Dis.setLow (b : BitVec 2) : Dis → Dis
  | .short v => .short (v.extractLsb' 2 11 ++ b)
  | .long v => .long (v.extractLsb' 2 27 ++ b)

/-- The limit of format RRlim (R193). -/
def limOf (h2 h3 : Half) : Lim :=
  if h2.extractLsb' 15 1 = 1#1 then .long (h2.extractLsb' 0 12 ++ h3) else .short (h2.extractLsb' 0 12)

/-- rel of format PCrel, in halfwords (R188): the sign is the last bit of the last halfword. -/
def relOf (h1 h2 : Half) : Rel :=
  if h1.extractLsb' 7 1 = 1#1 then .long (h2.extractLsb' 0 1 ++ h1.extractLsb' 0 7 ++ h2.extractLsb' 1 15)
  else .short (h1.extractLsb' 0 1 ++ h1.extractLsb' 1 6)

/-- Opcodes 00..03 (R199 (a)). -/
def decodeCheck (h1 : Half) : Instr :=
  if h1 = 0x0300#16 then .nop
  else if (rsOf h1).isSR then .chkz (rdOf h1)
  else .chk (rdOf h1) (rsOf h1)

/-- Opcodes 04..07 (R199 (b)). -/
def decodeMovd (h1 : Half) : Instr :=
  if (rdOf h1).isPC then .ret (rsOf h1) else .movd (rdOf h1) (rsOf h1)

/-- Opcodes 10..13: the X-code hw2(14..12) (R199 (c)). -/
def decodeIndex (h1 h2 h3 : Half) : Instr :=
  match (h2.extractLsb' 12 3).toNat with
  | 0 => .xm1 (rdOf h1) (rsOf h1) (limOf h2 h3)
  | 1 => .xm2 (rdOf h1) (rsOf h1) (limOf h2 h3)
  | 2 => .xm4 (rdOf h1) (rsOf h1) (limOf h2 h3)
  | 3 => .xm8 (rdOf h1) (rsOf h1) (limOf h2 h3)
  | 4 => .xx1 (rdOf h1) (rsOf h1) (limOf h2 h3)
  | 5 => .xx2 (rdOf h1) (rsOf h1) (limOf h2 h3)
  | 6 => .xx4 (rdOf h1) (rsOf h1) (limOf h2 h3)
  | _ => .xx8 (rdOf h1) (rsOf h1) (limOf h2 h3)

/-- Opcodes 90..93: Table 3.1, address mode by "Rd denotes the SR", data type by DD and dis(1..0) (R231). -/
def decodeLoad (h1 h2 h3 : Half) : Instr :=
  let dis := disOf h2 h3
  let rd := rdOf h1
  let rs := rsOf h1
  match (h2.extractLsb' 12 2).toNat with
  | 0 => if rd.isSR then .ldbsA rs dis else .ldbsD rd rs dis
  | 1 => if rd.isSR then .ldbuA rs dis else .ldbuD rd rs dis
  | 2 =>
    if dis.low.extractLsb' 0 1 = 0#1 then
      if rd.isSR then .ldhuA rs (dis.setBit0 0#1) else .ldhuD rd rs (dis.setBit0 0#1)
    else if rd.isSR then .ldhsA rs (dis.setBit0 0#1) else .ldhsD rd rs (dis.setBit0 0#1)
  | _ =>
    match dis.low.toNat with
    | 0 => if rd.isSR then .ldwA rs (dis.setLow 0#2) else .ldwD rd rs (dis.setLow 0#2)
    | 1 => if rd.isSR then .lddA rs (dis.setLow 0#2) else .lddD rd rs (dis.setLow 0#2)
    | 2 => if rd.isSR then .ldwIOA rs (dis.setLow 0#2) else .ldwIOD rd rs (dis.setLow 0#2)
    | _ => if rd.isSR then .lddIOA rs (dis.setLow 0#2) else .lddIOD rd rs (dis.setLow 0#2)

/-- Opcodes 94..97: Table 3.2, next and stack address modes (R231). -/
def decodeLoadNext (h1 h2 h3 : Half) : Except DecodeError Instr :=
  let dis := disOf h2 h3
  let rd := rdOf h1
  let rs := rsOf h1
  match (h2.extractLsb' 12 2).toNat with
  | 0 => .ok (.ldbsN rd rs dis)
  | 1 => .ok (.ldbuN rd rs dis)
  | 2 =>
    if dis.low.extractLsb' 0 1 = 0#1 then .ok (.ldhuN rd rs (dis.setBit0 0#1))
    else .ok (.ldhsN rd rs (dis.setBit0 0#1))
  | _ =>
    match dis.low.toNat with
    | 0 => .ok (.ldwN rd rs (dis.setLow 0#2))
    | 1 => .ok (.lddN rd rs (dis.setLow 0#2))
    | 2 => .error .reservedSelector
    | _ => .ok (.ldwS rd rs (dis.setLow 0#2))

/-- Opcodes 98..9B: Table 3.1, address mode by "Rd denotes the SR", data type by DD and dis(1..0) (R231). -/
def decodeStore (h1 h2 h3 : Half) : Instr :=
  let dis := disOf h2 h3
  let rd := rdOf h1
  let rs := rsOf h1
  match (h2.extractLsb' 12 2).toNat with
  | 0 => if rd.isSR then .stbsA rs dis else .stbsD rd rs dis
  | 1 => if rd.isSR then .stbuA rs dis else .stbuD rd rs dis
  | 2 =>
    if dis.low.extractLsb' 0 1 = 0#1 then
      if rd.isSR then .sthuA rs (dis.setBit0 0#1) else .sthuD rd rs (dis.setBit0 0#1)
    else if rd.isSR then .sthsA rs (dis.setBit0 0#1) else .sthsD rd rs (dis.setBit0 0#1)
  | _ =>
    match dis.low.toNat with
    | 0 => if rd.isSR then .stwA rs (dis.setLow 0#2) else .stwD rd rs (dis.setLow 0#2)
    | 1 => if rd.isSR then .stdA rs (dis.setLow 0#2) else .stdD rd rs (dis.setLow 0#2)
    | 2 => if rd.isSR then .stwIOA rs (dis.setLow 0#2) else .stwIOD rd rs (dis.setLow 0#2)
    | _ => if rd.isSR then .stdIOA rs (dis.setLow 0#2) else .stdIOD rd rs (dis.setLow 0#2)

/-- Opcodes 9C..9F: Table 3.2, next and stack address modes (R231). -/
def decodeStoreNext (h1 h2 h3 : Half) : Except DecodeError Instr :=
  let dis := disOf h2 h3
  let rd := rdOf h1
  let rs := rsOf h1
  match (h2.extractLsb' 12 2).toNat with
  | 0 => .ok (.stbsN rd rs dis)
  | 1 => .ok (.stbuN rd rs dis)
  | 2 =>
    if dis.low.extractLsb' 0 1 = 0#1 then .ok (.sthuN rd rs (dis.setBit0 0#1))
    else .ok (.sthsN rd rs (dis.setBit0 0#1))
  | _ =>
    match dis.low.toNat with
    | 0 => .ok (.stwN rd rs (dis.setLow 0#2))
    | 1 => .ok (.stdN rd rs (dis.setLow 0#2))
    | 2 => .error .reservedSelector
    | _ => .ok (.stwS rd rs (dis.setLow 0#2))

/-- Opcodes B8..BB: FETCH when Rd denotes the SR, else SETADR or SETxx by n (R199 (e), R404 to R412). -/
def decodeSet (h1 : Half) : Except DecodeError Instr :=
  let rd := rdOf h1
  let n := nOf h1
  if rd.isSR then
    if n.extractLsb' 0 1 = 0#1 then .ok (.fetch (n.extractLsb' 1 4)) else .error (.oddFetch n)
  else
    match n.toNat with
    | 0 => .ok (.setadr rd)
    | 2 => .ok (.set1 rd)
    | 3 => .ok (.set0 rd)
    | 4 => .ok (.setle rd)
    | 5 => .ok (.setgt rd)
    | 6 => .ok (.setlt rd)
    | 7 => .ok (.setge rd)
    | 8 => .ok (.setse rd)
    | 9 => .ok (.setht rd)
    | 10 => .ok (.setst rd)
    | 11 => .ok (.sethe rd)
    | 12 => .ok (.sete rd)
    | 13 => .ok (.setne rd)
    | 14 => .ok (.setv rd)
    | 15 => .ok (.setnv rd)
    | 18 => .ok (.set1m rd)
    | 20 => .ok (.setlem rd)
    | 21 => .ok (.setgtm rd)
    | 22 => .ok (.setltm rd)
    | 23 => .ok (.setgem rd)
    | 24 => .ok (.setsem rd)
    | 25 => .ok (.sethtm rd)
    | 26 => .ok (.setstm rd)
    | 27 => .ok (.sethem rd)
    | 28 => .ok (.setem rd)
    | 29 => .ok (.setnem rd)
    | 30 => .ok (.setvm rd)
    | 31 => .ok (.setnvm rd)
    | _ => .error (.reservedSet n)

/-- Opcode CE: the OP-code extension hw2 (R200). -/
def decodeExtend (h1 h2 : Half) : Except DecodeError Instr :=
  match h2.toNat with
  | 0x0100 => .ok (.emul (ldOf h1) (lsOf h1))
  | 0x0104 => .ok (.emulu (ldOf h1) (lsOf h1))
  | 0x0106 => .ok (.emuls (ldOf h1) (lsOf h1))
  | 0x010a => .ok (.emac (ldOf h1) (lsOf h1))
  | 0x010e => .ok (.emacd (ldOf h1) (lsOf h1))
  | 0x011a => .ok (.emsub (ldOf h1) (lsOf h1))
  | 0x011e => .ok (.emsubd (ldOf h1) (lsOf h1))
  | 0x002a => .ok (.ehmac (ldOf h1) (lsOf h1))
  | 0x002e => .ok (.ehmacd (ldOf h1) (lsOf h1))
  | 0x0046 => .ok (.ehcmuld (ldOf h1) (lsOf h1))
  | 0x004e => .ok (.ehcmacd (ldOf h1) (lsOf h1))
  | 0x0086 => .ok (.ehcsumd (ldOf h1) (lsOf h1))
  | 0x0096 => .ok (.ehcfftd (ldOf h1) (lsOf h1))
  | _ => .error (.unknownExtend h2)

/-- Opcodes FD..FF: condition hw1(9..8)//hw1(1..0), entry number hw1(7..2) (R187, R199 (g)). -/
def decodeTrap (h1 : Half) : Instr :=
  match (h1.extractLsb' 8 2 ++ h1.extractLsb' 0 2).toNat with
  | 4 => .traple (h1.extractLsb' 2 6)
  | 5 => .trapgt (h1.extractLsb' 2 6)
  | 6 => .traplt (h1.extractLsb' 2 6)
  | 7 => .trapge (h1.extractLsb' 2 6)
  | 8 => .trapse (h1.extractLsb' 2 6)
  | 9 => .trapht (h1.extractLsb' 2 6)
  | 10 => .trapst (h1.extractLsb' 2 6)
  | 11 => .traphe (h1.extractLsb' 2 6)
  | 12 => .trape (h1.extractLsb' 2 6)
  | 13 => .trapne (h1.extractLsb' 2 6)
  | 14 => .trapv (h1.extractLsb' 2 6)
  | _ => .trap (h1.extractLsb' 2 6)

/-- The instruction whose first halfword is `h1`, followed in memory by `h2` and `h3` (R198, Table 2.4): which operand
halfwords are used is `Instr.length` of the answer. -/
def decode (h1 h2 h3 : Half) : Except DecodeError Instr :=
  match (h1.extractLsb' 10 6).toNat with
  | 0 => .ok (decodeCheck h1)
  | 1 => .ok (decodeMovd h1)
  | 2 => .ok (.divu (rdOf h1) (rsOf h1))
  | 3 => .ok (.divs (rdOf h1) (rsOf h1))
  | 4 => .ok (decodeIndex h1 h2 h3)
  | 5 => .ok (.mask (rdOf h1) (rsOf h1) (constOf h2 h3))
  | 6 => .ok (.sum (rdOf h1) (rsOf h1) (constOf h2 h3))
  | 7 => .ok (.sums (rdOf h1) (rsOf h1) (constOf h2 h3))
  | 8 => .ok (.cmp (rdOf h1) (rsOf h1))
  | 9 => .ok (.mov (rdOf h1) (rsOf h1))
  | 10 => .ok (.add (rdOf h1) (rsOf h1))
  | 11 => .ok (.adds (rdOf h1) (rsOf h1))
  | 12 => .ok (.cmpb (rdOf h1) (rsOf h1))
  | 13 => .ok (.andn (rdOf h1) (rsOf h1))
  | 14 => .ok (.or (rdOf h1) (rsOf h1))
  | 15 => .ok (.xor (rdOf h1) (rsOf h1))
  | 16 => .ok (.subc (rdOf h1) (rsOf h1))
  | 17 => .ok (.not (rdOf h1) (rsOf h1))
  | 18 => .ok (.sub (rdOf h1) (rsOf h1))
  | 19 => .ok (.subs (rdOf h1) (rsOf h1))
  | 20 => .ok (.addc (rdOf h1) (rsOf h1))
  | 21 => .ok (.and (rdOf h1) (rsOf h1))
  | 22 => .ok (.neg (rdOf h1) (rsOf h1))
  | 23 => .ok (.negs (rdOf h1) (rsOf h1))
  | 24 => .ok (.cmpi (rdOf h1) (immOf h1 h2 h3))
  | 25 => .ok (.movi (rdOf h1) (immOf h1 h2 h3))
  | 26 => .ok (.addi (rdOf h1) (immOf h1 h2 h3))
  | 27 => .ok (.addsi (rdOf h1) (immOf h1 h2 h3))
  | 28 => .ok (.cmpbi (rdOf h1) (immOf h1 h2 h3))
  | 29 => .ok (.andni (rdOf h1) (immOf h1 h2 h3))
  | 30 => .ok (.ori (rdOf h1) (immOf h1 h2 h3))
  | 31 => .ok (.xori (rdOf h1) (immOf h1 h2 h3))
  | 32 =>
    match (h1.extractLsb' 8 2).toNat with
    | 0 => .ok (.shrdi (ldOf h1) (nOf h1))
    | 1 => .ok (.shrdi (ldOf h1) (nOf h1))
    | 2 => .ok (.shrd (ldOf h1) (lsOf h1))
    | _ => .ok (.shr (ldOf h1) (lsOf h1))
  | 33 =>
    match (h1.extractLsb' 8 2).toNat with
    | 0 => .ok (.sardi (ldOf h1) (nOf h1))
    | 1 => .ok (.sardi (ldOf h1) (nOf h1))
    | 2 => .ok (.sard (ldOf h1) (lsOf h1))
    | _ => .ok (.sar (ldOf h1) (lsOf h1))
  | 34 =>
    match (h1.extractLsb' 8 2).toNat with
    | 0 => .ok (.shldi (ldOf h1) (nOf h1))
    | 1 => .ok (.shldi (ldOf h1) (nOf h1))
    | 2 => .ok (.shld (ldOf h1) (lsOf h1))
    | _ => .ok (.shl (ldOf h1) (lsOf h1))
  | 35 =>
    match (h1.extractLsb' 8 2).toNat with
    | 0 => .ok (.reserved8C8D (h1.extractLsb' 0 9))
    | 1 => .ok (.reserved8C8D (h1.extractLsb' 0 9))
    | 2 => .ok (.testlz (ldOf h1) (lsOf h1))
    | _ => .ok (.rol (ldOf h1) (lsOf h1))
  | 36 => .ok (decodeLoad h1 h2 h3)
  | 37 => decodeLoadNext h1 h2 h3
  | 38 => .ok (decodeStore h1 h2 h3)
  | 39 => decodeStoreNext h1 h2 h3
  | 40 => .ok (.shri (rdOf h1) (nOf h1))
  | 41 => .ok (.sari (rdOf h1) (nOf h1))
  | 42 => .ok (.shli (rdOf h1) (nOf h1))
  | 43 => .ok (.reservedACAF (h1.extractLsb' 0 10))
  | 44 => .ok (.mulu (rdOf h1) (rsOf h1))
  | 45 => .ok (.muls (rdOf h1) (rsOf h1))
  | 46 => decodeSet h1
  | 47 => .ok (.mul (rdOf h1) (rsOf h1))
  | 48 =>
    match (h1.extractLsb' 8 2).toNat with
    | 0 => .ok (.fadd (ldOf h1) (lsOf h1))
    | 1 => .ok (.faddd (ldOf h1) (lsOf h1))
    | 2 => .ok (.fsub (ldOf h1) (lsOf h1))
    | _ => .ok (.fsubd (ldOf h1) (lsOf h1))
  | 49 =>
    match (h1.extractLsb' 8 2).toNat with
    | 0 => .ok (.fmul (ldOf h1) (lsOf h1))
    | 1 => .ok (.fmuld (ldOf h1) (lsOf h1))
    | 2 => .ok (.fdiv (ldOf h1) (lsOf h1))
    | _ => .ok (.fdivd (ldOf h1) (lsOf h1))
  | 50 =>
    match (h1.extractLsb' 8 2).toNat with
    | 0 => .ok (.fcmp (ldOf h1) (lsOf h1))
    | 1 => .ok (.fcmpd (ldOf h1) (lsOf h1))
    | 2 => .ok (.fcmpu (ldOf h1) (lsOf h1))
    | _ => .ok (.fcmpud (ldOf h1) (lsOf h1))
  | 51 =>
    match (h1.extractLsb' 8 2).toNat with
    | 0 => .ok (.fcvt (ldOf h1) (lsOf h1))
    | 1 => .ok (.fcvtd (ldOf h1) (lsOf h1))
    | 2 => decodeExtend h1 h2
    | _ => .ok (.softDo (ldOf h1) (lsOf h1))
  | 52 =>
    match (h1.extractLsb' 8 2).toNat with
    | 0 => .ok (.ldwR (ldOf h1) (rsOf h1))
    | 1 => .ok (.ldwR (ldOf h1) (rsOf h1))
    | 2 => .ok (.lddR (ldOf h1) (rsOf h1))
    | _ => .ok (.lddR (ldOf h1) (rsOf h1))
  | 53 =>
    match (h1.extractLsb' 8 2).toNat with
    | 0 => .ok (.ldwP (ldOf h1) (rsOf h1))
    | 1 => .ok (.ldwP (ldOf h1) (rsOf h1))
    | 2 => .ok (.lddP (ldOf h1) (rsOf h1))
    | _ => .ok (.lddP (ldOf h1) (rsOf h1))
  | 54 =>
    match (h1.extractLsb' 8 2).toNat with
    | 0 => .ok (.stwR (ldOf h1) (rsOf h1))
    | 1 => .ok (.stwR (ldOf h1) (rsOf h1))
    | 2 => .ok (.stdR (ldOf h1) (rsOf h1))
    | _ => .ok (.stdR (ldOf h1) (rsOf h1))
  | 55 =>
    match (h1.extractLsb' 8 2).toNat with
    | 0 => .ok (.stwP (ldOf h1) (rsOf h1))
    | 1 => .ok (.stwP (ldOf h1) (rsOf h1))
    | 2 => .ok (.stdP (ldOf h1) (rsOf h1))
    | _ => .ok (.stdP (ldOf h1) (rsOf h1))
  | 56 =>
    match (h1.extractLsb' 8 2).toNat with
    | 0 => .ok (.dbv (relOf h1 h2))
    | 1 => .ok (.dbnv (relOf h1 h2))
    | 2 => .ok (.dbe (relOf h1 h2))
    | _ => .ok (.dbne (relOf h1 h2))
  | 57 =>
    match (h1.extractLsb' 8 2).toNat with
    | 0 => .ok (.dbst (relOf h1 h2))
    | 1 => .ok (.dbhe (relOf h1 h2))
    | 2 => .ok (.dbse (relOf h1 h2))
    | _ => .ok (.dbht (relOf h1 h2))
  | 58 =>
    match (h1.extractLsb' 8 2).toNat with
    | 0 => .ok (.dblt (relOf h1 h2))
    | 1 => .ok (.dbge (relOf h1 h2))
    | 2 => .ok (.dble (relOf h1 h2))
    | _ => .ok (.dbgt (relOf h1 h2))
  | 59 =>
    match (h1.extractLsb' 8 2).toNat with
    | 0 => .ok (.dbr (relOf h1 h2))
    | 1 => .ok (.frame (ldOf h1) (lsOf h1))
    | 2 => .ok (.call (ldOf h1) (rsOf h1) (constOf h2 h3))
    | _ => .ok (.call (ldOf h1) (rsOf h1) (constOf h2 h3))
  | 60 =>
    match (h1.extractLsb' 8 2).toNat with
    | 0 => .ok (.bv (relOf h1 h2))
    | 1 => .ok (.bnv (relOf h1 h2))
    | 2 => .ok (.be (relOf h1 h2))
    | _ => .ok (.bne (relOf h1 h2))
  | 61 =>
    match (h1.extractLsb' 8 2).toNat with
    | 0 => .ok (.bst (relOf h1 h2))
    | 1 => .ok (.bhe (relOf h1 h2))
    | 2 => .ok (.bse (relOf h1 h2))
    | _ => .ok (.bht (relOf h1 h2))
  | 62 =>
    match (h1.extractLsb' 8 2).toNat with
    | 0 => .ok (.blt (relOf h1 h2))
    | 1 => .ok (.bge (relOf h1 h2))
    | 2 => .ok (.ble (relOf h1 h2))
    | _ => .ok (.bgt (relOf h1 h2))
  | _ =>
    match (h1.extractLsb' 8 2).toNat with
    | 0 => .ok (.br (relOf h1 h2))
    | 1 => .ok (decodeTrap h1)
    | 2 => .ok (decodeTrap h1)
    | _ => .ok (decodeTrap h1)

/-- The halfword whose high-order byte is `b0` (R103: big endian). -/
def halfOfBytes (b0 b1 : Byte) : Half := b0 ++ b1

/-- The two bytes of a halfword in the order of their addresses (R103). -/
def bytesOfHalf (h : Half) : List Byte := [h.extractLsb' 8 8, h.extractLsb' 0 8]

/-- Halfword number `k` of a byte list, zero bytes where the list has ended. -/
def halfAt (bytes : List Byte) (k : Nat) : Half :=
  halfOfBytes (bytes.getD (2 * k) 0#8) (bytes.getD (2 * k + 1) 0#8)

/-- Decoding from bytes: total, and `truncated` where the bytes end before the instruction does. -/
def decodeBytes (bytes : List Byte) : Except DecodeError (Instr × List Byte) :=
  match decode (halfAt bytes 0) (halfAt bytes 1) (halfAt bytes 2) with
  | .error e => if bytes.length < 2 then .error .truncated else .error e
  | .ok i => if bytes.length < 2 * i.length then .error .truncated else .ok (i, bytes.drop (2 * i.length))

/-- The bytes of an instruction numbered as the opcode table numbers its bits: `nbits` bits of `w`, bits 15..0 the first
halfword, bits 31..16 the second, bits 47..32 the third, every bit above `nbits` zero. -/
def tableBytes (nbits w : Nat) : List Byte :=
  let v := w % 2 ^ nbits
  bytesOfHalf (BitVec.ofNat 16 v) ++ bytesOfHalf (BitVec.ofNat 16 (v / 2 ^ 16)) ++ bytesOfHalf (BitVec.ofNat 16 (v / 2 ^ 32))

/-- The instruction this decoder reads from an opcode-table word, none where it refuses. -/
def decodeTableWord (nbits w : Nat) : Option Instr :=
  match decodeBytes (tableBytes nbits w) with
  | .ok (i, _) => some i
  | .error _ => none

/-! ### The encoder -/

/-- The bank bit of a register field (R184). -/
def Reg.bank : Reg → BitVec 1
  | .glob _ => 0#1 | .loc _ => 1#1

/-- The 4-bit register code (R184). -/
def Reg.code : Reg → BitVec 4
  | .glob c => c | .loc c => c

/-- hw1 of formats RR, RRconst, RRdis, RRlim (R184). -/
def packRR (op : BitVec 6) (rd rs : Reg) : Half := op ++ rd.bank ++ rs.bank ++ rd.code ++ rs.code

/-- hw1 of formats LL and LLext (R181). -/
def packLL (op : BitVec 8) (ld ls : BitVec 4) : Half := op ++ ld ++ ls

/-- hw1 of formats LR and LRconst (R183, R189). -/
def packLR (op : BitVec 7) (ld : BitVec 4) (rs : Reg) : Half := op ++ rs.bank ++ ld ++ rs.code

/-- hw1 of format Ln (R185). -/
def packLn (op : BitVec 7) (ld : BitVec 4) (n : BitVec 5) : Half := op ++ n.extractLsb' 4 1 ++ ld ++ n.extractLsb' 0 4

/-- hw1 of formats Rn and Rimm (R186, R192). -/
def packRn (op : BitVec 6) (rd : Reg) (n : BitVec 5) : Half :=
  op ++ rd.bank ++ n.extractLsb' 4 1 ++ rd.code ++ n.extractLsb' 0 4

/-- hw1 of format PCadr with its condition bits (R187, R199 (g)). -/
def packTrap (op : BitVec 8) (k : BitVec 6) (cond : BitVec 2) : Half := op ++ k ++ cond

/-- n of format Rimm (R194). -/
def Imm.n : Imm → BitVec 5
  | .code n => n | .word _ => 17#5 | .low _ => 18#5 | .ones _ => 19#5

/-- The immediate halfwords of format Rimm (R192). -/
def Imm.halfwords : Imm → List Half
  | .code _ => []
  | .word v => [v.extractLsb' 16 16, v.extractLsb' 0 16]
  | .low v => [v]
  | .ones v => [v]

/-- hw2 and hw3 of formats LRconst and RRconst (R189). -/
def Const.halfwords : Const → List Half
  | .short v => [0#1 ++ v]
  | .long v => [1#1 ++ v.extractLsb' 16 15, v.extractLsb' 0 16]

/-- hw2 and hw3 of format RRdis (R191). -/
def Dis.halfwords (dd : BitVec 2) : Dis → List Half
  | .short v => [0#1 ++ v.extractLsb' 12 1 ++ dd ++ v.extractLsb' 0 12]
  | .long v => [1#1 ++ v.extractLsb' 28 1 ++ dd ++ v.extractLsb' 16 12, v.extractLsb' 0 16]

/-- hw2 and hw3 of format RRlim (R193). -/
def Lim.halfwords (x : BitVec 3) : Lim → List Half
  | .short v => [0#1 ++ x ++ v]
  | .long v => [1#1 ++ x ++ v.extractLsb' 16 12, v.extractLsb' 0 16]

/-- The halfwords of format PCrel (R188). -/
def Rel.halfwords (op : BitVec 8) : Rel → List Half
  | .short v => [op ++ 0#1 ++ v.extractLsb' 0 6 ++ v.extractLsb' 6 1]
  | .long v => [op ++ 1#1 ++ v.extractLsb' 15 7, v.extractLsb' 0 15 ++ v.extractLsb' 22 1]

/-- The register field that selects the absolute address modes, FETCH and CHKZ (R197). -/
def Reg.sr : Reg := .glob 1#4

/-- The register field that turns MOVD into RET (R197). -/
def Reg.pc : Reg := .glob 0#4

/-- The halfwords of an instruction, the one with the OP-code first (R180 to R200). -/
def encode : Instr → List Half
  | .chk rd rs => [packRR 0#6 rd rs]
  | .chkz rd => [packRR 0#6 rd .sr]
  | .nop => [0x0300#16]
  | .movd rd rs => [packRR 1#6 rd rs]
  | .ret rs => [packRR 1#6 .pc rs]
  | .divu rd rs => [packRR 2#6 rd rs]
  | .divs rd rs => [packRR 3#6 rd rs]
  | .xm1 rd rs lim => packRR 4#6 rd rs :: lim.halfwords 0#3
  | .xm2 rd rs lim => packRR 4#6 rd rs :: lim.halfwords 1#3
  | .xm4 rd rs lim => packRR 4#6 rd rs :: lim.halfwords 2#3
  | .xm8 rd rs lim => packRR 4#6 rd rs :: lim.halfwords 3#3
  | .xx1 rd rs lim => packRR 4#6 rd rs :: lim.halfwords 4#3
  | .xx2 rd rs lim => packRR 4#6 rd rs :: lim.halfwords 5#3
  | .xx4 rd rs lim => packRR 4#6 rd rs :: lim.halfwords 6#3
  | .xx8 rd rs lim => packRR 4#6 rd rs :: lim.halfwords 7#3
  | .mask rd rs c => packRR 5#6 rd rs :: c.halfwords
  | .sum rd rs c => packRR 6#6 rd rs :: c.halfwords
  | .sums rd rs c => packRR 7#6 rd rs :: c.halfwords
  | .cmp rd rs => [packRR 8#6 rd rs]
  | .mov rd rs => [packRR 9#6 rd rs]
  | .add rd rs => [packRR 10#6 rd rs]
  | .adds rd rs => [packRR 11#6 rd rs]
  | .cmpb rd rs => [packRR 12#6 rd rs]
  | .andn rd rs => [packRR 13#6 rd rs]
  | .or rd rs => [packRR 14#6 rd rs]
  | .xor rd rs => [packRR 15#6 rd rs]
  | .subc rd rs => [packRR 16#6 rd rs]
  | .not rd rs => [packRR 17#6 rd rs]
  | .sub rd rs => [packRR 18#6 rd rs]
  | .subs rd rs => [packRR 19#6 rd rs]
  | .addc rd rs => [packRR 20#6 rd rs]
  | .and rd rs => [packRR 21#6 rd rs]
  | .neg rd rs => [packRR 22#6 rd rs]
  | .negs rd rs => [packRR 23#6 rd rs]
  | .cmpi rd imm => packRn 24#6 rd imm.n :: imm.halfwords
  | .movi rd imm => packRn 25#6 rd imm.n :: imm.halfwords
  | .addi rd imm => packRn 26#6 rd imm.n :: imm.halfwords
  | .addsi rd imm => packRn 27#6 rd imm.n :: imm.halfwords
  | .cmpbi rd imm => packRn 28#6 rd imm.n :: imm.halfwords
  | .andni rd imm => packRn 29#6 rd imm.n :: imm.halfwords
  | .ori rd imm => packRn 30#6 rd imm.n :: imm.halfwords
  | .xori rd imm => packRn 31#6 rd imm.n :: imm.halfwords
  | .shrdi ld n => [packLn 64#7 ld n]
  | .shrd ld ls => [packLL 0x82#8 ld ls]
  | .shr ld ls => [packLL 0x83#8 ld ls]
  | .sardi ld n => [packLn 66#7 ld n]
  | .sard ld ls => [packLL 0x86#8 ld ls]
  | .sar ld ls => [packLL 0x87#8 ld ls]
  | .shldi ld n => [packLn 68#7 ld n]
  | .shld ld ls => [packLL 0x8a#8 ld ls]
  | .shl ld ls => [packLL 0x8b#8 ld ls]
  | .testlz ld ls => [packLL 0x8e#8 ld ls]
  | .rol ld ls => [packLL 0x8f#8 ld ls]
  | .ldbsD rd rs dis => packRR 36#6 rd rs :: dis.halfwords 0#2
  | .ldbuD rd rs dis => packRR 36#6 rd rs :: dis.halfwords 1#2
  | .ldhuD rd rs dis => packRR 36#6 rd rs :: (dis.setBit0 0#1).halfwords 2#2
  | .ldhsD rd rs dis => packRR 36#6 rd rs :: (dis.setBit0 1#1).halfwords 2#2
  | .ldwD rd rs dis => packRR 36#6 rd rs :: (dis.setLow 0#2).halfwords 3#2
  | .lddD rd rs dis => packRR 36#6 rd rs :: (dis.setLow 1#2).halfwords 3#2
  | .ldbsA rs dis => packRR 36#6 .sr rs :: dis.halfwords 0#2
  | .ldbuA rs dis => packRR 36#6 .sr rs :: dis.halfwords 1#2
  | .ldhuA rs dis => packRR 36#6 .sr rs :: (dis.setBit0 0#1).halfwords 2#2
  | .ldhsA rs dis => packRR 36#6 .sr rs :: (dis.setBit0 1#1).halfwords 2#2
  | .ldwA rs dis => packRR 36#6 .sr rs :: (dis.setLow 0#2).halfwords 3#2
  | .lddA rs dis => packRR 36#6 .sr rs :: (dis.setLow 1#2).halfwords 3#2
  | .ldwIOD rd rs dis => packRR 36#6 rd rs :: (dis.setLow 2#2).halfwords 3#2
  | .lddIOD rd rs dis => packRR 36#6 rd rs :: (dis.setLow 3#2).halfwords 3#2
  | .ldwIOA rs dis => packRR 36#6 .sr rs :: (dis.setLow 2#2).halfwords 3#2
  | .lddIOA rs dis => packRR 36#6 .sr rs :: (dis.setLow 3#2).halfwords 3#2
  | .ldbsN rd rs dis => packRR 37#6 rd rs :: dis.halfwords 0#2
  | .ldbuN rd rs dis => packRR 37#6 rd rs :: dis.halfwords 1#2
  | .ldhuN rd rs dis => packRR 37#6 rd rs :: (dis.setBit0 0#1).halfwords 2#2
  | .ldhsN rd rs dis => packRR 37#6 rd rs :: (dis.setBit0 1#1).halfwords 2#2
  | .ldwN rd rs dis => packRR 37#6 rd rs :: (dis.setLow 0#2).halfwords 3#2
  | .lddN rd rs dis => packRR 37#6 rd rs :: (dis.setLow 1#2).halfwords 3#2
  | .ldwS rd rs dis => packRR 37#6 rd rs :: (dis.setLow 3#2).halfwords 3#2
  | .stbsD rd rs dis => packRR 38#6 rd rs :: dis.halfwords 0#2
  | .stbuD rd rs dis => packRR 38#6 rd rs :: dis.halfwords 1#2
  | .sthuD rd rs dis => packRR 38#6 rd rs :: (dis.setBit0 0#1).halfwords 2#2
  | .sthsD rd rs dis => packRR 38#6 rd rs :: (dis.setBit0 1#1).halfwords 2#2
  | .stwD rd rs dis => packRR 38#6 rd rs :: (dis.setLow 0#2).halfwords 3#2
  | .stdD rd rs dis => packRR 38#6 rd rs :: (dis.setLow 1#2).halfwords 3#2
  | .stbsA rs dis => packRR 38#6 .sr rs :: dis.halfwords 0#2
  | .stbuA rs dis => packRR 38#6 .sr rs :: dis.halfwords 1#2
  | .sthuA rs dis => packRR 38#6 .sr rs :: (dis.setBit0 0#1).halfwords 2#2
  | .sthsA rs dis => packRR 38#6 .sr rs :: (dis.setBit0 1#1).halfwords 2#2
  | .stwA rs dis => packRR 38#6 .sr rs :: (dis.setLow 0#2).halfwords 3#2
  | .stdA rs dis => packRR 38#6 .sr rs :: (dis.setLow 1#2).halfwords 3#2
  | .stwIOD rd rs dis => packRR 38#6 rd rs :: (dis.setLow 2#2).halfwords 3#2
  | .stdIOD rd rs dis => packRR 38#6 rd rs :: (dis.setLow 3#2).halfwords 3#2
  | .stwIOA rs dis => packRR 38#6 .sr rs :: (dis.setLow 2#2).halfwords 3#2
  | .stdIOA rs dis => packRR 38#6 .sr rs :: (dis.setLow 3#2).halfwords 3#2
  | .stbsN rd rs dis => packRR 39#6 rd rs :: dis.halfwords 0#2
  | .stbuN rd rs dis => packRR 39#6 rd rs :: dis.halfwords 1#2
  | .sthuN rd rs dis => packRR 39#6 rd rs :: (dis.setBit0 0#1).halfwords 2#2
  | .sthsN rd rs dis => packRR 39#6 rd rs :: (dis.setBit0 1#1).halfwords 2#2
  | .stwN rd rs dis => packRR 39#6 rd rs :: (dis.setLow 0#2).halfwords 3#2
  | .stdN rd rs dis => packRR 39#6 rd rs :: (dis.setLow 1#2).halfwords 3#2
  | .stwS rd rs dis => packRR 39#6 rd rs :: (dis.setLow 3#2).halfwords 3#2
  | .shri rd n => [packRn 40#6 rd n]
  | .sari rd n => [packRn 41#6 rd n]
  | .shli rd n => [packRn 42#6 rd n]
  | .mulu rd rs => [packRR 44#6 rd rs]
  | .muls rd rs => [packRR 45#6 rd rs]
  | .setadr rd => [packRn 46#6 rd 0#5]
  | .set1 rd => [packRn 46#6 rd 2#5]
  | .set0 rd => [packRn 46#6 rd 3#5]
  | .setle rd => [packRn 46#6 rd 4#5]
  | .setgt rd => [packRn 46#6 rd 5#5]
  | .setlt rd => [packRn 46#6 rd 6#5]
  | .setge rd => [packRn 46#6 rd 7#5]
  | .setse rd => [packRn 46#6 rd 8#5]
  | .setht rd => [packRn 46#6 rd 9#5]
  | .setst rd => [packRn 46#6 rd 10#5]
  | .sethe rd => [packRn 46#6 rd 11#5]
  | .sete rd => [packRn 46#6 rd 12#5]
  | .setne rd => [packRn 46#6 rd 13#5]
  | .setv rd => [packRn 46#6 rd 14#5]
  | .setnv rd => [packRn 46#6 rd 15#5]
  | .set1m rd => [packRn 46#6 rd 18#5]
  | .setlem rd => [packRn 46#6 rd 20#5]
  | .setgtm rd => [packRn 46#6 rd 21#5]
  | .setltm rd => [packRn 46#6 rd 22#5]
  | .setgem rd => [packRn 46#6 rd 23#5]
  | .setsem rd => [packRn 46#6 rd 24#5]
  | .sethtm rd => [packRn 46#6 rd 25#5]
  | .setstm rd => [packRn 46#6 rd 26#5]
  | .sethem rd => [packRn 46#6 rd 27#5]
  | .setem rd => [packRn 46#6 rd 28#5]
  | .setnem rd => [packRn 46#6 rd 29#5]
  | .setvm rd => [packRn 46#6 rd 30#5]
  | .setnvm rd => [packRn 46#6 rd 31#5]
  | .fetch half => [packRn 46#6 .sr (half ++ 0#1)]
  | .mul rd rs => [packRR 47#6 rd rs]
  | .fadd ld ls => [packLL 0xc0#8 ld ls]
  | .faddd ld ls => [packLL 0xc1#8 ld ls]
  | .fsub ld ls => [packLL 0xc2#8 ld ls]
  | .fsubd ld ls => [packLL 0xc3#8 ld ls]
  | .fmul ld ls => [packLL 0xc4#8 ld ls]
  | .fmuld ld ls => [packLL 0xc5#8 ld ls]
  | .fdiv ld ls => [packLL 0xc6#8 ld ls]
  | .fdivd ld ls => [packLL 0xc7#8 ld ls]
  | .fcmp ld ls => [packLL 0xc8#8 ld ls]
  | .fcmpd ld ls => [packLL 0xc9#8 ld ls]
  | .fcmpu ld ls => [packLL 0xca#8 ld ls]
  | .fcmpud ld ls => [packLL 0xcb#8 ld ls]
  | .fcvt ld ls => [packLL 0xcc#8 ld ls]
  | .fcvtd ld ls => [packLL 0xcd#8 ld ls]
  | .emul ld ls => [packLL 0xce#8 ld ls, 0x0100#16]
  | .emulu ld ls => [packLL 0xce#8 ld ls, 0x0104#16]
  | .emuls ld ls => [packLL 0xce#8 ld ls, 0x0106#16]
  | .emac ld ls => [packLL 0xce#8 ld ls, 0x010a#16]
  | .emacd ld ls => [packLL 0xce#8 ld ls, 0x010e#16]
  | .emsub ld ls => [packLL 0xce#8 ld ls, 0x011a#16]
  | .emsubd ld ls => [packLL 0xce#8 ld ls, 0x011e#16]
  | .ehmac ld ls => [packLL 0xce#8 ld ls, 0x002a#16]
  | .ehmacd ld ls => [packLL 0xce#8 ld ls, 0x002e#16]
  | .ehcmuld ld ls => [packLL 0xce#8 ld ls, 0x0046#16]
  | .ehcmacd ld ls => [packLL 0xce#8 ld ls, 0x004e#16]
  | .ehcsumd ld ls => [packLL 0xce#8 ld ls, 0x0086#16]
  | .ehcfftd ld ls => [packLL 0xce#8 ld ls, 0x0096#16]
  | .softDo ld ls => [packLL 0xcf#8 ld ls]
  | .ldwR ld rs => [packLR 104#7 ld rs]
  | .lddR ld rs => [packLR 105#7 ld rs]
  | .ldwP ld rs => [packLR 106#7 ld rs]
  | .lddP ld rs => [packLR 107#7 ld rs]
  | .stwR ld rs => [packLR 108#7 ld rs]
  | .stdR ld rs => [packLR 109#7 ld rs]
  | .stwP ld rs => [packLR 110#7 ld rs]
  | .stdP ld rs => [packLR 111#7 ld rs]
  | .dbv rel => rel.halfwords 0xe0#8
  | .dbnv rel => rel.halfwords 0xe1#8
  | .dbe rel => rel.halfwords 0xe2#8
  | .dbne rel => rel.halfwords 0xe3#8
  | .dbst rel => rel.halfwords 0xe4#8
  | .dbhe rel => rel.halfwords 0xe5#8
  | .dbse rel => rel.halfwords 0xe6#8
  | .dbht rel => rel.halfwords 0xe7#8
  | .dblt rel => rel.halfwords 0xe8#8
  | .dbge rel => rel.halfwords 0xe9#8
  | .dble rel => rel.halfwords 0xea#8
  | .dbgt rel => rel.halfwords 0xeb#8
  | .dbr rel => rel.halfwords 0xec#8
  | .frame ld ls => [packLL 0xed#8 ld ls]
  | .call ld rs c => packLR 119#7 ld rs :: c.halfwords
  | .bv rel => rel.halfwords 0xf0#8
  | .bnv rel => rel.halfwords 0xf1#8
  | .be rel => rel.halfwords 0xf2#8
  | .bne rel => rel.halfwords 0xf3#8
  | .bst rel => rel.halfwords 0xf4#8
  | .bhe rel => rel.halfwords 0xf5#8
  | .bse rel => rel.halfwords 0xf6#8
  | .bht rel => rel.halfwords 0xf7#8
  | .blt rel => rel.halfwords 0xf8#8
  | .bge rel => rel.halfwords 0xf9#8
  | .ble rel => rel.halfwords 0xfa#8
  | .bgt rel => rel.halfwords 0xfb#8
  | .br rel => rel.halfwords 0xfc#8
  | .traple k => [packTrap 0xfd#8 k 0#2]
  | .trapgt k => [packTrap 0xfd#8 k 1#2]
  | .traplt k => [packTrap 0xfd#8 k 2#2]
  | .trapge k => [packTrap 0xfd#8 k 3#2]
  | .trapse k => [packTrap 0xfe#8 k 0#2]
  | .trapht k => [packTrap 0xfe#8 k 1#2]
  | .trapst k => [packTrap 0xfe#8 k 2#2]
  | .traphe k => [packTrap 0xfe#8 k 3#2]
  | .trape k => [packTrap 0xff#8 k 0#2]
  | .trapne k => [packTrap 0xff#8 k 1#2]
  | .trapv k => [packTrap 0xff#8 k 2#2]
  | .trap k => [packTrap 0xff#8 k 3#2]
  | .reserved8C8D operands => [0x46#7 ++ operands]
  | .reservedACAF operands => [43#6 ++ operands]

end Sys2Proof
end

