-- ==== Sys2Proof/Machine/State.lean ====
section
/-! DEFINITION. The state of the machine as plain data, its reasons to stop, and the state after reset
(spec/10_state.md R20 to R63; notes/assumptions/2.md for the reset values the spec leaves undefined). -/

namespace Sys2Proof.Machine

/-- The levels at the input pins (R7 PINS, R57): `int` bit 0 is INT1 .. bit 3 INT4, `io` bit 0 is IO1 .. bit 2 IO3. -/
structure Pins where
  int : BitVec 4
  io : BitVec 3
  /-- GRANT#: low grants the bus to the processor (R165) -/
  grant : Bool := false
deriving DecidableEq, Repr

/-- The two parts, parameter `PART` (R6). -/
inductive Part where
  | gms30c2132
  | gms30c2116
deriving DecidableEq, Repr

/-- What the board and the part fix (R6, R7); no instruction changes it. -/
structure Platform where
  /-- parameter `PART` -/
  part : Part
  /-- parameter `MEM`: the ranges, first and last word number (address div 4), of external memory that is not fitted -/
  absent : List (Nat × Nat)
deriving DecidableEq, Repr

/-- What the outside world does before one step of the machine (R7 PINS, PARITY; D13, D14; notes/assumptions/12.md). -/
structure Input where
  /-- the pin levels from this boundary on -/
  pins : Pins
  /-- processor cycles the instruction takes beyond the first (R559) -/
  cycles : Nat
  /-- bit x: a read of area MEMx returned wrong parity (R550 `ParityFault(x)`) -/
  parity : BitVec 4
  /-- RESET# went from low to high (R590) -/
  reset : Bool
  /-- bytes another bus master wrote to external memory while it had the bus (R123, R165) -/
  dma : List (Word × Byte)
  /-- bytes another bus master writes to external memory between the two words of a double-word access, if the coming instruction
  makes one (R109, R238) -/
  between : List (Word × Byte) := []
deriving DecidableEq, Repr

/-- An access of the processor to the I/O address space (R101), as the devices see it. -/
inductive IoEvent where
  | read (a : Word)
  | write (a v : Word)
deriving DecidableEq, Repr

/-- Everything the spec gives the machine (R20 to R61), and the model's own bookkeeping at the end. -/
structure State where
  /-- G0, the program counter (R22); after a taken delayed branch it holds the target (R424) -/
  pc : Word
  /-- G1, the status register (R26) -/
  sr : Word
  /-- G2, the floating-point exception register (R44) -/
  fer : Word
  /-- G3..G15 (R46) -/
  gpr : Vector Word 13
  /-- G18, stack pointer (R48) -/
  sp : Word
  /-- G19, upper stack bound (R49) -/
  ub : Word
  /-- G20, bus control register (R50) -/
  bcr : Word
  /-- G21, timer prescaler register (R53) -/
  tpr : Word
  /-- G22, timer compare register (R54) -/
  tcr : Word
  /-- G23, timer register (R55) -/
  tr : Word
  /-- G24, watchdog compare register (R56) -/
  wcr : Word
  /-- the model's own: the last write to WCR was a move whose bits 31..16 were not zero, against R56, so that they read back any
  value (I7.2) -/
  wcrUpperOpen : Bool
  /-- ISR(7) (R57); the rest of G25 is the pin levels -/
  equalFlag : Bool
  /-- ISR(8) (R57) -/
  eventFlag : Bool
  /-- G26, function control register (R58) -/
  fcr : Word
  /-- G27, memory control register (R59); bit 22 is also the "previous MCR(22)" of R61 -/
  mcr : Word
  /-- the 64 local registers, absolutely numbered (R60) -/
  locals : Vector Word 64
  /-- the memory address space: external areas and the IRAM (R106), in the canonical form `Memory.wf` -/
  mem : List Host.Cell
  /-- the cells of the IRAM whose contents refresh guarantees, each marked 1, in the canonical form of a memory: those written
  since refresh was last enabled (R112) -/
  iramKept : List Host.Cell
  /-- the program has relied on unspecified behaviour: it read IRAM contents that refresh does not guarantee (R112, I20) -/
  iramRelied : Bool
  /-- what the instruction cache and the prefetch may still hold of modified halfwords (R61, R133, D12): address and old
  halfword, for every store since the last flush -/
  stale : List (Nat × Half)
  /-- the look-back counter: the lowest address of the instruction words in the cache (R127) -/
  lookBack : Word
  /-- the look-ahead counter: the highest address of the instruction words in the cache (R127) -/
  lookAhead : Word
  /-- ACT is kept high: an access was made since FCR(17) was cleared (R125, R165) -/
  busLock : Bool
  /-- a delayed branch was taken and its delay instruction is next (R61) -/
  delayPending : Bool
  /-- the address of that delay instruction (R61) -/
  delayAddr : Word
  /-- the look-ahead counter before that branch flushed the cache, up to which its delay instruction had been fetched; none where
  it did not flush (R128 to R130) -/
  slotAhead : Option Word
  /-- the boundary after any Delayed Branch, taken or not (R532 `AfterDelayedBranch`) -/
  afterDelayedBranch : Bool
  /-- the boundary after a CALL (R431) -/
  callLockout : Bool
  /-- saved Extended Overflow condition (R548) -/
  extOvfPending : Bool
  /-- saved Parity Error condition (R550) -/
  parityPending : Bool
  /-- the prescaler's counter (R558) -/
  prescaler : Nat
  /-- the IO3 toggle latch (R566) -/
  io3Toggle : Bool
  /-- power-down state (R570) -/
  powerDown : Bool
  /-- a Reset is requested (R590) -/
  resetRequest : Bool
  /-- the input pins as sampled at the last boundary (R557) -/
  pins : Pins
  /-- an input has given the pins their levels; before it they never request (spec/92_eei_decisions.md section 2) -/
  pinsDriven : Bool
  /-- the parameters `PART` and `MEM` (R6, R7) -/
  platform : Platform
  /-- the model's own: what the outside world does before each coming step, oldest first -/
  inputs : List Input
  /-- the model's own: what another bus master writes between the two words of a double-word access of the coming instruction
  (R109) -/
  between : List (Word × Byte)
  /-- the model's own: the I/O accesses made so far, newest first -/
  ioTrace : List IoEvent
  /-- the model's own: the number of the next draw of free values -/
  fresh : Nat
deriving DecidableEq, Repr

/-- Why the machine stops on an instruction or an event the spec says exists but to which it gives no next state. -/
inductive Fault where
  /-- MCR(14..12) is 100, 101 or 110 when a trap, an exception or a Software instruction needs the entry table: "reserved",
  the entry address is not defined (R209, I11). Raised by `takeException`, TRAPxx and the Software instructions. Safe. -/
  | reservedEntryTable
deriving DecidableEq, Repr

/-- Why the model refuses an instruction: each is a row the spec itself refuses (D10). All are safe. -/
inductive Refusal where
  /-- an instruction without a meaning in this model: raised by arms of `exec` only -/
  | notModelled (mnemonic : String)
  /-- opcodes 8C, 8D, AC..AF (I2.1): raised by RESERVED_8C_8D and RESERVED_AC_AF -/
  | reservedOpcode
  /-- no instruction of the table has these halfwords (I2.2, I2.3, I2.6, I2.8): raised by the fetch -/
  | undefinedEncoding (reason : DecodeError)
  /-- the PC as destination of an instruction other than MOV, MOVI, ADD, ADDI, SUM, SUB (I2.6, I2.7, I2.10) -/
  | pcDestination
  /-- the PC or the SR where it "must not be denoted" (I2.4, I2.7, I2.9): raised by .N/.S/.P, XMx, XXx, RET -/
  | pcOrSrDenoted
  /-- a load into the PC, the SR, G14 or G15 (I2.5) -/
  | loadDestination
  /-- an instruction that needs the register after G15 (I2.14, D7) -/
  | followerOfG15
  /-- FETCH, a branching instruction or a Software instruction as delay instruction (I2.11) -/
  | delayInstruction
  /-- an instruction other than MOV and MOVI that denotes a global register in the H window (I2.15) -/
  | highGlobalWindow
  /-- a supervisor's move of a value with bits 1..0 not zero to SP or UB (I2.16) -/
  | stackAlignment
deriving DecidableEq, Repr

/-- The three outcomes of an instruction. -/
abbrev Result := Host.Outcome State Fault Refusal

/-- The machine after Reset (R62, R590): PC, S, L, T, M, FL, BCR, FCR, MCR and the cleared latches as the spec states;
every item the spec leaves undefined is zero, FP among them (DESIGN CHOICE, unsafe: notes/assumptions/2.md). -/
def State.reset : State where
  pc := 0xFFFFFFF8#32
  sr := 0x00448000#32
  fer := 0#32
  gpr := Vector.replicate 13 0#32
  sp := 0#32
  ub := 0#32
  bcr := 0xFFFFFFFF#32
  tpr := 0#32
  tcr := 0#32
  tr := 0#32
  wcr := 0#32
  wcrUpperOpen := false
  equalFlag := false
  eventFlag := false
  fcr := 0xFFFFFFFF#32
  mcr := 0xFFFFFFFF#32
  locals := Vector.replicate 64 0#32
  mem := []
  iramKept := []
  iramRelied := false
  stale := []
  lookBack := 0xFFFFFFF8#32
  lookAhead := 0xFFFFFFF8#32
  busLock := false
  delayPending := false
  delayAddr := 0#32
  slotAhead := none
  afterDelayedBranch := false
  callLockout := false
  extOvfPending := false
  parityPending := false
  prescaler := 0
  io3Toggle := false
  powerDown := false
  resetRequest := false
  pins := { int := 0#4, io := 0#3 }
  pinsDriven := false
  platform := { part := .gms30c2132, absent := [] }
  inputs := []
  between := []
  ioTrace := []
  fresh := 0

end Sys2Proof.Machine
end

