-- ==== Sys2Proof/Machine/Flags.lean ====
section
/-! DEFINITION. The fields of the status register and the computation of the condition flags
(spec/10_state.md R26 to R43; spec/00_scope.md R12). -/

namespace Sys2Proof.Machine

/-- `w` with its `n` bits from bit `lo` up replaced by `v`. -/
def setField (w : Word) (lo n : Nat) (v : BitVec n) : Word :=
  (w &&& ~~~(((BitVec.allOnes n).setWidth 32) <<< lo)) ||| ((v.setWidth 32) <<< lo)

/-- `w` with bit `i` replaced by `b`. -/
def setBit (w : Word) (i : Nat) (b : Bool) : Word := setField w i 1 (bit b)

/-- The carry flag (R27). -/
def srC (sr : Word) : Bool := sr.getLsbD 0
/-- The zero flag (R28). -/
def srZ (sr : Word) : Bool := sr.getLsbD 1
/-- The negative flag (R29). -/
def srN (sr : Word) : Bool := sr.getLsbD 2
/-- The overflow flag (R30). -/
def srV (sr : Word) : Bool := sr.getLsbD 3
/-- The cache-mode flag (R31). -/
def srM (sr : Word) : Bool := sr.getLsbD 4
/-- The high global flag (R33). -/
def srH (sr : Word) : Bool := sr.getLsbD 5
/-- The interrupt-mode flag (R34). -/
def srI (sr : Word) : Bool := sr.getLsbD 7
/-- The interrupt-lock flag (R37). -/
def srL (sr : Word) : Bool := sr.getLsbD 15
/-- The trace-mode flag (R38). -/
def srT (sr : Word) : Bool := sr.getLsbD 16
/-- The trace pending flag (R39). -/
def srP (sr : Word) : Bool := sr.getLsbD 17
/-- The supervisor state flag (R40). -/
def srS (sr : Word) : Bool := sr.getLsbD 18
/-- The instruction-length code (R41). -/
def srILC (sr : Word) : BitVec 2 := sr.extractLsb' 19 2
/-- The frame length field (R42). -/
def srFL (sr : Word) : BitVec 4 := sr.extractLsb' 21 4
/-- The frame pointer (R43). -/
def srFP (sr : Word) : BitVec 7 := sr.extractLsb' 25 7

/-- FL', the interpreted frame length: "FL = 0 is always interpreted as FL = 16" (R42). -/
def frameLength (sr : Word) : Nat := if srFL sr = 0#4 then 16 else (srFL sr).toNat

def setM (sr : Word) (b : Bool) : Word := setBit sr 4 b
def setH (sr : Word) (b : Bool) : Word := setBit sr 5 b
def setI (sr : Word) (b : Bool) : Word := setBit sr 7 b
def setL (sr : Word) (b : Bool) : Word := setBit sr 15 b
def setT (sr : Word) (b : Bool) : Word := setBit sr 16 b
def setP (sr : Word) (b : Bool) : Word := setBit sr 17 b
def setS (sr : Word) (b : Bool) : Word := setBit sr 18 b
def setILC (sr : Word) (v : BitVec 2) : Word := setField sr 19 2 v
def setFL (sr : Word) (v : BitVec 4) : Word := setField sr 21 4 v
def setFP (sr : Word) (v : BitVec 7) : Word := setField sr 25 7 v

/-- What an instruction does to the condition flags: none leaves the flag unchanged (R280 (h)). -/
structure FlagUpdate where
  c : Option Bool := none
  z : Option Bool := none
  n : Option Bool := none
  v : Option Bool := none
deriving DecidableEq, Repr

/-- The flags of an instruction that writes none. -/
def noFlags : FlagUpdate := {}

/-- The SR with one bit updated or left alone. -/
def updateBit (sr : Word) (i : Nat) : Option Bool → Word
  | some b => setBit sr i b
  | none => sr

/-- The SR with its condition flags updated. -/
def applyFlags (f : FlagUpdate) (sr : Word) : Word :=
  updateBit (updateBit (updateBit (updateBit sr 0 f.c) 1 f.z) 2 f.n) 3 f.v

/-- Bit 31, the sign (R29). -/
def sign (w : Word) : Bool := w.getLsbD 31

/-- Carry out of bit 31 of the unsigned sum a + b + c (R12). -/
def carryOut (a b : Word) (c : Bool) : Bool := decide (2 ^ 32 ≤ a.toNat + b.toNat + c.toNat)

/-- Borrow into bit 31 of the difference a - b - c: a < b + c as unsigned integers (R12). -/
def borrowOut (a b : Word) (c : Bool) : Bool := decide (a.toNat < b.toNat + c.toNat)

/-- An integer outside the signed range of `bits` bits. -/
def outsideSigned (bits : Nat) (i : Int) : Bool := decide (i < -2 ^ (bits - 1) ∨ 2 ^ (bits - 1) ≤ i)

/-- Signed overflow of a + b + c (R12). -/
def overflowAdd (a b : Word) (c : Bool) : Bool := outsideSigned 32 (a.toInt + b.toInt + c.toNat)

/-- Signed overflow of a - b - c (R12). -/
def overflowSub (a b : Word) (c : Bool) : Bool := outsideSigned 32 (a.toInt - b.toInt - c.toNat)

/-- A carry as a word (R311: the C flag as an operand). -/
def carryWord (c : Bool) : Word := if c then 1#32 else 0#32

/-- Z, N, V, C of an addition (R313). -/
def addFlags (a b : Word) (c : Bool) (r : Word) : FlagUpdate :=
  { c := some (carryOut a b c), z := some (r == 0#32), n := some (sign r), v := some (overflowAdd a b c) }

/-- Z, N, V, C of a subtraction (R320). -/
def subFlags (a b : Word) (c : Bool) (r : Word) : FlagUpdate :=
  { c := some (borrowOut a b c), z := some (r == 0#32), n := some (sign r), v := some (overflowSub a b c) }

/-- Z, N, V, C of a compare: N is the true sign (R395). -/
def compareFlags (a b : Word) : FlagUpdate :=
  { c := some (decide (a.toNat < b.toNat)), z := some (a == b), n := some (decide (a.toInt < b.toInt)),
    v := some (overflowSub a b false) }

/-- The flags of an instruction that writes Z alone (R284). -/
def zeroFlag (r : Word) : FlagUpdate := { z := some (r == 0#32) }

/-- The twelve conditions of R421, and "always". -/
inductive Cond where
  | v | nv | e | ne | st | he | se | ht | lt | ge | le | gt | always
deriving DecidableEq, Repr

/-- A condition evaluated on the flags of SR (R421). -/
def Cond.holds (sr : Word) : Cond → Bool
  | .v => srV sr
  | .nv => !srV sr
  | .e => srZ sr
  | .ne => !srZ sr
  | .st => srC sr
  | .he => !srC sr
  | .se => srC sr || srZ sr
  | .ht => !srC sr && !srZ sr
  | .lt => srN sr
  | .ge => !srN sr
  | .le => srN sr || srZ sr
  | .gt => !srN sr && !srZ sr
  | .always => true

end Sys2Proof.Machine
end

