-- ==== Sys2Proof/Machine/Memory.lean ====
section
/-! DEFINITION. Memory as a canonical list of cells, and the accesses of the processor to it
(spec/20_memory.md R100 to R118; notes/assumptions/4.md to 9.md). -/

namespace Sys2Proof.Machine

/-- What a byte nothing has written reads as (the spec gives no power-on contents, D1: DESIGN CHOICE, unsafe,
notes/assumptions/4.md). -/
def Memory.unlisted : Byte := 0#8

/-- The byte at an address. -/
def Memory.read : List Host.Cell → Nat → Byte
  | [], _ => Memory.unlisted
  | (k, v) :: rest, a => if k = a then v else if a < k then Memory.unlisted else Memory.read rest a

/-- Storing a byte keeps the list rising and never lists the unlisted value. -/
def Memory.write : List Host.Cell → Nat → Byte → List Host.Cell
  | [], a, v => if v = Memory.unlisted then [] else [(a, v)]
  | (k, x) :: rest, a, v =>
    if a < k then (if v = Memory.unlisted then (k, x) :: rest else (a, v) :: (k, x) :: rest)
    else if a = k then (if v = Memory.unlisted then rest else (a, v) :: rest)
    else (k, x) :: Memory.write rest a v

/-- Which unit an access goes to (R113). -/
inductive Region where
  /-- the on-chip memory (R111) -/
  | iram
  /-- MEM0..MEM3 (R106) -/
  | external
deriving DecidableEq, Repr

/-- The unit that bits 31..29 of an address select: 110 is the IRAM (R106). -/
def regionOf (a : Word) : Region := if a.extractLsb' 29 3 = 6#3 then .iram else .external

/-- The cell an address reaches in a unit: in the IRAM byte a mod 4096 of C0000000 (R111); outside, the full address, where
the IRAM's own range holds no external memory (I21, R119). -/
def cellOf : Region → Word → Option Nat
  | .iram, a => some (0xC0000000 + a.toNat % 4096)
  | .external, a => if regionOf a = .iram then none else some a.toNat

/-- Whether a cell is fitted (parameter `MEM`, R7, R106): the IRAM always, external memory outside the absent ranges. -/
def Platform.fitted (p : Platform) (k : Nat) : Bool :=
  p.absent.all fun e => decide (0xC0000000 ≤ k ∧ k < 0xE0000000) || decide (k / 4 < e.1) || decide (e.2 < k / 4)

/-- The cell an address reaches in a unit, where memory is fitted. -/
def State.cell (s : State) (r : Region) (a : Word) : Option Nat :=
  match cellOf r a with
  | some k => if s.platform.fitted k then some k else none
  | none => none

/-! ### What leaves the chip -/

/-- The address bits that leave the chip (R6, R107). -/
def Part.addressPins : Part → Nat
  | .gms30c2132 => 26
  | .gms30c2116 => 22

/-- The data pins, the widest bus a memory area can have (R6, R151). -/
def Part.dataPins : Part → Nat
  | .gms30c2132 => 32
  | .gms30c2116 => 16

/-- The address as the address pins show it (R107); which addresses alias is the board's, none by D1. -/
def Platform.busAddress (p : Platform) (a : Word) : Nat := a.toNat % 2 ^ p.part.addressPins

/-- The bus width MCR gives the area MEMx, x = 0..3 (R59); none for the reserved code. -/
def busWidth (mcr : Word) (x : Nat) : Option Nat :=
  match (mcr.extractLsb' (2 * x) 2).toNat with
  | 0 => some 32
  | 2 => some 16
  | 3 => some 8
  | _ => none

/-- Whether the part can serve the bus width of MEMx (R6, R151); one it cannot serve has no effect on values (I12). -/
def Platform.servesBus (p : Platform) (mcr : Word) (x : Nat) : Bool :=
  (busWidth mcr x).any fun w => decide (w ≤ p.part.dataPins)

/-- The addresses strictly rise from `lo` on. -/
def Memory.rising : Nat → List Host.Cell → Bool
  | _, [] => true
  | lo, (k, _) :: rest => decide (lo ≤ k) && Memory.rising (k + 1) rest

/-- A key names one cell of the address map: external memory, or the IRAM at its own 4 KByte. -/
def Memory.isCell (k : Nat) : Bool := decide (k < 0xC0001000) || (decide (0xE0000000 ≤ k) && decide (k < 2 ^ 32))

/-- The canonical form: addresses strictly rising, each one a cell, no entry equal to what an unlisted address reads as. -/
def Memory.wf (m : List Host.Cell) : Bool :=
  Memory.rising 0 m && m.all (fun c => c.2 != Memory.unlisted && Memory.isCell c.1)

/-- A halfword address: bit 0 is ignored (R104). -/
def alignHalf (a : Word) : Word := a &&& 0xFFFFFFFE#32

/-- A word address: bits 1..0 are ignored (R104). -/
def alignWord (a : Word) : Word := a &&& 0xFFFFFFFC#32

/-- The refresh of the IRAM is enabled: MCR(18..16) is not 111 (R59, R112). -/
def refreshes (mcr : Word) : Bool := mcr.extractLsb' 16 3 != 7#3

/-- The contents of `n` bytes from an address on are guaranteed: outside the IRAM always, in it where they were written since
refresh was last enabled (R112). -/
def State.guarantees (s : State) (r : Region) (a : Word) (n : Nat) : Bool :=
  r == .external ||
    (List.range n).all fun j => Memory.read s.iramKept (0xC0000000 + (a + BitVec.ofNat 32 j).toNat % 4096) == 1#8

/-- An access to external memory or to I/O while FCR(17) = 0 starts the bus lock (R125, R165). -/
def State.noteAccess (s : State) (r : Region) : State :=
  { s with busLock := s.busLock || (r == .external && !s.fcr.getLsbD 17) }

/-- A read of `n` bytes: an access, and the program relies on them (R112, I20). -/
def State.noteRead (s : State) (r : Region) (a : Word) (n : Nat) : State :=
  { s with iramRelied := s.iramRelied || !s.guarantees r a n }.noteAccess r

/-- One byte as the processor reads it: where no memory is, whatever the floating bus holds (R119). -/
def State.readByte (s : State) (r : Region) (a : Word) : Byte :=
  match s.cell r a with
  | some k => Memory.read s.mem k
  | none => Config.floatingBus s.fresh a

/-- MemRead(a, 2), big endian (R103, R104). -/
def State.readHalf (s : State) (r : Region) (a : Word) : Half :=
  s.readByte r (alignHalf a) ++ s.readByte r (alignHalf a + 1#32)

/-- MemRead(a, 4), big endian (R103, R104). -/
def State.readWord (s : State) (r : Region) (a : Word) : Word :=
  s.readByte r (alignWord a) ++ s.readByte r (alignWord a + 1#32) ++ s.readByte r (alignWord a + 2#32)
    ++ s.readByte r (alignWord a + 3#32)

/-- The old contents of a halfword about to be modified stay available to the instruction fetch until the next flush
(D12, R133). -/
def State.noteStale (s : State) (r : Region) (a : Word) : State :=
  match cellOf r (alignHalf a) with
  | some k => { s with stale := if s.platform.fitted k then (k, s.readHalf r a) :: s.stale else s.stale }
  | none => s

/-- One byte stored; a store where no memory is has no effect. In the IRAM it is guaranteed from then on if refresh is enabled
(R112). -/
def State.putByte (s : State) (r : Region) (a : Word) (v : Byte) : State :=
  match cellOf r a with
  | some k =>
    { s with
      mem := if s.platform.fitted k then Memory.write s.mem k v else s.mem
      iramKept := if r = .iram then Memory.write s.iramKept k (if refreshes s.mcr then 1#8 else 0#8) else s.iramKept }
  | none => s

/-- MemWrite(a, 1, v) (R234). -/
def State.writeByte (s : State) (r : Region) (a : Word) (v : Byte) : State :=
  (s.noteStale r a).putByte r a v

/-- MemWrite(a, 2, v), big endian (R103, R104, R234). -/
def State.writeHalf (s : State) (r : Region) (a : Word) (v : Half) : State :=
  ((s.noteStale r a).putByte r (alignHalf a) (v.extractLsb' 8 8)).putByte r (alignHalf a + 1#32) (v.extractLsb' 0 8)

/-- MemWrite(a, 4, v), big endian (R103, R104, R234). -/
def State.writeWord (s : State) (r : Region) (a : Word) (v : Word) : State :=
  let s1 := (s.noteStale r (alignWord a)).noteStale r (alignWord a + 2#32)
  (((s1.putByte r (alignWord a) (v.extractLsb' 24 8)).putByte r (alignWord a + 1#32) (v.extractLsb' 16 8)).putByte r
    (alignWord a + 2#32) (v.extractLsb' 8 8)).putByte r (alignWord a + 3#32) (v.extractLsb' 0 8)

/-- ACT: the processor holds the bus, granted by GRANT# low or kept by the bus lock (R165). -/
def State.act (s : State) : Bool := !s.pins.grant || s.busLock

/-- What another bus master wrote to external memory while it had the bus (R123, R125, R165). -/
def State.dma (s : State) (writes : List (Word × Byte)) : State :=
  if s.act then s else writes.foldl (fun t e => t.writeByte .external e.1 e.2) s

/-- Between the two words of a double-word access "a second bus master or a device can observe or change memory" (R109, R238;
notes/assumptions/12.md). -/
def State.interlude (s : State) : State := s.dma s.between

/-- IORead(a): the device's answer, bits 1..0 of the address supplied as zero; the access is recorded (R101, R104, D15). -/
def State.ioReadValue (s : State) (a : Word) : Word := Config.ioRead (s.fresh + s.ioTrace.length) (alignWord a)

/-- The I/O bus after a read at `a`. -/
def State.noteIoRead (s : State) (a : Word) : State :=
  { s with ioTrace := .read (alignWord a) :: s.ioTrace }.noteAccess .external

/-- IOWrite(a, v) (R101, R104, D15): seen by the devices, no effect on the processor. -/
def State.ioWrite (s : State) (a v : Word) : State :=
  { s with ioTrace := .write (alignWord a) v :: s.ioTrace }.noteAccess .external

end Sys2Proof.Machine
end

