-- ==== Sys2Proof/Machine/Ops.lean ====
section
/-! DEFINITION. The operations every meaning is built from: registers, the ends of an instruction (next instruction,
branch taken, error exception), taking an exception and returning from one
(spec/10_state.md, spec/60_exceptions.md R530 to R547, spec/45_branch_call_trap_frame_return.md R446). -/

namespace Sys2Proof.Machine

/-- The free value of an item at this point of the run (notes/assumptions/3.md). -/
def State.free (s : State) (w : Nat) (item : FreeItem) : BitVec w := Config.freeValue w s.fresh item

/-- A free truth value. -/
def State.freeBit (s : State) (item : FreeItem) : Bool := s.free 1 item == 1#1

/-- The condition flags an instruction leaves undefined (D11). -/
def State.freeFlag (s : State) (i : Nat) : Option Bool := some (s.freeBit (.flag i))

/-! ### Registers -/

/-- Where an operand register lives. -/
inductive Place where
  | pc
  | sr
  | fer
  /-- G(i+3) -/
  | gpr (i : Fin 13)
  /-- the local register with this absolute number (R60) -/
  | loc (i : BitVec 6)
deriving DecidableEq, Repr

/-- "absolute local register address := (FP + register code) modulo 64" (R60). -/
def localIndex (sr : Word) (c : Nat) : BitVec 6 := BitVec.ofNat 6 ((srFP sr).toNat + c)

/-- G(c) for c = 0..15, the H window closed (R20). -/
def globalPlace (c : BitVec 4) : Place :=
  if c = 0#4 then .pc else if c = 1#4 then .sr else if c = 2#4 then .fer else .gpr (Fin.ofNat 13 (c.toNat - 3))

/-- The place a register field denotes, the H window closed (R197). -/
def place (r : Reg) (s : State) : Place :=
  match r with
  | .loc c => .loc (localIndex s.sr c.toNat)
  | .glob c => globalPlace c

/-- The register "with a register address one higher"; none after G15 (R10, D7). -/
def nextPlace (r : Reg) (s : State) : Option Place :=
  match r with
  | .loc c => some (.loc (localIndex s.sr (c.toNat + 1)))
  | .glob c => if c = 15#4 then none else some (globalPlace (c + 1#4))

/-- The local register with an absolute number (R60). -/
def State.getLocal (s : State) (i : BitVec 6) : Word := s.locals[i.toNat]

/-- Writing the local register with an absolute number. -/
def State.setLocal (s : State) (i : BitVec 6) (v : Word) : State := { s with locals := s.locals.set i.toNat v }

/-- The local register addressed relative to FP: Lr(c) (R11). -/
def State.lr (s : State) (c : Nat) : Word := s.getLocal (localIndex s.sr c)

/-- Writing Lr(c). -/
def State.setLr (s : State) (c : Nat) (v : Word) : State := s.setLocal (localIndex s.sr c) v

/-- The PC as an operand: the address after the instruction of `len` halfwords, in a delay slot of a taken delayed branch the
branch target (R23, R425). -/
def State.pcSeen (s : State) (len : Nat) : Word :=
  if s.delayPending then s.pc else s.pc + BitVec.ofNat 32 (2 * len)

/-- The content of a place; `len` is the length of the instruction that reads it. -/
def State.get (s : State) (len : Nat) : Place → Word
  | .pc => s.pcSeen len
  | .sr => s.sr
  | .fer => s.fer
  | .gpr i => s.gpr[i]
  | .loc i => s.getLocal i

/-- "Bit zero of the PC is always zero" (R22). -/
def clearBit0 (w : Word) : Word := w &&& 0xFFFFFFFE#32

/-- The SR with a result placed in its bits 15..0; the reserved bit 6 reads as any value after a one was written
(R25 (a), R32, I7.1). -/
def placeSR (sr v : Word) (bit6 : Bool) : Word :=
  setBit (setField sr 0 16 (v.extractLsb' 0 16)) 6 (v.getLsbD 6 && bit6)

/-- A result placed in a register other than by a branch. -/
def State.put (s : State) (p : Place) (v : Word) : State :=
  match p with
  | .pc => { s with pc := clearBit0 v }
  | .sr => { s with sr := placeSR s.sr v (s.freeBit .srBit6) }
  | .fer => { s with fer := v }
  | .gpr i => { s with gpr := s.gpr.set i v }
  | .loc i => s.setLocal i v

/-- The condition flags updated. -/
def State.withFlags (s : State) (f : FlagUpdate) : State := { s with sr := applyFlags f s.sr }

/-! ### The course of an instruction -/

/-- The address the instruction is fetched from: after a taken delayed branch, the delay instruction's (R425). -/
def State.fetchAddr (s : State) : Word := if s.delayPending then s.delayAddr else s.pc

/-- The instruction stands after a Delayed Branch, taken or not (R426, I2.11). -/
def State.inSlot (s : State) : Bool := s.delayPending || s.afterDelayedBranch

/-- Hprev: the H window is open for this instruction (R33). -/
def State.window (s : State) : Bool := srH s.sr

/-- User state (R40). -/
def State.user (s : State) : Bool := !srS s.sr

/-- The start of an instruction: H is cleared (R33), the lock-out of a CALL and of a Delayed Branch is used up (R532). -/
def State.opened (s : State) : State :=
  { s with sr := setH s.sr false, callLockout := false, afterDelayedBranch := false }

/-- The next draw of free values has a new number. -/
def State.bump (s : State) : State := { s with fresh := s.fresh + 1 }

/-- The implicit updates at the end of an instruction that is no branch taken (R22, R39, R41); in a delay slot of a taken
delayed branch the PC keeps the target and the ILC is invalid (R425). -/
def State.settle (s : State) (len : Nat) : State :=
  if s.delayPending then
    { s with delayPending := false, sr := setP (setILC s.sr (s.free 2 .ilc)) true }
  else { s with pc := s.pc + BitVec.ofNat 32 (2 * len), sr := setP (setILC s.sr (BitVec.ofNat 2 len)) true }

/-- The instruction is finished and control goes on sequentially. -/
def retire (len : Nat) (s : State) : Result := .next (s.settle len).bump

/-! ### The instruction cache -/

/-- By how many bytes address `a` is higher than `b` in the circle of 2^32 bytes, zero where it is not (D16). -/
def above (a b : Word) : Nat :=
  let d := (a - b).toNat
  if d < 2 ^ 31 then d else 0

/-- The higher of two words, the first where neither is (R128, D16). -/
def higher (low w : Word) : Word := if above w low = 0 then low else w

/-- The word the look-ahead counter holds where the prefetch has reached at least the word `w` (R128). -/
def State.reached (s : State) (w : Word) : Word := higher s.lookAhead w

/-- The bus lock after the words beyond `low` through `top` were fetched: an external one starts it where FCR(17) = 0 (R125,
R165). -/
def State.fetchLock (s : State) (low top : Word) : Bool :=
  s.busLock || (!s.fcr.getLsbD 17 && top != low &&
    (regionOf (low + 4#32) == .external || regionOf top == .external))

/-- The prefetch has run through the word `top`: the look-back counter is pushed so that at most 32 words are held (R127, R128). -/
def State.cachedTo (s : State) (top : Word) : State :=
  { s with
    lookAhead := top
    lookBack := if 124 < (top - s.lookBack).toNat then top - 124#32 else s.lookBack
    busLock := s.fetchLock s.lookAhead top }

/-- The prefetch has reached at least the word `w` (R128). -/
def State.prefetchTo (s : State) (w : Word) : State := s.cachedTo (s.reached w)

/-- The prefetch at an instruction that ends before `next`: the instruction itself is in the cache, and any number of words
through the eighth after the word that the PC addresses, by a free choice (R128, R129, notes/assumptions/46.md). -/
def State.prefetched (s : State) (next : Word) : State :=
  let base := s.reached (alignWord (next - 2#32))
  let room := above (alignWord next + 32#32) base / 4
  s.cachedTo (base + BitVec.ofNat 32 (4 * ((s.free 4 .prefetch).toNat % (room + 1))))

/-- "The branch target is treated as being in the cache": a backward target not below the look-back counter, a forward target not
higher than two words above the look-ahead counter (R130). -/
def State.inCache (s : State) (backward : Bool) (target : Word) : Bool :=
  if backward then above s.lookBack (alignWord target) == 0 else above (alignWord target) s.lookAhead ≤ 8

/-- "Any other branch taken flushes the cache by also placing the branch address in the look-back and the look-ahead counter.
Prefetch then starts immediately at the branch address" (R130). -/
def State.flush (s : State) (target : Word) : State :=
  { s with stale := [], lookBack := alignWord target, lookAhead := alignWord target }.noteAccess (regionOf target)

/-- The state after a branch taken, the cache apart (R24, R31, R41, D18). -/
def State.branched (s : State) (target : Word) : State :=
  { s with
    pc := clearBit0 target
    sr := setP (setM (setILC s.sr (s.free 2 .ilc)) false) true
    delayPending := false }

/-- The state after a branch taken other than by a Branch or Delayed Branch instruction: it flushes the cache (R130). -/
def State.jumped (s : State) (target : Word) : State := (s.branched target).flush target

/-- A branch taken ends the instruction. -/
def jump (target : Word) (s : State) : Result := .next (s.jumped target).bump

/-! ### The entry tables -/

/-- The memory area the entry tables are mapped to, as address bits 31..28; none for the reserved codes (R59, R209). -/
def tableBase (mcr : Word) : Option (BitVec 4) :=
  match (mcr.extractLsb' 12 3).toNat with
  | 0 => some 0x0#4
  | 1 => some 0x4#4
  | 2 => some 0x8#4
  | 3 => some 0xC#4
  | 7 => some 0xF#4
  | _ => none

/-- TrapEntry(k): FFFFFF00 + 4k in MEM3, x0000000 + 4(63 - k) elsewhere (R205, R206). -/
def trapEntry (mcr : Word) (k : Nat) : Option Word :=
  match tableBase mcr with
  | none => none
  | some x =>
    if x = 0xF#4 then some (0xFFFFFF00#32 + BitVec.ofNat 32 (4 * k))
    else some ((x ++ 0#28) + BitVec.ofNat 32 (4 * (63 - k)))

/-- SoftEntry(k): FFFFFE00 + 16k in MEM3, x000010C + 16(15 - k) elsewhere (R207, R208). -/
def softEntry (mcr : Word) (k : Nat) : Option Word :=
  match tableBase mcr with
  | none => none
  | some x =>
    if x = 0xF#4 then some (0xFFFFFE00#32 + BitVec.ofNat 32 (16 * k))
    else some ((x ++ 0#28) + BitVec.ofNat 32 (0x10C + 16 * (15 - k)))

/-! ### Taking an exception -/

/-- The word that saves a return address: PC(31..1)//S (R534). -/
def savedPC (pc : Word) (s : Bool) : Word := setBit pc 0 s

/-- The state after ExceptionEntry(k) at entry address `entry` (R534): the old PC with the old S and the old SR go to the two
local registers above the frame, a frame of two registers is made, S and L are set, M and T cleared, I set by an
interrupt; the saved SR and PC are those of `s` (R533). -/
def State.entered (s : State) (irq : Bool) (entry : Word) : State :=
  let fl := frameLength s.sr
  let saved := (s.setLr fl (savedPC s.pc (srS s.sr))).setLr (fl + 1) s.sr
  let sr1 := setFL (setFP s.sr (srFP s.sr + BitVec.ofNat 7 fl)) 2#4
  let sr2 := setL (setT (setM (setS sr1 true) false) false) true
  let sr3 := if irq then setI sr2 true else sr2
  { saved with
    sr := setH (setILC sr3 (s.free 2 .ilc)) false
    pc := clearBit0 entry
    delayPending := false
    afterDelayedBranch := false
    callLockout := false }.flush entry

/-- Exception processing through trap entry `k` (R534); the entry table must not be mapped by a reserved code (I11). -/
def takeException (k : Nat) (irq : Bool) (s : State) : Result :=
  match trapEntry s.mcr k with
  | some entry => .next (s.entered irq entry).bump
  | none => .fault .reservedEntryTable

/-- The state an error exception saves (R533): the next instruction's address and the causing instruction's length; for a
delay instruction after a taken delayed branch, its own address and the length of the Delayed Branch. -/
def State.settleError (s : State) (len : Nat) : State :=
  if s.delayPending then { s with delayPending := false, pc := s.delayAddr, sr := setP s.sr true }
  else { s with pc := s.pc + BitVec.ofNat 32 (2 * len), sr := setP (setILC s.sr (BitVec.ofNat 2 len)) true }

/-- Range, Pointer, Frame and Privilege Error share entry 60 (R541): the instruction has completed in `s`, then it traps. -/
def raiseError (len : Nat) (s : State) : Result := takeException 60 false (s.settleError len)

/-! ### The return from an exception -/

/-- The SR a Return restores: Rsf(31..21)//00//Rs(0)//Rsf(17..0) (R446). -/
def returnSR (a b : Word) : Word := setS (setILC b 0#2) (a.getLsbD 0)

/-- PC and SR replaced by a Return from the pair a//b (R446); P comes from b (R39), the cache is flushed (R130). -/
def State.returned (s : State) (a b : Word) : State :=
  { s with pc := clearBit0 a, sr := returnSR a b, delayPending := false }.flush a

/-- "if old S = 0 and S = 1 or S = 0 and old L = 0 and L = 1 then trap" (R446, R547). -/
def returnIllegal (old new : Word) : Bool :=
  (!srS old && srS new) || (!srS new && !srL old && srL new)

/-- One word pulled from the memory stack into the register part (R446). -/
def State.pull (s : State) : State :=
  let sp := s.sp - 4#32
  ({ s with sp := sp }.noteRead (regionOf sp) (alignWord sp) 4).setLocal (sp.extractLsb' 2 6) (s.readWord (regionOf sp) sp)

/-- `n` words pulled. -/
def State.pulls (s : State) : Nat → State
  | 0 => s
  | n + 1 => s.pull.pulls n

/-- The words a Return pulls: 128 - d for a negative 7-bit difference d = FP - SP(8..2) (R446). -/
def pullCount (sr sp : Word) : Nat :=
  let d := srFP sr - sp.extractLsb' 2 7
  if 64 ≤ d.toNat then 128 - d.toNat else 0

/-- The Return from a subprogram, a trap or an exception with the restored pair a//b (R446): an illegal one traps before
any word is pulled, with the restored PC and SR saved (R547). -/
def returnFrom (a b : Word) (s : State) : Result :=
  let t := s.returned a b
  if returnIllegal s.sr t.sr then takeException 60 false t
  else .next (t.pulls (pullCount t.sr t.sp)).bump

/-! ### The end of a register instruction -/

/-- A write to SR set L in user state (R545). -/
def locksInUser (old new : Word) : Bool := !srS old && !srL old && srL new

/-- The result and the flags written, the flags first so that a result placed in the SR overrules them (R25 (b)); then
Range Error if `trap`, or Privilege Error where a user program set L (R545, D17). -/
def finish (len : Nat) (p : Place) (v : Word) (f : FlagUpdate) (trap : Bool) (s : State) : Result :=
  let t := (s.withFlags f).put p v
  if trap || locksInUser s.sr t.sr then raiseError len t else retire len t

/-- As `finish`, for an instruction that may denote the PC as its destination: then it is a branch taken (R24, R280 (b)). -/
def finishBranch (len : Nat) (p : Place) (v : Word) (f : FlagUpdate) (s : State) : Result :=
  match p with
  | .pc => jump v (s.withFlags f)
  | p => finish len p v f false s

/-- Two results written, the second last (Rd then Rdf). -/
def finishPair (len : Nat) (p q : Place) (v w : Word) (f : FlagUpdate) (trap : Bool) (s : State) : Result :=
  let t := ((s.withFlags f).put p v).put q w
  if trap || locksInUser s.sr t.sr then raiseError len t else retire len t

/-- All four condition flags undefined. -/
def State.freeFlags (s : State) : FlagUpdate :=
  { c := s.freeFlag 0, z := s.freeFlag 1, n := s.freeFlag 2, v := s.freeFlag 3 }

/-- Z, N and V undefined, C kept (R546: MOV and MOVI do not write C). -/
def State.freeZNV (s : State) : FlagUpdate := { z := s.freeFlag 1, n := s.freeFlag 2, v := s.freeFlag 3 }

/-- A register field that names a global register. -/
def regIsGlobal (r : Reg) : Bool :=
  match r with
  | .glob _ => true
  | .loc _ => false

end Sys2Proof.Machine
end

