-- ==== Sys2Proof/Machine/Devices.lean ====
section
/-! DEFINITION. The high global registers, the pins, the timer, the IO3 control modes, the interrupt requests, power-down
and Reset (spec/10_state.md R47 to R59; spec/60_exceptions.md R548 to R570; spec/70_reset_and_hazards.md R590). -/

namespace Sys2Proof.Machine

/-! ### Pins -/

/-- FCR(13..12), the IO3 control mode (R58). -/
def io3Mode (fcr : Word) : BitVec 2 := fcr.extractLsb' 12 2

/-- The inactive level of every interrupt pin for the polarity that FCR programs: no pin requests
(spec/92_eei_decisions.md section 2, `PINS`). -/
def inactivePins (fcr : Word) : Pins where
  int := ~~~fcr.extractLsb' 24 4
  io := bit (!fcr.getLsbD 9) ++ bit (!fcr.getLsbD 5) ++ bit (!fcr.getLsbD 1)

/-- pin(IO1): the input level, IO1Polarity, or "Supervisor Flag XOR NOT IO1Polarity" (R562). -/
def State.pinIO1 (s : State) : Bool :=
  if s.fcr.getLsbD 2 then s.pins.io.getLsbD 0
  else if s.fcr.getLsbD 0 then s.fcr.getLsbD 1
  else srS s.sr ^^ !s.fcr.getLsbD 1

/-- pin(IO2); as an output with IO2Mask = 0 ("reserved") any level (I10, notes/assumptions/36.md). -/
def State.pinIO2 (s : State) : Bool :=
  if s.fcr.getLsbD 6 then s.pins.io.getLsbD 1
  else if s.fcr.getLsbD 4 then s.fcr.getLsbD 5
  else s.freeBit (.ioLevel 2)

/-- pin(IO3); in IO3Timing mode an output shows the toggle latch against IO3Polarity (R566); else as IO2. -/
def State.pinIO3 (s : State) : Bool :=
  if s.fcr.getLsbD 10 then s.pins.io.getLsbD 2
  else if io3Mode s.fcr = 1#2 then s.io3Toggle ^^ s.fcr.getLsbD 9
  else if s.fcr.getLsbD 8 then s.fcr.getLsbD 9
  else s.freeBit (.ioLevel 3)

/-- The content of ISR: EventFlag, EqualFlag, IO3..IO1, INT4..INT1 (R57). -/
def State.isr (s : State) : Word :=
  0#23 ++ bit s.eventFlag ++ bit s.equalFlag ++ bit s.pinIO3 ++ bit s.pinIO2 ++ bit s.pinIO1 ++ s.pins.int

/-! ### The IO3 control modes -/

/-- WCR(15..0) = TR(15..0) (R564). -/
def State.wcrEqualsTr (s : State) : Bool := s.wcr.extractLsb' 0 16 == s.tr.extractLsb' 0 16

/-- IO3Timing mode with IO3 as input: the event captures TR in WCR once; equality before the event sets EqualFlag (R566). -/
def State.io3TimingInput (s : State) : State :=
  let s1 :=
    if !s.eventFlag && (s.pinIO3 == s.fcr.getLsbD 9) then
      { s with eventFlag := true, wcr := (s.tr.extractLsb' 0 16).setWidth 32, wcrUpperOpen := false }
    else s
  if !s1.eventFlag && s1.wcrEqualsTr then { s1 with equalFlag := true } else s1

/-- IO3Timing mode with IO3 as output: equality sets EqualFlag, and toggles the latch when it has just become true (R566;
notes/assumptions/37.md). -/
def State.io3TimingOutput (s : State) (became : Bool) : State :=
  if s.wcrEqualsTr then { s with equalFlag := true, io3Toggle := s.io3Toggle ^^ became } else s

/-- The evaluation of rules R566, R567 and R568 whenever TR, WCR, the mode or a pin changes (R564); `became` says that a
change of TR or WCR has just made the equality true. -/
def State.evalIO3 (s : State) (became : Bool) : State :=
  match (io3Mode s.fcr).toNat with
  | 0 => if s.wcrEqualsTr then { s with equalFlag := true } else s
  | 1 => if s.fcr.getLsbD 10 then s.io3TimingInput else s.io3TimingOutput became
  | 2 => if s.wcrEqualsTr then { s with resetRequest := true } else s
  | _ => s

/-! ### The timer -/

/-- n = TPR(23..16) (R53). -/
def prescale (tpr : Word) : Nat := (tpr.extractLsb' 16 8).toNat

/-- One time unit: TR counts modulo 2^32 and the IO3 modes are evaluated (R559). -/
def State.tick (s : State) : State := { s with tr := s.tr + 1#32 }.evalIO3 true

/-- One processor clock cycle: every n + 2 cycles one time unit (R558). -/
def State.cycle (s : State) : State :=
  if prescale s.tpr + 1 ≤ s.prescaler then { s with prescaler := 0 }.tick
  else { s with prescaler := s.prescaler + 1 }

/-- Time goes on by `n` processor cycles (R559, D14). -/
def State.advance (s : State) : Nat → State
  | 0 => s
  | n + 1 => s.cycle.advance n

/-! ### The high global registers -/

/-- What code c denotes in the H window: G(c+16) (R20, R33). -/
inductive High where
  | sp | ub | bcr | tpr | tcr | tr | wcr | isr | fcr | mcr
  /-- G16, G17, G28..G31 (R47) -/
  | reserved
deriving DecidableEq, Repr

/-- G(c+16) by its code (R20). -/
def highOf (c : BitVec 4) : High :=
  match c.toNat with
  | 2 => .sp
  | 3 => .ub
  | 4 => .bcr
  | 5 => .tpr
  | 6 => .tcr
  | 7 => .tr
  | 8 => .wcr
  | 9 => .isr
  | 10 => .fcr
  | 11 => .mcr
  | _ => .reserved

/-- A read of WCR: "bits 31..16 are read as zero", but any value after a move that wrote them otherwise (R56, I7.2,
notes/assumptions/27.md). -/
def State.readWcr (s : State) : Word :=
  if s.wcrUpperOpen then s.free 16 .wcrUpper ++ s.wcr.extractLsb' 0 16 else s.wcr

/-- A read in the H window; the write-only and the reserved registers give any value (D4, D5, I5, I6). -/
def State.readHigh (s : State) : High → Word
  | .sp => s.sp
  | .ub => s.ub
  | .tcr => s.tcr
  | .tr => s.tr
  | .wcr => s.readWcr
  | .isr => s.isr
  | .bcr => s.free 32 .highRead
  | .tpr => s.free 32 .highRead
  | .fcr => s.free 32 .highRead
  | .mcr => s.free 32 .highRead
  | .reserved => s.free 32 .highRead

/-- A write to TR: it counts on from the new value, and the equality with WCR may become true (R559, R566). -/
def State.writeTr (s : State) (v : Word) : State :=
  let t := { s with tr := v }
  t.evalIO3 (!s.wcrEqualsTr && t.wcrEqualsTr)

/-- A move to WCR: only bits 15..0 are used, and both flags of ISR are cleared; bits 31..16 other than zero read back any value
(R56, R564, I7.2). -/
def State.writeWcr (s : State) (v : Word) : State :=
  let t := { s with
    wcr := (v.extractLsb' 0 16).setWidth 32
    wcrUpperOpen := v.extractLsb' 16 16 != 0#16
    equalFlag := false
    eventFlag := false }
  t.evalIO3 (!s.wcrEqualsTr && t.wcrEqualsTr)

/-- A write to FCR: bit 13 = 1 clears the flags of ISR and the toggle latch, bit 16 = 1 a saved Extended Overflow, bit 17 = 1
releases the bus lock (R58, R125, R548, R564); pins that no input has driven follow the polarity; then the mode in force is
evaluated. -/
def State.writeFcr (s : State) (v : Word) : State :=
  let s1 := { s with
    fcr := v
    pins := if s.pinsDriven then s.pins else inactivePins v
    busLock := s.busLock && !v.getLsbD 17 }
  let s2 := if v.getLsbD 13 then { s1 with equalFlag := false, eventFlag := false, io3Toggle := false } else s1
  let s3 := if v.getLsbD 16 then { s2 with extOvfPending := false } else s2
  s3.evalIO3 false

/-- A write to MCR: the transition of bit 22 from 1 to 0 starts power-down (R570); with the refresh of the IRAM disabled nothing
guarantees its contents (R112). -/
def State.writeMcr (s : State) (v : Word) : State :=
  { s with
    mcr := v
    powerDown := s.powerDown || (s.mcr.getLsbD 22 && !v.getLsbD 22)
    iramKept := if refreshes v then s.iramKept else [] }

/-- A supervisor's write in the H window; ISR and the reserved registers take none (D5). -/
def State.writeHigh (s : State) (h : High) (v : Word) : State :=
  match h with
  | .sp => { s with sp := v }
  | .ub => { s with ub := v }
  | .bcr => { s with bcr := v }
  | .tpr => { s with tpr := v, prescaler := 0 }
  | .tcr => { s with tcr := v }
  | .tr => s.writeTr v
  | .wcr => s.writeWcr v
  | .fcr => s.writeFcr v
  | .mcr => s.writeMcr v
  | .isr => s
  | .reserved => s

/-! ### Interrupt requests -/

/-- An interrupt source of R553. -/
inductive Source where
  | io3 | timer | int1 | int2 | int3 | int4 | io1 | io2
deriving DecidableEq, Repr

/-- The request of INTx, x = 1..4: FCR(27+x) = 0 and pin = FCR(23+x) (R553, R554). -/
def State.intRequest (s : State) (x : Nat) : Bool :=
  !s.fcr.getLsbD (27 + x) && (s.pins.int.getLsbD (x - 1) == s.fcr.getLsbD (23 + x))

/-- The request of IO3 as an input level (R555). -/
def State.io3InputRequest (s : State) : Bool :=
  s.fcr.getLsbD 10 && !s.fcr.getLsbD 8 && (s.pinIO3 == s.fcr.getLsbD 9)

/-- Request(IO3) in each control mode (R555, R566, R567); a reserved output may or may not request (I10). -/
def State.io3Request (s : State) : Bool :=
  match (io3Mode s.fcr).toNat with
  | 0 => s.equalFlag || s.io3InputRequest
  | 1 => !s.fcr.getLsbD 8 && (s.equalFlag || (s.fcr.getLsbD 10 && s.eventFlag))
  | _ =>
    if !s.fcr.getLsbD 10 && !s.fcr.getLsbD 8 then s.freeBit (.ioRequest 3) else s.io3InputRequest

/-- Request(IO2) as an input level; a reserved output may or may not request (R553, R555, I10). -/
def State.io2Request (s : State) : Bool :=
  if !s.fcr.getLsbD 6 && !s.fcr.getLsbD 4 then s.freeBit (.ioRequest 2)
  else s.fcr.getLsbD 6 && !s.fcr.getLsbD 4 && (s.pinIO2 == s.fcr.getLsbD 5)

/-- Request(Timer): FCR(23) = 0 and (TR - TCR)(31) = 0 (R560). -/
def State.timerRequest (s : State) : Bool := !s.fcr.getLsbD 23 && !(s.tr - s.tcr).getLsbD 31

/-- Request(q) of R553. -/
def State.request (s : State) : Source → Bool
  | .io3 => s.io3Request
  | .timer => s.timerRequest
  | .int1 => s.intRequest 1
  | .int2 => s.intRequest 2
  | .int3 => s.intRequest 3
  | .int4 => s.intRequest 4
  | .io1 => s.fcr.getLsbD 2 && !s.fcr.getLsbD 0 && (s.pinIO1 == s.fcr.getLsbD 1)
  | .io2 => s.io2Request

/-- The priority of a source, 0 the highest: the timer's is set by FCR(21..20) (R553). -/
def priority (fcr : Word) : Source → Nat
  | .io3 => 5
  | .timer => 12 - 2 * (fcr.extractLsb' 20 2).toNat
  | .int1 => 7
  | .int2 => 9
  | .int3 => 11
  | .int4 => 13
  | .io1 => 14
  | .io2 => 15

/-- The trap entry of a source (R553). -/
def Source.entry : Source → Nat
  | .io3 => 54
  | .timer => 55
  | .int1 => 53
  | .int2 => 52
  | .int3 => 51
  | .int4 => 50
  | .io1 => 49
  | .io2 => 48

/-- Every source. -/
def sources : List Source := [.io3, .timer, .int1, .int2, .int3, .int4, .io1, .io2]

/-- Some interrupt source is requesting and L = 0: the wake-up condition of power-down (R570, D25). -/
def State.wakes (s : State) : Bool := !srL s.sr && sources.any s.request

/-! ### Reset -/

/-- A register after a run-time Reset: any value (I4.10). -/
def State.undefinedWord (s : State) (i : Nat) : Word := s.free 32 (.resetWord i)

/-- The cells of the IRAM after a run-time Reset: any contents, in the canonical form. -/
def State.undefinedIram (s : State) : List Host.Cell :=
  (List.range 4096).filterMap fun i =>
    if s.free 8 (.iramByte i) = Memory.unlisted then none else some (0xC0000000 + i, s.free 8 (.iramByte i))

/-- SR after a run-time Reset: FL = 2, S = 1, L = 1, T = 0, M = 0, every other field any value (R590). -/
def State.undefinedSR (s : State) : Word :=
  setFL (setS (setL (setT (setM (s.undefinedWord 0) false) false) true) true) 2#4

/-- Reset of a running system (R590, D20): what the Reset sequence states, every other register any value, the external
memory kept (notes/assumptions/35.md). -/
def State.afterReset (s : State) : State where
  pc := 0xFFFFFFF8#32
  sr := s.undefinedSR
  fer := s.undefinedWord 1
  gpr := Vector.ofFn fun i => s.undefinedWord (3 + i.val)
  sp := s.undefinedWord 16
  ub := s.undefinedWord 17
  bcr := 0xFFFFFFFF#32
  tpr := s.undefinedWord 18
  tcr := s.undefinedWord 19
  tr := s.undefinedWord 20
  wcr := ((s.undefinedWord 21).extractLsb' 0 16).setWidth 32
  wcrUpperOpen := false
  equalFlag := false
  eventFlag := false
  fcr := 0xFFFFFFFF#32
  mcr := 0xFFFFFFFF#32
  locals := Vector.ofFn fun i => s.undefinedWord (32 + i.val)
  mem := s.mem.filter (fun c => decide (c.1 < 0xC0000000)) ++ s.undefinedIram
    ++ s.mem.filter (fun c => decide (0xE0000000 ≤ c.1))
  iramKept := []
  iramRelied := s.iramRelied
  stale := []
  lookBack := 0xFFFFFFF8#32
  lookAhead := 0xFFFFFFF8#32
  busLock := false
  delayPending := false
  delayAddr := s.undefinedWord 22
  slotAhead := none
  afterDelayedBranch := false
  callLockout := false
  extOvfPending := false
  parityPending := false
  prescaler := (s.undefinedWord 23).toNat
  io3Toggle := false
  powerDown := false
  resetRequest := false
  pins := if s.pinsDriven then s.pins else inactivePins 0xFFFFFFFF#32
  pinsDriven := s.pinsDriven
  platform := s.platform
  inputs := s.inputs
  between := []
  ioTrace := s.ioTrace
  fresh := s.fresh + 1

end Sys2Proof.Machine
end

