-- ==== Sys2Proof/Machine/Operands.lean ====
section
/-! DEFINITION. The operand forms: immediates, the special meanings of register codes, the checks an instruction makes
before it runs, and the shapes of register instructions that the meanings share
(spec/30_encoding.md R187 to R197; spec/41_move_logical.md R280; spec/93_implementation_defined.md B.1). -/

namespace Sys2Proof.Machine

/-! ### Immediates -/

/-- The value of `imm` as a function of n, n other than 17, 18, 19 (R194); `top` is the value of n = 31. -/
def immCode (top : Word) (n : BitVec 5) : Word :=
  if n.toNat ≤ 16 then n.setWidth 32
  else
    match n.toNat with
    | 20 => 32#32
    | 21 => 64#32
    | 22 => 128#32
    | 23 => 0x80000000#32
    | 31 => top
    | k => BitVec.ofInt 32 ((k : Int) - 32)

/-- The value of `imm` with a given value of n = 31 (R194). -/
def immWith (top : Word) : Imm → Word
  | .code n => immCode top n
  | .word v => v
  | .low v => 0#16 ++ v
  | .ones v => 0xFFFF#16 ++ v

/-- `imm` of every Rimm instruction but CMPBI and ANDNI: n = 31 is -1 (R194). -/
def immValue : Imm → Word := immWith 0xFFFFFFFF#32

/-- `imm` of CMPBI and ANDNI: n = 31 is 2^31 - 1 (R194). -/
def immMaskValue : Imm → Word := immWith 0x7FFFFFFF#32

/-- n = 0: CZ at ADDI and ADDSI, ANYBZ at CMPBI (R194). -/
def immIsZeroCode (imm : Imm) : Bool := imm == .code 0#5

/-- const, sign-extended (R189). -/
def constValue : Const → Word
  | .short v => v.signExtend 32
  | .long v => v.signExtend 32

/-- dis, sign-extended (R191). -/
def disValue : Dis → Word
  | .short v => v.signExtend 32
  | .long v => v.signExtend 32

/-- lim, zero-extended (R193). -/
def limValue : Lim → Word
  | .short v => v.setWidth 32
  | .long v => v.setWidth 32

/-- rel: sign-extended and doubled, its bit 0 is 0 (R188). -/
def relValue : Rel → Word
  | .short v => (v ++ 0#1).signExtend 32
  | .long v => (v ++ 0#1).signExtend 32

/-! ### The checks before an instruction runs -/

/-- With the H window open, an instruction other than MOV and MOVI that denotes a global register: as a destination in user
state it is a Privilege Error with the condition flags undefined (R280 (e), R406, R546), else it is refused (I2.15). -/
def windowGuard (len : Nat) (dst : Option Reg) (srcs : List Reg) (s : State) : Option Result :=
  if !s.window then none
  else if (dst.any regIsGlobal) && s.user then
    some (raiseError len (s.opened.withFlags s.freeFlags))
  else if dst.any regIsGlobal || srcs.any regIsGlobal then some (.refused .highGlobalWindow)
  else none

/-- The PC as destination of an instruction outside the list of R420 is refused (I2.10). -/
def pcGuard (dst : Reg) : Option Result := if dst.isPC then some (.refused .pcDestination) else none

/-- An instruction with the PC as destination is a branching instruction: refused in a delay slot (I2.11). -/
def slotGuard (s : State) : Option Result := if s.inSlot then some (.refused .delayInstruction) else none

/-- The first check that stops, or the instruction. -/
def guarded (check : Option Result) (run : Result) : Result :=
  match check with
  | some stop => stop
  | none => run

/-- The second check where the first lets the instruction go on. -/
def andThen (first second : Option Result) : Option Result :=
  match first with
  | some stop => some stop
  | none => second

/-! ### Shapes of register instructions -/

/-- The result of a register instruction: its value, its flags, and whether it traps to Range Error. -/
structure Computed where
  value : Word
  flags : FlagUpdate
  trap : Bool := false

/-- The source operand of ADD, SUB, NEG, SUM and their like, and of CMP: C where Rs denotes the SR (R311). -/
def sourceOrCarry (len : Nat) (rs : Reg) (s : State) : Word :=
  if rs.isSR then carryWord (srC s.sr) else s.get len (place rs s)

/-- The source operand where the SR has no special meaning (R280 (d)). -/
def source (len : Nat) (rs : Reg) (s : State) : Word := s.get len (place rs s)

/-- A register instruction that must not have the PC as destination: the checks, then all sources read, then the result. -/
def registerOp (len : Nat) (dst : Reg) (srcs : List Reg) (compute : State → Computed) (s : State) : Result :=
  guarded (andThen (windowGuard len (some dst) srcs s) (pcGuard dst))
    (let r := compute s.opened
     finish len (place dst s) r.value r.flags r.trap s.opened)

/-- A register instruction that may have the PC as destination (ADD, ADDI, SUM, SUB, R420). -/
def branchableOp (len : Nat) (dst : Reg) (srcs : List Reg) (compute : State → Computed) (s : State) : Result :=
  guarded (andThen (windowGuard len (some dst) srcs s) (if dst.isPC then slotGuard s else none))
    (let r := compute s.opened
     finishBranch len (place dst s) r.value r.flags s.opened)

/-- An instruction that only sets flags or only traps: no register is written. -/
def testOp (len : Nat) (srcs : List Reg) (compute : State → FlagUpdate × Bool) (s : State) : Result :=
  guarded (windowGuard len none srcs s)
    (let r := compute s.opened
     let t := s.opened.withFlags r.1
     if r.2 then raiseError len t else retire len t)

/-- A result pair for Rd//Rdf, the high-order word first. -/
structure ComputedPair where
  high : Word
  low : Word
  flags : FlagUpdate
  trap : Bool := false

/-- An instruction with a register pair Rd//Rdf as destination: the PC is refused (I2.10), and so is G15, which no register
follows (I2.14). -/
def pairOp (dst : Reg) (srcs : List Reg) (compute : State → Place → ComputedPair) (s : State) : Result :=
  guarded (andThen (windowGuard 1 (some dst) srcs s) (pcGuard dst))
    (match nextPlace dst s with
     | none => .refused .followerOfG15
     | some q =>
       let r := compute s.opened q
       finishPair 1 (place dst s) q r.high r.low r.flags r.trap s.opened)

/-- A double-word X//Xf (R8). -/
def double (hi lo : Word) : Double := hi ++ lo

/-- The high-order word of a double-word. -/
def highWord (d : Double) : Word := d.extractLsb' 32 32

/-- The low-order word of a double-word. -/
def lowWord (d : Double) : Word := d.extractLsb' 0 32

end Sys2Proof.Machine
end

