-- ==== Sys2Proof/Machine/Arithmetic.lean ====
section
/-! DEFINITION. Integer arithmetic: add, sum, subtract, negate, multiply, divide (spec/42_arithmetic.md). -/

namespace Sys2Proof.Machine

/-- The trapping (signed) forms leave C unchanged (R312) and trap to Range Error on overflow (R310). -/
def trapping (r : Word) (f : FlagUpdate) : Computed :=
  { value := r, flags := { f with c := none }, trap := f.v == some true }

/-- a + b + c with its flags (R313, R315, R318). -/
def sumOf (a b : Word) (c : Bool) : Computed :=
  let r := a + b + carryWord c
  { value := r, flags := addFlags a b c r }

/-- a - b - c with its flags (R320, R322, R323). -/
def differenceOf (a b : Word) (c : Bool) : Computed :=
  let r := a - b - carryWord c
  { value := r, flags := subFlags a b c r }

/-- The result with C unchanged and the trap on overflow (R310, R312). -/
def Computed.trapped (r : Computed) : Computed := trapping r.value r.flags

/-- At ADDC and SUBC "Z is cleared if Rd is not 0, otherwise left unchanged" (R315, R322). -/
def Computed.stickyZ (r : Computed) (z : Bool) : Computed :=
  { r with flags := { r.flags with z := some (z && r.value == 0#32) } }

/-- ADD Rd, Rs; C is added where Rs denotes the SR (R313). -/
def execAdd (rd rs : Reg) (s : State) : Result :=
  branchableOp 1 rd [rs] (fun t => sumOf (source 1 rd t) (sourceOrCarry 1 rs t) false) s

/-- ADDS Rd, Rs (R314). -/
def execAdds (rd rs : Reg) (s : State) : Result :=
  registerOp 1 rd [rs] (fun t => (sumOf (source 1 rd t) (sourceOrCarry 1 rs t) false).trapped) s

/-- The second operand of ADDC and SUBC: C is used once where Rs denotes the SR (R315, R322). -/
def sourceBesideCarry (rs : Reg) (s : State) : Word := if rs.isSR then 0#32 else source 1 rs s

/-- ADDC Rd, Rs (R315). -/
def execAddc (rd rs : Reg) (s : State) : Result :=
  registerOp 1 rd [rs] (fun t =>
    (sumOf (source 1 rd t) (sourceBesideCarry rs t) (srC t.sr)).stickyZ (srZ t.sr)) s

/-- The second operand of ADDI and ADDSI: n = 0 is CZ, C added "round to even" (R316). -/
def immOrCZ (imm : Imm) (a : Word) (s : State) : Word :=
  if immIsZeroCode imm then carryWord (srC s.sr && (!srZ s.sr || a.getLsbD 0)) else immValue imm

/-- ADDI Rd, imm (R316). -/
def execAddi (rd : Reg) (imm : Imm) (s : State) : Result :=
  branchableOp imm.length rd [] (fun t =>
    sumOf (source imm.length rd t) (immOrCZ imm (source imm.length rd t) t) false) s

/-- ADDSI Rd, imm (R317). -/
def execAddsi (rd : Reg) (imm : Imm) (s : State) : Result :=
  registerOp imm.length rd [] (fun t =>
    (sumOf (source imm.length rd t) (immOrCZ imm (source imm.length rd t) t) false).trapped) s

/-- SUM Rd, Rs, const (R318). -/
def execSum (rd rs : Reg) (c : Const) (s : State) : Result :=
  branchableOp c.length rd [rs] (fun t => sumOf (sourceOrCarry c.length rs t) (constValue c) false) s

/-- SUMS Rd, Rs, const (R319). -/
def execSums (rd rs : Reg) (c : Const) (s : State) : Result :=
  registerOp c.length rd [rs] (fun t => (sumOf (sourceOrCarry c.length rs t) (constValue c) false).trapped) s

/-- SUB Rd, Rs (R320). -/
def execSub (rd rs : Reg) (s : State) : Result :=
  branchableOp 1 rd [rs] (fun t => differenceOf (source 1 rd t) (sourceOrCarry 1 rs t) false) s

/-- SUBS Rd, Rs (R321). -/
def execSubs (rd rs : Reg) (s : State) : Result :=
  registerOp 1 rd [rs] (fun t => (differenceOf (source 1 rd t) (sourceOrCarry 1 rs t) false).trapped) s

/-- SUBC Rd, Rs (R322). -/
def execSubc (rd rs : Reg) (s : State) : Result :=
  registerOp 1 rd [rs] (fun t =>
    (differenceOf (source 1 rd t) (sourceBesideCarry rs t) (srC t.sr)).stickyZ (srZ t.sr)) s

/-- NEG Rd, Rs (R323). -/
def execNeg (rd rs : Reg) (s : State) : Result :=
  registerOp 1 rd [rs] (fun t => differenceOf 0#32 (sourceOrCarry 1 rs t) false) s

/-- NEGS Rd, Rs (R324). -/
def execNegs (rd rs : Reg) (s : State) : Result :=
  registerOp 1 rd [rs] (fun t => (differenceOf 0#32 (sourceOrCarry 1 rs t) false).trapped) s

/-! ### Multiply -/

/-- "The result is undefined if the PC or the SR is denoted" (R325 to R329; notes/assumptions/24.md). -/
def denotesPcOrSr (rd rs : Reg) : Bool := rd.isPC || rd.isSR || rs.isPC || rs.isSR

/-- An undefined double-word result. -/
def State.freeDouble (s : State) : Double := double (s.free 32 (.result 0)) (s.free 32 (.result 1))

/-- MUL Rd, Rs: the low-order product word; V and C undefined (R325). -/
def execMul (rd rs : Reg) (s : State) : Result :=
  registerOp 1 rd [rs] (fun t =>
    let r := if denotesPcOrSr rd rs then t.free 32 (.result 0) else source 1 rd t * source 1 rs t
    { value := r, flags := { c := t.freeFlag 0, z := some (r == 0#32), n := some (sign r), v := t.freeFlag 3 } }) s

/-- The flags of a double-word product (R326, R327). -/
def State.productFlags (s : State) (p : Double) : FlagUpdate :=
  { c := s.freeFlag 0, z := some (p == 0#64), n := some (p.getLsbD 63), v := s.freeFlag 3 }

/-- The shape of MULS and MULU. -/
def multiplyDouble (rd rs : Reg) (product : Word → Word → Double) (s : State) : Result :=
  pairOp rd [rs] (fun t _ =>
    let p := if denotesPcOrSr rd rs then t.freeDouble else product (source 1 rd t) (source 1 rs t)
    { high := highWord p, low := lowWord p, flags := t.productFlags p }) s

/-- MULS Rd, Rs: the signed double-word product (R326). -/
def execMuls (rd rs : Reg) (s : State) : Result :=
  multiplyDouble rd rs (fun a b => a.signExtend 64 * b.signExtend 64) s

/-- MULU Rd, Rs: the unsigned double-word product (R327). -/
def execMulu (rd rs : Reg) (s : State) : Result :=
  multiplyDouble rd rs (fun a b => a.setWidth 64 * b.setWidth 64) s

/-! ### Divide -/

/-- Quotient and remainder of a division that does not trap. -/
structure Division where
  quotient : Word
  remainder : Word

/-- DIVS: none where the divisor is zero, the dividend negative or the quotient out of range (R328). -/
def divideSigned (d : Double) (u : Word) : Option Division :=
  let n : Int := d.toNat
  let q := n.tdiv u.toInt
  if u = 0#32 ∨ d.getLsbD 63 ∨ outsideSigned 32 q then none
  else some { quotient := BitVec.ofInt 32 q, remainder := BitVec.ofInt 32 (n - q * u.toInt) }

/-- DIVU: none where the divisor is zero or the quotient out of range (R329). -/
def divideUnsigned (d : Double) (u : Word) : Option Division :=
  if u = 0#32 ∨ 2 ^ 32 ≤ d.toNat / u.toNat then none
  else some { quotient := BitVec.ofNat 32 (d.toNat / u.toNat), remainder := BitVec.ofNat 32 (d.toNat % u.toNat) }

/-- The result of a division: the remainder in Rd, the quotient in Rdf; where it traps they, Z and N are undefined and V is
1 (R328, R329). -/
def State.divided (s : State) : Option Division → ComputedPair
  | some r =>
    { high := r.remainder, low := r.quotient,
      flags := { z := some (r.quotient == 0#32), n := some (sign r.quotient), v := some false } }
  | none =>
    { high := s.free 32 (.result 0), low := s.free 32 (.result 1),
      flags := { z := s.freeFlag 1, n := s.freeFlag 2, v := some true }, trap := true }

/-- A division whose result is undefined: any Rd, Rdf, Z, N, V, and Range Error if V comes out 1 (I4.4). -/
def State.undefinedDivision (s : State) : ComputedPair :=
  { high := s.free 32 (.result 0), low := s.free 32 (.result 1), flags := s.freeZNV, trap := s.freeBit (.flag 3) }

/-- The shape of DIVS and DIVU. -/
def divideOp (rd rs : Reg) (divide : Double → Word → Option Division) (s : State) : Result :=
  pairOp rd [rs] (fun t q =>
    if denotesPcOrSr rd rs || place rs t == place rd t || place rs t == q then t.undefinedDivision
    else t.divided (divide (double (source 1 rd t) (t.get 1 q)) (source 1 rs t))) s

/-- DIVS Rd, Rs (R328). -/
def execDivs (rd rs : Reg) (s : State) : Result := divideOp rd rs divideSigned s

/-- DIVU Rd, Rs (R329). -/
def execDivu (rd rs : Reg) (s : State) : Result := divideOp rd rs divideUnsigned s

end Sys2Proof.Machine
end

