-- ==== Sys2Proof/Machine/Control.lean ====
section
/-! DEFINITION. Branch, delayed branch, call, trap, frame and return (spec/45_branch_call_trap_frame_return.md). -/

namespace Sys2Proof.Machine

/-! ### Branch -/

/-- "PC + rel (relative to the address of the first byte after the Branch instruction)" (R422). -/
def branchTarget (rel : Rel) (s : State) : Word := s.pcSeen rel.length + relValue rel

/-- A Branch or Delayed Branch taken leaves the instruction cache: the two-halfword form "always flushes", the one-halfword form
unless its target is in the cache; `waits` is whether a forward target out of the cache leaves the counters, until the prefetch has
reached it (R130). -/
def State.leavesCache (s : State) (waits : Bool) (rel : Rel) (target : Word) : Bool :=
  match rel with
  | .long _ => false
  | .short r => s.inCache r.msb target || (waits && !r.msb)

/-- What a Branch or Delayed Branch taken does to the instruction cache (R130). -/
def State.branchCache (s : State) (waits : Bool) (rel : Rel) (target : Word) : State :=
  let keeps := s.leavesCache waits rel target
  let t := s.flush target
  { s with
    stale := if keeps then s.stale else t.stale
    lookBack := if keeps then s.lookBack else t.lookBack
    lookAhead := if keeps then s.lookAhead else t.lookAhead
    busLock := if keeps then s.busLock else t.busLock }

/-- What a Branch does, and a Delayed Branch misplaced in a delay slot, which flushes the cache whatever its length (R422,
R426 (b), R130). -/
def branchAlways (misplaced : Bool) (c : Cond) (rel : Rel) (s : State) : Result :=
  if c.holds s.sr then
    let target := branchTarget rel s
    if misplaced then jump target s.opened
    else .next ((s.opened.branched target).branchCache false rel target).bump
  else retire rel.length s.opened

/-- The Branch instructions: refused as delay instructions (R426 (b), I2.11). -/
def branchOp (c : Cond) (rel : Rel) (s : State) : Result := guarded (slotGuard s) (branchAlways false c rel s)

/-! ### Delayed branch -/

/-- The state after a taken Delayed Branch: the PC holds the target, the delay instruction is next (R424); with M = 1 a forward
target out of the cache does not flush it (R130, R131); what a flush removes of the prefetch is kept for the delay instruction. -/
def State.delayed (s : State) (rel : Rel) : State :=
  let next := s.pc + BitVec.ofNat 32 (2 * rel.length)
  let target := branchTarget rel s
  { s with
    pc := clearBit0 target
    delayPending := true
    delayAddr := next
    slotAhead := if s.leavesCache (srM s.sr) rel target then none else some s.lookAhead
    afterDelayedBranch := true
    sr := setP (setILC s.sr (BitVec.ofNat 2 rel.length)) true }.branchCache (srM s.sr) rel target

/-- The Delayed Branch instructions (R424); "a misplaced Delayed Branch instruction would be executed like the corresponding
non-delayed Branch instruction", and it flushes the cache as any branch taken in a delay slot (R426 (b), R130;
notes/assumptions/28.md). -/
def delayedBranchOp (c : Cond) (rel : Rel) (s : State) : Result :=
  if s.inSlot then branchAlways true c rel s
  else if c.holds s.sr then .next (s.opened.delayed rel).bump
  else .next { (s.opened.settle rel.length).bump with afterDelayedBranch := true }

/-- BV rel (R640). -/
def execBv (rel : Rel) (s : State) : Result := branchOp .v rel s

/-- BNV rel (R641). -/
def execBnv (rel : Rel) (s : State) : Result := branchOp .nv rel s

/-- BE rel (R642). -/
def execBe (rel : Rel) (s : State) : Result := branchOp .e rel s

/-- BNE rel (R643). -/
def execBne (rel : Rel) (s : State) : Result := branchOp .ne rel s

/-- BST rel (R644). -/
def execBst (rel : Rel) (s : State) : Result := branchOp .st rel s

/-- BHE rel (R645). -/
def execBhe (rel : Rel) (s : State) : Result := branchOp .he rel s

/-- BSE rel (R646). -/
def execBse (rel : Rel) (s : State) : Result := branchOp .se rel s

/-- BHT rel (R647). -/
def execBht (rel : Rel) (s : State) : Result := branchOp .ht rel s

/-- BLT rel (R648). -/
def execBlt (rel : Rel) (s : State) : Result := branchOp .lt rel s

/-- BGE rel (R649). -/
def execBge (rel : Rel) (s : State) : Result := branchOp .ge rel s

/-- BLE rel (R650). -/
def execBle (rel : Rel) (s : State) : Result := branchOp .le rel s

/-- BGT rel (R651). -/
def execBgt (rel : Rel) (s : State) : Result := branchOp .gt rel s

/-- BR rel (R652). -/
def execBr (rel : Rel) (s : State) : Result := branchOp .always rel s

/-- DBV rel (R653). -/
def execDbv (rel : Rel) (s : State) : Result := delayedBranchOp .v rel s

/-- DBNV rel (R654). -/
def execDbnv (rel : Rel) (s : State) : Result := delayedBranchOp .nv rel s

/-- DBE rel (R655). -/
def execDbe (rel : Rel) (s : State) : Result := delayedBranchOp .e rel s

/-- DBNE rel (R656). -/
def execDbne (rel : Rel) (s : State) : Result := delayedBranchOp .ne rel s

/-- DBST rel (R657). -/
def execDbst (rel : Rel) (s : State) : Result := delayedBranchOp .st rel s

/-- DBHE rel (R658). -/
def execDbhe (rel : Rel) (s : State) : Result := delayedBranchOp .he rel s

/-- DBSE rel (R659). -/
def execDbse (rel : Rel) (s : State) : Result := delayedBranchOp .se rel s

/-- DBHT rel (R660). -/
def execDbht (rel : Rel) (s : State) : Result := delayedBranchOp .ht rel s

/-- DBLT rel (R661). -/
def execDblt (rel : Rel) (s : State) : Result := delayedBranchOp .lt rel s

/-- DBGE rel (R662). -/
def execDbge (rel : Rel) (s : State) : Result := delayedBranchOp .ge rel s

/-- DBLE rel (R663). -/
def execDble (rel : Rel) (s : State) : Result := delayedBranchOp .le rel s

/-- DBGT rel (R664). -/
def execDbgt (rel : Rel) (s : State) : Result := delayedBranchOp .gt rel s

/-- DBR rel (R665). -/
def execDbr (rel : Rel) (s : State) : Result := delayedBranchOp .always rel s

/-! ### New stack frames -/

/-- The SR whose frame begins `n` registers higher with a frame length of `fl` (R430, R434, R501). -/
def raiseFrame (sr : Word) (n : Nat) (fl : BitVec 4) : Word := setFL (setFP sr (srFP sr + BitVec.ofNat 7 n)) fl

/-! ### Call -/

/-- "Ld-code 0 is treated as 16" (R430). -/
def callOffset (ld : BitVec 4) : Nat := if ld = 0#4 then 16 else ld.toNat

/-- The state after a CALL (R430): the return address with S and the old SR with the length of the CALL are saved, the frame
raised; exceptions are locked out for one instruction (R431). The target was computed before. -/
def State.called (s : State) (ld : BitVec 4) (len : Nat) (target : Word) : State :=
  let n := callOffset ld
  let t := s.opened
  let saved := (t.setLr n (savedPC (t.pcSeen len) (srS t.sr))).setLr (n + 1) (setILC s.sr (BitVec.ofNat 2 len))
  { ({ saved with sr := raiseFrame saved.sr n 6#4 }).jumped target with callLockout := true }

/-- CALL Ld, Rs, const (R430); refused as a delay instruction (I2.11). -/
def execCall (ld : BitVec 4) (rs : Reg) (c : Const) (s : State) : Result :=
  guarded (andThen (windowGuard c.length none [rs] s) (slotGuard s))
    (let base := if rs.isSR then 0#32 else source c.length rs s.opened
     .next (s.called ld c.length (base + constValue c)).bump)

/-! ### Trap -/

/-- The state after a Trap instruction is taken (R434): the return address with S and the old SR with ILC = 1 are saved above
the frame, a frame of six registers is made, S and L are set, M and T cleared. -/
def State.trapped (s : State) (entry : Word) : State :=
  let fl := frameLength s.sr
  let t := s.opened
  let saved := (t.setLr fl (savedPC (t.pcSeen 1) (srS t.sr))).setLr (fl + 1) (setILC s.sr 1#2)
  let sr := setL (setT (setS (raiseFrame saved.sr fl 6#4) true) false) true
  { saved with sr := sr }.jumped entry

/-- The Trap instructions (R434); refused as delay instructions (I2.11); a reserved entry table mapping stops (I11). -/
def trapOp (c : Cond) (k : BitVec 6) (s : State) : Result :=
  guarded (slotGuard s)
    (if c.holds s.sr then
       match trapEntry s.mcr k.toNat with
       | some entry => .next (s.trapped entry).bump
       | none => .fault .reservedEntryTable
     else retire 1 s.opened)

/-- TRAPLE trapno (R666). -/
def execTraple (k : BitVec 6) (s : State) : Result := trapOp .le k s

/-- TRAPGT trapno (R667). -/
def execTrapgt (k : BitVec 6) (s : State) : Result := trapOp .gt k s

/-- TRAPLT trapno (R668). -/
def execTraplt (k : BitVec 6) (s : State) : Result := trapOp .lt k s

/-- TRAPGE trapno (R669). -/
def execTrapge (k : BitVec 6) (s : State) : Result := trapOp .ge k s

/-- TRAPSE trapno (R670). -/
def execTrapse (k : BitVec 6) (s : State) : Result := trapOp .se k s

/-- TRAPHT trapno (R671). -/
def execTrapht (k : BitVec 6) (s : State) : Result := trapOp .ht k s

/-- TRAPST trapno (R672). -/
def execTrapst (k : BitVec 6) (s : State) : Result := trapOp .st k s

/-- TRAPHE trapno (R673). -/
def execTraphe (k : BitVec 6) (s : State) : Result := trapOp .he k s

/-- TRAPE trapno (R674). -/
def execTrape (k : BitVec 6) (s : State) : Result := trapOp .e k s

/-- TRAPNE trapno (R675). -/
def execTrapne (k : BitVec 6) (s : State) : Result := trapOp .ne k s

/-- TRAPV trapno (R676). -/
def execTrapv (k : BitVec 6) (s : State) : Result := trapOp .v k s

/-- TRAP trapno (R677). -/
def execTrap (k : BitVec 6) (s : State) : Result := trapOp .always k s

/-! ### Frame -/

/-- The words a FRAME pushes: 128 - d for a negative 7-bit difference d = SP(8..2) + 54 - (FP + FL') (R440). -/
def pushCount (sr sp : Word) : Nat :=
  let d := sp.extractLsb' 2 7 + 54#7 - (srFP sr + BitVec.ofNat 7 (frameLength sr))
  if 64 ≤ d.toNat then 128 - d.toNat else 0

/-- One word pushed from the register part to the memory part of the stack (R440). -/
def State.push (s : State) : State :=
  { (s.noteAccess (regionOf s.sp)).writeWord (regionOf s.sp) s.sp (s.getLocal (s.sp.extractLsb' 2 6)) with sp := s.sp + 4#32 }

/-- `n` words pushed. -/
def State.pushes (s : State) : Nat → State
  | 0 => s
  | n + 1 => s.push.pushes n

/-- FP, FL and M as FRAME leaves them (R440). -/
def frameSR (sr : Word) (ld ls : BitVec 4) : Word :=
  setM (setFL (setFP sr (srFP sr - BitVec.ofNat 7 ls.toNat)) ld) false

/-- FRAME Ld, Ls: both fields are numbers; Frame Error after the pushes where SP was not below UB before them (R440, R544). -/
def execFrame (ld ls : BitVec 4) (s : State) : Result :=
  let t := { s.opened with sr := frameSR s.opened.sr ld ls }
  let n := pushCount t.sr t.sp
  if 0 < n ∧ t.ub.toNat ≤ t.sp.toNat then raiseError 1 (t.pushes n) else retire 1 (t.pushes n)

/-! ### Return -/

/-- RET PC, Rs (R446): the PC or the SR as Rs is refused (I2.9), and so is a delay slot (I2.11). Its PC field denotes G16 in the
H window. -/
def execRet (rs : Reg) (s : State) : Result :=
  guarded
    (andThen (windowGuard 1 (some .pc) [rs] s)
      (andThen (if rs.isPC || rs.isSR then some (.refused .pcOrSrDenoted) else none) (slotGuard s)))
    (match nextPlace rs s with
     | none => .refused .followerOfG15
     | some q => returnFrom (source 1 rs s.opened) (s.opened.get 1 q) s.opened)

end Sys2Proof.Machine
end

