-- ==== Sys2Proof/Machine/Dsp.lean ====
section
/-! DEFINITION. The Extended DSP instructions of the multiply-accumulate unit (spec/46_extended_dsp.md). They complete in
program order (R471); no condition flag changes (R470). -/

namespace Sys2Proof.Machine

/-- G14 (R470). -/
def State.g14 (s : State) : Word := s.gpr[11]

/-- G15 (R470). -/
def State.g15 (s : State) : Word := s.gpr[12]

/-- acc, the double-word G14//G15 (R470). -/
def State.acc (s : State) : Double := double s.g14 s.g15

/-- What the unit answers: G14 where the instruction writes it, G15, and whether an add or subtract overflowed (R473). -/
structure DspResult where
  high : Option Word := none
  low : Word
  ovf : Bool := false

/-- A 64-bit result for G14//G15, truncated (R473). -/
def dspDouble (r : Int) (ovf : Bool) : DspResult :=
  { high := some (highWord (BitVec.ofInt 64 r)), low := lowWord (BitVec.ofInt 64 r), ovf := ovf }

/-- The results placed, and an overflow saved where the exception is enabled, FCR(16) = 0 (R473, R548). -/
def State.putDsp (s : State) (r : DspResult) : State :=
  { s with
    gpr := (match r.high with
      | some h => s.gpr.set 11 h
      | none => s.gpr).set 12 r.low
    extOvfPending := s.extOvfPending || (r.ovf && !s.fcr.getLsbD 16) }

/-- The shape of the Extended DSP instructions: two local operands, two halfwords long (R470). -/
def dspOp (ld ls : BitVec 4) (f : State → Word → Word → DspResult) (s : State) : Result :=
  retire 2 (s.opened.putDsp (f s.opened (s.opened.lr ld.toNat) (s.opened.lr ls.toNat)))

/-- The upper halfword as a signed integer: a real part (R481). -/
def upper (w : Word) : Int := (w.extractLsb' 16 16).toInt

/-- The lower halfword as a signed integer: an imaginary part (R481). -/
def lower (w : Word) : Int := (w.extractLsb' 0 16).toInt

/-- The product of two words truncated to one word, read as signed (R477). -/
def wordProduct (a b : Word) : Int := (a * b).toInt

/-- EMUL Ld, Ls (R474). -/
def execEmul (ld ls : BitVec 4) (s : State) : Result := dspOp ld ls (fun _ a b => { low := a * b }) s

/-- EMULU Ld, Ls (R475). -/
def execEmulu (ld ls : BitVec 4) (s : State) : Result :=
  dspOp ld ls (fun _ a b => dspDouble (a.toNat * b.toNat) false) s

/-- EMULS Ld, Ls (R476). -/
def execEmuls (ld ls : BitVec 4) (s : State) : Result :=
  dspOp ld ls (fun _ a b => dspDouble (a.toInt * b.toInt) false) s

/-- A one-word sum for G15 (R477, R479, R482). -/
def dspSum (r : Int) : DspResult := { low := BitVec.ofInt 32 r, ovf := outsideSigned 32 r }

/-- A two-word sum for G14//G15 (R478, R480, R483). -/
def dspDoubleSum (r : Int) : DspResult := dspDouble r (outsideSigned 64 r)

/-- Two one-word sums, real part for G14 and imaginary part for G15 (R484, R485). -/
def dspComplex (re im : Int) : DspResult :=
  { high := some (BitVec.ofInt 32 re), low := BitVec.ofInt 32 im, ovf := outsideSigned 32 re || outsideSigned 32 im }

/-- The butterfly of R486 and R487: sums packed into G14, differences into G15. -/
def dspButterfly (a : Word) (x y : Int) : DspResult :=
  let sr := upper a + x
  let si := lower a + y
  let dr := upper a - x
  let di := lower a - y
  { high := some (BitVec.ofInt 16 sr ++ BitVec.ofInt 16 si)
    low := BitVec.ofInt 16 dr ++ BitVec.ofInt 16 di
    ovf := outsideSigned 16 sr || outsideSigned 16 si || outsideSigned 16 dr || outsideSigned 16 di }

/-- EMAC Ld, Ls (R477). -/
def execEmac (ld ls : BitVec 4) (s : State) : Result :=
  dspOp ld ls (fun t a b => dspSum (t.g15.toInt + wordProduct a b)) s

/-- EMACD Ld, Ls (R478). -/
def execEmacd (ld ls : BitVec 4) (s : State) : Result :=
  dspOp ld ls (fun t a b => dspDoubleSum (t.acc.toInt + a.toInt * b.toInt)) s

/-- EMSUB Ld, Ls (R479). -/
def execEmsub (ld ls : BitVec 4) (s : State) : Result :=
  dspOp ld ls (fun t a b => dspSum (t.g15.toInt - wordProduct a b)) s

/-- EMSUBD Ld, Ls (R480). -/
def execEmsubd (ld ls : BitVec 4) (s : State) : Result :=
  dspOp ld ls (fun t a b => dspDoubleSum (t.acc.toInt - a.toInt * b.toInt)) s

/-- a*c + b*d of the halfwords (R481). -/
def dotProduct (x y : Word) : Int := upper x * upper y + lower x * lower y

/-- a*c - b*d, the real part of the complex product (R481). -/
def complexReal (x y : Word) : Int := upper x * upper y - lower x * lower y

/-- a*d + b*c, the imaginary part of the complex product (R481). -/
def complexImaginary (x y : Word) : Int := upper x * lower y + lower x * upper y

/-- EHMAC Ld, Ls (R482). -/
def execEhmac (ld ls : BitVec 4) (s : State) : Result :=
  dspOp ld ls (fun t a b => dspSum (t.g15.toInt + dotProduct a b)) s

/-- EHMACD Ld, Ls (R483). -/
def execEhmacd (ld ls : BitVec 4) (s : State) : Result :=
  dspOp ld ls (fun t a b => dspDoubleSum (t.acc.toInt + dotProduct a b)) s

/-- EHCMULD Ld, Ls (R484). -/
def execEhcmuld (ld ls : BitVec 4) (s : State) : Result :=
  dspOp ld ls (fun _ a b => dspComplex (complexReal a b) (complexImaginary a b)) s

/-- EHCMACD Ld, Ls (R485). -/
def execEhcmacd (ld ls : BitVec 4) (s : State) : Result :=
  dspOp ld ls (fun t a b => dspComplex (t.g14.toInt + complexReal a b) (t.g15.toInt + complexImaginary a b)) s

/-- EHCSUMD Ld, Ls; Ls is not used (R486). -/
def execEhcsumd (ld ls : BitVec 4) (s : State) : Result :=
  dspOp ld ls (fun t a _ => dspButterfly a t.g14.toInt t.g15.toInt) s

/-- EHCFFTD Ld, Ls; the old G14 and G15 are shifted right arithmetically by 15; Ls is not used (R487). -/
def execEhcfftd (ld ls : BitVec 4) (s : State) : Result :=
  dspOp ld ls (fun t a _ => dspButterfly a (t.g14.sshiftRight 15).toInt (t.g15.sshiftRight 15).toInt) s

end Sys2Proof.Machine
end

