-- ==== Sys2Proof/Machine/IndexCompare.lean ====
section
/-! DEFINITION. Index move, check, compare, test leading zeros, set stack address, set conditional, fetch and the reserved
opcodes (spec/44_index_check_compare_set.md; spec/30_encoding.md R201). -/

namespace Sys2Proof.Machine

/-! ### Index move -/

/-- "The SR must not be denoted as a source or as a destination, nor the PC as a destination operand": refused (I2.7). -/
def indexGuard (rd rs : Reg) : Option Result :=
  if rd.isPC then some (.refused .pcDestination)
  else if rd.isSR || rs.isSR then some (.refused .pcOrSrDenoted)
  else none

/-- The shape of the index moves: Rs shifted left by k, flags unchanged; `limit` is checked against the unscaled source, with
"greater or equal" where Rs is the PC (R385). -/
def indexOp (len : Nat) (rd rs : Reg) (k : Nat) (limit : Option Word) (s : State) : Result :=
  guarded (andThen (windowGuard len (some rd) [rs] s) (indexGuard rd rs))
    (let v := source len rs s.opened
     let trap :=
       match limit with
       | none => false
       | some l => if rs.isPC then decide (l.toNat ≤ v.toNat) else decide (l.toNat < v.toNat)
     finish len (place rd s) (v <<< k) noFlags trap s.opened)

/-- XM1 Rd, Rs, lim (R385). -/
def execXm1 (rd rs : Reg) (lim : Lim) (s : State) : Result := indexOp lim.length rd rs 0 (some (limValue lim)) s

/-- XM2 Rd, Rs, lim (R385). -/
def execXm2 (rd rs : Reg) (lim : Lim) (s : State) : Result := indexOp lim.length rd rs 1 (some (limValue lim)) s

/-- XM4 Rd, Rs, lim (R385). -/
def execXm4 (rd rs : Reg) (lim : Lim) (s : State) : Result := indexOp lim.length rd rs 2 (some (limValue lim)) s

/-- XM8 Rd, Rs, lim (R385). -/
def execXm8 (rd rs : Reg) (lim : Lim) (s : State) : Result := indexOp lim.length rd rs 3 (some (limValue lim)) s

/-- XX1 Rd, Rs, 0: no check, lim is carried but not used (R385). -/
def execXx1 (rd rs : Reg) (lim : Lim) (s : State) : Result := indexOp lim.length rd rs 0 none s

/-- XX2 Rd, Rs, 0: no check, lim is carried but not used (R385). -/
def execXx2 (rd rs : Reg) (lim : Lim) (s : State) : Result := indexOp lim.length rd rs 1 none s

/-- XX4 Rd, Rs, 0: no check, lim is carried but not used (R385). -/
def execXx4 (rd rs : Reg) (lim : Lim) (s : State) : Result := indexOp lim.length rd rs 2 none s

/-- XX8 Rd, Rs, 0: no check, lim is carried but not used (R385). -/
def execXx8 (rd rs : Reg) (lim : Lim) (s : State) : Result := indexOp lim.length rd rs 3 none s

/-! ### Check -/

/-- CHK Rd, Rs: Range Error where Rd > Rs, or Rd >= PC where Rs denotes the PC (R390). -/
def execChk (rd rs : Reg) (s : State) : Result :=
  testOp 1 [rd, rs] (fun t =>
    (noFlags,
      if rs.isPC then decide ((source 1 rs t).toNat ≤ (source 1 rd t).toNat)
      else decide ((source 1 rs t).toNat < (source 1 rd t).toNat))) s

/-- CHKZ Rd, 0: Range Error where Rd = 0; the SR field is the source (R391). -/
def execChkz (rd : Reg) (s : State) : Result :=
  testOp 1 [rd, .sr] (fun t => (noFlags, source 1 rd t == 0#32)) s

/-- NOP, that is CHK L0, L0 (R392). -/
def execNop (s : State) : Result := retire 1 s.opened

/-! ### Compare -/

/-- CMP Rd, Rs; C is compared where Rs denotes the SR (R395). -/
def execCmp (rd rs : Reg) (s : State) : Result :=
  testOp 1 [rd, rs] (fun t => (compareFlags (source 1 rd t) (sourceOrCarry 1 rs t), false)) s

/-- CMPI Rd, imm (R396). -/
def execCmpi (rd : Reg) (imm : Imm) (s : State) : Result :=
  testOp imm.length [rd] (fun t => (compareFlags (source imm.length rd t) (immValue imm), false)) s

/-- CMPB Rd, Rs (R397). -/
def execCmpb (rd rs : Reg) (s : State) : Result :=
  testOp 1 [rd, rs] (fun t => (zeroFlag (source 1 rd t &&& source 1 rs t), false)) s

/-- "any Byte of Rd = 0" (R398). -/
def anyByteZero (a : Word) : Bool :=
  a.extractLsb' 24 8 == 0#8 || a.extractLsb' 16 8 == 0#8 || a.extractLsb' 8 8 == 0#8 || a.extractLsb' 0 8 == 0#8

/-- CMPBI Rd, imm; n = 0 is ANYBZ (R398). -/
def execCmpbi (rd : Reg) (imm : Imm) (s : State) : Result :=
  testOp imm.length [rd] (fun t =>
    let a := source imm.length rd t
    (if immIsZeroCode imm then { z := some (anyByteZero a) } else zeroFlag (a &&& immMaskValue imm), false)) s

/-! ### Test leading zeros -/

/-- The zeros above the highest set bit among the low `n` bits. -/
def zerosAbove (v : Word) : Nat → Nat
  | 0 => 0
  | n + 1 => if v.getLsbD n then 0 else 1 + zerosAbove v n

/-- TESTLZ Ld, Ls (R400). -/
def execTestlz (ld ls : BitVec 4) (s : State) : Result :=
  registerOp 1 (.loc ld) [.loc ls] (fun t =>
    { value := BitVec.ofNat 32 (zerosAbove (t.lr ls.toNat) 32), flags := noFlags }) s

/-! ### Set stack address, set conditional -/

/-- The frame pointer expanded to a stack address: SP(31..9)//FP//00 plus the carry into bit 9 (R405). -/
def stackAddress (sr sp : Word) : Word :=
  let base : Word := sp.extractLsb' 9 23 ++ srFP sr ++ 0#2
  if sp.getLsbD 8 && !(srFP sr).getLsbD 6 then base + 0x200#32 else base

/-- SETADR Rd (R405). -/
def execSetadr (rd : Reg) (s : State) : Result :=
  registerOp 1 rd [] (fun t => { value := stackAddress t.sr t.sp, flags := noFlags }) s

/-- The shape of the SETxx instructions: `one` where the condition holds, else zero; no flag changes (R406). -/
def setOp (rd : Reg) (one : Word) (c : Cond) (s : State) : Result :=
  registerOp 1 rd [] (fun t => { value := if c.holds t.sr then one else 0#32, flags := noFlags }) s

/-- SET1 Rd, n = 2 (R407, R408). -/
def execSet1 (rd : Reg) (s : State) : Result := setOp rd 1#32 .always s

/-- SET0 Rd (R407, R408). -/
def execSet0 (rd : Reg) (s : State) : Result := registerOp 1 rd [] (fun _ => { value := 0#32, flags := noFlags }) s

/-- SETLE Rd, n = 4 (R407, R409). -/
def execSetle (rd : Reg) (s : State) : Result := setOp rd 1#32 .le s

/-- SETGT Rd, n = 5 (R407, R409). -/
def execSetgt (rd : Reg) (s : State) : Result := setOp rd 1#32 .gt s

/-- SETLT Rd, n = 6 (R407, R409). -/
def execSetlt (rd : Reg) (s : State) : Result := setOp rd 1#32 .lt s

/-- SETGE Rd, n = 7 (R407, R409). -/
def execSetge (rd : Reg) (s : State) : Result := setOp rd 1#32 .ge s

/-- SETSE Rd, n = 8 (R407, R410). -/
def execSetse (rd : Reg) (s : State) : Result := setOp rd 1#32 .se s

/-- SETHT Rd, n = 9 (R407, R410). -/
def execSetht (rd : Reg) (s : State) : Result := setOp rd 1#32 .ht s

/-- SETST Rd, n = 10 (R407, R410). -/
def execSetst (rd : Reg) (s : State) : Result := setOp rd 1#32 .st s

/-- SETHE Rd, n = 11 (R407, R410). -/
def execSethe (rd : Reg) (s : State) : Result := setOp rd 1#32 .he s

/-- SETE Rd, n = 12 (R407, R411). -/
def execSete (rd : Reg) (s : State) : Result := setOp rd 1#32 .e s

/-- SETNE Rd, n = 13 (R407, R411). -/
def execSetne (rd : Reg) (s : State) : Result := setOp rd 1#32 .ne s

/-- SETV Rd, n = 14 (R407, R411). -/
def execSetv (rd : Reg) (s : State) : Result := setOp rd 1#32 .v s

/-- SETNV Rd, n = 15 (R407, R411). -/
def execSetnv (rd : Reg) (s : State) : Result := setOp rd 1#32 .nv s

/-- SET1M Rd, n = 18 (R407, R408). -/
def execSet1m (rd : Reg) (s : State) : Result := setOp rd 0xFFFFFFFF#32 .always s

/-- SETLEM Rd, n = 20 (R407, R409). -/
def execSetlem (rd : Reg) (s : State) : Result := setOp rd 0xFFFFFFFF#32 .le s

/-- SETGTM Rd, n = 21 (R407, R409). -/
def execSetgtm (rd : Reg) (s : State) : Result := setOp rd 0xFFFFFFFF#32 .gt s

/-- SETLTM Rd, n = 22 (R407, R409). -/
def execSetltm (rd : Reg) (s : State) : Result := setOp rd 0xFFFFFFFF#32 .lt s

/-- SETGEM Rd, n = 23 (R407, R409). -/
def execSetgem (rd : Reg) (s : State) : Result := setOp rd 0xFFFFFFFF#32 .ge s

/-- SETSEM Rd, n = 24 (R407, R410). -/
def execSetsem (rd : Reg) (s : State) : Result := setOp rd 0xFFFFFFFF#32 .se s

/-- SETHTM Rd, n = 25 (R407, R410). -/
def execSethtm (rd : Reg) (s : State) : Result := setOp rd 0xFFFFFFFF#32 .ht s

/-- SETSTM Rd, n = 26 (R407, R410). -/
def execSetstm (rd : Reg) (s : State) : Result := setOp rd 0xFFFFFFFF#32 .st s

/-- SETHEM Rd, n = 27 (R407, R410). -/
def execSethem (rd : Reg) (s : State) : Result := setOp rd 0xFFFFFFFF#32 .he s

/-- SETEM Rd, n = 28 (R407, R411). -/
def execSetem (rd : Reg) (s : State) : Result := setOp rd 0xFFFFFFFF#32 .e s

/-- SETNEM Rd, n = 29 (R407, R411). -/
def execSetnem (rd : Reg) (s : State) : Result := setOp rd 0xFFFFFFFF#32 .ne s

/-- SETVM Rd, n = 30 (R407, R411). -/
def execSetvm (rd : Reg) (s : State) : Result := setOp rd 0xFFFFFFFF#32 .v s

/-- SETNVM Rd, n = 31 (R407, R411). -/
def execSetnvm (rd : Reg) (s : State) : Result := setOp rd 0xFFFFFFFF#32 .nv s

/-! ### Fetch, and the reserved opcodes -/

/-- FETCH n/2 + 1: it waits until that many halfwords after it are in the cache, and no register, flag or memory location
changes (R412). With the H window open its SR field denotes G17, and it is a SETxx or SETADR, n = 16 reserved (R404, I2.6). -/
def execFetch (half : BitVec 4) (s : State) : Result :=
  if s.window && half == 8#4 then .refused (.undefinedEncoding (.reservedSet 16#5))
  else
    guarded (andThen (windowGuard 1 (some .sr) [] s) (slotGuard s))
      (retire 1 (s.opened.prefetchTo (alignWord (s.pc + BitVec.ofNat 32 (2 * half.toNat + 2)))))

/-- Opcodes 8C, 8D: unassigned, "the model refuses" (R201, D10). -/
def execReserved8C8D (_operands : BitVec 9) (_s : State) : Result := .refused .reservedOpcode

/-- Opcodes AC..AF: unassigned, "the model refuses" (R201, D10). -/
def execReservedACAF (_operands : BitVec 10) (_s : State) : Result := .refused .reservedOpcode

end Sys2Proof.Machine
end

