-- ==== Sys2Proof/Machine/LoadStore.lean ====
section
/-! DEFINITION. Load and Store instructions (spec/40_memory_instructions.md). They leave all condition flags unchanged
(R230). -/

namespace Sys2Proof.Machine

/-! ### Addresses -/

/-- One memory or I/O access as its address mode gives it. -/
structure Access where
  /-- the effective address, not yet aligned -/
  addr : Word
  /-- the unit, selected by bits 31..29 of the address register before the displacement is added (R113) -/
  region : Region
  /-- the content of the address register is zero: Pointer Error (R232); false in the absolute modes -/
  null : Bool
  /-- the new content of the address register, in the modes that update it -/
  update : Option (Place × Word) := none

/-- .R: the address is Ld (R240). -/
def registerAccess (ld : BitVec 4) (s : State) : Access :=
  let a := s.lr ld.toNat
  { addr := a, region := regionOf a, null := a == 0#32 }

/-- .P: the address is Ld, which is then incremented by the size (R242, R243). -/
def postAccess (size : Word) (ld : BitVec 4) (s : State) : Access :=
  let a := s.lr ld.toNat
  { addr := a, region := regionOf a, null := a == 0#32, update := some (place (.loc ld) s, a + size) }

/-- .D and .IOD: the address is Rd + dis, Rd may be the PC (R244, R250). -/
def displacementAccess (rd : Reg) (dis : Dis) (s : State) : Access :=
  let b := source dis.length rd s
  { addr := b + disValue dis, region := regionOf b, null := b == 0#32 }

/-- .A and .IOA: the address is dis (R245, R251); dis also selects the unit (D21). -/
def absoluteAccess (dis : Dis) : Access :=
  { addr := disValue dis, region := regionOf (disValue dis), null := false }

/-- .N and .S: the address is Rd, which is then incremented by dis (R246, R247). -/
def nextAccess (rd : Reg) (dis : Dis) (s : State) : Access :=
  let a := source dis.length rd s
  { addr := a, region := regionOf a, null := a == 0#32, update := some (place rd s, a + disValue dis) }

/-- The address register updated "regardless of any exception occurring" (R232, R242, R246). -/
def State.updateAddress (s : State) (a : Access) : State :=
  match a.update with
  | some (p, v) => s.put p v
  | none => s

/-! ### Checks -/

/-- The PC, the SR, G14 and G15 "cannot be loaded from memory"; for a double-word neither can Rsf be one of them (R236). -/
def loadGuard (isDouble : Bool) (rs : Reg) : Option Result :=
  match rs with
  | .loc _ => none
  | .glob c =>
    if c = 0#4 ∨ c = 1#4 ∨ c = 14#4 ∨ c = 15#4 ∨ (isDouble ∧ c = 13#4) then some (.refused .loadDestination) else none

/-- "Rd must not denote the PC or the SR" in the .N and .S modes (R246, R247, R260, R261; I2.4). -/
def addressGuard (rd : Reg) : Option Result := if rd.isPC || rd.isSR then some (.refused .pcOrSrDenoted) else none

/-! ### Data -/

/-- The single-register data types (R231). -/
inductive DataType where
  | bs | bu | hu | hs | w
deriving DecidableEq, Repr

/-- LoadValue(a, n, signed) (R235). -/
def State.loadValue (s : State) (ty : DataType) (r : Region) (a : Word) : Word :=
  match ty with
  | .bs => (s.readByte r a).signExtend 32
  | .bu => (s.readByte r a).setWidth 32
  | .hu => (s.readHalf r a).setWidth 32
  | .hs => (s.readHalf r a).signExtend 32
  | .w => s.readWord r a

/-- The value stored: zero where Rs denotes the SR (R237). -/
def storeValue (len : Nat) (rs : Reg) (s : State) : Word := if rs.isSR then 0#32 else source len rs s

/-- The bus and the IRAM at the read of a data type (R104, R235). -/
def State.noteLoad (s : State) (ty : DataType) (r : Region) (a : Word) : State :=
  match ty with
  | .bs => s.noteRead r a 1
  | .bu => s.noteRead r a 1
  | .hu => s.noteRead r (alignHalf a) 2
  | .hs => s.noteRead r (alignHalf a) 2
  | .w => s.noteRead r (alignWord a) 4

/-- The bytes stored for a data type (R234). -/
def State.storeData (s : State) (ty : DataType) (r : Region) (a v : Word) : State :=
  match ty with
  | .bs => s.writeByte r a (v.extractLsb' 0 8)
  | .bu => s.writeByte r a (v.extractLsb' 0 8)
  | .hu => s.writeHalf r a (v.extractLsb' 0 16)
  | .hs => s.writeHalf r a (v.extractLsb' 0 16)
  | .w => s.writeWord r a v

/-- "any content of Rs exceeding the value range of the specified data type causes a trap to Range Error" (R233). -/
def storeTraps (ty : DataType) (v : Word) : Bool :=
  match ty with
  | .bs => outsideSigned 8 v.toInt
  | .hs => outsideSigned 16 v.toInt
  | _ => false

/-! ### The shapes of loads and stores -/

/-- A load of one register: the address register is updated, then Pointer Error, else the loaded data is written last
(R232, R239). -/
def loadOp (len : Nat) (ty : DataType) (fields : List Reg) (rs : Reg) (check : Option Result) (access : State → Access)
    (s : State) : Result :=
  guarded (andThen (windowGuard len none (rs :: fields) s) (andThen check (loadGuard false rs)))
    (let a := access s.opened
     let t := s.opened.updateAddress a
     if a.null then raiseError len t
     else retire len ((t.noteLoad ty a.region a.addr).put (place rs s) (t.loadValue ty a.region a.addr)))

/-- A load of a register pair from the two words at the address and the address + 4, two accesses between which another bus master
may write (R109, R238). -/
def loadDoubleOp (len : Nat) (fields : List Reg) (rs : Reg) (check : Option Result) (access : State → Access) (s : State) :
    Result :=
  guarded (andThen (windowGuard len none (rs :: fields) s) (andThen check (loadGuard true rs)))
    (match nextPlace rs s with
     | none => .refused .followerOfG15
     | some q =>
       let a := access s.opened
       let t := s.opened.updateAddress a
       if a.null then raiseError len t
       else
         let t1 := (t.noteLoad .w a.region a.addr).interlude
         retire len (((t1.noteLoad .w a.region (a.addr + 4#32)).put (place rs s) (t.readWord a.region a.addr)).put q
           (t1.readWord a.region (a.addr + 4#32))))

/-- A store of one register: its value is read before the address register is updated; the store is done before a Range
Error (R233, R238). -/
def storeOp (len : Nat) (ty : DataType) (fields : List Reg) (rs : Reg) (check : Option Result) (access : State → Access)
    (s : State) : Result :=
  guarded (andThen (windowGuard len none (rs :: fields) s) check)
    (let a := access s.opened
     let v := storeValue len rs s.opened
     let t := s.opened.updateAddress a
     if a.null then raiseError len t
     else
       let t1 := (t.noteAccess a.region).storeData ty a.region a.addr v
       if storeTraps ty v then raiseError len t1 else retire len t1)

/-- The low-order word a double-word store stores: Rsf as it stands after the address register's update; zero where Rs
denotes the SR; none where no register follows Rs (R237, R238, D7). -/
def storeFollower (len : Nat) (rs : Reg) (s t : State) : Option Word :=
  if rs.isSR then some 0#32 else (nextPlace rs s).map (fun q => t.get len q)

/-- A store of a register pair, two accesses between which another bus master may write (R109, R238). -/
def storeDoubleOp (len : Nat) (fields : List Reg) (rs : Reg) (check : Option Result) (access : State → Access) (s : State) :
    Result :=
  guarded (andThen (windowGuard len none (rs :: fields) s) check)
    (let a := access s.opened
     let v := storeValue len rs s.opened
     let t := s.opened.updateAddress a
     match storeFollower len rs s t with
     | none => .refused .followerOfG15
     | some low =>
       if a.null then raiseError len t
       else
         retire len (((t.noteAccess a.region).writeWord a.region a.addr v).interlude.writeWord a.region (a.addr + 4#32) low))

/-- A load of one word from the I/O address space (R250). -/
def ioLoadOp (len : Nat) (fields : List Reg) (rs : Reg) (access : State → Access) (s : State) : Result :=
  guarded (andThen (windowGuard len none (rs :: fields) s) (loadGuard false rs))
    (let a := access s.opened
     if a.null then raiseError len s.opened
     else retire len ((s.opened.noteIoRead a.addr).put (place rs s) (s.opened.ioReadValue a.addr)))

/-- A load of two words from the I/O address space (R250). -/
def ioLoadDoubleOp (len : Nat) (fields : List Reg) (rs : Reg) (access : State → Access) (s : State) : Result :=
  guarded (andThen (windowGuard len none (rs :: fields) s) (loadGuard true rs))
    (match nextPlace rs s with
     | none => .refused .followerOfG15
     | some q =>
       let a := access s.opened
       let t := s.opened.noteIoRead a.addr
       if a.null then raiseError len s.opened
       else
         retire len (((t.noteIoRead (a.addr + 4#32)).put (place rs s) (s.opened.ioReadValue a.addr)).put q
           (t.ioReadValue (a.addr + 4#32))))

/-- A store of one word to the I/O address space (R252). -/
def ioStoreOp (len : Nat) (fields : List Reg) (rs : Reg) (access : State → Access) (s : State) : Result :=
  guarded (windowGuard len none (rs :: fields) s)
    (let a := access s.opened
     if a.null then raiseError len s.opened
     else retire len (s.opened.ioWrite a.addr (storeValue len rs s.opened)))

/-- A store of two words to the I/O address space (R252). -/
def ioStoreDoubleOp (len : Nat) (fields : List Reg) (rs : Reg) (access : State → Access) (s : State) : Result :=
  guarded (windowGuard len none (rs :: fields) s)
    (let a := access s.opened
     match storeFollower len rs s s.opened with
     | none => .refused .followerOfG15
     | some low =>
       if a.null then raiseError len s.opened
       else
         retire len ((s.opened.ioWrite a.addr (storeValue len rs s.opened)).ioWrite (a.addr + 4#32) low))

/-- StackRead(a): memory below SP, else the local register a(7..2) (R118). -/
def State.stackRead (s : State) (a : Word) : Word :=
  if a.toNat < s.sp.toNat then s.readWord (regionOf a) a else s.getLocal (a.extractLsb' 2 6)

/-- The bus after StackRead(a). -/
def State.noteStackRead (s : State) (a : Word) : State :=
  if a.toNat < s.sp.toNat then s.noteLoad .w (regionOf a) a else s

/-- StackWrite(a, v) (R118). -/
def State.stackWrite (s : State) (a v : Word) : State :=
  if a.toNat < s.sp.toNat then (s.noteAccess (regionOf a)).writeWord (regionOf a) a v else s.setLocal (a.extractLsb' 2 6) v

/-- LDBS.D (R244). -/
def execLdbsD (rd rs : Reg) (dis : Dis) (s : State) : Result :=
  loadOp dis.length .bs [rd] rs none (displacementAccess rd dis) s

/-- LDBU.D (R244). -/
def execLdbuD (rd rs : Reg) (dis : Dis) (s : State) : Result :=
  loadOp dis.length .bu [rd] rs none (displacementAccess rd dis) s

/-- LDHU.D (R244). -/
def execLdhuD (rd rs : Reg) (dis : Dis) (s : State) : Result :=
  loadOp dis.length .hu [rd] rs none (displacementAccess rd dis) s

/-- LDHS.D (R244). -/
def execLdhsD (rd rs : Reg) (dis : Dis) (s : State) : Result :=
  loadOp dis.length .hs [rd] rs none (displacementAccess rd dis) s

/-- LDW.D (R244). -/
def execLdwD (rd rs : Reg) (dis : Dis) (s : State) : Result :=
  loadOp dis.length .w [rd] rs none (displacementAccess rd dis) s

/-- LDD.D (R244). -/
def execLddD (rd rs : Reg) (dis : Dis) (s : State) : Result :=
  loadDoubleOp dis.length [rd] rs none (displacementAccess rd dis) s

/-- LDBS.A (R245). -/
def execLdbsA (rs : Reg) (dis : Dis) (s : State) : Result :=
  loadOp dis.length .bs [.sr] rs none (fun _ => absoluteAccess dis) s

/-- LDBU.A (R245). -/
def execLdbuA (rs : Reg) (dis : Dis) (s : State) : Result :=
  loadOp dis.length .bu [.sr] rs none (fun _ => absoluteAccess dis) s

/-- LDHU.A (R245). -/
def execLdhuA (rs : Reg) (dis : Dis) (s : State) : Result :=
  loadOp dis.length .hu [.sr] rs none (fun _ => absoluteAccess dis) s

/-- LDHS.A (R245). -/
def execLdhsA (rs : Reg) (dis : Dis) (s : State) : Result :=
  loadOp dis.length .hs [.sr] rs none (fun _ => absoluteAccess dis) s

/-- LDW.A (R245). -/
def execLdwA (rs : Reg) (dis : Dis) (s : State) : Result :=
  loadOp dis.length .w [.sr] rs none (fun _ => absoluteAccess dis) s

/-- LDD.A (R245). -/
def execLddA (rs : Reg) (dis : Dis) (s : State) : Result :=
  loadDoubleOp dis.length [.sr] rs none (fun _ => absoluteAccess dis) s

/-- LDW.IOD (R250). -/
def execLdwIOD (rd rs : Reg) (dis : Dis) (s : State) : Result :=
  ioLoadOp dis.length [rd] rs (displacementAccess rd dis) s

/-- LDD.IOD (R250). -/
def execLddIOD (rd rs : Reg) (dis : Dis) (s : State) : Result :=
  ioLoadDoubleOp dis.length [rd] rs (displacementAccess rd dis) s

/-- LDW.IOA (R251). -/
def execLdwIOA (rs : Reg) (dis : Dis) (s : State) : Result :=
  ioLoadOp dis.length [.sr] rs (fun _ => absoluteAccess dis) s

/-- LDD.IOA (R251). -/
def execLddIOA (rs : Reg) (dis : Dis) (s : State) : Result :=
  ioLoadDoubleOp dis.length [.sr] rs (fun _ => absoluteAccess dis) s

/-- LDBS.N (R246). -/
def execLdbsN (rd rs : Reg) (dis : Dis) (s : State) : Result :=
  loadOp dis.length .bs [rd] rs (addressGuard rd) (nextAccess rd dis) s

/-- LDBU.N (R246). -/
def execLdbuN (rd rs : Reg) (dis : Dis) (s : State) : Result :=
  loadOp dis.length .bu [rd] rs (addressGuard rd) (nextAccess rd dis) s

/-- LDHU.N (R246). -/
def execLdhuN (rd rs : Reg) (dis : Dis) (s : State) : Result :=
  loadOp dis.length .hu [rd] rs (addressGuard rd) (nextAccess rd dis) s

/-- LDHS.N (R246). -/
def execLdhsN (rd rs : Reg) (dis : Dis) (s : State) : Result :=
  loadOp dis.length .hs [rd] rs (addressGuard rd) (nextAccess rd dis) s

/-- LDW.N (R246). -/
def execLdwN (rd rs : Reg) (dis : Dis) (s : State) : Result :=
  loadOp dis.length .w [rd] rs (addressGuard rd) (nextAccess rd dis) s

/-- LDD.N (R246). -/
def execLddN (rd rs : Reg) (dis : Dis) (s : State) : Result :=
  loadDoubleOp dis.length [rd] rs (addressGuard rd) (nextAccess rd dis) s

/-- LDW.S (R247). -/
def execLdwS (rd rs : Reg) (dis : Dis) (s : State) : Result :=
  guarded (andThen (windowGuard dis.length none [rs, rd] s) (andThen (addressGuard rd) (loadGuard false rs)))
    (let a := nextAccess rd dis s.opened
     let t := s.opened.updateAddress a
     if a.null then raiseError dis.length t else retire dis.length ((t.noteStackRead a.addr).put (place rs s) (t.stackRead a.addr)))

/-- STBS.D (R258). -/
def execStbsD (rd rs : Reg) (dis : Dis) (s : State) : Result :=
  storeOp dis.length .bs [rd] rs none (displacementAccess rd dis) s

/-- STBU.D (R258). -/
def execStbuD (rd rs : Reg) (dis : Dis) (s : State) : Result :=
  storeOp dis.length .bu [rd] rs none (displacementAccess rd dis) s

/-- STHU.D (R258). -/
def execSthuD (rd rs : Reg) (dis : Dis) (s : State) : Result :=
  storeOp dis.length .hu [rd] rs none (displacementAccess rd dis) s

/-- STHS.D (R258). -/
def execSthsD (rd rs : Reg) (dis : Dis) (s : State) : Result :=
  storeOp dis.length .hs [rd] rs none (displacementAccess rd dis) s

/-- STW.D (R258). -/
def execStwD (rd rs : Reg) (dis : Dis) (s : State) : Result :=
  storeOp dis.length .w [rd] rs none (displacementAccess rd dis) s

/-- STD.D (R258). -/
def execStdD (rd rs : Reg) (dis : Dis) (s : State) : Result :=
  storeDoubleOp dis.length [rd] rs none (displacementAccess rd dis) s

/-- STBS.A (R259). -/
def execStbsA (rs : Reg) (dis : Dis) (s : State) : Result :=
  storeOp dis.length .bs [.sr] rs none (fun _ => absoluteAccess dis) s

/-- STBU.A (R259). -/
def execStbuA (rs : Reg) (dis : Dis) (s : State) : Result :=
  storeOp dis.length .bu [.sr] rs none (fun _ => absoluteAccess dis) s

/-- STHU.A (R259). -/
def execSthuA (rs : Reg) (dis : Dis) (s : State) : Result :=
  storeOp dis.length .hu [.sr] rs none (fun _ => absoluteAccess dis) s

/-- STHS.A (R259). -/
def execSthsA (rs : Reg) (dis : Dis) (s : State) : Result :=
  storeOp dis.length .hs [.sr] rs none (fun _ => absoluteAccess dis) s

/-- STW.A (R259). -/
def execStwA (rs : Reg) (dis : Dis) (s : State) : Result :=
  storeOp dis.length .w [.sr] rs none (fun _ => absoluteAccess dis) s

/-- STD.A (R259). -/
def execStdA (rs : Reg) (dis : Dis) (s : State) : Result :=
  storeDoubleOp dis.length [.sr] rs none (fun _ => absoluteAccess dis) s

/-- STW.IOD (R252). -/
def execStwIOD (rd rs : Reg) (dis : Dis) (s : State) : Result :=
  ioStoreOp dis.length [rd] rs (displacementAccess rd dis) s

/-- STD.IOD (R252). -/
def execStdIOD (rd rs : Reg) (dis : Dis) (s : State) : Result :=
  ioStoreDoubleOp dis.length [rd] rs (displacementAccess rd dis) s

/-- STW.IOA (R253). -/
def execStwIOA (rs : Reg) (dis : Dis) (s : State) : Result :=
  ioStoreOp dis.length [.sr] rs (fun _ => absoluteAccess dis) s

/-- STD.IOA (R253). -/
def execStdIOA (rs : Reg) (dis : Dis) (s : State) : Result :=
  ioStoreDoubleOp dis.length [.sr] rs (fun _ => absoluteAccess dis) s

/-- STBS.N (R260). -/
def execStbsN (rd rs : Reg) (dis : Dis) (s : State) : Result :=
  storeOp dis.length .bs [rd] rs (addressGuard rd) (nextAccess rd dis) s

/-- STBU.N (R260). -/
def execStbuN (rd rs : Reg) (dis : Dis) (s : State) : Result :=
  storeOp dis.length .bu [rd] rs (addressGuard rd) (nextAccess rd dis) s

/-- STHU.N (R260). -/
def execSthuN (rd rs : Reg) (dis : Dis) (s : State) : Result :=
  storeOp dis.length .hu [rd] rs (addressGuard rd) (nextAccess rd dis) s

/-- STHS.N (R260). -/
def execSthsN (rd rs : Reg) (dis : Dis) (s : State) : Result :=
  storeOp dis.length .hs [rd] rs (addressGuard rd) (nextAccess rd dis) s

/-- STW.N (R260). -/
def execStwN (rd rs : Reg) (dis : Dis) (s : State) : Result :=
  storeOp dis.length .w [rd] rs (addressGuard rd) (nextAccess rd dis) s

/-- STD.N (R260). -/
def execStdN (rd rs : Reg) (dis : Dis) (s : State) : Result :=
  storeDoubleOp dis.length [rd] rs (addressGuard rd) (nextAccess rd dis) s

/-- STW.S (R261). -/
def execStwS (rd rs : Reg) (dis : Dis) (s : State) : Result :=
  guarded (andThen (windowGuard dis.length none [rs, rd] s) (addressGuard rd))
    (let a := nextAccess rd dis s.opened
     let v := storeValue dis.length rs s.opened
     let t := s.opened.updateAddress a
     if a.null then raiseError dis.length t else retire dis.length (t.stackWrite a.addr v))

/-- LDW.R (R240). -/
def execLdwR (ld : BitVec 4) (rs : Reg) (s : State) : Result :=
  loadOp 1 .w [] rs none (registerAccess ld) s

/-- LDD.R (R241). -/
def execLddR (ld : BitVec 4) (rs : Reg) (s : State) : Result :=
  loadDoubleOp 1 [] rs none (registerAccess ld) s

/-- LDW.P (R242). -/
def execLdwP (ld : BitVec 4) (rs : Reg) (s : State) : Result :=
  loadOp 1 .w [] rs none (postAccess 4#32 ld) s

/-- LDD.P (R243). -/
def execLddP (ld : BitVec 4) (rs : Reg) (s : State) : Result :=
  loadDoubleOp 1 [] rs none (postAccess 8#32 ld) s

/-- STW.R (R254). -/
def execStwR (ld : BitVec 4) (rs : Reg) (s : State) : Result :=
  storeOp 1 .w [] rs none (registerAccess ld) s

/-- STD.R (R255). -/
def execStdR (ld : BitVec 4) (rs : Reg) (s : State) : Result :=
  storeDoubleOp 1 [] rs none (registerAccess ld) s

/-- STW.P (R256). -/
def execStwP (ld : BitVec 4) (rs : Reg) (s : State) : Result :=
  storeOp 1 .w [] rs none (postAccess 4#32 ld) s

/-- STD.P (R257). -/
def execStdP (ld : BitVec 4) (rs : Reg) (s : State) : Result :=
  storeDoubleOp 1 [] rs none (postAccess 8#32 ld) s

end Sys2Proof.Machine
end

