-- ==== Sys2Proof/Machine/MoveLogical.lean ====
section
/-! DEFINITION. Move, logical, invert and mask instructions (spec/41_move_logical.md). -/

namespace Sys2Proof.Machine

/-- Z and N of a moved value; V is undefined (R281, D11). -/
def State.moveFlags (s : State) (v : Word) : FlagUpdate :=
  { z := some (v == 0#32), n := some (sign v), v := s.freeFlag 3 }

/-- Z, N and V of MOVI (R282). -/
def moveImmFlags (v : Word) : FlagUpdate := { z := some (v == 0#32), n := some (sign v), v := some false }

/-- The source of a MOV in the H window: every global code c denotes G(c+16) (R33, D6). -/
def windowSource (rs : Reg) (s : State) : Word :=
  match rs with
  | .glob c => s.readHigh (highOf c)
  | .loc c => s.lr c.toNat

/-- A stack register's bits 1..0 "must always be cleared to zero": another value is refused (R48, R49, I2.16). -/
def stackGuard (h : High) (v : Word) : Option Result :=
  if (h = .sp ∨ h = .ub) ∧ v.extractLsb' 0 2 ≠ 0#2 then some (.refused .stackAlignment) else none

/-- MOV and MOVI with the H window open: a global destination is a high global register, privileged (R33, R546). -/
def moveHigh (len : Nat) (rd : Reg) (v : Word) (f : FlagUpdate) (s : State) : Result :=
  match rd with
  | .glob c =>
    if s.user then raiseError len (s.opened.withFlags s.freeZNV)
    else guarded (stackGuard (highOf c) v) (retire len ((s.opened.withFlags f).writeHigh (highOf c) v))
  | .loc _ => finish len (place rd s) v f false s.opened

/-- MOV and MOVI with the H window closed; the PC as destination is a branch taken (R280 (b)). -/
def moveLow (len : Nat) (rd : Reg) (v : Word) (f : FlagUpdate) (s : State) : Result :=
  guarded (if rd.isPC then slotGuard s else none) (finishBranch len (place rd s) v f s.opened)

/-- MOV Rd, Rs (R281). -/
def execMov (rd rs : Reg) (s : State) : Result :=
  if s.window then moveHigh 1 rd (windowSource rs s) (s.moveFlags (windowSource rs s)) s
  else moveLow 1 rd (source 1 rs s) (s.moveFlags (source 1 rs s)) s

/-- MOVI Rd, imm (R282). -/
def execMovi (rd : Reg) (imm : Imm) (s : State) : Result :=
  if s.window then moveHigh imm.length rd (immValue imm) (moveImmFlags (immValue imm)) s
  else moveLow imm.length rd (immValue imm) (moveImmFlags (immValue imm)) s

/-- The flags of a moved double-word (R283). -/
def State.moveDoubleFlags (s : State) (hi lo : Word) : FlagUpdate :=
  { z := some (double hi lo == 0#64), n := some (sign hi), v := s.freeFlag 3 }

/-- MOVD Rd, Rs: the high-order word is copied first; zero where Rs denotes the SR (R283). -/
def execMovd (rd rs : Reg) (s : State) : Result :=
  guarded (andThen (windowGuard 1 (some rd) [rs] s) (pcGuard rd))
    (match nextPlace rd s with
     | none => .refused .followerOfG15
     | some q =>
       if rs.isSR then finishPair 1 (place rd s) q 0#32 0#32 (s.moveDoubleFlags 0#32 0#32) false s.opened
       else
         match nextPlace rs s with
         | none => .refused .followerOfG15
         | some p =>
           let hi := source 1 rs s.opened
           let lo := (s.opened.put (place rd s) hi).get 1 p
           finishPair 1 (place rd s) q hi lo (s.moveDoubleFlags hi lo) false s.opened)

/-- The shape of the logical instructions: only Z is written. -/
def logicalOp (rd rs : Reg) (op : Word → Word → Word) (s : State) : Result :=
  registerOp 1 rd [rs] (fun t =>
    let r := op (source 1 rd t) (source 1 rs t)
    { value := r, flags := zeroFlag r }) s

/-- The shape of the logical instructions with an immediate operand. -/
def logicalImmOp (rd : Reg) (imm : Imm) (op : Word → Word) (s : State) : Result :=
  registerOp imm.length rd [] (fun t =>
    let r := op (source imm.length rd t)
    { value := r, flags := zeroFlag r }) s

/-- AND Rd, Rs (R284). -/
def execAnd (rd rs : Reg) (s : State) : Result := logicalOp rd rs (fun a b => a &&& b) s

/-- ANDN Rd, Rs (R285). -/
def execAndn (rd rs : Reg) (s : State) : Result := logicalOp rd rs (fun a b => a &&& ~~~b) s

/-- OR Rd, Rs (R286). -/
def execOr (rd rs : Reg) (s : State) : Result := logicalOp rd rs (fun a b => a ||| b) s

/-- XOR Rd, Rs (R287). -/
def execXor (rd rs : Reg) (s : State) : Result := logicalOp rd rs (fun a b => a ^^^ b) s

/-- ANDNI Rd, imm: n = 31 is 2^31 - 1 (R288). -/
def execAndni (rd : Reg) (imm : Imm) (s : State) : Result := logicalImmOp rd imm (fun a => a &&& ~~~immMaskValue imm) s

/-- ORI Rd, imm (R289). -/
def execOri (rd : Reg) (imm : Imm) (s : State) : Result := logicalImmOp rd imm (fun a => a ||| immValue imm) s

/-- XORI Rd, imm (R290). -/
def execXori (rd : Reg) (imm : Imm) (s : State) : Result := logicalImmOp rd imm (fun a => a ^^^ immValue imm) s

/-- NOT Rd, Rs (R291). -/
def execNot (rd rs : Reg) (s : State) : Result :=
  registerOp 1 rd [rs] (fun t =>
    let r := ~~~(source 1 rs t)
    { value := r, flags := zeroFlag r }) s

/-- MASK Rd, Rs, const (R292). -/
def execMask (rd rs : Reg) (c : Const) (s : State) : Result :=
  registerOp c.length rd [rs] (fun t =>
    let r := source c.length rs t &&& constValue c
    { value := r, flags := zeroFlag r }) s

end Sys2Proof.Machine
end

