-- ==== Sys2Proof/Machine/Shift.lean ====
section
/-! DEFINITION. Shift and rotate instructions (spec/43_shift_rotate.md). -/

namespace Sys2Proof.Machine

/-- "C := last bit shifted out is one"; none is shifted out at k = 0 (R351). -/
def lastBitOut {w : Nat} (a : BitVec w) (k : Nat) : Bool := if k = 0 then false else a.getLsbD (k - 1)

/-- The flags of Shift Left and Rotate: V and C undefined (R351, D11). -/
def State.leftFlags (s : State) (zero negative : Bool) : FlagUpdate :=
  { c := s.freeFlag 0, z := some zero, n := some negative, v := s.freeFlag 3 }

/-- The flags of Shift Right: V unchanged (R351). -/
def rightFlags (zero negative out : Bool) : FlagUpdate := { c := some out, z := some zero, n := some negative }

/-- Ls(4..0) (R350). -/
def shiftAmount (ls : BitVec 4) (s : State) : Nat := ((s.lr ls.toNat).extractLsb' 0 5).toNat

/-- A single-word shift left or rotate. -/
def State.leftWord (s : State) (r : Word) : Computed := { value := r, flags := s.leftFlags (r == 0#32) (sign r) }

/-- A single-word shift right of `a` by `k` with result `r`. -/
def rightWord (a : Word) (k : Nat) (r : Word) : Computed :=
  { value := r, flags := rightFlags (r == 0#32) (sign r) (lastBitOut a k) }

/-- A double-word shift left. -/
def State.leftDouble (s : State) (p : Double) : ComputedPair :=
  { high := highWord p, low := lowWord p, flags := s.leftFlags (p == 0#64) (p.getLsbD 63) }

/-- A double-word shift right of `a` by `k` with result `p`. -/
def rightDouble (a : Double) (k : Nat) (p : Double) : ComputedPair :=
  { high := highWord p, low := lowWord p, flags := rightFlags (p == 0#64) (p.getLsbD 63) (lastBitOut a k) }

/-- Ld//Ldf (R350). -/
def localPair (ld : BitVec 4) (s : State) : Double := double (s.lr ld.toNat) (s.lr (ld.toNat + 1))

/-- "the result is undefined if Ls denotes the same register as Ld or Ldf" (R352). -/
def overlaps (ld ls : BitVec 4) (s : State) : Bool :=
  localIndex s.sr ls.toNat == localIndex s.sr ld.toNat || localIndex s.sr ls.toNat == localIndex s.sr (ld.toNat + 1)

/-- Any value for Ld, Ldf and the flags (I4.6). -/
def State.undefinedShift (s : State) : ComputedPair :=
  { high := s.free 32 (.result 0), low := s.free 32 (.result 1), flags := s.freeFlags }

/-- SHLI Rd, n (R353). -/
def execShli (rd : Reg) (n : BitVec 5) (s : State) : Result :=
  registerOp 1 rd [] (fun t => t.leftWord (source 1 rd t <<< n.toNat)) s

/-- SHLDI Ld, n (R354). -/
def execShldi (ld : BitVec 4) (n : BitVec 5) (s : State) : Result :=
  pairOp (.loc ld) [] (fun t _ => t.leftDouble (localPair ld t <<< n.toNat)) s

/-- SHL Ld, Ls (R355). -/
def execShl (ld ls : BitVec 4) (s : State) : Result :=
  registerOp 1 (.loc ld) [.loc ls] (fun t => t.leftWord (t.lr ld.toNat <<< shiftAmount ls t)) s

/-- SHLD Ld, Ls (R356). -/
def execShld (ld ls : BitVec 4) (s : State) : Result :=
  pairOp (.loc ld) [.loc ls] (fun t _ =>
    if overlaps ld ls t then t.undefinedShift
    else t.leftDouble (localPair ld t <<< shiftAmount ls t)) s

/-- SARI Rd, n (R357). -/
def execSari (rd : Reg) (n : BitVec 5) (s : State) : Result :=
  registerOp 1 rd [] (fun t =>
    rightWord (source 1 rd t) n.toNat ((source 1 rd t).sshiftRight n.toNat)) s

/-- SARDI Ld, n (R358). -/
def execSardi (ld : BitVec 4) (n : BitVec 5) (s : State) : Result :=
  pairOp (.loc ld) [] (fun t _ =>
    rightDouble (localPair ld t) n.toNat ((localPair ld t).sshiftRight n.toNat)) s

/-- SAR Ld, Ls (R359). -/
def execSar (ld ls : BitVec 4) (s : State) : Result :=
  registerOp 1 (.loc ld) [.loc ls] (fun t =>
    rightWord (t.lr ld.toNat) (shiftAmount ls t) ((t.lr ld.toNat).sshiftRight (shiftAmount ls t))) s


/-- SARD Ld, Ls (R360). -/
def execSard (ld ls : BitVec 4) (s : State) : Result :=
  pairOp (.loc ld) [.loc ls] (fun t _ =>
    if overlaps ld ls t then t.undefinedShift
    else rightDouble (localPair ld t) (shiftAmount ls t) ((localPair ld t).sshiftRight (shiftAmount ls t))) s

/-- SHRI Rd, n (R361). -/
def execShri (rd : Reg) (n : BitVec 5) (s : State) : Result :=
  registerOp 1 rd [] (fun t => rightWord (source 1 rd t) n.toNat (source 1 rd t >>> n.toNat)) s

/-- SHRDI Ld, n (R362). -/
def execShrdi (ld : BitVec 4) (n : BitVec 5) (s : State) : Result :=
  pairOp (.loc ld) [] (fun t _ => rightDouble (localPair ld t) n.toNat (localPair ld t >>> n.toNat)) s

/-- SHR Ld, Ls (R363). -/
def execShr (ld ls : BitVec 4) (s : State) : Result :=
  registerOp 1 (.loc ld) [.loc ls] (fun t =>
    rightWord (t.lr ld.toNat) (shiftAmount ls t) (t.lr ld.toNat >>> shiftAmount ls t)) s

/-- SHRD Ld, Ls (R364). -/
def execShrd (ld ls : BitVec 4) (s : State) : Result :=
  pairOp (.loc ld) [.loc ls] (fun t _ =>
    if overlaps ld ls t then t.undefinedShift
    else rightDouble (localPair ld t) (shiftAmount ls t) (localPair ld t >>> shiftAmount ls t)) s

/-- ROL Ld, Ls (R365). -/
def execRol (ld ls : BitVec 4) (s : State) : Result :=
  registerOp 1 (.loc ld) [.loc ls] (fun t => t.leftWord ((t.lr ld.toNat).rotateLeft (shiftAmount ls t))) s

end Sys2Proof.Machine
end

