-- ==== Sys2Proof/Machine/Software.lean ====
section
/-! DEFINITION. The Software instructions: floating point and DO (spec/47_software_fp.md R500 to R525). The hardware only
saves the operands and branches to the entry; `SoftFPMode` is `hardware` (D24, notes/assumptions/33.md). -/

namespace Sys2Proof.Machine

/-- The state after SoftwareEntry(k) at entry address `entry` (R501): the stack address of Ld, Ls, Lsf, the return address with
S and the old SR with ILC = 1 go to the five registers above the frame; all five are read before any is written. -/
def State.softEntered (s : State) (ld ls : BitVec 4) (entry : Word) : State :=
  let fl := frameLength s.sr
  let t := s.opened
  let address := stackAddress t.sr t.sp + BitVec.ofNat 32 (4 * ld.toNat)
  let saved :=
    ((((t.setLr fl address).setLr (fl + 1) (t.lr ls.toNat)).setLr (fl + 2) (t.lr (ls.toNat + 1))).setLr (fl + 3)
      (savedPC (t.pcSeen 1) (srS t.sr))).setLr (fl + 4) (setILC s.sr 1#2)
  { saved with sr := setL (setT (raiseFrame saved.sr fl 6#4) false) true }.jumped entry

/-- SoftwareEntry(k) (R501); refused as a delay instruction (I2.11); a reserved entry table mapping stops (I11). -/
def softwareOp (k : Nat) (ld ls : BitVec 4) (s : State) : Result :=
  guarded (slotGuard s)
    (match softEntry s.mcr k with
     | some entry => .next (s.softEntered ld ls entry).bump
     | none => .fault .reservedEntryTable)

/-- FADD Ld, Ls (R510). -/
def execFadd (ld ls : BitVec 4) (s : State) : Result := softwareOp 0 ld ls s

/-- FADDD Ld, Ls (R511). -/
def execFaddd (ld ls : BitVec 4) (s : State) : Result := softwareOp 1 ld ls s

/-- FSUB Ld, Ls (R512). -/
def execFsub (ld ls : BitVec 4) (s : State) : Result := softwareOp 2 ld ls s

/-- FSUBD Ld, Ls (R513). -/
def execFsubd (ld ls : BitVec 4) (s : State) : Result := softwareOp 3 ld ls s

/-- FMUL Ld, Ls (R514). -/
def execFmul (ld ls : BitVec 4) (s : State) : Result := softwareOp 4 ld ls s

/-- FMULD Ld, Ls (R515). -/
def execFmuld (ld ls : BitVec 4) (s : State) : Result := softwareOp 5 ld ls s

/-- FDIV Ld, Ls (R516). -/
def execFdiv (ld ls : BitVec 4) (s : State) : Result := softwareOp 6 ld ls s

/-- FDIVD Ld, Ls (R517). -/
def execFdivd (ld ls : BitVec 4) (s : State) : Result := softwareOp 7 ld ls s

/-- FCMP Ld, Ls (R518). -/
def execFcmp (ld ls : BitVec 4) (s : State) : Result := softwareOp 8 ld ls s

/-- FCMPD Ld, Ls (R519). -/
def execFcmpd (ld ls : BitVec 4) (s : State) : Result := softwareOp 9 ld ls s

/-- FCMPU Ld, Ls (R522). -/
def execFcmpu (ld ls : BitVec 4) (s : State) : Result := softwareOp 10 ld ls s

/-- FCMPUD Ld, Ls (R523). -/
def execFcmpud (ld ls : BitVec 4) (s : State) : Result := softwareOp 11 ld ls s

/-- FCVT Ld, Ls (R520). -/
def execFcvt (ld ls : BitVec 4) (s : State) : Result := softwareOp 12 ld ls s

/-- FCVTD Ld, Ls (R521). -/
def execFcvtd (ld ls : BitVec 4) (s : State) : Result := softwareOp 13 ld ls s

/-- DO xx... Ld, Ls; the halfword xx after it is the subprogram's (R503). -/
def execSoftDo (ld ls : BitVec 4) (s : State) : Result := softwareOp 15 ld ls s

end Sys2Proof.Machine
end

