-- ==== Sys2Proof/Machine/Fetch.lean ====
section
/-! DEFINITION. Fetching an instruction, and what happens at the boundary before it: inputs, Reset, power-down, the choice of
an exception (spec/60_exceptions.md R531, R532, R553, R570; spec/20_memory.md R129, R133). -/

namespace Sys2Proof.Machine

/-! ### Fetch -/

/-- The old contents the cache or the prefetch may still hold of a halfword (D12). -/
def staleHalves (stale : List (Nat × Half)) (k : Nat) : List Half :=
  (stale.filter fun e => e.1 == k).map Prod.snd

/-- One of the old contents or the present one, by a free choice (D12). -/
def chooseHalf (olds : List Half) (now : Half) (choice : Nat) : Half :=
  (olds ++ [now]).getD (choice % (olds.length + 1)) now

/-- The halfword fetched from an even address: the memory's, unless it was modified since the last flush; then old or new
(R133, D12, notes/assumptions/9.md). -/
def State.fetchHalf (s : State) (a : Word) : Half :=
  let now := s.readHalf (regionOf a) a
  match s.cell (regionOf a) a with
  | none => now
  | some k =>
    match staleHalves s.stale k with
    | [] => now
    | olds => chooseHalf olds now (s.free 32 (.staleChoice a.toNat)).toNat

/-- Halfword number `i` of the instruction: after a taken delayed branch, whose length the ILC holds, "an arbitrary bit
pattern may be supplied" beyond the third halfword of the pair (R426 (a), I2.12). -/
def State.instructionHalf (s : State) (i : Nat) : Half :=
  if s.delayPending && decide (3 ≤ (srILC s.sr).toNat + i) then s.free 16 (.fetchHalf i)
  else s.fetchHalf (s.fetchAddr + BitVec.ofNat 32 (2 * i))

/-- The instruction to execute next (R129, R425), or why there is none. -/
def State.fetch (s : State) : Except DecodeError Instr :=
  decode (s.instructionHalf 0) (s.instructionHalf 1) (s.instructionHalf 2)

/-- The program relies on the `len` halfwords of code from an address on (R112, I20). -/
def State.noteCode (s : State) (a : Word) (len : Nat) : State :=
  { s with
    iramRelied := s.iramRelied || (List.range len).any fun i =>
      let h := a + BitVec.ofNat 32 (2 * i)
      !s.guarantees (regionOf h) h 2 }

/-- The cache at the coming instruction: "every executed instruction is read from the cache", and the prefetch runs on (R128,
R129). A delay instruction of a branch that flushed was read before the flush, which leaves of it only the bus lock that the read
of a word not yet held started. In power-down and at a Reset nothing is fetched. -/
def State.fetchAhead (s : State) : State :=
  if s.powerDown || s.resetRequest then s
  else
    match s.fetch with
    | .ok i =>
      let next := s.fetchAddr + BitVec.ofNat 32 (2 * i.length)
      let t := s.noteCode s.fetchAddr i.length
      let own := alignWord (next - 2#32)
      if s.delayPending then
        match s.slotAhead with
        | none => t.prefetchTo own
        | some low => { t with busLock := s.fetchLock low (higher low own) }
      else t.prefetched next
    | .error _ => s

/-- An encoding no instruction has is refused (R201, D10); but with the H window open a FETCH with odd n denotes G17, and is the
SETxx of that n, whose codes 1, 17 and 19 are reserved (R404, R406, I2.6). -/
def unreadable (e : DecodeError) (s : State) : Result :=
  match e with
  | .oddFetch n =>
    if n = 1#5 ∨ n = 17#5 ∨ n = 19#5 then .refused (.undefinedEncoding e)
    else guarded (windowGuard 1 (some .sr) [] s) (.refused (.undefinedEncoding e))
  | _ => .refused (.undefinedEncoding e)

/-- Fetch, decode and execute one instruction. -/
def runInstruction (s : State) : Result :=
  match s.fetch with
  | .ok i => exec i s
  | .error e => unreadable e s

/-! ### Inputs -/

/-- A wrong parity of an area whose check is enabled: BCR(28+x) = 0 (R550). -/
def parityHit (bcr : Word) (faults : BitVec 4) : Bool :=
  (List.range 4).any fun x => faults.getLsbD x && !bcr.getLsbD (28 + x)

/-- The outside world at a boundary (D13; notes/assumptions/12.md): pin levels, parity faults, DMA, at the boundary and between the
words of a double-word access, and the RESET# pin. -/
def State.receive (s : State) (i : Input) : State :=
  ({ s with
      pins := i.pins
      pinsDriven := true
      between := i.between
      parityPending := s.parityPending || parityHit s.bcr i.parity
      resetRequest := s.resetRequest || i.reset }.dma i.dma).evalIO3 false

/-- The next input is consumed; without one the pins keep their levels and nothing else happens. The instruction that comes next
is then fetched. -/
def State.takeInput (s : State) : State :=
  match s.inputs with
  | [] => { s with between := [] }.fetchAhead
  | i :: rest => ({ s with inputs := rest }.receive i).fetchAhead

/-- The processor cycles the coming instruction takes (D14). -/
def State.cycles (s : State) : Nat :=
  match s.inputs with
  | [] => 1
  | i :: _ => 1 + i.cycles

/-! ### The choice of an exception -/

/-- An exception that could be taken at a boundary: its priority number and its trap entry (R530). -/
structure Candidate where
  priority : Nat
  entry : Nat
deriving DecidableEq, Repr

/-- A candidate, if its condition holds. -/
def candidateIf (c : Bool) (priority entry : Nat) : List Candidate := if c then [{ priority, entry }] else []

/-- The candidates of a boundary that is not locked (R532). -/
def State.candidates (s : State) : List Candidate :=
  candidateIf (s.extOvfPending && !srL s.sr) 3 59 ++ candidateIf (s.parityPending && !srL s.sr) 4 58
    ++ sources.flatMap (fun q => candidateIf (s.request q && !srL s.sr) (priority s.fcr q) q.entry)
    ++ candidateIf (srT s.sr && srP s.sr) 16 57

/-- "the exception with the highest priority takes precedence": the smallest priority number (R531). -/
def bestOf : Option Candidate → List Candidate → Option Candidate
  | best, [] => best
  | none, c :: rest => bestOf (some c) rest
  | some b, c :: rest => bestOf (some (if c.priority < b.priority then c else b)) rest

/-- "The Delayed Branch instruction and the delay instruction are locked", and the instruction after a CALL (R427, R431). -/
def State.locked (s : State) : Bool := s.afterDelayedBranch || s.callLockout

/-- The trap entry of the exception taken at this boundary, if any (R532). -/
def State.pending (s : State) : Option Nat :=
  if s.locked then none else (bestOf none s.candidates).map Candidate.entry

/-- The exception through entry `k` taken at a boundary: a latched condition is cleared by its trap (R532, R548, R550); the
interrupts are entries 48..55 (R552). -/
def takeAtBoundary (k : Nat) (s : State) : Result :=
  takeException k (decide (48 ≤ k ∧ k ≤ 55))
    { s with
      extOvfPending := s.extOvfPending && k != 59
      parityPending := s.parityPending && k != 58 }

/-! ### One turn of the instruction loop -/

/-- Power-down: time goes on, and a request with L = 0 wakes the processor (R570, D25). -/
def State.sleep (s : State) (cycles : Nat) : State :=
  let t := (s.advance cycles).bump
  if t.wakes then { t with powerDown := false } else t

/-- Time goes on after an instruction (R532, R559). -/
def thenAdvance (cycles : Nat) : Result → Result
  | .next t => .next (t.advance cycles)
  | .fault f => .fault f
  | .refused r => .refused r

/-- One iteration of the loop of R532, the inputs of the boundary already received. -/
def turn (cycles : Nat) (s : State) : Result :=
  if s.resetRequest then .next s.afterReset
  else if s.powerDown then .next (s.sleep cycles)
  else
    match s.pending with
    | some k => takeAtBoundary k s
    | none => thenAdvance cycles (runInstruction s)

/-! ### Placing an instruction -/

/-- Bytes stored at successive addresses. -/
def State.storeBytes (s : State) (a : Word) : List Byte → State
  | [] => s
  | b :: rest => (s.putByte (regionOf a) a b).storeBytes (a + 1#32) rest

/-- The instruction of an opcode-table word stored where the next instruction is fetched, with no older copy of it in the
cache. -/
def State.placeInstruction (s : State) (nbits w : Nat) : State :=
  let a := s.fetchAddr
  { s.storeBytes a (tableBytes nbits w) with
    stale := s.stale.filter fun e => !(e.1 == (s.cell (regionOf a) a).getD 0
      || e.1 == (s.cell (regionOf (a + 2#32)) (a + 2#32)).getD 0
      || e.1 == (s.cell (regionOf (a + 4#32)) (a + 4#32)).getD 0) }

end Sys2Proof.Machine
end

