-- ==== Sys2Proof/Machine/Step.lean ====
section
/-! DEFINITION. One step of the machine: the inputs of the boundary, then one turn of the instruction loop
(spec/60_exceptions.md R532). -/

namespace Sys2Proof.Machine

/-- One step: a Reset, a stretch of power-down, an exception at the boundary, or one instruction with the error exception it
raises (R532). -/
def step (s : State) : Host.Outcome State Fault Refusal := turn s.cycles s.takeInput

/-- The instruction of an opcode-table word placed where `step` fetches its next instruction. -/
def State.withFetchWord (s : State) (nbits w : Nat) : State := s.placeInstruction nbits w

end Sys2Proof.Machine
end

