-- ==== Sys2Proof/Safety.lean ====
section
/-! DEFINITION. The words the claims use: what an instruction leaves unchanged, how it ends, what an exception entry saves, and
the invariant of every step. -/

namespace Sys2Proof.Machine

/-! ### What is unchanged -/

/-- The content of a place as State holds it. -/
def State.held (s : State) : Place → Word
  | .pc => s.pc
  | .sr => s.sr
  | .fer => s.fer
  | .gpr i => s.gpr[i]
  | .loc i => s.getLocal i

/-- Every register but the PC, the SR and those of `written` is unchanged. -/
def RegistersKept (written : List Place) (s t : State) : Prop :=
  ∀ p : Place, p ≠ .pc → p ≠ .sr → p ∉ written → t.held p = s.held p

/-- Every byte of memory is unchanged. -/
def MemoryKept (s t : State) : Prop := ∀ k : Nat, Memory.read t.mem k = Memory.read s.mem k

/-- The high global registers G18..G27 as State holds them, the latches of the exceptions, the prescaler, the IO3 toggle latch,
the power-down and the Reset requests, the pins, the platform and the coming inputs are unchanged; the bus lock is unchanged or
starts, which it does only while FCR(17) = 0 (R165); that the program relied on the IRAM is unchanged or noted (R112). -/
structure SpecialKept (s t : State) : Prop where
  sp : t.sp = s.sp
  ub : t.ub = s.ub
  bcr : t.bcr = s.bcr
  tpr : t.tpr = s.tpr
  tcr : t.tcr = s.tcr
  tr : t.tr = s.tr
  wcr : t.wcr = s.wcr
  wcrUpperOpen : t.wcrUpperOpen = s.wcrUpperOpen
  equalFlag : t.equalFlag = s.equalFlag
  eventFlag : t.eventFlag = s.eventFlag
  fcr : t.fcr = s.fcr
  mcr : t.mcr = s.mcr
  extOvfPending : t.extOvfPending = s.extOvfPending
  parityPending : t.parityPending = s.parityPending
  prescaler : t.prescaler = s.prescaler
  io3Toggle : t.io3Toggle = s.io3Toggle
  powerDown : t.powerDown = s.powerDown
  resetRequest : t.resetRequest = s.resetRequest
  pins : t.pins = s.pins
  inputs : t.inputs = s.inputs
  between : t.between = s.between
  pinsDriven : t.pinsDriven = s.pinsDriven
  platform : t.platform = s.platform
  busLock : t.busLock = s.busLock ∨ s.fcr.getLsbD 17 = false ∧ t.busLock = true
  relied : t.iramRelied = s.iramRelied ∨ t.iramRelied = true

/-- Two status registers agree on bits `lo` to `hi`. -/
def SameBits (lo hi : Nat) (a b : Word) : Prop := ∀ i : Nat, lo ≤ i → i ≤ hi → a.getLsbD i = b.getLsbD i

/-- Every bit of the SR is unchanged but the condition flags (3..0), H (5), P (17) and the ILC (20..19). -/
def StatusKept (old new : Word) : Prop :=
  new.getLsbD 4 = old.getLsbD 4 ∧ SameBits 6 16 new old ∧ new.getLsbD 18 = old.getLsbD 18 ∧ SameBits 21 31 new old

/-- No memory byte, nothing that refresh guarantees of the IRAM, no I/O access, no special register, and no register but those of
`written`. -/
structure Frame (written : List Place) (s t : State) : Prop where
  registers : RegistersKept written s t
  special : SpecialKept s t
  memory : MemoryKept s t
  guaranteed : t.iramKept = s.iramKept
  io : t.ioTrace = s.ioTrace

/-! ### Condition flags -/

/-- What is claimed of the condition flags: `none` claims nothing (the flag is undefined). -/
structure FlagClaim where
  c : Option Bool
  z : Option Bool
  n : Option Bool
  v : Option Bool

/-- A claim about one flag. -/
def Claims (claim : Option Bool) (flag : Bool) : Prop := ∀ b, claim = some b → flag = b

/-- The flags of an SR meet a claim. -/
def FlagClaim.meets (f : FlagClaim) (sr : Word) : Prop :=
  Claims f.c (srC sr) ∧ Claims f.z (srZ sr) ∧ Claims f.n (srN sr) ∧ Claims f.v (srV sr)

/-- The flags of before. -/
def State.sameFlags (s : State) : FlagClaim :=
  { c := some (srC s.sr), z := some (srZ s.sr), n := some (srN s.sr), v := some (srV s.sr) }

/-! ### The end of an instruction -/

/-- The instruction of `len` halfwords is finished and control goes on after it, or after a taken delayed branch at its target
(R22, R39, R41, R425); no boundary is locked. -/
structure Continues (len : Nat) (s t : State) : Prop where
  pc : t.pc = s.pcSeen len
  delay : t.delayPending = false
  lockouts : t.afterDelayedBranch = false ∧ t.callLockout = false
  trace : srP t.sr = true
  ilc : s.delayPending = false → srILC t.sr = BitVec.ofNat 2 len

/-- The instruction may name these registers: with the H window open no global one (R33, I2.15). -/
def Usable (regs : List Reg) (s : State) : Prop := s.window = true → ∀ r ∈ regs, regIsGlobal r = false

/-- What `v` placed in the register Rd leaves: in the SR only bits 15..0 are written, the reserved bit 6 apart, and they overrule
the flags (R25); in any other register `v`, with the flags of `f` and H cleared. -/
structure Placed (rd : Reg) (v : Word) (f : FlagClaim) (s t : State) : Prop where
  register : rd.isSR = false →
    t.held (place rd s) = v ∧ f.meets t.sr ∧ srH t.sr = false ∧ StatusKept s.sr t.sr
  status : rd.isSR = true →
    SameBits 0 5 t.sr v ∧ SameBits 7 15 t.sr v ∧ t.sr.getLsbD 16 = s.sr.getLsbD 16 ∧ t.sr.getLsbD 18 = s.sr.getLsbD 18 ∧
      SameBits 21 31 t.sr s.sr

/-- The write of `v` to Rd is a user program's setting of L (R545). -/
def SetsL (rd : Reg) (v : Word) (s : State) : Bool := rd.isSR && !srS s.sr && !srL s.sr && v.getLsbD 15

/-- What an error exception saves of the machine `s` in which the instruction ran (R533): the address of the next instruction and
the length of this one; for a delay instruction after a taken delayed branch, its own address and the ILC of that branch. -/
structure SavedPoint (len : Nat) (s u : State) : Prop where
  pc : u.pc = if s.delayPending then s.delayAddr else s.pc + BitVec.ofNat 32 (2 * len)
  ilc : srILC u.sr = if s.delayPending then srILC s.sr else BitVec.ofNat 2 len
  trace : srP u.sr = true

/-! ### Exceptions -/

/-- A branch from `s` to `target` flushed the instruction cache: both counters hold the target's word, nothing older than memory
can be fetched, and the refetch, if it is external, has started the bus lock where FCR(17) = 0 (R130, R133, R165). -/
structure Flushed (target : Word) (s t : State) : Prop where
  lookBack : t.lookBack = alignWord target
  lookAhead : t.lookAhead = alignWord target
  stale : t.stale = []
  lock : t.busLock = (s.busLock || (decide (regionOf target = .external) && !s.fcr.getLsbD 17))

/-- The instruction cache where `ahead` is the last word fetched and no branch flushed: at most 32 words are held, what was modified
stays modified, and a word fetched from external memory has started the bus lock where FCR(17) = 0 (R127, R128, R165, D12). -/
structure CacheReaches (ahead : Word) (s t : State) : Prop where
  lookAhead : t.lookAhead = ahead
  lookBack : t.lookBack = if 124 < (ahead - s.lookBack).toNat then ahead - 124#32 else s.lookBack
  stale : t.stale = s.stale
  lock : t.busLock = (s.busLock || (!s.fcr.getLsbD 17 && decide (ahead ≠ s.lookAhead ∧
    (regionOf (s.lookAhead + 4#32) = .external ∨ regionOf ahead = .external))))

/-- Nothing of the instruction cache and of the bus lock changed. -/
structure CacheKept (s t : State) : Prop where
  lookAhead : t.lookAhead = s.lookAhead
  lookBack : t.lookBack = s.lookBack
  stale : t.stale = s.stale
  lock : t.busLock = s.busLock

/-- A Branch or Delayed Branch taken in `s` to `target` leaves the cache as it is: one of one halfword, to a backward target not
below the look-back counter, to a forward one not higher than two words above the look-ahead counter, or, where it `waits`, to any
forward one (R130). -/
def LeavesCache (waits : Bool) (rel : Rel) (target : Word) (s : State) : Prop :=
  match rel with
  | .long _ => False
  | .short r =>
    (r.msb = true ∧ above s.lookBack (alignWord target) = 0) ∨
      (r.msb = false ∧ (above (alignWord target) s.lookAhead ≤ 8 ∨ waits = true))

/-- What a Branch or Delayed Branch taken in `s` to `target` leaves of the cache in `t` (R130). -/
structure CacheAfter (waits : Bool) (rel : Rel) (target : Word) (s t : State) : Prop where
  kept : LeavesCache waits rel target s → CacheKept s t
  flushed : ¬ LeavesCache waits rel target s → Flushed target s t

/-- How far the delay instruction of the Delayed Branch taken in `s` had been fetched, as `t` remembers it: where that branch flushed
the cache, up to the look-ahead counter of before (R128, R130). -/
structure SlotFetched (rel : Rel) (target : Word) (s t : State) : Prop where
  kept : LeavesCache (srM s.sr) rel target s → t.slotAhead = none
  flushed : ¬ LeavesCache (srM s.sr) rel target s → t.slotAhead = some s.lookAhead

/-- What the fetch of an instruction of `len` halfwords at `a` in `s` leaves of the cache in `t`: the prefetch has reached a word
`m` words beyond the instruction's own or the look-ahead counter, through the eighth after the word that follows the instruction
(R128, R129). -/
def FetchedAhead (a : Word) (len : Nat) (s t : State) : Prop :=
  ∃ m : Nat,
    let next := a + BitVec.ofNat 32 (2 * len)
    let own := alignWord (next - 2#32)
    let base := if above own s.lookAhead = 0 then s.lookAhead else own
    4 * m ≤ above (alignWord next + 32#32) base ∧ CacheReaches (base + BitVec.ofNat 32 (4 * m)) s t

/-- The frame of two registers that an exception makes (R534): `s` is the machine as it stands with the saved PC and SR of R533,
`t` the machine at the entry. -/
structure Entered (irq : Bool) (entry : Word) (s t : State) : Prop where
  pc : t.pc = clearBit0 entry
  savedPC : t.held (.loc (localIndex s.sr (frameLength s.sr))) = setBit s.pc 0 (srS s.sr)
  savedSR : t.held (.loc (localIndex s.sr (frameLength s.sr + 1))) = s.sr
  framePointer : srFP t.sr = srFP s.sr + BitVec.ofNat 7 (frameLength s.sr)
  frameLength : srFL t.sr = 2#4
  modes : srS t.sr = true ∧ srL t.sr = true ∧ srM t.sr = false ∧ srT t.sr = false ∧ srH t.sr = false
  interrupt : srI t.sr = (irq || srI s.sr)
  otherStatus : SameBits 0 3 t.sr s.sr ∧ t.sr.getLsbD 6 = s.sr.getLsbD 6 ∧ SameBits 8 14 t.sr s.sr ∧ srP t.sr = srP s.sr
  unlocked : t.delayPending = false ∧ t.callLockout = false ∧ t.afterDelayedBranch = false
  flushed : Flushed entry s t
  frame : Frame [.loc (localIndex s.sr (Machine.frameLength s.sr)), .loc (localIndex s.sr (Machine.frameLength s.sr + 1))] s t

/-- The outcome is the error exception through entry 60 (R541) of an instruction that left `u` (R533, R534). -/
def TakesError (i : Instr) (s u : State) (outcome : Result) : Prop :=
  SavedPoint i.length s u ∧
    ∀ entry, trapEntry s.mcr 60 = some entry → ∃ t, outcome = .next t ∧ Entered false entry u t

/-! ### What an instruction computes -/

/-- The instruction answers a next state, with `v` in Rd, the flags of `f`, everything else unchanged, and control going on. -/
def Computes (i : Instr) (rd : Reg) (v : Word) (f : FlagClaim) (s : State) : Prop :=
  ∃ t, exec i s = .next t ∧ Placed rd v f s t ∧ Continues i.length s t ∧ Frame [place rd s] s t

/-- `v` in Rd with the flags of `f`: where `trap` is false and no user program sets L, the instruction computes this and control
goes on; else it first does so, and then the error exception is taken (R310, R541, R545). -/
def Yields (i : Instr) (rd : Reg) (v : Word) (f : FlagClaim) (trap : Bool) (s : State) : Prop :=
  ((trap || SetsL rd v s) = false → Computes i rd v f s) ∧
  ((trap || SetsL rd v s) = true →
    ∃ u, Placed rd v f s u ∧ Frame [place rd s] s u ∧ TakesError i s u (exec i s))

/-- The instruction answers a next state, with `hi` in Rd, `lo` in the register `q` after it, the flags of `f`, everything else
unchanged, and control going on. -/
def ComputesPair (i : Instr) (rd : Reg) (q : Place) (hi lo : Word) (f : FlagClaim) (s : State) : Prop :=
  ∃ t, exec i s = .next t ∧ Placed rd hi f s t ∧ t.held q = lo ∧ Continues i.length s t ∧ Frame [place rd s, q] s t

/-- As `Yields`, for a result pair. -/
def YieldsPair (i : Instr) (rd : Reg) (q : Place) (hi lo : Word) (f : FlagClaim) (trap : Bool) (s : State) : Prop :=
  ((trap || SetsL rd hi s) = false → ComputesPair i rd q hi lo f s) ∧
  ((trap || SetsL rd hi s) = true →
    ∃ u, Placed rd hi f s u ∧ u.held q = lo ∧ Frame [place rd s, q] s u ∧ TakesError i s u (exec i s))

/-- Only the flags of `f` are written, and H is cleared. -/
def OnlyFlags (f : FlagClaim) (s t : State) : Prop :=
  f.meets t.sr ∧ srH t.sr = false ∧ StatusKept s.sr t.sr ∧ Frame [] s t

/-- The instruction answers a next state that differs only in the flags of `f`, and control goes on. -/
def Passes (i : Instr) (f : FlagClaim) (s : State) : Prop :=
  ∃ t, exec i s = .next t ∧ OnlyFlags f s t ∧ Continues i.length s t

/-- The instruction writes no register: where `trap` is false control goes on, else the error exception is taken (R541). -/
def Tests (i : Instr) (f : FlagClaim) (trap : Bool) (s : State) : Prop :=
  (trap = false → Passes i f s) ∧ (trap = true → ∃ u, OnlyFlags f s u ∧ TakesError i s u (exec i s))

/-- A branch taken to `target`: M is cleared, every other bit of the SR but H, P and the ILC is unchanged, and so is every
register (R22, R24, R31, R422). -/
structure BranchesTo (target : Word) (s t : State) : Prop where
  pc : t.pc = clearBit0 target
  delay : t.delayPending = false
  lockouts : t.afterDelayedBranch = false ∧ t.callLockout = false
  status : srM t.sr = false ∧ srH t.sr = false ∧ srP t.sr = true ∧ SameBits 6 16 t.sr s.sr ∧
    t.sr.getLsbD 18 = s.sr.getLsbD 18 ∧ SameBits 21 31 t.sr s.sr
  frame : Frame [] s t

/-! ### Memory -/

/-- The bytes stored at `a` and after are those of the list, every other byte is unchanged. -/
structure Stores (r : Region) (a : Word) (bytes : List Byte) (s t : State) : Prop where
  stored : ∀ j k, j < bytes.length → s.cell r (a + BitVec.ofNat 32 j) = some k → Memory.read t.mem k = bytes.getD j 0#8
  other : ∀ k, (∀ j, j < bytes.length → s.cell r (a + BitVec.ofNat 32 j) ≠ some k) →
    Memory.read t.mem k = Memory.read s.mem k

/-- The bytes of a word, most significant first (R103). -/
def wordBytes (v : Word) : List Byte :=
  [v.extractLsb' 24 8, v.extractLsb' 16 8, v.extractLsb' 8 8, v.extractLsb' 0 8]

/-- The bytes a data type stores of a register (R234). -/
def dataBytes (ty : DataType) (v : Word) : List Byte :=
  match ty with
  | .bs => [v.extractLsb' 0 8]
  | .bu => [v.extractLsb' 0 8]
  | .hu => [v.extractLsb' 8 8, v.extractLsb' 0 8]
  | .hs => [v.extractLsb' 8 8, v.extractLsb' 0 8]
  | .w => wordBytes v

/-- The address of the first byte of a data type: halfwords and words are aligned (R104). -/
def dataAddress (ty : DataType) (a : Word) : Word :=
  match ty with
  | .bs => a
  | .bu => a
  | .hu => alignHalf a
  | .hs => alignHalf a
  | .w => alignWord a

/-- What a memory or I/O instruction leaves of registers and status: the flags, H cleared, and the address register `p` updated
to `w` where there is one, unless the loaded data `loaded` go there (R230, R239, R242, R246). -/
structure AddressDone (update : Option (Place × Word)) (loaded : List Place) (s t : State) : Prop where
  flags : s.sameFlags.meets t.sr
  status : srH t.sr = false ∧ StatusKept s.sr t.sr
  updated : ∀ p w, update = some (p, w) → p ∉ loaded → t.held p = w

/-- The places an address mode updates. -/
def updatedPlaces (update : Option (Place × Word)) : List Place := (update.map Prod.fst).toList

/-- A load answers a next state: `v` in Rs, the address register updated, all else unchanged, and control going on. -/
def LoadsWord (i : Instr) (rs : Reg) (v : Word) (update : Option (Place × Word)) (s : State) : Prop :=
  ∃ t, exec i s = .next t ∧ t.held (place rs s) = v ∧ AddressDone update [place rs s] s t ∧ Continues i.length s t ∧
    Frame (place rs s :: updatedPlaces update) s t

/-- A double-word load at `a` answers a next state: the word at `a` in Rs, and in the register `q` after it the word at `a + 4` as
what another bus master wrote between the two accesses left it; all else is as the latter left it (R109, R238). -/
def LoadsPair (i : Instr) (rs : Reg) (q : Place) (r : Region) (a : Word) (update : Option (Place × Word)) (s : State) : Prop :=
  let u := (s.noteAccess r).interlude
  ∃ t, exec i s = .next t ∧ t.held (place rs s) = s.readWord r a ∧ t.held q = u.readWord r (a + 4#32) ∧
    AddressDone update [place rs s, q] s t ∧ Continues i.length s t ∧ Frame (place rs s :: q :: updatedPlaces update) u t

/-- All but memory that a store leaves: the address register updated, every other register, the specials and the I/O accesses
unchanged. -/
structure StoreDone (update : Option (Place × Word)) (s t : State) : Prop where
  address : AddressDone update [] s t
  registers : RegistersKept (updatedPlaces update) s t
  special : SpecialKept s t
  io : t.ioTrace = s.ioTrace

/-- A store of `bytes` from address `a` on: where `trap` is false it answers a next state and control goes on; else the store is
done and then the Range Error is taken (R233). -/
def StoresBytes (i : Instr) (r : Region) (a : Word) (bytes : List Byte) (update : Option (Place × Word)) (trap : Bool)
    (s : State) : Prop :=
  (trap = false → ∃ t, exec i s = .next t ∧ Stores r a bytes s t ∧ StoreDone update s t ∧ Continues i.length s t) ∧
  (trap = true → ∃ u, Stores r a bytes s u ∧ StoreDone update s u ∧ TakesError i s u (exec i s))

/-- A double-word store at `a` answers a next state: the word `hi` is stored at `a`, what another bus master wrote between the two
accesses follows, then the word `lo` is stored at `a + 4`, and control goes on (R109, R238). -/
def StoresPair (i : Instr) (r : Region) (a hi lo : Word) (update : Option (Place × Word)) (s : State) : Prop :=
  ∃ m t, m = { s.noteAccess r with mem := m.mem, iramKept := m.iramKept, stale := m.stale } ∧
    Stores r (alignWord a) (wordBytes hi) s m ∧ Stores r (alignWord (a + 4#32)) (wordBytes lo) m.interlude t ∧
    exec i s = .next t ∧ StoreDone update s t ∧ Continues i.length s t

/-- A Pointer Error: no memory access, no data register written, the address register updated, then the error exception (R232,
R543). -/
def PointerFails (i : Instr) (update : Option (Place × Word)) (s : State) : Prop :=
  ∃ u, AddressDone update [] s u ∧ Frame (updatedPlaces update) s u ∧ TakesError i s u (exec i s)

/-! ### The high global registers -/

/-- What a read of G(c+16) gives: SP, UB, TCR, TR and WCR, its upper half only while no move wrote it otherwise than zero;
of ISR the flags and the pin levels, an IO pin that is an output with its IOxMask zero apart (R20, R56, R57, R562, R566, I7.2);
of the write-only and reserved codes nothing is claimed (D4, D5). -/
structure ReadsHigh (c : BitVec 4) (v : Word) (s : State) : Prop where
  sp : c = 2#4 → v = s.sp
  ub : c = 3#4 → v = s.ub
  tcr : c = 6#4 → v = s.tcr
  tr : c = 7#4 → v = s.tr
  wcr : c = 8#4 → v.extractLsb' 0 16 = s.wcr.extractLsb' 0 16 ∧ (s.wcrUpperOpen = false → v = s.wcr)
  isrUpper : c = 9#4 → v.extractLsb' 9 23 = 0#23
  isrFlags : c = 9#4 → v.getLsbD 8 = s.eventFlag ∧ v.getLsbD 7 = s.equalFlag
  isrInt : c = 9#4 → v.extractLsb' 0 4 = s.pins.int
  /-- IO1 as an output shows "IO1Polarity", with IO1Mask = 0 "Supervisor Flag XOR NOT IO1Polarity" (R562) -/
  isrIO1 : c = 9#4 → v.getLsbD 4 =
    if s.fcr.getLsbD 2 then s.pins.io.getLsbD 0
    else if s.fcr.getLsbD 0 then s.fcr.getLsbD 1 else srS s.sr ^^ !s.fcr.getLsbD 1
  isrIO2 : c = 9#4 → (s.fcr.getLsbD 6 = true → v.getLsbD 5 = s.pins.io.getLsbD 1) ∧
    (s.fcr.getLsbD 6 = false → s.fcr.getLsbD 4 = true → v.getLsbD 5 = s.fcr.getLsbD 5)
  isrIO3 : c = 9#4 → (s.fcr.getLsbD 10 = true → v.getLsbD 6 = s.pins.io.getLsbD 2) ∧
    (s.fcr.getLsbD 10 = false → s.fcr.extractLsb' 12 2 = 1#2 → v.getLsbD 6 = (s.io3Toggle ^^ s.fcr.getLsbD 9)) ∧
    (s.fcr.getLsbD 10 = false → s.fcr.extractLsb' 12 2 ≠ 1#2 → s.fcr.getLsbD 8 = true → v.getLsbD 6 = s.fcr.getLsbD 9)

/-- What the IO3 control mode of `fcr` leaves where WCR, TR and the flags `equal0`, `event0` and `toggle0` stand in it, `open0` says
that the upper half of WCR reads any value, and `became` that the equality has just become true: the capture of an input event, EqualFlag, the toggle latch, the Reset request of
the watchdog; in IO3Standard mode nothing (R564 to R568). -/
structure Compares (fcr wcr tr : Word) (open0 equal0 event0 toggle0 became : Bool) (s t : State) : Prop where
  event : t.eventFlag = (event0 || (fcr.extractLsb' 12 2 == 1#2 && fcr.getLsbD 10 && t.pins.io.getLsbD 2 == fcr.getLsbD 9))
  capture : t.wcr = if !event0 && t.eventFlag then tr &&& 0xFFFF#32 else wcr
  captured : t.wcrUpperOpen = (open0 && !(!event0 && t.eventFlag))
  equal : t.equalFlag = (equal0 || (decide (wcr.extractLsb' 0 16 = tr.extractLsb' 0 16) &&
    (fcr.extractLsb' 12 2 == 0#2 || (fcr.extractLsb' 12 2 == 1#2 && (!fcr.getLsbD 10 || !t.eventFlag)))))
  toggle : t.io3Toggle = (toggle0 ^^ (became && decide (wcr.extractLsb' 0 16 = tr.extractLsb' 0 16) &&
    fcr.extractLsb' 12 2 == 1#2 && !fcr.getLsbD 10))
  watchdog : t.resetRequest = (s.resetRequest || (fcr.extractLsb' 12 2 == 2#2 && decide (wcr.extractLsb' 0 16 = tr.extractLsb' 0 16)))

/-- Which interrupt sources request, their priority numbers and their trap entries (R553 to R555, R560, R566, R567); of IO2 and IO3 as
reserved outputs nothing is claimed (I10). -/
structure Requests (s : State) : Prop where
  timer : s.request .timer = (!s.fcr.getLsbD 23 && !(s.tr - s.tcr).getLsbD 31)
  int1 : s.request .int1 = (!s.fcr.getLsbD 28 && s.pins.int.getLsbD 0 == s.fcr.getLsbD 24)
  int2 : s.request .int2 = (!s.fcr.getLsbD 29 && s.pins.int.getLsbD 1 == s.fcr.getLsbD 25)
  int3 : s.request .int3 = (!s.fcr.getLsbD 30 && s.pins.int.getLsbD 2 == s.fcr.getLsbD 26)
  int4 : s.request .int4 = (!s.fcr.getLsbD 31 && s.pins.int.getLsbD 3 == s.fcr.getLsbD 27)
  io1 : s.request .io1 = (s.fcr.getLsbD 2 && !s.fcr.getLsbD 0 && s.pins.io.getLsbD 0 == s.fcr.getLsbD 1)
  io2 : s.fcr.getLsbD 6 = true ∨ s.fcr.getLsbD 4 = true →
    s.request .io2 = (s.fcr.getLsbD 6 && !s.fcr.getLsbD 4 && s.pins.io.getLsbD 1 == s.fcr.getLsbD 5)
  io3TimerInterrupt : s.fcr.extractLsb' 12 2 = 0#2 →
    s.request .io3 = (s.equalFlag || (s.fcr.getLsbD 10 && !s.fcr.getLsbD 8 && s.pins.io.getLsbD 2 == s.fcr.getLsbD 9))
  io3Timing : s.fcr.extractLsb' 12 2 = 1#2 →
    s.request .io3 = (!s.fcr.getLsbD 8 && (s.equalFlag || (s.fcr.getLsbD 10 && s.eventFlag)))
  io3Standard : s.fcr.getLsbD 13 = true → s.fcr.getLsbD 10 = true ∨ s.fcr.getLsbD 8 = true →
    s.request .io3 = (s.fcr.getLsbD 10 && !s.fcr.getLsbD 8 && s.pins.io.getLsbD 2 == s.fcr.getLsbD 9)
  timerPriority : priority s.fcr .timer =
    if s.fcr.extractLsb' 20 2 = 3#2 then 6 else if s.fcr.extractLsb' 20 2 = 2#2 then 8
    else if s.fcr.extractLsb' 20 2 = 1#2 then 10 else 12
  priorities : priority s.fcr .io3 = 5 ∧ priority s.fcr .int1 = 7 ∧ priority s.fcr .int2 = 9 ∧ priority s.fcr .int3 = 11 ∧
    priority s.fcr .int4 = 13 ∧ priority s.fcr .io1 = 14 ∧ priority s.fcr .io2 = 15
  entries : Source.io1.entry = 49 ∧ Source.io2.entry = 48 ∧ Source.io3.entry = 54 ∧ Source.int1.entry = 53 ∧
    Source.int2.entry = 52 ∧ Source.int3.entry = 51 ∧ Source.int4.entry = 50 ∧ Source.timer.entry = 55

/-- What a load extracts, sign or zero extended (R103, R104, R235). -/
structure Extracts (r : Region) (a : Word) (s : State) : Prop where
  byteSigned : (s.loadValue .bs r a).toInt = (s.readByte r a).toInt
  byteUnsigned : (s.loadValue .bu r a).toNat = (s.readByte r a).toNat
  halfSigned : (s.loadValue .hs r a).toInt = (s.readByte r (alignHalf a) ++ s.readByte r (alignHalf a + 1#32) : Half).toInt
  halfUnsigned : (s.loadValue .hu r a).toNat =
    256 * (s.readByte r (alignHalf a)).toNat + (s.readByte r (alignHalf a + 1#32)).toNat
  word : (s.loadValue .w r a).toNat =
    2 ^ 24 * (s.readByte r (alignWord a)).toNat + 2 ^ 16 * (s.readByte r (alignWord a + 1#32)).toNat +
      2 ^ 8 * (s.readByte r (alignWord a + 2#32)).toNat + (s.readByte r (alignWord a + 3#32)).toNat
  /-- "Byte a(1..0) = 0 is bits 31..24 of the containing word, 3 is bits 7..0; half word a(1) = 0 is bits 31..16" -/
  containing : s.readByte r a = (s.loadValue .w r a).extractLsb' (24 - 8 * (a.toNat % 4)) 8 ∧
    s.readHalf r a = (s.loadValue .w r a).extractLsb' (16 - 16 * (a.toNat / 2 % 2)) 16

/-! ### The invariant -/

/-- What holds of every state the machine reaches (a reader of the spec expects each of these; a step keeps them). -/
structure Inv (s : State) : Prop where
  /-- memory keeps its canonical form -/
  memory : Memory.wf s.mem = true
  /-- "Bit zero of the PC is always zero" (R22) -/
  pcEven : s.pc.getLsbD 0 = false
  /-- WCR holds zext_32(value[15:0]) (R564) -/
  wcrUpper : s.wcr.extractLsb' 16 16 = 0#16
  /-- "While FCR(13) = 1 (IO3Standard and Watchdog modes) the two flags stay 0" (R564), and so does the toggle latch (R566) -/
  quietFlags : s.fcr.getLsbD 13 = true → s.equalFlag = false ∧ s.eventFlag = false ∧ s.io3Toggle = false
  /-- an Extended Overflow is saved only while it is enabled (R548) -/
  overflowEnabled : s.extOvfPending = true → s.fcr.getLsbD 16 = false
  /-- power-down is entered by clearing MCR(22), which nothing sets back meanwhile (R570) -/
  asleep : s.powerDown = true → s.mcr.getLsbD 22 = false
  /-- a pending delay instruction stands after a Delayed Branch (R61, R427), at an even address -/
  delaySlot : s.delayPending = true → s.afterDelayedBranch = true ∧ s.delayAddr.getLsbD 0 = false
  /-- a boundary is locked by a Delayed Branch or by a CALL, not both (R532) -/
  oneLock : (s.afterDelayedBranch && s.callLockout) = false
  /-- the cache holds the 32 words at most from the look-back to the look-ahead counter (R127) -/
  cache : alignWord s.lookBack = s.lookBack ∧ alignWord s.lookAhead = s.lookAhead ∧ (s.lookAhead - s.lookBack).toNat ≤ 124
  /-- with its refresh disabled nothing guarantees the IRAM (R112) -/
  iram : Memory.wf s.iramKept = true ∧ (s.mcr.extractLsb' 16 3 = 7#3 → s.iramKept = [])
  /-- "until the bus lock is released by setting FCR(17) to one" (R165) -/
  unlocked : s.fcr.getLsbD 17 = true → s.busLock = false
  /-- pins that no input has driven are at their inactive level (spec/92_eei_decisions.md section 2, `PINS`) -/
  quietPins : s.pinsDriven = false → s.pins = inactivePins s.fcr

end Sys2Proof.Machine
end

