-- ==== Sys2Proof/Certificates/Slice0/Obligations.lean ====
section
/-! DEFINITION. The statements for the provers, from the numbered rules of spec/. Each docstring names the rules; where a clause is
the model's own choice it names the log entry of notes/assumptions. -/

section

open Sys2Proof Sys2Proof.Machine

/-- Decoding the bytes of an encoded well-formed instruction gives it back, and leaves the bytes after it.
(spec/30_encoding.md sections 1 to 4, spec/40_memory_instructions.md R231) The GK rows of the opcode table are
PRESUMED (log 1). -/
def Obligations.EncodedInstructionsDecodeBack : Prop :=
  ∀ (i : Instr) (rest : List Byte), i.wf = true →
    decodeBytes ((encode i).flatMap bytesOfHalf ++ rest) = .ok (i, rest)

/-- What the decoder reads is well formed, and its encoding is the halfwords it was read from. (spec/30_encoding.md
sections 1 to 4, spec/40_memory_instructions.md R231) The GK rows of the opcode table are PRESUMED (log 1). -/
def Obligations.DecodedInstructionsEncodeBack : Prop :=
  ∀ (h1 h2 h3 : Half) (i : Instr), decode h1 h2 h3 = .ok i →
    i.wf = true ∧ encode i = [h1, h2, h3].take i.length

/-- Encodings printed in the spec decode to the instructions they are printed for. (spec/30_encoding.md R181 to R198,
spec/41_move_logical.md R281, R282, R289, R292, spec/45_branch_call_trap_frame_return.md R422, R430, R433, R434, R440,
R446, spec/46_extended_dsp.md R474) The GK rows of the opcode table are PRESUMED (log 1). -/
def Obligations.PrintedEncodingsDecode : Prop :=
  decode 0x2706#16 0#16 0#16 = .ok (.mov (.loc 0#4) (.loc 6#4)) ∧
  decode 0x6701#16 0x1234#16 0x5678#16 = .ok (.movi (.loc 0#4) (.word 0x12345678#32)) ∧
  decode 0x7914#16 0#16 0#16 = .ok (.ori .sr (.code 20#5)) ∧
  decode 0x1701#16 0x00FF#16 0#16 = .ok (.mask (.loc 0#4) (.loc 1#4) (.short 0xFF#15)) ∧
  decode 0xFC7B#16 0#16 0#16 = .ok (.br (.short (-3#7))) ∧
  decode 0xEE61#16 0x8001#16 0x2340#16 = .ok (.call 6#4 .sr (.long 0x12340#31)) ∧
  decode 0xFF17#16 0#16 0#16 = .ok (.trap 5#6) ∧
  decode 0xED62#16 0#16 0#16 = .ok (.frame 6#4 2#4) ∧
  decode 0x0500#16 0#16 0#16 = .ok (.ret (.loc 0#4)) ∧
  decode 0xCE01#16 0x0100#16 0#16 = .ok (.emul 0#4 1#4)

/-- Every step keeps the invariant, from every state that meets it. (spec/10_state.md R22, R61, spec/20_memory.md R100
to R106, R112, R127, spec/21_bus_interface.md R165, spec/60_exceptions.md R532, R548, R564, R570,
spec/92_eei_decisions.md section 2 (PINS)) The canonical form of memory and of the IRAM's marks is the model's own
(logs 4, 7), WCR itself holds zext_32 by R564 and R566 while a read of it may differ by I7.2 (log 27). The counters of
the cache are R127's with the prefetch free (log 46), the bus lock R165's (log 45), the undriven pins section 2's
`PINS` (logs 12, 42). -/
def Obligations.StepKeepsTheInvariant : Prop :=
  ∀ s t : State, Inv s → step s = .next t → Inv t

/-- The state after Reset meets the invariant that every step keeps. (spec/10_state.md R62) The invariant's clauses
are those of StepKeepsTheInvariant (logs 4, 7, 12, 27, 45, 46). -/
def Obligations.ResetStateMeetsTheInvariant : Prop :=
  Inv State.reset

/-- Reset leaves the values the spec states or decides for it. (spec/10_state.md R62, spec/70_reset_and_hazards.md
R590, spec/20_memory.md R112) That the saved Parity Error condition, the delay state and the CALL lock-out are cleared
is decision D20 (log 35). -/
def Obligations.ResetLeavesTheStatedValues : Prop :=
  let s := State.reset
  s.pc = 0xFFFFFFF8#32 ∧ srS s.sr = true ∧ srL s.sr = true ∧ srT s.sr = false ∧ srM s.sr = false ∧ srFL s.sr = 2#4 ∧
  s.bcr = 0xFFFFFFFF#32 ∧ s.fcr = 0xFFFFFFFF#32 ∧ s.mcr = 0xFFFFFFFF#32 ∧ s.equalFlag = false ∧ s.eventFlag = false ∧
  s.extOvfPending = false ∧ s.parityPending = false ∧ s.io3Toggle = false ∧ s.powerDown = false ∧
  s.delayPending = false ∧ s.callLockout = false ∧ s.stale = [] ∧ s.iramKept = []

/-- A step executes the instruction that the bytes at the PC decode to, then lets time go on. (spec/60_exceptions.md
R532, spec/45_branch_call_trap_frame_return.md R425, spec/20_memory.md R129) How many halfwords of a delay instruction
are those in memory is I2.12's finer model (log 29), the one cycle of an instruction the model's choice (log 11). -/
def Obligations.StepRunsTheDecodedInstruction : Prop :=
  ∀ (s : State) (i : Instr),
    let u := s.takeInput
    u.resetRequest = false → u.powerDown = false → u.pending = none →
    (u.fetch = .ok i → step s = thenAdvance s.cycles (exec i u)) ∧
    (u.stale = [] → u.delayPending = false →
      decode (u.readHalf (regionOf u.pc) u.pc) (u.readHalf (regionOf (u.pc + 2#32)) (u.pc + 2#32))
        (u.readHalf (regionOf (u.pc + 4#32)) (u.pc + 4#32)) = .ok i →
      step s = thenAdvance s.cycles (exec i u)) ∧
    (u.stale = [] → u.delayPending = true → srILC u.sr = 1#2 → i.length ≤ 2 →
      (∀ h, decode (u.readHalf (regionOf u.delayAddr) u.delayAddr)
        (u.readHalf (regionOf (u.delayAddr + 2#32)) (u.delayAddr + 2#32)) h = .ok i) →
      step s = thenAdvance s.cycles (exec i u)) ∧
    (u.stale = [] → u.delayPending = true → srILC u.sr = 2#2 →
      (∀ h h', decode (u.readHalf (regionOf u.delayAddr) u.delayAddr) h h' = .ok i) →
      step s = thenAdvance s.cycles (exec i u))

/-- MOV and MOVI copy their source, set Z and N from it, keep C; MOVI clears V, MOV leaves V open.
(spec/41_move_logical.md R280 to R282) The Privilege Error of a user program that sets L through the SR is taken after
the write by decision D17 (log 30). -/
def Obligations.MoveResults : Prop :=
  ∀ (rd rs : Reg) (imm : Imm) (s : State), rd.isPC = false → Usable [rd, rs] s →
    (let v := source 1 rs s
     Yields (.mov rd rs) rd v { s.sameFlags with z := some (v == 0#32), n := some (v.getLsbD 31), v := none } false s) ∧
    (let v := immValue imm
     Yields (.movi rd imm) rd v { s.sameFlags with z := some (v == 0#32), n := some (v.getLsbD 31), v := some false }
       false s)

/-- MOVD copies Rs to Rd, then Rsf as it stands after that to Rdf; zero where Rs denotes the SR.
(spec/41_move_logical.md R283) The Privilege Error of a user program that sets L through the SR is taken after the
write by decision D17 (log 30). A register after G15 is refused, D7 (log 20). -/
def Obligations.MovdCopiesTheHighWordFirst : Prop :=
  ∀ (rd rs : Reg) (q : Place) (s : State), rd.isPC = false → Usable [rd, rs] s → nextPlace rd s = some q →
    (rs.isSR = true →
      YieldsPair (.movd rd rs) rd q 0#32 0#32 { s.sameFlags with z := some true, n := some false, v := none } false s) ∧
    (∀ p, rs.isSR = false → nextPlace rs s = some p →
      let hi := source 1 rs s
      let lo := (s.opened.put (place rd s) hi).get 1 p
      YieldsPair (.movd rd rs) rd q hi lo
        { s.sameFlags with z := some (hi == 0#32 && lo == 0#32), n := some (hi.getLsbD 31), v := none } false s)

/-- AND, ANDN, OR, XOR, NOT, MASK, ANDNI, ORI, XORI place the bitwise result and write Z alone.
(spec/41_move_logical.md R280, R284 to R292, spec/30_encoding.md R194) The Privilege Error of a user program that sets
L through the SR is taken after the write by decision D17 (log 30). -/
def Obligations.LogicalResults : Prop :=
  ∀ (rd rs : Reg) (imm : Imm) (c : Const) (s : State), rd.isPC = false → Usable [rd, rs] s →
    (let v := source 1 rd s &&& source 1 rs s
     Yields (.and rd rs) rd v { s.sameFlags with z := some (v == 0#32) } false s) ∧
    (let v := source 1 rd s &&& ~~~(source 1 rs s)
     Yields (.andn rd rs) rd v { s.sameFlags with z := some (v == 0#32) } false s) ∧
    (let v := source 1 rd s ||| source 1 rs s
     Yields (.or rd rs) rd v { s.sameFlags with z := some (v == 0#32) } false s) ∧
    (let v := source 1 rd s ^^^ source 1 rs s
     Yields (.xor rd rs) rd v { s.sameFlags with z := some (v == 0#32) } false s) ∧
    (let v := ~~~(source 1 rs s)
     Yields (.not rd rs) rd v { s.sameFlags with z := some (v == 0#32) } false s) ∧
    (let v := source c.length rs s &&& constValue c
     Yields (.mask rd rs c) rd v { s.sameFlags with z := some (v == 0#32) } false s) ∧
    (let v := source imm.length rd s &&& ~~~(immMaskValue imm)
     Yields (.andni rd imm) rd v { s.sameFlags with z := some (v == 0#32) } false s) ∧
    (let v := source imm.length rd s ||| immValue imm
     Yields (.ori rd imm) rd v { s.sameFlags with z := some (v == 0#32) } false s) ∧
    (let v := source imm.length rd s ^^^ immValue imm
     Yields (.xori rd imm) rd v { s.sameFlags with z := some (v == 0#32) } false s)

/-- ADD, ADDI, SUM, SUB and NEG place the wrapped result with Z, N, signed overflow and carry or borrow.
(spec/42_arithmetic.md R311, R313, R316, R318, R320, R323, spec/00_scope.md R12) The Privilege Error of a user program
that sets L through the SR is taken after the write by decision D17 (log 30). -/
def Obligations.AddAndSubtractResults : Prop :=
  ∀ (rd rs : Reg) (imm : Imm) (c : Const) (s : State), rd.isPC = false → Usable [rd, rs] s →
    let addClaim := fun a b : Word =>
      ({ c := some (decide (2 ^ 32 ≤ a.toNat + b.toNat)), z := some (a + b == 0#32), n := some ((a + b).getLsbD 31),
         v := some (outsideSigned 32 (a.toInt + b.toInt)) } : FlagClaim)
    let subClaim := fun a b : Word =>
      ({ c := some (decide (a.toNat < b.toNat)), z := some (a - b == 0#32), n := some ((a - b).getLsbD 31),
         v := some (outsideSigned 32 (a.toInt - b.toInt)) } : FlagClaim)
    (let a := source 1 rd s
     let b := sourceOrCarry 1 rs s
     Yields (.add rd rs) rd (a + b) (addClaim a b) false s) ∧
    (let a := source imm.length rd s
     let b := if imm = .code 0#5 then carryWord (srC s.sr && (!srZ s.sr || a.getLsbD 0)) else immValue imm
     Yields (.addi rd imm) rd (a + b) (addClaim a b) false s) ∧
    (let a := sourceOrCarry c.length rs s
     let b := constValue c
     Yields (.sum rd rs c) rd (a + b) (addClaim a b) false s) ∧
    (let a := source 1 rd s
     let b := sourceOrCarry 1 rs s
     Yields (.sub rd rs) rd (a - b) (subClaim a b) false s) ∧
    (let a := 0#32
     let b := sourceOrCarry 1 rs s
     Yields (.neg rd rs) rd (a - b) (subClaim a b) false s)

/-- ADDC and SUBC use C once, and can only clear Z. (spec/42_arithmetic.md R315, R322, spec/00_scope.md R12) The
Privilege Error of a user program that sets L through the SR is taken after the write by decision D17 (log 30). -/
def Obligations.CarryChainResults : Prop :=
  ∀ (rd rs : Reg) (s : State), rd.isPC = false → Usable [rd, rs] s →
    let a := source 1 rd s
    let b := if rs.isSR then 0#32 else source 1 rs s
    let c := srC s.sr
    (let r := a + b + carryWord c
     Yields (.addc rd rs) rd r
      { c := some (decide (2 ^ 32 ≤ a.toNat + b.toNat + c.toNat)), z := some (srZ s.sr && r == 0#32),
        n := some (r.getLsbD 31), v := some (outsideSigned 32 (a.toInt + b.toInt + c.toNat)) } false s) ∧
    (let r := a - b - carryWord c
     Yields (.subc rd rs) rd r
      { c := some (decide (a.toNat < b.toNat + c.toNat)), z := some (srZ s.sr && r == 0#32),
        n := some (r.getLsbD 31), v := some (outsideSigned 32 (a.toInt - b.toInt - c.toNat)) } false s)

/-- ADDS, ADDSI, SUMS, SUBS and NEGS keep C and take a Range Error after the result exactly on signed overflow.
(spec/42_arithmetic.md R312, R314, R317, R319, R321, R324) The Privilege Error of a user program that sets L through
the SR is taken after the write by decision D17 (log 30). -/
def Obligations.TrappingArithmeticResults : Prop :=
  ∀ (rd rs : Reg) (imm : Imm) (c : Const) (s : State), rd.isPC = false → Usable [rd, rs] s →
    let claim := fun (r : Word) (v : Bool) =>
      ({ s.sameFlags with z := some (r == 0#32), n := some (r.getLsbD 31), v := some v } : FlagClaim)
    (let a := source 1 rd s
     let b := sourceOrCarry 1 rs s
     Yields (.adds rd rs) rd (a + b) (claim (a + b) (outsideSigned 32 (a.toInt + b.toInt)))
       (outsideSigned 32 (a.toInt + b.toInt)) s) ∧
    (let a := source imm.length rd s
     let b := if imm = .code 0#5 then carryWord (srC s.sr && (!srZ s.sr || a.getLsbD 0)) else immValue imm
     Yields (.addsi rd imm) rd (a + b) (claim (a + b) (outsideSigned 32 (a.toInt + b.toInt)))
       (outsideSigned 32 (a.toInt + b.toInt)) s) ∧
    (let a := sourceOrCarry c.length rs s
     let b := constValue c
     Yields (.sums rd rs c) rd (a + b) (claim (a + b) (outsideSigned 32 (a.toInt + b.toInt)))
       (outsideSigned 32 (a.toInt + b.toInt)) s) ∧
    (let a := source 1 rd s
     let b := sourceOrCarry 1 rs s
     Yields (.subs rd rs) rd (a - b) (claim (a - b) (outsideSigned 32 (a.toInt - b.toInt)))
       (outsideSigned 32 (a.toInt - b.toInt)) s) ∧
    (let a := 0#32
     let b := sourceOrCarry 1 rs s
     Yields (.negs rd rs) rd (a - b) (claim (a - b) (outsideSigned 32 (a.toInt - b.toInt)))
       (outsideSigned 32 (a.toInt - b.toInt)) s)

/-- MUL gives the low product word, MULS and MULU the signed and the unsigned double-word product.
(spec/42_arithmetic.md R325 to R327) That the instruction runs with a free result where the PC or the SR is denoted is
the model's choice over the refusal of I2.13 (log 24). The Privilege Error of a user program that sets L through the
SR is taken after the write by decision D17 (log 30). A register after G15 is refused, D7 (log 20). -/
def Obligations.MultiplyResults : Prop :=
  ∀ (rd rs : Reg) (s : State), rd.isPC = false → Usable [rd, rs] s →
    let defined := rd.isSR = false ∧ rs.isPC = false ∧ rs.isSR = false
    let a := source 1 rd s
    let b := source 1 rs s
    (∃ r : Word, (defined → r = a * b) ∧
      Yields (.mul rd rs) rd r { c := none, z := some (r == 0#32), n := some (r.getLsbD 31), v := none } false s) ∧
    (∀ q, nextPlace rd s = some q → ∃ p : Double, (defined → p = a.signExtend 64 * b.signExtend 64) ∧
      YieldsPair (.muls rd rs) rd q (highWord p) (lowWord p)
        { c := none, z := some (p == 0#64), n := some (p.getLsbD 63), v := none } false s) ∧
    (∀ q, nextPlace rd s = some q → ∃ p : Double, (defined → p = a.setWidth 64 * b.setWidth 64) ∧
      YieldsPair (.mulu rd rs) rd q (highWord p) (lowWord p)
        { c := none, z := some (p == 0#64), n := some (p.getLsbD 63), v := none } false s)

/-- DIVS and DIVU place remainder and quotient, or take a Range Error on zero divisor, overflow or negative dividend.
(spec/42_arithmetic.md R328, R329) The operands of I2.13 and I4.4 are left out: there everything is free (log 24). A
register after G15 is refused, D7 (log 20). -/
def Obligations.DivideResults : Prop :=
  ∀ (rd rs : Reg) (p : Place) (s : State), rd.isPC = false → rd.isSR = false → rs.isPC = false → rs.isSR = false →
    Usable [rd, rs] s → nextPlace rd s = some p → place rs s ≠ place rd s → place rs s ≠ p →
    let dividend : Double := source 1 rd s ++ s.get 1 p
    let divisor := source 1 rs s
    let claim := fun q : Word =>
      ({ s.sameFlags with z := some (q == 0#32), n := some (q.getLsbD 31), v := some false } : FlagClaim)
    let trapClaim : FlagClaim := { s.sameFlags with z := none, n := none, v := some true }
    (let q := dividend.toInt.tdiv divisor.toInt
     if divisor = 0#32 ∨ dividend.toInt < 0 ∨ q < -2 ^ 31 ∨ 2 ^ 31 ≤ q then
       ∃ hi lo, YieldsPair (.divs rd rs) rd p hi lo trapClaim true s
     else
       YieldsPair (.divs rd rs) rd p (BitVec.ofInt 32 (dividend.toInt - q * divisor.toInt)) (BitVec.ofInt 32 q)
         (claim (BitVec.ofInt 32 q)) false s) ∧
    (let q := dividend.toNat / divisor.toNat
     if divisor = 0#32 ∨ 2 ^ 32 ≤ q then ∃ hi lo, YieldsPair (.divu rd rs) rd p hi lo trapClaim true s
     else
       YieldsPair (.divu rd rs) rd p (BitVec.ofNat 32 (dividend.toNat % divisor.toNat)) (BitVec.ofNat 32 q)
         (claim (BitVec.ofNat 32 q)) false s)

/-- The single-word shifts and ROL place the shifted word; right shifts set C to the last bit out and keep V.
(spec/43_shift_rotate.md R350, R351, R353, R355, R357, R359, R361, R363, R365) The Privilege Error of a user program
that sets L through the SR is taken after the write by decision D17 (log 30). -/
def Obligations.SingleWordShiftResults : Prop :=
  ∀ (rd : Reg) (n : BitVec 5) (ld ls : BitVec 4) (s : State),
    let left := fun r : Word => ({ c := none, z := some (r == 0#32), n := some (r.getLsbD 31), v := none } : FlagClaim)
    let right := fun (a : Word) (k : Nat) (r : Word) =>
      ({ s.sameFlags with
         c := some (decide (k ≠ 0) && a.getLsbD (k - 1)), z := some (r == 0#32), n := some (r.getLsbD 31) } : FlagClaim)
    (rd.isPC = false → Usable [rd] s →
      let a := source 1 rd s
      Yields (.shli rd n) rd (a <<< n.toNat) (left (a <<< n.toNat)) false s ∧
      Yields (.sari rd n) rd (a.sshiftRight n.toNat) (right a n.toNat (a.sshiftRight n.toNat)) false s ∧
      Yields (.shri rd n) rd (a >>> n.toNat) (right a n.toNat (a >>> n.toNat)) false s) ∧
    (let a := s.lr ld.toNat
     let k := (s.lr ls.toNat).toNat % 32
     Yields (.shl ld ls) (.loc ld) (a <<< k) (left (a <<< k)) false s ∧
     Yields (.sar ld ls) (.loc ld) (a.sshiftRight k) (right a k (a.sshiftRight k)) false s ∧
     Yields (.shr ld ls) (.loc ld) (a >>> k) (right a k (a >>> k)) false s ∧
     Yields (.rol ld ls) (.loc ld) (a.rotateLeft k) (left (a.rotateLeft k)) false s)

/-- The double-word shifts place the shifted Ld//Ldf; with Ls in the pair some undefined value.
(spec/43_shift_rotate.md R350 to R352, R354, R356, R358, R360, R362, R364) -/
def Obligations.DoubleWordShiftResults : Prop :=
  ∀ (n : BitVec 5) (ld ls : BitVec 4) (s : State),
    let q : Place := .loc (localIndex s.sr (ld.toNat + 1))
    let a : Double := s.lr ld.toNat ++ s.lr (ld.toNat + 1)
    let k := (s.lr ls.toNat).toNat % 32
    let left := fun r : Double => ({ c := none, z := some (r == 0#64), n := some (r.getLsbD 63), v := none } : FlagClaim)
    let right := fun (k : Nat) (r : Double) =>
      ({ s.sameFlags with
         c := some (decide (k ≠ 0) && a.getLsbD (k - 1)), z := some (r == 0#64), n := some (r.getLsbD 63) } : FlagClaim)
    let apart := localIndex s.sr ls.toNat ≠ localIndex s.sr ld.toNat ∧
      localIndex s.sr ls.toNat ≠ localIndex s.sr (ld.toNat + 1)
    let does := fun (i : Instr) (r : Double) (f : FlagClaim) => YieldsPair i (.loc ld) q (highWord r) (lowWord r) f false s
    let open4 : FlagClaim := { c := none, z := none, n := none, v := none }
    does (.shldi ld n) (a <<< n.toNat) (left (a <<< n.toNat)) ∧
    does (.sardi ld n) (a.sshiftRight n.toNat) (right n.toNat (a.sshiftRight n.toNat)) ∧
    does (.shrdi ld n) (a >>> n.toNat) (right n.toNat (a >>> n.toNat)) ∧
    (apart → does (.shld ld ls) (a <<< k) (left (a <<< k)) ∧ does (.sard ld ls) (a.sshiftRight k) (right k (a.sshiftRight k)) ∧
      does (.shrd ld ls) (a >>> k) (right k (a >>> k))) ∧
    (¬ apart → (∃ r, does (.shld ld ls) r open4) ∧ (∃ r, does (.sard ld ls) r open4) ∧ (∃ r, does (.shrd ld ls) r open4))

/-- XM1 to XM8 scale the source and take a Range Error after it above the limit; XX1 to XX8 never do.
(spec/44_index_check_compare_set.md R380, R385) -/
def Obligations.IndexMoveResults : Prop :=
  ∀ (rd rs : Reg) (lim : Lim) (s : State), rd.isPC = false → rd.isSR = false → rs.isSR = false → Usable [rd, rs] s →
    let v := source lim.length rs s
    let trap := if rs.isPC then decide ((limValue lim).toNat ≤ v.toNat) else decide ((limValue lim).toNat < v.toNat)
    Yields (.xm1 rd rs lim) rd (v <<< 0) s.sameFlags trap s ∧
    Yields (.xm2 rd rs lim) rd (v <<< 1) s.sameFlags trap s ∧
    Yields (.xm4 rd rs lim) rd (v <<< 2) s.sameFlags trap s ∧
    Yields (.xm8 rd rs lim) rd (v <<< 3) s.sameFlags trap s ∧
    Yields (.xx1 rd rs lim) rd (v <<< 0) s.sameFlags false s ∧
    Yields (.xx2 rd rs lim) rd (v <<< 1) s.sameFlags false s ∧
    Yields (.xx4 rd rs lim) rd (v <<< 2) s.sameFlags false s ∧
    Yields (.xx8 rd rs lim) rd (v <<< 3) s.sameFlags false s

/-- CHK, CHKZ take a Range Error exactly on their condition; NOP and FETCH only go on.
(spec/44_index_check_compare_set.md R390 to R392, R412) -/
def Obligations.CheckOutcomes : Prop :=
  ∀ (rd rs : Reg) (n : BitVec 4) (s : State),
    (Usable [rd, rs] s →
      Tests (.chk rd rs) s.sameFlags
        (if rs.isPC then decide ((source 1 rs s).toNat ≤ (source 1 rd s).toNat)
         else decide ((source 1 rs s).toNat < (source 1 rd s).toNat)) s) ∧
    (s.window = false → Tests (.chkz rd) s.sameFlags (source 1 rd s == 0#32) s) ∧
    Passes .nop s.sameFlags s ∧
    (s.window = false → s.inSlot = false → Passes (.fetch n) s.sameFlags s)

/-- CMP and CMPI set all flags, N as the true sign; CMPB and CMPBI write Z alone. (spec/44_index_check_compare_set.md
R395 to R398, spec/30_encoding.md R194) -/
def Obligations.CompareFlags : Prop :=
  ∀ (rd rs : Reg) (imm : Imm) (s : State), Usable [rd, rs] s →
    let claim := fun a b : Word =>
      ({ c := some (decide (a.toNat < b.toNat)), z := some (decide (a = b)), n := some (decide (a.toInt < b.toInt)),
         v := some (outsideSigned 32 (a.toInt - b.toInt)) } : FlagClaim)
    Passes (.cmp rd rs) (claim (source 1 rd s) (sourceOrCarry 1 rs s)) s ∧
    Passes (.cmpi rd imm) (claim (source imm.length rd s) (immValue imm)) s ∧
    Passes (.cmpb rd rs) { s.sameFlags with z := some (source 1 rd s &&& source 1 rs s == 0#32) } s ∧
    (let a := source imm.length rd s
     Passes (.cmpbi rd imm)
      { s.sameFlags with
        z := some
          (if imm = .code 0#5 then decide (∃ j : Fin 4, a.extractLsb' (8 * j.val) 8 = 0#8)
           else a &&& immMaskValue imm == 0#32) } s)

/-- TESTLZ counts the leading zeros; SETADR expands FP to a stack address. (spec/44_index_check_compare_set.md R400,
R405) -/
def Obligations.LeadingZerosAndStackAddress : Prop :=
  ∀ (ld ls : BitVec 4) (rd : Reg) (s : State),
    (∃ n : Nat, n ≤ 32 ∧ (∀ j, j < n → (s.lr ls.toNat).getLsbD (31 - j) = false) ∧
      (n < 32 → (s.lr ls.toNat).getLsbD (31 - n) = true) ∧
      Yields (.testlz ld ls) (.loc ld) (BitVec.ofNat 32 n) s.sameFlags false s) ∧
    (rd.isPC = false → rd.isSR = false → Usable [rd] s →
      Yields (.setadr rd) rd
        ((s.sp.extractLsb' 9 23 ++ srFP s.sr ++ 0#2) +
          (if s.sp.getLsbD 8 = true ∧ (srFP s.sr).getLsbD 6 = false then 0x200#32 else 0#32)) s.sameFlags false s)

/-- Each SETxx places one (SETxxM minus one) where its condition holds and zero else, and changes no flag.
(spec/44_index_check_compare_set.md R404, R406 to R411, spec/45_branch_call_trap_frame_return.md R421) -/
def Obligations.SetConditionalResults : Prop :=
  ∀ (rd : Reg) (s : State), rd.isPC = false → rd.isSR = false → Usable [rd] s →
    let does := fun (i : Instr) (cond : Bool) (one : Word) =>
      Yields i rd (if cond then one else 0#32) s.sameFlags false s
    does (.set1 rd) true 1#32 ∧
    does (.set0 rd) false 1#32 ∧
    does (.set1m rd) true 0xFFFFFFFF#32 ∧
    does (.setle rd) (srN s.sr || srZ s.sr) 1#32 ∧
    does (.setlem rd) (srN s.sr || srZ s.sr) 0xFFFFFFFF#32 ∧
    does (.setgt rd) (!(srN s.sr || srZ s.sr)) 1#32 ∧
    does (.setgtm rd) (!(srN s.sr || srZ s.sr)) 0xFFFFFFFF#32 ∧
    does (.setlt rd) (srN s.sr) 1#32 ∧
    does (.setltm rd) (srN s.sr) 0xFFFFFFFF#32 ∧
    does (.setge rd) (!srN s.sr) 1#32 ∧
    does (.setgem rd) (!srN s.sr) 0xFFFFFFFF#32 ∧
    does (.setse rd) (srC s.sr || srZ s.sr) 1#32 ∧
    does (.setsem rd) (srC s.sr || srZ s.sr) 0xFFFFFFFF#32 ∧
    does (.setht rd) (!(srC s.sr || srZ s.sr)) 1#32 ∧
    does (.sethtm rd) (!(srC s.sr || srZ s.sr)) 0xFFFFFFFF#32 ∧
    does (.setst rd) (srC s.sr) 1#32 ∧
    does (.setstm rd) (srC s.sr) 0xFFFFFFFF#32 ∧
    does (.sethe rd) (!srC s.sr) 1#32 ∧
    does (.sethem rd) (!srC s.sr) 0xFFFFFFFF#32 ∧
    does (.sete rd) (srZ s.sr) 1#32 ∧
    does (.setem rd) (srZ s.sr) 0xFFFFFFFF#32 ∧
    does (.setne rd) (!srZ s.sr) 1#32 ∧
    does (.setnem rd) (!srZ s.sr) 0xFFFFFFFF#32 ∧
    does (.setv rd) (srV s.sr) 1#32 ∧
    does (.setvm rd) (srV s.sr) 0xFFFFFFFF#32 ∧
    does (.setnv rd) (!srV s.sr) 1#32 ∧
    does (.setnvm rd) (!srV s.sr) 0xFFFFFFFF#32

/-- The loads without address update place the extracted data in Rs and change nothing else.
(spec/40_memory_instructions.md R232, R235, R236, R240, R244, R245, spec/20_memory.md R113) Selection by dis in the
absolute mode is decision D21 (log 6). -/
def Obligations.LoadResults : Prop :=
  ∀ (rd rs : Reg) (ld : BitVec 4) (dis : Dis) (s : State), (∀ c, rs = .glob c → 2 ≤ c.toNat ∧ c.toNat ≤ 13) →
    (let b := source dis.length rd s
     let a := b + disValue dis
     let r := regionOf b
     Usable [rd, rs] s → b ≠ 0#32 →
      LoadsWord (.ldbsD rd rs dis) rs (s.loadValue .bs r a) none s ∧
      LoadsWord (.ldbuD rd rs dis) rs (s.loadValue .bu r a) none s ∧
      LoadsWord (.ldhuD rd rs dis) rs (s.loadValue .hu r a) none s ∧
      LoadsWord (.ldhsD rd rs dis) rs (s.loadValue .hs r a) none s ∧
      LoadsWord (.ldwD rd rs dis) rs (s.loadValue .w r a) none s) ∧
    (let e := disValue dis
     s.window = false →
      LoadsWord (.ldbsA rs dis) rs (s.loadValue .bs (regionOf e) e) none s ∧
      LoadsWord (.ldbuA rs dis) rs (s.loadValue .bu (regionOf e) e) none s ∧
      LoadsWord (.ldhuA rs dis) rs (s.loadValue .hu (regionOf e) e) none s ∧
      LoadsWord (.ldhsA rs dis) rs (s.loadValue .hs (regionOf e) e) none s ∧
      LoadsWord (.ldwA rs dis) rs (s.loadValue .w (regionOf e) e) none s) ∧
    (let e := s.lr ld.toNat
     Usable [rs] s → e ≠ 0#32 → LoadsWord (.ldwR ld rs) rs (s.loadValue .w (regionOf e) e) none s) ∧
    ∀ (r : Region) (a : Word), Extracts r a s

/-- The next-address, post-increment and stack loads place the data and advance the address register.
(spec/40_memory_instructions.md R232, R236, R239, R242, R246, R247, spec/20_memory.md R118) That loaded data win over
the address update is DEDUCED in the spec (R239, log 32). -/
def Obligations.UpdatingLoadResults : Prop :=
  ∀ (rd rs : Reg) (ld : BitVec 4) (dis : Dis) (s : State), (∀ c, rs = .glob c → 2 ≤ c.toNat ∧ c.toNat ≤ 13) →
    (let b := source dis.length rd s
     Usable [rd, rs] s → rd.isPC = false → rd.isSR = false → b ≠ 0#32 →
      LoadsWord (.ldbsN rd rs dis) rs (s.loadValue .bs (regionOf b) b) (some (place rd s, b + disValue dis)) s ∧
      LoadsWord (.ldbuN rd rs dis) rs (s.loadValue .bu (regionOf b) b) (some (place rd s, b + disValue dis)) s ∧
      LoadsWord (.ldhuN rd rs dis) rs (s.loadValue .hu (regionOf b) b) (some (place rd s, b + disValue dis)) s ∧
      LoadsWord (.ldhsN rd rs dis) rs (s.loadValue .hs (regionOf b) b) (some (place rd s, b + disValue dis)) s ∧
      LoadsWord (.ldwN rd rs dis) rs (s.loadValue .w (regionOf b) b) (some (place rd s, b + disValue dis)) s ∧
      LoadsWord (.ldwS rd rs dis) rs
        (if b.toNat < s.sp.toNat then s.readWord (regionOf b) b
         else if place rd s = .loc (b.extractLsb' 2 6) then b + disValue dis else s.getLocal (b.extractLsb' 2 6))
        (some (place rd s, b + disValue dis)) s) ∧
    (let b := s.lr ld.toNat
     Usable [rs] s → b ≠ 0#32 →
      LoadsWord (.ldwP ld rs) rs (s.readWord (regionOf b) b) (some (place (.loc ld) s, b + 4#32)) s)

/-- LDD places the word at the address in Rs and then the word four bytes on in the register after it.
(spec/40_memory_instructions.md R236, R238, R239, R241, R243 to R246, spec/20_memory.md R109) That another bus master
may write between the words is R109's, how the model lets it log 12's. That loaded data win over the address update is
DEDUCED in the spec (R239, log 32). Selection by dis in the absolute mode is decision D21 (log 6), that of the unit by
the address register R113. -/
def Obligations.DoubleLoadResults : Prop :=
  ∀ (rd rs : Reg) (ld : BitVec 4) (dis : Dis) (q : Place) (s : State), (∀ c, rs = .glob c → 2 ≤ c.toNat ∧ c.toNat ≤ 12) → nextPlace rs s = some q →
    (let b := source dis.length rd s
     Usable [rd, rs] s → b ≠ 0#32 →
      LoadsPair (.lddD rd rs dis) rs q (regionOf b) (b + disValue dis) none s ∧
      (rd.isPC = false → rd.isSR = false →
        LoadsPair (.lddN rd rs dis) rs q (regionOf b) b (some (place rd s, b + disValue dis)) s)) ∧
    (let a := disValue dis
     s.window = false → LoadsPair (.lddA rs dis) rs q (regionOf a) a none s) ∧
    (let b := s.lr ld.toNat
     Usable [rs] s → b ≠ 0#32 →
      LoadsPair (.lddR ld rs) rs q (regionOf b) b none s ∧
      LoadsPair (.lddP ld rs) rs q (regionOf b) b (some (place (.loc ld) s, b + 8#32)) s)

/-- The I/O loads and stores access the I/O space once per word and change nothing else of the machine.
(spec/40_memory_instructions.md R250 to R253, spec/20_memory.md R101, R104, R116) The trace of I/O accesses is the
model's own (log 10). -/
def Obligations.IoAccessResults : Prop :=
  ∀ (rd rs : Reg) (dis : Dis) (s : State),
    let b := source dis.length rd s
    let done := fun (i : Instr) (regs : List Place) (trace : List IoEvent) (loaded : State → Prop) =>
      ∃ t, exec i s = .next t ∧ loaded t ∧ t.ioTrace = trace ++ s.ioTrace ∧ s.sameFlags.meets t.sr ∧ srH t.sr = false ∧
        StatusKept s.sr t.sr ∧ RegistersKept regs s t ∧ SpecialKept s t ∧ MemoryKept s t ∧ Continues i.length s t
    let loads := fun (i1 i2 : Instr) (a : Word) =>
      ((∀ c, rs = .glob c → 2 ≤ c.toNat ∧ c.toNat ≤ 13) → done i1 [place rs s] [.read (alignWord a)] fun t => t.held (place rs s) = s.ioReadValue a) ∧
      (∀ q, (∀ c, rs = .glob c → 2 ≤ c.toNat ∧ c.toNat ≤ 12) → nextPlace rs s = some q →
        done i2 [place rs s, q] [.read (alignWord (a + 4#32)), .read (alignWord a)] fun t =>
          t.held (place rs s) = s.ioReadValue a ∧ t.held q = (s.noteIoRead a).ioReadValue (a + 4#32))
    let stores := fun (i1 i2 : Instr) (a : Word) =>
      let v := if rs.isSR then 0#32 else source dis.length rs s
      (done i1 [] [.write (alignWord a) v] fun _ => True) ∧
      (∀ q, nextPlace rs s = some q →
        done i2 [] [.write (alignWord (a + 4#32)) (if rs.isSR then 0#32 else s.get dis.length q), .write (alignWord a) v]
          fun _ => True)
    (Usable [rd, rs] s → b ≠ 0#32 → loads (.ldwIOD rd rs dis) (.lddIOD rd rs dis) (b + disValue dis) ∧
      stores (.stwIOD rd rs dis) (.stdIOD rd rs dis) (b + disValue dis)) ∧
    (s.window = false → loads (.ldwIOA rs dis) (.lddIOA rs dis) (disValue dis) ∧
      stores (.stwIOA rs dis) (.stdIOA rs dis) (disValue dis))

/-- A store changes exactly the bytes it stores; a signed store out of range then takes a Range Error.
(spec/40_memory_instructions.md R233, R234, R237, R254, R256, R258 to R260, spec/20_memory.md R103, R104, R113)
Selection by dis in the absolute mode is decision D21 (log 6). -/
def Obligations.StoreResults : Prop :=
  ∀ (rd rs : Reg) (ld : BitVec 4) (dis : Dis) (s : State), Memory.wf s.mem = true →
    (let v := if rs.isSR then 0#32 else source dis.length rs s
     let b := source dis.length rd s
     let a := b + disValue dis
     let r := regionOf b
     Usable [rd, rs] s → b ≠ 0#32 →
      StoresBytes (.stbsD rd rs dis) r (dataAddress .bs a) (dataBytes .bs v) none (outsideSigned 8 v.toInt) s ∧
      StoresBytes (.stbuD rd rs dis) r (dataAddress .bu a) (dataBytes .bu v) none false s ∧
      StoresBytes (.sthuD rd rs dis) r (dataAddress .hu a) (dataBytes .hu v) none false s ∧
      StoresBytes (.sthsD rd rs dis) r (dataAddress .hs a) (dataBytes .hs v) none (outsideSigned 16 v.toInt) s ∧
      StoresBytes (.stwD rd rs dis) r (dataAddress .w a) (dataBytes .w v) none false s ∧
      (rd.isPC = false → rd.isSR = false →
       StoresBytes (.stbsN rd rs dis) r (dataAddress .bs b) (dataBytes .bs v) (some (place rd s, a)) (outsideSigned 8 v.toInt) s ∧
       StoresBytes (.stbuN rd rs dis) r (dataAddress .bu b) (dataBytes .bu v) (some (place rd s, a)) false s ∧
       StoresBytes (.sthuN rd rs dis) r (dataAddress .hu b) (dataBytes .hu v) (some (place rd s, a)) false s ∧
       StoresBytes (.sthsN rd rs dis) r (dataAddress .hs b) (dataBytes .hs v) (some (place rd s, a)) (outsideSigned 16 v.toInt) s ∧
       StoresBytes (.stwN rd rs dis) r (dataAddress .w b) (dataBytes .w v) (some (place rd s, a)) false s)) ∧
    (let v := if rs.isSR then 0#32 else source dis.length rs s
     let e := disValue dis
     s.window = false →
      StoresBytes (.stbsA rs dis) (regionOf e) (dataAddress .bs e) (dataBytes .bs v) none (outsideSigned 8 v.toInt) s ∧
      StoresBytes (.stbuA rs dis) (regionOf e) (dataAddress .bu e) (dataBytes .bu v) none false s ∧
      StoresBytes (.sthuA rs dis) (regionOf e) (dataAddress .hu e) (dataBytes .hu v) none false s ∧
      StoresBytes (.sthsA rs dis) (regionOf e) (dataAddress .hs e) (dataBytes .hs v) none (outsideSigned 16 v.toInt) s ∧
      StoresBytes (.stwA rs dis) (regionOf e) (dataAddress .w e) (dataBytes .w v) none false s) ∧
    (let v := if rs.isSR then 0#32 else source 1 rs s
     let b := s.lr ld.toNat
     Usable [rs] s → b ≠ 0#32 →
      StoresBytes (.stwR ld rs) (regionOf b) (alignWord b) (wordBytes v) none false s ∧
      StoresBytes (.stwP ld rs) (regionOf b) (alignWord b) (wordBytes v) (some (place (.loc ld) s, b + 4#32)) false s)

/-- STD stores Rs and then the register after it, as it stands after the address update, four bytes on.
(spec/40_memory_instructions.md R237, R238, R255, R257 to R260, spec/20_memory.md R109) That another bus master may
write between the words is R109's, how the model lets it log 12's. Selection by dis in the absolute mode is decision
D21 (log 6). -/
def Obligations.DoubleStoreResults : Prop :=
  ∀ (rd rs : Reg) (ld : BitVec 4) (dis : Dis) (q : Place) (s : State), Memory.wf s.mem = true → nextPlace rs s = some q →
    let hi := fun len : Nat => if rs.isSR then 0#32 else source len rs s
    let lo := fun (len : Nat) (update : Option (Place × Word)) =>
      if rs.isSR then 0#32
      else match update with
        | none => s.get len q
        | some (p, w) => if p = q then w else s.get len q
    (let b := source dis.length rd s
     let a := b + disValue dis
     Usable [rd, rs] s → b ≠ 0#32 →
      StoresPair (.stdD rd rs dis) (regionOf b) a (hi dis.length) (lo dis.length none) none s ∧
      (rd.isPC = false → rd.isSR = false →
        let update := some (place rd s, b + disValue dis)
        StoresPair (.stdN rd rs dis) (regionOf b) b (hi dis.length) (lo dis.length update) update s)) ∧
    (let e := disValue dis
     s.window = false → StoresPair (.stdA rs dis) (regionOf e) e (hi dis.length) (lo dis.length none) none s) ∧
    (let b := s.lr ld.toNat
     Usable [rs] s → b ≠ 0#32 →
      StoresPair (.stdR ld rs) (regionOf b) b (hi 1) (lo 1 none) none s ∧
      (let update := some (place (.loc ld) s, b + 8#32)
       StoresPair (.stdP ld rs) (regionOf b) b (hi 1) (lo 1 update) update s))

/-- STW.S writes memory below SP, else the local register address(7..2), and advances Rd.
(spec/40_memory_instructions.md R261, spec/20_memory.md R118) -/
def Obligations.StackStoreResults : Prop :=
  ∀ (rd rs : Reg) (dis : Dis) (s : State), Memory.wf s.mem = true → Usable [rd, rs] s → rd.isPC = false →
    rd.isSR = false →
    let v := if rs.isSR then 0#32 else source dis.length rs s
    let b := source dis.length rd s
    let update := some (place rd s, b + disValue dis)
    b ≠ 0#32 →
    (b.toNat < s.sp.toNat →
      StoresBytes (.stwS rd rs dis) (regionOf b) (alignWord b) (wordBytes v) update false s) ∧
    (s.sp.toNat ≤ b.toNat →
      let p : Place := .loc (b.extractLsb' 2 6)
      ∃ t, exec (.stwS rd rs dis) s = .next t ∧ t.held p = v ∧ AddressDone update [p] s t ∧
        Continues dis.length s t ∧ Frame [p, place rd s] s t)

/-- A zero address register takes a Pointer Error: no access, no data register written, the address register advanced.
(R543) -/
def Obligations.ZeroPointersFail : Prop :=
  ∀ (rd rs : Reg) (ld : BitVec 4) (dis : Dis) (q : Place) (s : State),
    let loadable := ∀ c, rs = .glob c → 2 ≤ c.toNat ∧ c.toNat ≤ 13
    let loadable2 := ∀ c, rs = .glob c → 2 ≤ c.toNat ∧ c.toNat ≤ 12
    let up := some (place rd s, disValue dis)
    (Usable [rd, rs] s → source dis.length rd s = 0#32 →
      (loadable →
       PointerFails (.ldbsD rd rs dis) none s ∧
       PointerFails (.ldbuD rd rs dis) none s ∧
       PointerFails (.ldhuD rd rs dis) none s ∧
       PointerFails (.ldhsD rd rs dis) none s ∧
       PointerFails (.ldwD rd rs dis) none s ∧
       PointerFails (.ldwIOD rd rs dis) none s ∧
       (rd.isPC = false → rd.isSR = false →
        PointerFails (.ldbsN rd rs dis) up s ∧
        PointerFails (.ldbuN rd rs dis) up s ∧
        PointerFails (.ldhuN rd rs dis) up s ∧
        PointerFails (.ldhsN rd rs dis) up s ∧
        PointerFails (.ldwN rd rs dis) up s ∧
        PointerFails (.ldwS rd rs dis) up s)) ∧
      (loadable2 → PointerFails (.lddD rd rs dis) none s ∧ PointerFails (.lddIOD rd rs dis) none s ∧
       (rd.isPC = false → rd.isSR = false → PointerFails (.lddN rd rs dis) up s)) ∧
      PointerFails (.stbsD rd rs dis) none s ∧
      PointerFails (.stbuD rd rs dis) none s ∧
      PointerFails (.sthuD rd rs dis) none s ∧
      PointerFails (.sthsD rd rs dis) none s ∧
      PointerFails (.stwD rd rs dis) none s ∧
      PointerFails (.stwIOD rd rs dis) none s ∧
      (rd.isPC = false → rd.isSR = false →
       PointerFails (.stbsN rd rs dis) up s ∧
       PointerFails (.stbuN rd rs dis) up s ∧
       PointerFails (.sthuN rd rs dis) up s ∧
       PointerFails (.sthsN rd rs dis) up s ∧
       PointerFails (.stwN rd rs dis) up s ∧
       PointerFails (.stwS rd rs dis) up s) ∧
      (nextPlace rs s = some q → PointerFails (.stdD rd rs dis) none s ∧ PointerFails (.stdIOD rd rs dis) none s ∧
       (rd.isPC = false → rd.isSR = false → PointerFails (.stdN rd rs dis) up s))) ∧
    (Usable [rs] s → s.lr ld.toNat = 0#32 →
      let p := place (.loc ld) s
      (loadable → PointerFails (.ldwR ld rs) none s ∧ PointerFails (.ldwP ld rs) (some (p, 4#32)) s) ∧
      (loadable2 → PointerFails (.lddR ld rs) none s ∧ PointerFails (.lddP ld rs) (some (p, 8#32)) s) ∧
      PointerFails (.stwR ld rs) none s ∧ PointerFails (.stwP ld rs) (some (p, 4#32)) s ∧
      (nextPlace rs s = some q → PointerFails (.stdR ld rs) none s ∧ PointerFails (.stdP ld rs) (some (p, 8#32)) s))

/-- A byte, halfword or word stored where memory is reads back; in the IRAM it is guaranteed to exactly while refresh
is enabled. (spec/20_memory.md R103, R104, R111, R112) That the data are kept all the same where they are not
guaranteed is the default of I20 (log 7). -/
def Obligations.StoredDataReadBack : Prop :=
  ∀ (r : Region) (a v : Word) (h : Half) (b : Byte) (s : State), Memory.wf s.mem = true → (s.cell r a).isSome = true →
    ((s.writeByte r a b).readByte r a = b ∧ Memory.wf (s.writeByte r a b).mem = true) ∧
    ((s.writeHalf r a h).readHalf r a = h ∧ Memory.wf (s.writeHalf r a h).mem = true) ∧
    ((s.writeWord r a v).readWord r a = v ∧ Memory.wf (s.writeWord r a v).mem = true) ∧
    (Memory.wf s.iramKept = true →
      let kept := decide (r = .external ∨ s.mcr.extractLsb' 16 3 ≠ 7#3)
      (s.writeByte r a b).guarantees r a 1 = kept ∧ (s.writeHalf r a h).guarantees r (alignHalf a) 2 = kept ∧
      (s.writeWord r a v).guarantees r (alignWord a) 4 = kept ∧
      ∀ c : Word, (∀ j, j < 4 → cellOf r (alignWord a + BitVec.ofNat 32 j) ≠ cellOf .iram c) →
        (s.writeByte r a b).guarantees .iram c 1 = s.guarantees .iram c 1 ∧
        (s.writeHalf r a h).guarantees .iram c 1 = s.guarantees .iram c 1 ∧
        (s.writeWord r a v).guarantees .iram c 1 = s.guarantees .iram c 1)

/-- A Branch whose condition holds goes to PC + rel and clears M; else control goes on unchanged. (R422) -/
def Obligations.BranchOutcomes : Prop :=
  ∀ (rel : Rel) (s : State), s.inSlot = false →
    let does := fun (i : Instr) (cond : Prop) =>
      (cond → ∃ t, exec i s = .next t ∧ s.sameFlags.meets t.sr ∧
        BranchesTo (s.pc + BitVec.ofNat 32 (2 * rel.length) + relValue rel) s t) ∧
      (¬ cond → Passes i s.sameFlags s)
    does (.bv rel) (srV s.sr = true) ∧
    does (.bnv rel) (srV s.sr = false) ∧
    does (.be rel) (srZ s.sr = true) ∧
    does (.bne rel) (srZ s.sr = false) ∧
    does (.bst rel) (srC s.sr = true) ∧
    does (.bhe rel) (srC s.sr = false) ∧
    does (.bse rel) (srC s.sr = true ∨ srZ s.sr = true) ∧
    does (.bht rel) (srC s.sr = false ∧ srZ s.sr = false) ∧
    does (.blt rel) (srN s.sr = true) ∧
    does (.bge rel) (srN s.sr = false) ∧
    does (.ble rel) (srN s.sr = true ∨ srZ s.sr = true) ∧
    does (.bgt rel) (srN s.sr = false ∧ srZ s.sr = false) ∧
    does (.br rel) (True)

/-- A Delayed Branch puts its target in the PC and makes the next instruction its delay instruction; M is kept.
(spec/45_branch_call_trap_frame_return.md R424, R653 to R665) -/
def Obligations.DelayedBranchOutcomes : Prop :=
  ∀ (rel : Rel) (s : State), s.inSlot = false →
    let next := s.pc + BitVec.ofNat 32 (2 * rel.length)
    let does := fun (i : Instr) (cond : Prop) =>
      ∃ t, exec i s = .next t ∧ OnlyFlags s.sameFlags s t ∧ t.afterDelayedBranch = true ∧ t.callLockout = false ∧
        srP t.sr = true ∧ srILC t.sr = BitVec.ofNat 2 rel.length ∧
        (cond → t.pc = clearBit0 (next + relValue rel) ∧ t.delayPending = true ∧ t.delayAddr = next) ∧
        (¬ cond → t.pc = next ∧ t.delayPending = false)
    does (.dbv rel) (srV s.sr = true) ∧
    does (.dbnv rel) (srV s.sr = false) ∧
    does (.dbe rel) (srZ s.sr = true) ∧
    does (.dbne rel) (srZ s.sr = false) ∧
    does (.dbst rel) (srC s.sr = true) ∧
    does (.dbhe rel) (srC s.sr = false) ∧
    does (.dbse rel) (srC s.sr = true ∨ srZ s.sr = true) ∧
    does (.dbht rel) (srC s.sr = false ∧ srZ s.sr = false) ∧
    does (.dblt rel) (srN s.sr = true) ∧
    does (.dbge rel) (srN s.sr = false) ∧
    does (.dble rel) (srN s.sr = true ∨ srZ s.sr = true) ∧
    does (.dbgt rel) (srN s.sr = false ∧ srZ s.sr = false) ∧
    does (.dbr rel) (True)

/-- A Delayed Branch in a delay slot is executed like the corresponding Branch.
(spec/45_branch_call_trap_frame_return.md R426 (b)) The model's choice of the source's sentence in R426 (b) over the
refusal of I2.11 (log 28). -/
def Obligations.MisplacedDelayedBranches : Prop :=
  ∀ (rel : Rel) (s : State), s.inSlot = true →
    let does := fun (i : Instr) (cond : Prop) =>
      (cond → ∃ t, exec i s = .next t ∧ s.sameFlags.meets t.sr ∧ BranchesTo (s.pcSeen rel.length + relValue rel) s t) ∧
      (¬ cond → Passes i s.sameFlags s)
    does (.dbv rel) (srV s.sr = true) ∧
    does (.dbnv rel) (srV s.sr = false) ∧
    does (.dbe rel) (srZ s.sr = true) ∧
    does (.dbne rel) (srZ s.sr = false) ∧
    does (.dbst rel) (srC s.sr = true) ∧
    does (.dbhe rel) (srC s.sr = false) ∧
    does (.dbse rel) (srC s.sr = true ∨ srZ s.sr = true) ∧
    does (.dbht rel) (srC s.sr = false ∧ srZ s.sr = false) ∧
    does (.dblt rel) (srN s.sr = true) ∧
    does (.dbge rel) (srN s.sr = false) ∧
    does (.dble rel) (srN s.sr = true ∨ srZ s.sr = true) ∧
    does (.dbgt rel) (srN s.sr = false ∧ srZ s.sr = false) ∧
    does (.dbr rel) (True)

/-- Branches, traps, CALL, RET, FETCH, Software instructions and PC destinations are refused as delay instructions.
(spec/45_branch_call_trap_frame_return.md R426 (b), spec/93_implementation_defined.md I2.11) That these stop is
decision D10 (log 28). -/
def Obligations.SlotRefusals : Prop :=
  ∀ (rd rs : Reg) (ld ls n : BitVec 4) (k : BitVec 6) (rel : Rel) (imm : Imm) (c : Const) (s : State),
    s.inSlot = true → s.window = false →
    let stops := fun i : Instr => exec i s = .refused .delayInstruction
    stops (.bv rel) ∧
    stops (.bnv rel) ∧
    stops (.be rel) ∧
    stops (.bne rel) ∧
    stops (.bst rel) ∧
    stops (.bhe rel) ∧
    stops (.bse rel) ∧
    stops (.bht rel) ∧
    stops (.blt rel) ∧
    stops (.bge rel) ∧
    stops (.ble rel) ∧
    stops (.bgt rel) ∧
    stops (.br rel) ∧
    stops (.traple k) ∧
    stops (.trapgt k) ∧
    stops (.traplt k) ∧
    stops (.trapge k) ∧
    stops (.trapse k) ∧
    stops (.trapht k) ∧
    stops (.trapst k) ∧
    stops (.traphe k) ∧
    stops (.trape k) ∧
    stops (.trapne k) ∧
    stops (.trapv k) ∧
    stops (.trap k) ∧
    stops (.call ld rs c) ∧
    (rs.isPC = false → rs.isSR = false → stops (.ret rs)) ∧
    stops (.fetch n) ∧
    stops (.fadd ld ls) ∧
    stops (.faddd ld ls) ∧
    stops (.fsub ld ls) ∧
    stops (.fsubd ld ls) ∧
    stops (.fmul ld ls) ∧
    stops (.fmuld ld ls) ∧
    stops (.fdiv ld ls) ∧
    stops (.fdivd ld ls) ∧
    stops (.fcmp ld ls) ∧
    stops (.fcmpd ld ls) ∧
    stops (.fcmpu ld ls) ∧
    stops (.fcmpud ld ls) ∧
    stops (.fcvt ld ls) ∧
    stops (.fcvtd ld ls) ∧
    stops (.softDo ld ls) ∧
    (rd.isPC = true → stops (.mov rd rs) ∧ stops (.movi rd imm) ∧ stops (.add rd rs) ∧ stops (.addi rd imm) ∧
      stops (.sum rd rs c) ∧ stops (.sub rd rs))

/-- MOV, MOVI, ADD, ADDI, SUM and SUB with the PC as destination are branches taken to their result. (spec/10_state.md
R24, spec/41_move_logical.md R280 (b), spec/45_branch_call_trap_frame_return.md R420) -/
def Obligations.PcDestinationsBranch : Prop :=
  ∀ (rd rs : Reg) (imm : Imm) (c : Const) (s : State), rd.isPC = true → s.window = false → s.inSlot = false →
    let goes := fun (i : Instr) (v : Word) (f : FlagClaim) =>
      ∃ t, exec i s = .next t ∧ f.meets t.sr ∧ BranchesTo v s t
    let sum := fun a b : Word =>
      ({ c := some (decide (2 ^ 32 ≤ a.toNat + b.toNat)), z := some (a + b == 0#32), n := some ((a + b).getLsbD 31),
         v := some (outsideSigned 32 (a.toInt + b.toInt)) } : FlagClaim)
    let moved := fun (v : Word) (o : Option Bool) =>
      ({ s.sameFlags with z := some (v == 0#32), n := some (v.getLsbD 31), v := o } : FlagClaim)
    goes (.mov rd rs) (source 1 rs s) (moved (source 1 rs s) none) ∧
    goes (.movi rd imm) (immValue imm) (moved (immValue imm) (some false)) ∧
    (let a := source 1 rd s
     let b := sourceOrCarry 1 rs s
     goes (.add rd rs) (a + b) (sum a b) ∧
     goes (.sub rd rs) (a - b)
      { c := some (decide (a.toNat < b.toNat)), z := some (a - b == 0#32), n := some ((a - b).getLsbD 31),
        v := some (outsideSigned 32 (a.toInt - b.toInt)) }) ∧
    (let a := source imm.length rd s
     let b := if imm = .code 0#5 then carryWord (srC s.sr && (!srZ s.sr || a.getLsbD 0)) else immValue imm
     goes (.addi rd imm) (a + b) (sum a b)) ∧
    (let a := sourceOrCarry c.length rs s
     goes (.sum rd rs c) (a + constValue c) (sum a (constValue c)))

/-- Every other instruction with the PC as destination is refused, as the spec's model does.
(spec/45_branch_call_trap_frame_return.md R420, spec/93_implementation_defined.md I2.6, I2.7, I2.10,
spec/30_encoding.md R201) That these stop is decision D10 (log 23). -/
def Obligations.PcDestinationRefusals : Prop :=
  ∀ (rd rs : Reg) (imm : Imm) (c : Const) (lim : Lim) (n : BitVec 5) (s : State), rd.isPC = true → s.window = false →
    let stops := fun i : Instr => exec i s = .refused .pcDestination
    stops (.adds rd rs) ∧
    stops (.addsi rd imm) ∧
    stops (.addc rd rs) ∧
    stops (.sums rd rs c) ∧
    stops (.subs rd rs) ∧
    stops (.subc rd rs) ∧
    stops (.neg rd rs) ∧
    stops (.negs rd rs) ∧
    stops (.and rd rs) ∧
    stops (.andn rd rs) ∧
    stops (.or rd rs) ∧
    stops (.xor rd rs) ∧
    stops (.not rd rs) ∧
    stops (.andni rd imm) ∧
    stops (.ori rd imm) ∧
    stops (.xori rd imm) ∧
    stops (.mask rd rs c) ∧
    stops (.mul rd rs) ∧
    stops (.muls rd rs) ∧
    stops (.mulu rd rs) ∧
    stops (.divs rd rs) ∧
    stops (.divu rd rs) ∧
    stops (.shli rd n) ∧
    stops (.sari rd n) ∧
    stops (.shri rd n) ∧
    stops (.xm1 rd rs lim) ∧
    stops (.xm2 rd rs lim) ∧
    stops (.xm4 rd rs lim) ∧
    stops (.xm8 rd rs lim) ∧
    stops (.xx1 rd rs lim) ∧
    stops (.xx2 rd rs lim) ∧
    stops (.xx4 rd rs lim) ∧
    stops (.xx8 rd rs lim) ∧
    stops (.setadr rd) ∧
    stops (.set1 rd) ∧
    stops (.set0 rd) ∧
    stops (.set1m rd) ∧
    stops (.setle rd) ∧
    stops (.setlem rd) ∧
    stops (.setgt rd) ∧
    stops (.setgtm rd) ∧
    stops (.setlt rd) ∧
    stops (.setltm rd) ∧
    stops (.setge rd) ∧
    stops (.setgem rd) ∧
    stops (.setse rd) ∧
    stops (.setsem rd) ∧
    stops (.setht rd) ∧
    stops (.sethtm rd) ∧
    stops (.setst rd) ∧
    stops (.setstm rd) ∧
    stops (.sethe rd) ∧
    stops (.sethem rd) ∧
    stops (.sete rd) ∧
    stops (.setem rd) ∧
    stops (.setne rd) ∧
    stops (.setnem rd) ∧
    stops (.setv rd) ∧
    stops (.setvm rd) ∧
    stops (.setnv rd) ∧
    stops (.setnvm rd)

/-- The reserved opcodes and the operands the spec forbids are refused, each under its name. (spec/30_encoding.md
R201, spec/40_memory_instructions.md R236, R246, R247, R260, R261, spec/44_index_check_compare_set.md R385,
spec/45_branch_call_trap_frame_return.md R446, spec/93_implementation_defined.md I2.1, I2.4, I2.5, I2.7, I2.9) That
these stop is decision D10 (logs 22, 23). -/
def Obligations.ReservedOperandRefusals : Prop :=
  ∀ (rd rs : Reg) (x : BitVec 9) (y : BitVec 10) (ld : BitVec 4) (dis : Dis) (lim : Lim) (s : State),
    exec (.reserved8C8D x) s = .refused .reservedOpcode ∧ exec (.reservedACAF y) s = .refused .reservedOpcode ∧
    (s.window = false →
      let unloadable := fun i : Instr => exec i s = .refused .loadDestination
      let stops := fun i : Instr => exec i s = .refused .pcOrSrDenoted
      (∀ c : BitVec 4, c = 0#4 ∨ c = 1#4 ∨ c = 14#4 ∨ c = 15#4 →
        unloadable (.ldbsD rd (.glob c) dis) ∧ unloadable (.ldbuD rd (.glob c) dis) ∧
        unloadable (.ldhuD rd (.glob c) dis) ∧ unloadable (.ldhsD rd (.glob c) dis) ∧
        unloadable (.ldwD rd (.glob c) dis) ∧ unloadable (.ldbsA (.glob c) dis) ∧ unloadable (.ldbuA (.glob c) dis) ∧
        unloadable (.ldhuA (.glob c) dis) ∧ unloadable (.ldhsA (.glob c) dis) ∧ unloadable (.ldwA (.glob c) dis) ∧
        unloadable (.ldwR ld (.glob c)) ∧ unloadable (.ldwP ld (.glob c)) ∧ unloadable (.ldwIOD rd (.glob c) dis) ∧
        unloadable (.ldwIOA (.glob c) dis) ∧
        (rd.isPC = false → rd.isSR = false →
          unloadable (.ldbsN rd (.glob c) dis) ∧ unloadable (.ldbuN rd (.glob c) dis) ∧
          unloadable (.ldhuN rd (.glob c) dis) ∧ unloadable (.ldhsN rd (.glob c) dis) ∧
          unloadable (.ldwN rd (.glob c) dis) ∧ unloadable (.ldwS rd (.glob c) dis))) ∧
      (∀ c : BitVec 4, c = 0#4 ∨ c = 1#4 ∨ c = 13#4 ∨ c = 14#4 ∨ c = 15#4 →
        unloadable (.lddD rd (.glob c) dis) ∧ unloadable (.lddA (.glob c) dis) ∧ unloadable (.lddR ld (.glob c)) ∧
        unloadable (.lddP ld (.glob c)) ∧ unloadable (.lddIOD rd (.glob c) dis) ∧ unloadable (.lddIOA (.glob c) dis) ∧
        (rd.isPC = false → rd.isSR = false → unloadable (.lddN rd (.glob c) dis))) ∧
      (rd.isPC = true ∨ rd.isSR = true →
        stops (.ldbsN rd rs dis) ∧ stops (.ldbuN rd rs dis) ∧ stops (.ldhuN rd rs dis) ∧ stops (.ldhsN rd rs dis) ∧
        stops (.ldwN rd rs dis) ∧ stops (.lddN rd rs dis) ∧ stops (.ldwS rd rs dis) ∧ stops (.stbsN rd rs dis) ∧
        stops (.stbuN rd rs dis) ∧ stops (.sthuN rd rs dis) ∧ stops (.sthsN rd rs dis) ∧ stops (.stwN rd rs dis) ∧
        stops (.stdN rd rs dis) ∧ stops (.stwS rd rs dis) ∧ stops (.ret rd)) ∧
      (rd.isPC = false → rd.isSR = true ∨ rs.isSR = true →
        stops (.xm1 rd rs lim) ∧ stops (.xm2 rd rs lim) ∧ stops (.xm4 rd rs lim) ∧ stops (.xm8 rd rs lim) ∧
        stops (.xx1 rd rs lim) ∧ stops (.xx2 rd rs lim) ∧ stops (.xx4 rd rs lim) ∧ stops (.xx8 rd rs lim)))

/-- CALL saves the return address with S and the old SR with its length, raises the frame and branches.
(spec/45_branch_call_trap_frame_return.md R430, R431) The other fields of the saved SR are decision D19 (log 15). -/
def Obligations.CallMakesAFrame : Prop :=
  ∀ (ld : BitVec 4) (rs : Reg) (c : Const) (s : State), s.inSlot = false → Usable [rs] s →
    let n := if ld = 0#4 then 16 else ld.toNat
    let next := s.pc + BitVec.ofNat 32 (2 * c.length)
    let base := if rs.isSR then 0#32 else source c.length rs s
    ∃ t, exec (.call ld rs c) s = .next t ∧ t.pc = clearBit0 (base + constValue c) ∧
      t.held (.loc (localIndex s.sr n)) = setBit next 0 (srS s.sr) ∧
      t.held (.loc (localIndex s.sr (n + 1))) = setILC s.sr (BitVec.ofNat 2 c.length) ∧
      srFP t.sr = srFP s.sr + BitVec.ofNat 7 n ∧ srFL t.sr = 6#4 ∧ srM t.sr = false ∧ srH t.sr = false ∧ srP t.sr = true ∧
      s.sameFlags.meets t.sr ∧ SameBits 6 16 t.sr s.sr ∧ srS t.sr = srS s.sr ∧
      t.callLockout = true ∧ t.delayPending = false ∧ t.afterDelayedBranch = false ∧
      Frame [.loc (localIndex s.sr n), .loc (localIndex s.sr (n + 1))] s t

/-- A Trap instruction whose condition holds saves return address and SR, makes a frame of six and enters supervisor
state. (spec/45_branch_call_trap_frame_return.md R434, R666 to R677, spec/30_encoding.md R205, R206) The other fields
of the saved SR are decision D19 (log 15). -/
def Obligations.TrapInstructionsEnter : Prop :=
  ∀ (k : BitVec 6) (s : State), s.inSlot = false →
    let n := frameLength s.sr
    let does := fun (i : Instr) (cond : Prop) =>
      (cond → ∀ entry, trapEntry s.mcr k.toNat = some entry →
        ∃ t, exec i s = .next t ∧ t.pc = clearBit0 entry ∧
          t.held (.loc (localIndex s.sr n)) = setBit (s.pc + 2#32) 0 (srS s.sr) ∧
          t.held (.loc (localIndex s.sr (n + 1))) = setILC s.sr 1#2 ∧
          srFP t.sr = srFP s.sr + BitVec.ofNat 7 n ∧ srFL t.sr = 6#4 ∧
          srS t.sr = true ∧ srL t.sr = true ∧ srM t.sr = false ∧ srT t.sr = false ∧ srH t.sr = false ∧ srP t.sr = true ∧
          s.sameFlags.meets t.sr ∧ SameBits 6 14 t.sr s.sr ∧
          t.delayPending = false ∧ t.afterDelayedBranch = false ∧ t.callLockout = false ∧
          Frame [.loc (localIndex s.sr n), .loc (localIndex s.sr (n + 1))] s t) ∧
      (¬ cond → Passes i s.sameFlags s)
    does (.traple k) (srN s.sr = true ∨ srZ s.sr = true) ∧
    does (.trapgt k) (srN s.sr = false ∧ srZ s.sr = false) ∧
    does (.traplt k) (srN s.sr = true) ∧
    does (.trapge k) (srN s.sr = false) ∧
    does (.trapse k) (srC s.sr = true ∨ srZ s.sr = true) ∧
    does (.trapht k) (srC s.sr = false ∧ srZ s.sr = false) ∧
    does (.trapst k) (srC s.sr = true) ∧
    does (.traphe k) (srC s.sr = false) ∧
    does (.trape k) (srZ s.sr = true) ∧
    does (.trapne k) (srZ s.sr = false) ∧
    does (.trapv k) (srV s.sr = true) ∧
    does (.trap k) (True)

/-- A Software instruction saves the address of Ld, Ls, Lsf, return address and SR in a new frame and branches to its
entry. (spec/47_software_fp.md R500, R501, R503, R525, spec/30_encoding.md R207, R208) The other fields of the saved
SR are decision D19 (log 15). -/
def Obligations.SoftwareInstructionsEnter : Prop :=
  ∀ (ld ls : BitVec 4) (s : State), s.inSlot = false →
    let n := frameLength s.sr
    let at' := fun j : Nat => Place.loc (localIndex s.sr (n + j))
    let does := fun (i : Instr) (k : Nat) => ∀ entry, softEntry s.mcr k = some entry →
      ∃ t, exec i s = .next t ∧ t.pc = clearBit0 entry ∧
        t.held (at' 0) = stackAddress s.sr s.sp + BitVec.ofNat 32 (4 * ld.toNat) ∧
        t.held (at' 1) = s.lr ls.toNat ∧ t.held (at' 2) = s.lr (ls.toNat + 1) ∧
        t.held (at' 3) = setBit (s.pc + 2#32) 0 (srS s.sr) ∧ t.held (at' 4) = setILC s.sr 1#2 ∧
        srFP t.sr = srFP s.sr + BitVec.ofNat 7 n ∧ srFL t.sr = 6#4 ∧ srL t.sr = true ∧ srM t.sr = false ∧
        srT t.sr = false ∧ srH t.sr = false ∧ srP t.sr = true ∧ srS t.sr = srS s.sr ∧
        s.sameFlags.meets t.sr ∧ SameBits 6 14 t.sr s.sr ∧
        t.delayPending = false ∧ t.afterDelayedBranch = false ∧ t.callLockout = false ∧
        Frame [at' 0, at' 1, at' 2, at' 3, at' 4] s t
    does (.fadd ld ls) 0 ∧
    does (.faddd ld ls) 1 ∧
    does (.fsub ld ls) 2 ∧
    does (.fsubd ld ls) 3 ∧
    does (.fmul ld ls) 4 ∧
    does (.fmuld ld ls) 5 ∧
    does (.fdiv ld ls) 6 ∧
    does (.fdivd ld ls) 7 ∧
    does (.fcmp ld ls) 8 ∧
    does (.fcmpd ld ls) 9 ∧
    does (.fcmpu ld ls) 10 ∧
    does (.fcmpud ld ls) 11 ∧
    does (.fcvt ld ls) 12 ∧
    does (.fcvtd ld ls) 13 ∧
    does (.softDo ld ls) 15

/-- The entry tables lie where MCR(14..12) maps them, and a reserved code stops the machine. (spec/30_encoding.md R205
to R209, spec/93_implementation_defined.md I11) That the reserved codes stop is I11's refusal (log 38). -/
def Obligations.EntryTablesAndReservedCodes : Prop :=
  ∀ (mcr : Word) (k : BitVec 6) (j : BitVec 4) (s : State) (n : Nat) (irq : Bool) (ld ls : BitVec 4),
    let code := mcr.extractLsb' 12 3
    (code = 7#3 → trapEntry mcr k.toNat = some (0xFFFFFF00#32 + BitVec.ofNat 32 (4 * k.toNat)) ∧
      softEntry mcr j.toNat = some (0xFFFFFE00#32 + BitVec.ofNat 32 (16 * j.toNat))) ∧
    (code.toNat ≤ 3 →
      trapEntry mcr k.toNat = some (BitVec.ofNat 32 (0x40000000 * code.toNat) + BitVec.ofNat 32 (4 * (63 - k.toNat))) ∧
      softEntry mcr j.toNat =
        some (BitVec.ofNat 32 (0x40000000 * code.toNat) + BitVec.ofNat 32 (0x10C + 16 * (15 - j.toNat)))) ∧
    (code = 4#3 ∨ code = 5#3 ∨ code = 6#3 → s.mcr = mcr →
      takeException n irq s = .fault .reservedEntryTable ∧
      (s.inSlot = false →
        let stops := fun i : Instr => exec i s = .fault .reservedEntryTable
        (srN s.sr = true ∨ srZ s.sr = true → stops (.traple k)) ∧
        (srN s.sr = false ∧ srZ s.sr = false → stops (.trapgt k)) ∧
        (srN s.sr = true → stops (.traplt k)) ∧
        (srN s.sr = false → stops (.trapge k)) ∧
        (srC s.sr = true ∨ srZ s.sr = true → stops (.trapse k)) ∧
        (srC s.sr = false ∧ srZ s.sr = false → stops (.trapht k)) ∧
        (srC s.sr = true → stops (.trapst k)) ∧
        (srC s.sr = false → stops (.traphe k)) ∧
        (srZ s.sr = true → stops (.trape k)) ∧
        (srZ s.sr = false → stops (.trapne k)) ∧
        (srV s.sr = true → stops (.trapv k)) ∧
        stops (.trap k) ∧
        stops (.fadd ld ls) ∧ stops (.faddd ld ls) ∧ stops (.fsub ld ls) ∧ stops (.fsubd ld ls) ∧ stops (.fmul ld ls) ∧
        stops (.fmuld ld ls) ∧ stops (.fdiv ld ls) ∧ stops (.fdivd ld ls) ∧ stops (.fcmp ld ls) ∧ stops (.fcmpd ld ls) ∧
        stops (.fcmpu ld ls) ∧ stops (.fcmpud ld ls) ∧ stops (.fcvt ld ls) ∧ stops (.fcvtd ld ls) ∧
        stops (.softDo ld ls)))

/-- FRAME lowers FP, sets FL, clears M, pushes the missing words from SP on, and then takes a Frame Error if SP had
reached UB. (spec/45_branch_call_trap_frame_return.md R440, R441, spec/60_exceptions.md R544, spec/21_bus_interface.md
R165) The 7-bit difference read as 128 - d where d is 64 or more is DEDUCED (log 47). -/
def Obligations.FrameRestructuresTheStack : Prop :=
  ∀ (ld ls : BitVec 4) (s : State), Memory.wf s.mem = true →
    let word := fun j : Nat => s.sp + BitVec.ofNat 32 (4 * j)
    let fl' := if ld = 0#4 then 16 else ld.toNat
    let fp := srFP s.sr - BitVec.ofNat 7 ls.toNat
    let d := (s.sp.extractLsb' 2 7 + 54#7 - (fp + BitVec.ofNat 7 fl')).toNat
    let n := if 64 ≤ d then 128 - d else 0
    let done := fun u : State =>
      srFP u.sr = fp ∧ srFL u.sr = ld ∧ srM u.sr = false ∧ srH u.sr = false ∧ s.sameFlags.meets u.sr ∧ SameBits 6 16 u.sr s.sr ∧
      srS u.sr = srS s.sr ∧ u.sp = s.sp + BitVec.ofNat 32 (4 * n) ∧ RegistersKept [] s u ∧
      SpecialKept { s with sp := u.sp } u ∧ u.ioTrace = s.ioTrace ∧
      u.busLock = (s.busLock || (!s.fcr.getLsbD 17 &&
        (List.range n).any fun j => decide (regionOf (word j) = .external))) ∧ u.iramRelied = s.iramRelied ∧
      (∀ j k b, j < n → b < 4 → s.cell (regionOf (word j)) (alignWord (word j) + BitVec.ofNat 32 b) = some k →
        Memory.read u.mem k = (wordBytes (s.getLocal ((word j).extractLsb' 2 6))).getD b 0#8) ∧
      (∀ k, (∀ j b, j < n → b < 4 → s.cell (regionOf (word j)) (alignWord (word j) + BitVec.ofNat 32 b) ≠ some k) →
        Memory.read u.mem k = Memory.read s.mem k)
    (¬ (0 < n ∧ s.ub.toNat ≤ s.sp.toNat) →
      ∃ t, exec (.frame ld ls) s = .next t ∧ done t ∧ Continues 1 s t) ∧
    (0 < n → s.ub.toNat ≤ s.sp.toNat → ∃ u, done u ∧ TakesError (.frame ld ls) s u (exec (.frame ld ls) s))

/-- RET restores PC and SR from its pair and pulls the missing words; an illegal return traps before pulling.
(spec/45_branch_call_trap_frame_return.md R446, spec/60_exceptions.md R547, spec/20_memory.md R112,
spec/21_bus_interface.md R165) The 7-bit difference read as 128 - d where d is 64 or more is DEDUCED (log 47). -/
def Obligations.ReturnRestoresAndPulls : Prop :=
  ∀ (rs : Reg) (q : Place) (s : State), s.inSlot = false → s.window = false → rs.isPC = false → rs.isSR = false →
    nextPlace rs s = some q →
    let a := source 1 rs s
    let b := s.get 1 q
    let restored := fun u : State =>
      u.pc = clearBit0 a ∧ SameBits 0 17 u.sr b ∧ srS u.sr = a.getLsbD 0 ∧ srILC u.sr = 0#2 ∧ SameBits 21 31 u.sr b
    let illegal := (srS s.sr = false ∧ a.getLsbD 0 = true) ∨
      (a.getLsbD 0 = false ∧ srL s.sr = false ∧ b.getLsbD 15 = true)
    let d := (b.extractLsb' 25 7 - s.sp.extractLsb' 2 7).toNat
    let n := if 64 ≤ d then 128 - d else 0
    let word := fun j : Nat => s.sp - BitVec.ofNat 32 (4 * (j + 1))
    (illegal → ∃ u, restored u ∧ Frame [] s u ∧
      ∀ entry, trapEntry s.mcr 60 = some entry → ∃ t, exec (.ret rs) s = .next t ∧ Entered false entry u t) ∧
    (¬ illegal → ∃ t, exec (.ret rs) s = .next t ∧ restored t ∧ t.sp = s.sp - BitVec.ofNat 32 (4 * n) ∧
      (∀ j, j < n → t.held (.loc ((word j).extractLsb' 2 6)) = s.readWord (regionOf (word j)) (word j)) ∧
      RegistersKept ((List.range n).map fun j => .loc ((word j).extractLsb' 2 6)) s t ∧
      SpecialKept { s with sp := t.sp } t ∧ MemoryKept s t ∧ t.ioTrace = s.ioTrace ∧
      t.busLock = (s.busLock || (!s.fcr.getLsbD 17 &&
        (decide (regionOf a = .external) || (List.range n).any fun j => decide (regionOf (word j) = .external)))) ∧
      t.iramKept = s.iramKept ∧ t.iramRelied = (s.iramRelied ||
        (List.range n).any fun j => !s.guarantees (regionOf (word j)) (alignWord (word j)) 4) ∧
      t.delayPending = false ∧ t.afterDelayedBranch = false ∧ t.callLockout = false)

/-- EMUL, EMULU and EMULS place the product in G15 or G14//G15 and raise no overflow. (spec/46_extended_dsp.md R470,
R474 to R476) -/
def Obligations.DspMultiplyResults : Prop :=
  ∀ (ld ls : BitVec 4) (s : State),
    let x := s.lr ld.toNat
    let y := s.lr ls.toNat
    let does := fun (i : Instr) (hi lo : Word) (ovf : Bool) =>
      ∃ t, exec i s = .next t ∧ t.held (.gpr 11) = hi ∧ t.held (.gpr 12) = lo ∧
        t.extOvfPending = (s.extOvfPending || (ovf && !s.fcr.getLsbD 16)) ∧
        s.sameFlags.meets t.sr ∧ srH t.sr = false ∧ StatusKept s.sr t.sr ∧ Continues 2 s t ∧
        RegistersKept [.gpr 11, .gpr 12] s t ∧ SpecialKept { s with extOvfPending := t.extOvfPending } t ∧
        MemoryKept s t ∧ t.ioTrace = s.ioTrace
    let word := fun (i : Instr) (p : Double) => does i (p.extractLsb' 32 32) (p.extractLsb' 0 32) false
    does (.emul ld ls) s.gpr[11] (x * y) false ∧
    word (.emulu ld ls) (BitVec.ofNat 64 (x.toNat * y.toNat)) ∧
    word (.emuls ld ls) (BitVec.ofInt 64 (x.toInt * y.toInt))

/-- The multiply-accumulates add or subtract their products to G15 or G14//G15 and save an enabled overflow.
(spec/46_extended_dsp.md R470, R473, R477 to R480, R482, R483, spec/60_exceptions.md R548) Where the overflow is
detected is decision D22 (log 31). -/
def Obligations.DspAccumulateResults : Prop :=
  ∀ (ld ls : BitVec 4) (s : State),
    let x := s.lr ld.toNat
    let y := s.lr ls.toNat
    let does := fun (i : Instr) (hi lo : Word) (ovf : Bool) =>
      ∃ t, exec i s = .next t ∧ t.held (.gpr 11) = hi ∧ t.held (.gpr 12) = lo ∧
        t.extOvfPending = (s.extOvfPending || (ovf && !s.fcr.getLsbD 16)) ∧
        s.sameFlags.meets t.sr ∧ srH t.sr = false ∧ StatusKept s.sr t.sr ∧ Continues 2 s t ∧
        RegistersKept [.gpr 11, .gpr 12] s t ∧ SpecialKept { s with extOvfPending := t.extOvfPending } t ∧
        MemoryKept s t ∧ t.ioTrace = s.ioTrace
    let g := s.gpr[12].toInt
    let acc := (s.gpr[11] ++ s.gpr[12] : Double).toInt
    let halves := (x.extractLsb' 16 16).toInt * (y.extractLsb' 16 16).toInt +
      (x.extractLsb' 0 16).toInt * (y.extractLsb' 0 16).toInt
    let word := fun (i : Instr) (r : Int) => does i s.gpr[11] (BitVec.ofInt 32 r) (decide (r < -2 ^ 31 ∨ 2 ^ 31 ≤ r))
    let double := fun (i : Instr) (r : Int) =>
      does i ((BitVec.ofInt 64 r).extractLsb' 32 32) ((BitVec.ofInt 64 r).extractLsb' 0 32) (decide (r < -2 ^ 63 ∨ 2 ^ 63 ≤ r))
    word (.emac ld ls) (g + (x * y).toInt) ∧ word (.emsub ld ls) (g - (x * y).toInt) ∧ word (.ehmac ld ls) (g + halves) ∧
    double (.emacd ld ls) (acc + x.toInt * y.toInt) ∧ double (.emsubd ld ls) (acc - x.toInt * y.toInt) ∧
    double (.ehmacd ld ls) (acc + halves)

/-- The complex instructions place real and imaginary results, the butterflies packed sums and differences.
(spec/46_extended_dsp.md R470, R473, R481, R484 to R487, spec/60_exceptions.md R548) Where the overflow is detected is
decision D22 (log 31). -/
def Obligations.DspComplexResults : Prop :=
  ∀ (ld ls : BitVec 4) (s : State),
    let x := s.lr ld.toNat
    let y := s.lr ls.toNat
    let does := fun (i : Instr) (hi lo : Word) (ovf : Bool) =>
      ∃ t, exec i s = .next t ∧ t.held (.gpr 11) = hi ∧ t.held (.gpr 12) = lo ∧
        t.extOvfPending = (s.extOvfPending || (ovf && !s.fcr.getLsbD 16)) ∧
        s.sameFlags.meets t.sr ∧ srH t.sr = false ∧ StatusKept s.sr t.sr ∧ Continues 2 s t ∧
        RegistersKept [.gpr 11, .gpr 12] s t ∧ SpecialKept { s with extOvfPending := t.extOvfPending } t ∧
        MemoryKept s t ∧ t.ioTrace = s.ioTrace
    let a := (x.extractLsb' 16 16).toInt
    let b := (x.extractLsb' 0 16).toInt
    let c := (y.extractLsb' 16 16).toInt
    let d := (y.extractLsb' 0 16).toInt
    let out := fun (w : Nat) (r : Int) => decide (r < -2 ^ (w - 1) ∨ 2 ^ (w - 1) ≤ r)
    let words := fun (i : Instr) (re im : Int) =>
      does i (BitVec.ofInt 32 re) (BitVec.ofInt 32 im) (out 32 re || out 32 im)
    let butterfly := fun (i : Instr) (u v : Int) =>
      does i (BitVec.ofInt 16 (a + u) ++ BitVec.ofInt 16 (b + v)) (BitVec.ofInt 16 (a - u) ++ BitVec.ofInt 16 (b - v))
        (out 16 (a + u) || out 16 (b + v) || out 16 (a - u) || out 16 (b - v))
    words (.ehcmuld ld ls) (a * c - b * d) (a * d + b * c) ∧
    words (.ehcmacd ld ls) (s.gpr[11].toInt + (a * c - b * d)) (s.gpr[12].toInt + (a * d + b * c)) ∧
    butterfly (.ehcsumd ld ls) s.gpr[11].toInt s.gpr[12].toInt ∧
    butterfly (.ehcfftd ld ls) (s.gpr[11].sshiftRight 15).toInt (s.gpr[12].sshiftRight 15).toInt

/-- MOV Ld, Ghigh with the H window open copies the high global register, and closes the window. (spec/10_state.md
R20, R33, R48, R49, R54 to R57, spec/41_move_logical.md R281, spec/60_exceptions.md R562, R566,
spec/93_implementation_defined.md I7.2) That the write-only and reserved registers give some value is decision D4, D5
(log 19). The open upper half of WCR is ruling I7.2 (log 27). The level of a reserved output is any value by I10 (log
36). -/
def Obligations.HighRegisterReads : Prop :=
  ∀ (ld c : BitVec 4) (s : State), s.window = true →
    ∃ v : Word, ReadsHigh c v s ∧
      Yields (.mov (.loc ld) (.glob c)) (.loc ld) v
        { s.sameFlags with z := some (v == 0#32), n := some (v.getLsbD 31), v := none } false s

/-- A supervisor's MOV or MOVI with the H window open writes G(c+16) and its stated side effects, nothing else.
(spec/10_state.md R20, R33, R47 to R59, spec/41_move_logical.md R281, R282, spec/20_memory.md R112,
spec/21_bus_interface.md R165, spec/60_exceptions.md R548, R558, R564 to R568, R570, spec/92_eei_decisions.md D6,
section 2 (PINS), spec/93_implementation_defined.md I2.16, I7.2) No effect on ISR and the reserved registers is
decision D5 (log 19), the restart of the prescaler D14 (log 44). WCR holds the low halfword by R564 and reads any
upper half by I7.2, until the next write of WCR as R566 has it (log 27); the refusal of misaligned stack bounds is
I2.16's, D10 (log 25); the source of two global codes is decision D6 (log 17); that the toggle latch flips only where
the equality becomes true is DEDUCED (log 37); what is guaranteed of the IRAM log 7; the undriven pins logs 12 and 42,
the bus lock log 45. -/
def Obligations.HighRegisterWrites : Prop :=
  ∀ (c ls : BitVec 4) (imm : Imm) (s : State), s.window = true → srS s.sr = true →
    let does := fun (i : Instr) (v : Word) (overflow : Option Bool) =>
      ((c = 2#4 ∨ c = 3#4) → v.extractLsb' 0 2 ≠ 0#2 → exec i s = .refused .stackAlignment) ∧
      ((c = 2#4 ∨ c = 3#4 → v.extractLsb' 0 2 = 0#2) →
      ∃ t, exec i s = .next t ∧ RegistersKept [] s t ∧ MemoryKept s t ∧ t.ioTrace = s.ioTrace ∧ Continues i.length s t ∧
        srH t.sr = false ∧ StatusKept s.sr t.sr ∧ srC t.sr = srC s.sr ∧ srZ t.sr = (v == 0#32) ∧ srN t.sr = v.getLsbD 31 ∧
        Claims overflow (srV t.sr) ∧ t.iramRelied = s.iramRelied ∧
        t.iramKept = (if c = 11#4 ∧ v.extractLsb' 16 3 = 7#3 then [] else s.iramKept) ∧
        t.sp = (if c = 2#4 then v else s.sp) ∧ t.ub = (if c = 3#4 then v else s.ub) ∧
        t.bcr = (if c = 4#4 then v else s.bcr) ∧ t.tpr = (if c = 5#4 then v else s.tpr) ∧
        t.prescaler = (if c = 5#4 then 0 else s.prescaler) ∧ t.tcr = (if c = 6#4 then v else s.tcr) ∧
        t.tr = (if c = 7#4 then v else s.tr) ∧ t.fcr = (if c = 10#4 then v else s.fcr) ∧
        t.extOvfPending = (s.extOvfPending && !(decide (c = 10#4) && v.getLsbD 16)) ∧
        t.busLock = (s.busLock && !(decide (c = 10#4) && v.getLsbD 17)) ∧
        t.mcr = (if c = 11#4 then v else s.mcr) ∧
        t.powerDown = (s.powerDown || (decide (c = 11#4) && s.mcr.getLsbD 22 && !v.getLsbD 22)) ∧
        t.parityPending = s.parityPending ∧ t.inputs = s.inputs ∧ t.pinsDriven = s.pinsDriven ∧ t.platform = s.platform ∧
        t.pins = (if c = 10#4 ∧ s.pinsDriven = false then inactivePins v else s.pins) ∧
        (let equals := fun wcr tr : Word => decide (wcr.extractLsb' 0 16 = tr.extractLsb' 0 16)
         let low := v &&& 0xFFFF#32
         if c = 7#4 then
           Compares s.fcr s.wcr v s.wcrUpperOpen s.equalFlag s.eventFlag s.io3Toggle (equals s.wcr v && !equals s.wcr s.tr) s t
         else if c = 8#4 then
           Compares s.fcr low s.tr (v.extractLsb' 16 16 != 0#16) false false s.io3Toggle (equals low s.tr && !equals s.wcr s.tr)
             s t
         else if c = 10#4 then
           Compares v s.wcr s.tr s.wcrUpperOpen (s.equalFlag && !v.getLsbD 13) (s.eventFlag && !v.getLsbD 13)
             (s.io3Toggle && !v.getLsbD 13) false s t
         else
           t.wcr = s.wcr ∧ t.wcrUpperOpen = s.wcrUpperOpen ∧ t.equalFlag = s.equalFlag ∧ t.eventFlag = s.eventFlag ∧
             t.io3Toggle = s.io3Toggle ∧ t.resetRequest = s.resetRequest))
    does (.mov (.glob c) (.loc ls)) (s.lr ls.toNat) none ∧ does (.movi (.glob c) imm) (immValue imm) (some false) ∧
    ∀ c' : BitVec 4, ∃ v, ReadsHigh c' v s ∧ does (.mov (.glob c) (.glob c')) v none

/-- In user state a MOV or MOVI to a high global register writes nothing and takes a Privilege Error.
(spec/60_exceptions.md R546) C kept is the spec's own inference in R546 (log 39). -/
def Obligations.UserWritesToHighRegistersFail : Prop :=
  ∀ (c : BitVec 4) (rs : Reg) (imm : Imm) (s : State), s.window = true → srS s.sr = false →
    let fails := fun i : Instr =>
      ∃ u, OnlyFlags { c := some (srC s.sr), z := none, n := none, v := none } s u ∧ TakesError i s u (exec i s)
    fails (.mov (.glob c) rs) ∧ fails (.movi (.glob c) imm)

/-- Taking an exception saves PC//S and SR in a new frame of two, sets S and L, clears M and T, and goes to the entry.
(R534) -/
def Obligations.ExceptionEntrySavesAndMasks : Prop :=
  ∀ (k : Nat) (irq : Bool) (entry : Word) (s : State), trapEntry s.mcr k = some entry →
    ∃ t, takeException k irq s = .next t ∧ Entered irq entry s t

/-- At a boundary the condition with the smallest priority number is taken; a locked boundary takes none.
(spec/60_exceptions.md R530, R531, R532, R548, R550, R553 to R555, R560, R566, R567,
spec/45_branch_call_trap_frame_return.md R427, R431, spec/92_eei_decisions.md D13) What IO2 and IO3 as reserved
outputs request is free, I10 (log 36). That exceptions are sampled at the boundary is decision D13 (log 13); that the
instruction after a CALL is locked too is derived in R532. -/
def Obligations.BoundaryTakesTheBestException : Prop :=
  ∀ (s : State) (k : Nat),
    let u := s.takeInput
    let holds := fun (p e : Nat) =>
      (p = 3 ∧ e = 59 ∧ u.extOvfPending = true ∧ srL u.sr = false) ∨
      (p = 4 ∧ e = 58 ∧ u.parityPending = true ∧ srL u.sr = false) ∨
      (∃ q : Source, p = priority u.fcr q ∧ e = q.entry ∧ u.request q = true ∧ srL u.sr = false) ∨
      (p = 16 ∧ e = 57 ∧ srT u.sr = true ∧ srP u.sr = true)
    Requests u ∧
    (u.resetRequest = false → u.powerDown = false →
    (u.afterDelayedBranch = true ∨ u.callLockout = true → u.pending = none) ∧
    (u.afterDelayedBranch = false → u.callLockout = false →
      (u.pending = none ↔ ∀ p e, ¬ holds p e) ∧
      (u.pending = some k → ∃ p, holds p k ∧ (∀ p' e', holds p' e' → p ≤ p') ∧
        ∀ entry, trapEntry u.mcr k = some entry →
          ∃ v t, step s = .next t ∧ Entered (decide (48 ≤ k ∧ k ≤ 55)) entry v t ∧
            v = { u with extOvfPending := u.extOvfPending && k != 59, parityPending := u.parityPending && k != 58 })))

/-- From a cleared prescaler TR counts by one after exactly n + 2 processor cycles, n = TPR(23..16).
(spec/60_exceptions.md R558, R559) The formula for n = 0 and 1 is I14's (log 44). -/
def Obligations.PrescalerDividesByNPlusTwo : Prop :=
  ∀ s : State, s.prescaler = 0 →
    let n := (s.tpr.extractLsb' 16 8).toNat
    (∀ k, k < n + 2 → (s.advance k).tr = s.tr) ∧
    (s.advance (n + 2)).tr = s.tr + 1#32 ∧ (s.advance (n + 2)).prescaler = 0

/-- A tick that makes WCR(15..0) = TR(15..0) sets EqualFlag, toggles IO3 or requests Reset, as the mode says.
(spec/60_exceptions.md R564 to R568) That the toggle latch flips at the tick that makes the equality true is DEDUCED
(log 37), that a capture ends the open upper half of WCR the model's reading of R566 (log 27). -/
def Obligations.Io3ModesCompareWcrWithTr : Prop :=
  ∀ s : State,
    let equal := s.wcr.extractLsb' 0 16 = (s.tr + 1#32).extractLsb' 0 16
    let mode := s.fcr.extractLsb' 12 2
    let t := s.tick
    t.tr = s.tr + 1#32 ∧
    t.wcrUpperOpen = (s.wcrUpperOpen && !(decide (mode = 1#2) && s.fcr.getLsbD 10 && !s.eventFlag && t.eventFlag)) ∧
    (mode = 0#2 → t.equalFlag = (s.equalFlag || decide equal) ∧ t.eventFlag = s.eventFlag ∧ t.wcr = s.wcr ∧
      t.resetRequest = s.resetRequest ∧ t.io3Toggle = s.io3Toggle) ∧
    (mode = 1#2 → s.fcr.getLsbD 10 = false →
      t.equalFlag = (s.equalFlag || decide equal) ∧ t.io3Toggle = (s.io3Toggle ^^ decide equal) ∧
      t.eventFlag = s.eventFlag ∧ t.wcr = s.wcr ∧ t.resetRequest = s.resetRequest) ∧
    (mode = 1#2 → s.fcr.getLsbD 10 = true → s.eventFlag = false → s.pins.io.getLsbD 2 = s.fcr.getLsbD 9 →
      t.eventFlag = true ∧ t.equalFlag = s.equalFlag ∧ t.wcr = (s.tr + 1#32) &&& 0xFFFF#32) ∧
    (mode = 1#2 → s.fcr.getLsbD 10 = true → s.eventFlag = false → s.pins.io.getLsbD 2 ≠ s.fcr.getLsbD 9 →
      t.eventFlag = false ∧ t.equalFlag = (s.equalFlag || decide equal) ∧ t.wcr = s.wcr) ∧
    (mode = 1#2 → s.fcr.getLsbD 10 = true → t.io3Toggle = s.io3Toggle ∧ t.resetRequest = s.resetRequest ∧
      (s.eventFlag = true → t.eventFlag = true ∧ t.equalFlag = s.equalFlag ∧ t.wcr = s.wcr)) ∧
    (mode = 2#2 → t.resetRequest = (s.resetRequest || decide equal) ∧ t.equalFlag = s.equalFlag ∧ t.wcr = s.wcr) ∧
    (mode = 3#2 → t.equalFlag = s.equalFlag ∧ t.eventFlag = s.eventFlag ∧ t.wcr = s.wcr ∧ t.io3Toggle = s.io3Toggle ∧
      t.resetRequest = s.resetRequest)

/-- A requested Reset is taken at the next boundary whatever else is pending, and starts at FFFFFFF8.
(spec/70_reset_and_hazards.md R590, spec/60_exceptions.md R531, R532, spec/20_memory.md R112) External memory kept and
the cleared hidden latches are the model's choice and decision D20 (log 35). -/
def Obligations.ResetRequestsOverruleEverything : Prop :=
  ∀ s : State, Memory.wf s.takeInput.mem = true → s.takeInput.resetRequest = true →
    ∃ t, step s = .next t ∧ t.pc = 0xFFFFFFF8#32 ∧ srS t.sr = true ∧ srL t.sr = true ∧ srT t.sr = false ∧
      srM t.sr = false ∧ srFL t.sr = 2#4 ∧ t.bcr = 0xFFFFFFFF#32 ∧ t.fcr = 0xFFFFFFFF#32 ∧ t.mcr = 0xFFFFFFFF#32 ∧
      t.equalFlag = false ∧ t.eventFlag = false ∧ t.io3Toggle = false ∧ t.extOvfPending = false ∧ t.parityPending = false ∧
      t.powerDown = false ∧ t.resetRequest = false ∧ t.delayPending = false ∧ t.callLockout = false ∧ t.stale = [] ∧
      t.iramKept = [] ∧
      ∀ k, k < 0xC0000000 ∨ 0xE0000000 ≤ k → Memory.read t.mem k = Memory.read s.takeInput.mem k

/-- In power-down no instruction executes; it ends exactly when L = 0 and some source requests. (spec/60_exceptions.md
R570) That L = 1 keeps it asleep is decision D25 (log 34). -/
def Obligations.PowerDownSleepsUntilARequest : Prop :=
  ∀ s : State, s.takeInput.resetRequest = false → s.takeInput.powerDown = true →
    ∃ t, step s = .next t ∧ t.pc = s.takeInput.pc ∧ t.sr = s.takeInput.sr ∧ RegistersKept [] s.takeInput t ∧
      MemoryKept s.takeInput t ∧ t.mcr = s.takeInput.mcr ∧ t.sp = s.takeInput.sp ∧ t.ub = s.takeInput.ub ∧
      (t.powerDown = false ↔ srL t.sr = false ∧ ∃ q : Source, t.request q = true)

/-- Every instruction that would need the register after G15 is refused. (spec/00_scope.md R10,
spec/92_eei_decisions.md D7, spec/93_implementation_defined.md I2.14) That these stop is decision D7, ruling I2.14
(log 20). -/
def Obligations.FollowerOfG15Refusals : Prop :=
  ∀ (rd rs : Reg) (ld : BitVec 4) (dis : Dis) (s : State), s.window = false →
    let g15 := Reg.glob 15#4
    let stops := fun i : Instr => exec i s = .refused .followerOfG15
    stops (.movd g15 rs) ∧ (rd.isPC = false → stops (.movd rd g15)) ∧
    stops (.muls g15 rs) ∧ stops (.mulu g15 rs) ∧ stops (.divs g15 rs) ∧ stops (.divu g15 rs) ∧
    stops (.stdD rd g15 dis) ∧ stops (.stdA g15 dis) ∧ stops (.stdR ld g15) ∧ stops (.stdP ld g15) ∧
    (rd.isPC = false → rd.isSR = false → stops (.stdN rd g15 dis)) ∧
    stops (.stdIOD rd g15 dis) ∧ stops (.stdIOA g15 dis) ∧
    (s.inSlot = false → stops (.ret g15))

/-- With the H window open only MOV and MOVI may name a global register: a user's destination fails, all else is
refused. (spec/10_state.md R33, spec/41_move_logical.md R280 (e), spec/44_index_check_compare_set.md R404, R406, R412,
spec/60_exceptions.md R546, spec/93_implementation_defined.md I2.6, I2.15) The refusals are ruling I2.15, the
Privilege Error of other instructions than MOV and MOVI R280 (e) and R406 (log 18). -/
def Obligations.GlobalRegistersInTheWindow : Prop :=
  ∀ (rd rs : Reg) (ld n : BitVec 4) (k : BitVec 5) (imm : Imm) (c : Const) (lim : Lim) (dis : Dis) (s : State),
    s.window = true →
    let stops := fun i : Instr => exec i s = .refused .highGlobalWindow
    let noFlags : FlagClaim := { c := none, z := none, n := none, v := none }
    let fails := fun i : Instr => ∃ u, OnlyFlags noFlags s u ∧ TakesError i s u (exec i s)
    let sets := fun i : Instr =>
      regIsGlobal rd = true → (srS s.sr = false → fails i) ∧ (srS s.sr = true → stops i)
    let writes := fun i : Instr => sets i ∧ (regIsGlobal rd = false → regIsGlobal rs = true → stops i)
    let reads := fun i : Instr => regIsGlobal rd = true ∨ regIsGlobal rs = true → stops i
    let takes := fun i : Instr => regIsGlobal rs = true → stops i
    writes (.movd rd rs) ∧ writes (.and rd rs) ∧ writes (.andn rd rs) ∧ writes (.or rd rs) ∧ writes (.xor rd rs) ∧
    writes (.not rd rs) ∧ writes (.add rd rs) ∧ writes (.adds rd rs) ∧ writes (.addc rd rs) ∧ writes (.sub rd rs) ∧
    writes (.subs rd rs) ∧ writes (.subc rd rs) ∧ writes (.neg rd rs) ∧ writes (.negs rd rs) ∧ writes (.mul rd rs) ∧
    writes (.muls rd rs) ∧ writes (.mulu rd rs) ∧ writes (.divs rd rs) ∧ writes (.divu rd rs) ∧ writes (.mask rd rs c) ∧
    writes (.sum rd rs c) ∧ writes (.sums rd rs c) ∧ writes (.xm1 rd rs lim) ∧ writes (.xm2 rd rs lim) ∧
    writes (.xm4 rd rs lim) ∧ writes (.xm8 rd rs lim) ∧ writes (.xx1 rd rs lim) ∧ writes (.xx2 rd rs lim) ∧
    writes (.xx4 rd rs lim) ∧ writes (.xx8 rd rs lim) ∧
    sets (.andni rd imm) ∧ sets (.ori rd imm) ∧ sets (.xori rd imm) ∧ sets (.addi rd imm) ∧ sets (.addsi rd imm) ∧
    sets (.shli rd k) ∧ sets (.sari rd k) ∧ sets (.shri rd k) ∧ sets (.setadr rd) ∧ sets (.set1 rd) ∧ sets (.set0 rd) ∧
    sets (.set1m rd) ∧ sets (.setle rd) ∧ sets (.setlem rd) ∧ sets (.setgt rd) ∧ sets (.setgtm rd) ∧ sets (.setlt rd) ∧
    sets (.setltm rd) ∧ sets (.setge rd) ∧ sets (.setgem rd) ∧ sets (.setse rd) ∧ sets (.setsem rd) ∧ sets (.setht rd) ∧
    sets (.sethtm rd) ∧ sets (.setst rd) ∧ sets (.setstm rd) ∧ sets (.sethe rd) ∧ sets (.sethem rd) ∧ sets (.sete rd) ∧
    sets (.setem rd) ∧ sets (.setne rd) ∧ sets (.setnem rd) ∧ sets (.setv rd) ∧ sets (.setvm rd) ∧ sets (.setnv rd) ∧
    sets (.setnvm rd) ∧
    reads (.chk rd rs) ∧ reads (.cmp rd rs) ∧ reads (.cmpb rd rs) ∧ reads (.ldbsD rd rs dis) ∧
    reads (.ldbsN rd rs dis) ∧ reads (.ldbuD rd rs dis) ∧ reads (.ldbuN rd rs dis) ∧ reads (.ldhuD rd rs dis) ∧
    reads (.ldhuN rd rs dis) ∧ reads (.ldhsD rd rs dis) ∧ reads (.ldhsN rd rs dis) ∧ reads (.ldwD rd rs dis) ∧
    reads (.ldwN rd rs dis) ∧ reads (.lddD rd rs dis) ∧ reads (.lddN rd rs dis) ∧ reads (.ldwS rd rs dis) ∧
    reads (.ldwIOD rd rs dis) ∧ reads (.lddIOD rd rs dis) ∧ reads (.stbsD rd rs dis) ∧ reads (.stbsN rd rs dis) ∧
    reads (.stbuD rd rs dis) ∧ reads (.stbuN rd rs dis) ∧ reads (.sthuD rd rs dis) ∧ reads (.sthuN rd rs dis) ∧
    reads (.sthsD rd rs dis) ∧ reads (.sthsN rd rs dis) ∧ reads (.stwD rd rs dis) ∧ reads (.stwN rd rs dis) ∧
    reads (.stdD rd rs dis) ∧ reads (.stdN rd rs dis) ∧ reads (.stwS rd rs dis) ∧ reads (.stwIOD rd rs dis) ∧
    reads (.stdIOD rd rs dis) ∧
    takes (.call ld rs c) ∧ takes (.ldwR ld rs) ∧ takes (.ldwP ld rs) ∧ takes (.lddR ld rs) ∧ takes (.lddP ld rs) ∧
    takes (.stwR ld rs) ∧ takes (.stwP ld rs) ∧ takes (.stdR ld rs) ∧ takes (.stdP ld rs) ∧
    stops (.chkz rd) ∧ stops (.ldbsA rs dis) ∧ stops (.ldbuA rs dis) ∧ stops (.ldhuA rs dis) ∧ stops (.ldhsA rs dis) ∧
    stops (.ldwA rs dis) ∧ stops (.lddA rs dis) ∧ stops (.ldwIOA rs dis) ∧ stops (.lddIOA rs dis) ∧
    stops (.stbsA rs dis) ∧ stops (.stbuA rs dis) ∧ stops (.sthuA rs dis) ∧ stops (.sthsA rs dis) ∧
    stops (.stwA rs dis) ∧ stops (.stdA rs dis) ∧ stops (.stwIOA rs dis) ∧ stops (.stdIOA rs dis) ∧
    (regIsGlobal rd = true → stops (.cmpi rd imm) ∧ stops (.cmpbi rd imm)) ∧
    ((srS s.sr = false → fails (.ret rs)) ∧ (srS s.sr = true → stops (.ret rs))) ∧
    (n ≠ 8#4 → (srS s.sr = false → fails (.fetch n)) ∧ (srS s.sr = true → stops (.fetch n))) ∧
    exec (.fetch 8#4) s = .refused (.undefinedEncoding (.reservedSet 16#5)) ∧
    (s.fetch = .error (.oddFetch k) → k ≠ 1#5 → k ≠ 17#5 → k ≠ 19#5 →
      (srS s.sr = true → runInstruction s = .refused .highGlobalWindow) ∧
      (srS s.sr = false → ∃ u, OnlyFlags noFlags s u ∧ SavedPoint 1 s u ∧
        ∀ entry, trapEntry s.mcr 60 = some entry → ∃ t, runInstruction s = .next t ∧ Entered false entry u t))

/-- How fetches and FETCH fill the instruction cache, which branches taken leave it as it is, and which flush it.
(spec/20_memory.md R112, R127 to R131, R133, spec/21_bus_interface.md R165, spec/44_index_check_compare_set.md R412,
spec/45_branch_call_trap_frame_return.md R422, R424, R426 (b), spec/92_eei_decisions.md D12) How far the prefetch has
run is free (log 46), what a fetch of modified code finds is decision D12 (log 9). That a Delayed Branch in a delay
slot is executed, and flushes, is the model's choice of the source's sentence in R426 (b) over the refusal of I2.11
(log 28). That code in the IRAM is noted at its fetch is log 7's. -/
def Obligations.TakenBranchesAndTheCache : Prop :=
  ∀ (rd rs : Reg) (rel : Rel) (ld ls n : BitVec 4) (k : BitVec 6) (imm : Imm) (c : Const) (s : State),
    let target := s.pc + BitVec.ofNat 32 (2 * rel.length) + relValue rel
    let keeps := fun i : Instr => ∃ t, exec i s = .next t ∧ CacheAfter false rel target s t
    let slots := fun i : Instr =>
      ∃ t, exec i s = .next t ∧ CacheAfter (srM s.sr) rel target s t ∧ SlotFetched rel target s t
    let flushes := fun i : Instr => ∃ t a, exec i s = .next t ∧ t.pc = clearBit0 a ∧ Flushed a s t
    (s.inSlot = false →
      (srV s.sr = true → keeps (.bv rel) ∧ slots (.dbv rel)) ∧
      (srV s.sr = false → keeps (.bnv rel) ∧ slots (.dbnv rel)) ∧
      (srZ s.sr = true → keeps (.be rel) ∧ slots (.dbe rel)) ∧
      (srZ s.sr = false → keeps (.bne rel) ∧ slots (.dbne rel)) ∧
      (srC s.sr = true → keeps (.bst rel) ∧ slots (.dbst rel)) ∧
      (srC s.sr = false → keeps (.bhe rel) ∧ slots (.dbhe rel)) ∧
      (srC s.sr = true ∨ srZ s.sr = true → keeps (.bse rel) ∧ slots (.dbse rel)) ∧
      (srC s.sr = false ∧ srZ s.sr = false → keeps (.bht rel) ∧ slots (.dbht rel)) ∧
      (srN s.sr = true → keeps (.blt rel) ∧ slots (.dblt rel)) ∧
      (srN s.sr = false → keeps (.bge rel) ∧ slots (.dbge rel)) ∧
      (srN s.sr = true ∨ srZ s.sr = true → keeps (.ble rel) ∧ slots (.dble rel)) ∧
      (srN s.sr = false ∧ srZ s.sr = false → keeps (.bgt rel) ∧ slots (.dbgt rel)) ∧
      keeps (.br rel) ∧ slots (.dbr rel) ∧
      (Usable [rs] s → flushes (.call ld rs c)) ∧
      ((trapEntry s.mcr k.toNat).isSome = true →
        (srN s.sr = true ∨ srZ s.sr = true → flushes (.traple k)) ∧
        (srN s.sr = false ∧ srZ s.sr = false → flushes (.trapgt k)) ∧ (srN s.sr = true → flushes (.traplt k)) ∧
        (srN s.sr = false → flushes (.trapge k)) ∧ (srC s.sr = true ∨ srZ s.sr = true → flushes (.trapse k)) ∧
        (srC s.sr = false ∧ srZ s.sr = false → flushes (.trapht k)) ∧ (srC s.sr = true → flushes (.trapst k)) ∧
        (srC s.sr = false → flushes (.traphe k)) ∧ (srZ s.sr = true → flushes (.trape k)) ∧
        (srZ s.sr = false → flushes (.trapne k)) ∧ (srV s.sr = true → flushes (.trapv k)) ∧ flushes (.trap k)) ∧
      ((softEntry s.mcr 0).isSome = true →
        flushes (.fadd ld ls) ∧ flushes (.faddd ld ls) ∧ flushes (.fsub ld ls) ∧ flushes (.fsubd ld ls) ∧
        flushes (.fmul ld ls) ∧ flushes (.fmuld ld ls) ∧ flushes (.fdiv ld ls) ∧ flushes (.fdivd ld ls) ∧
        flushes (.fcmp ld ls) ∧ flushes (.fcmpd ld ls) ∧ flushes (.fcmpu ld ls) ∧ flushes (.fcmpud ld ls) ∧
        flushes (.fcvt ld ls) ∧ flushes (.fcvtd ld ls) ∧ flushes (.softDo ld ls)) ∧
      (s.window = false → rs.isPC = false → rs.isSR = false → rs ≠ .glob 15#4 → (trapEntry s.mcr 60).isSome = true →
        ∃ t a, exec (.ret rs) s = .next t ∧ t.pc = clearBit0 a ∧ t.lookBack = alignWord a ∧ t.lookAhead = alignWord a ∧
          t.stale = []) ∧
      (s.window = false → rd.isPC = true →
        flushes (.mov rd rs) ∧ flushes (.movi rd imm) ∧ flushes (.add rd rs) ∧ flushes (.addi rd imm) ∧
        flushes (.sum rd rs c) ∧ flushes (.sub rd rs)) ∧
      (s.window = false →
        let w := alignWord (s.pc + BitVec.ofNat 32 (2 * n.toNat + 2))
        ∃ t, exec (.fetch n) s = .next t ∧ CacheReaches (if above w s.lookAhead = 0 then s.lookAhead else w) s t)) ∧
    (s.inSlot = true →
      (srV s.sr = true → flushes (.dbv rel)) ∧ (srV s.sr = false → flushes (.dbnv rel)) ∧
      (srZ s.sr = true → flushes (.dbe rel)) ∧ (srZ s.sr = false → flushes (.dbne rel)) ∧
      (srC s.sr = true → flushes (.dbst rel)) ∧ (srC s.sr = false → flushes (.dbhe rel)) ∧
      (srC s.sr = true ∨ srZ s.sr = true → flushes (.dbse rel)) ∧
      (srC s.sr = false ∧ srZ s.sr = false → flushes (.dbht rel)) ∧ (srN s.sr = true → flushes (.dblt rel)) ∧
      (srN s.sr = false → flushes (.dbge rel)) ∧ (srN s.sr = true ∨ srZ s.sr = true → flushes (.dble rel)) ∧
      (srN s.sr = false ∧ srZ s.sr = false → flushes (.dbgt rel)) ∧ flushes (.dbr rel)) ∧
    (s.inputs = [] → s.takeInput = { s with between := [] }.fetchAhead) ∧
    (s.powerDown = true ∨ s.resetRequest = true → s.fetchAhead = s) ∧
    ∀ i : Instr, s.fetch = .ok i → s.powerDown = false → s.resetRequest = false →
      let a := if s.delayPending then s.delayAddr else s.pc
      s.fetchAhead.iramRelied = (s.iramRelied || (List.range i.length).any fun j =>
        let h := a + BitVec.ofNat 32 (2 * j)
        !s.guarantees (regionOf h) h 2) ∧
      (s.delayPending = false → FetchedAhead a i.length s s.fetchAhead) ∧
      (s.delayPending = true →
        let own := alignWord (a + BitVec.ofNat 32 (2 * i.length) - 2#32)
        (s.slotAhead = none → CacheReaches (if above own s.lookAhead = 0 then s.lookAhead else own) s s.fetchAhead) ∧
        ∀ low, s.slotAhead = some low →
          s.fetchAhead.lookAhead = s.lookAhead ∧ s.fetchAhead.lookBack = s.lookBack ∧ s.fetchAhead.stale = s.stale ∧
          s.fetchAhead.busLock = (s.busLock || (!s.fcr.getLsbD 17 && decide (above own low ≠ 0 ∧
            (regionOf (low + 4#32) = .external ∨ regionOf own = .external)))))

/-- Each load, store and I/O access to the outside locks the bus while FCR(17) = 0; another master writes only with
GRANT# high and no lock. (spec/20_memory.md R109, R112, R113, R123, R125, spec/21_bus_interface.md R165,
spec/40_memory_instructions.md R232, R236, R240 to R247, R250 to R261, spec/92_eei_decisions.md D21) GRANT#, the other
master's writes and the accesses that start the lock are modelled as logs 12 and 45 say, what the program relies on in
the IRAM as log 7 says. Selection by dis in the absolute mode is decision D21 (log 6). -/
def Obligations.BusLockAndOtherMasters : Prop :=
  ∀ (i : Input) (rd rs : Reg) (ld : BitVec 4) (dis : Dis) (q : Place) (s : State), Memory.wf s.mem = true →
    let u := s.receive i
    let cellsOf := fun l : List (Word × Byte) => l.filterMap fun e => s.cell .external e.1
    let ends := fun (e : Instr) (locks relies : Bool) =>
      ∃ t, exec e s = .next t ∧ t.busLock = (s.busLock || (locks && !s.fcr.getLsbD 17)) ∧
        t.iramRelied = (s.iramRelied || relies)
    let reads := fun (e : Instr) (r : Region) (bytes : List (Word × Nat)) =>
      ends e (decide (r = .external)) (bytes.any fun x => !s.guarantees r x.1 x.2)
    let writes := fun (e : Instr) (r : Region) => ends e (decide (r = .external)) false
    let loadable := ∀ c, rs = .glob c → 2 ≤ c.toNat ∧ c.toNat ≤ 13
    let loadable2 := ∀ c, rs = .glob c → 2 ≤ c.toNat ∧ c.toNat ≤ 12
    let landed := fun (l : List (Word × Byte)) (v : State) =>
      (∀ k, k ∉ cellsOf l → Memory.read v.mem k = Memory.read s.mem k) ∧
      (∀ early late a b k, l = early ++ (a, b) :: late → s.cell .external a = some k → k ∉ cellsOf late →
        Memory.read v.mem k = b)
    (i.pins.grant = false ∨ s.busLock = true → u.mem = s.mem) ∧
    (i.pins.grant = true → s.busLock = false → landed i.dma u) ∧ u.between = i.between ∧
    (∀ r : Region, let v := (s.noteAccess r).interlude
      (s.pins.grant = false ∨ s.busLock = true ∨ (r = .external ∧ s.fcr.getLsbD 17 = false) → v.mem = s.mem) ∧
      (s.pins.grant = true → s.busLock = false → (r = .iram ∨ s.fcr.getLsbD 17 = true) → landed s.between v)) ∧
    ends .nop false false ∧
    (let v := if rs.isSR then 0#32 else source dis.length rs s
     let b := source dis.length rd s
     Usable [rd, rs] s → b ≠ 0#32 →
      (loadable → ends (.ldwIOD rd rs dis) true false ∧
        reads (.ldbsD rd rs dis) (regionOf b) [(b + disValue dis, 1)] ∧
        reads (.ldbuD rd rs dis) (regionOf b) [(b + disValue dis, 1)] ∧
        reads (.ldhuD rd rs dis) (regionOf b) [(alignHalf (b + disValue dis), 2)] ∧
        reads (.ldhsD rd rs dis) (regionOf b) [(alignHalf (b + disValue dis), 2)] ∧
        reads (.ldwD rd rs dis) (regionOf b) [(alignWord (b + disValue dis), 4)]) ∧
      (loadable2 → nextPlace rs s = some q → ends (.lddIOD rd rs dis) true false ∧
        reads (.lddD rd rs dis) (regionOf b) [(alignWord (b + disValue dis), 4), (alignWord (b + disValue dis + 4#32), 4)]) ∧
      (outsideSigned 8 v.toInt = false → writes (.stbsD rd rs dis) (regionOf b)) ∧
      writes (.stbuD rd rs dis) (regionOf b) ∧
      writes (.sthuD rd rs dis) (regionOf b) ∧
      (outsideSigned 16 v.toInt = false → writes (.sthsD rd rs dis) (regionOf b)) ∧
      writes (.stwD rd rs dis) (regionOf b) ∧
      ends (.stwIOD rd rs dis) true false ∧
      (nextPlace rs s = some q → writes (.stdD rd rs dis) (regionOf b) ∧ ends (.stdIOD rd rs dis) true false) ∧
      (rd.isPC = false → rd.isSR = false →
        (loadable →
          reads (.ldbsN rd rs dis) (regionOf b) [(b, 1)] ∧
          reads (.ldbuN rd rs dis) (regionOf b) [(b, 1)] ∧
          reads (.ldhuN rd rs dis) (regionOf b) [(alignHalf (b), 2)] ∧
          reads (.ldhsN rd rs dis) (regionOf b) [(alignHalf (b), 2)] ∧
          reads (.ldwN rd rs dis) (regionOf b) [(alignWord (b), 4)] ∧
          (if b.toNat < s.sp.toNat then reads (.ldwS rd rs dis) (regionOf b) [(alignWord b, 4)]
           else ends (.ldwS rd rs dis) false false)) ∧
        (loadable2 → nextPlace rs s = some q →
          reads (.lddN rd rs dis) (regionOf b) [(alignWord (b), 4), (alignWord (b + 4#32), 4)]) ∧
        (outsideSigned 8 v.toInt = false → writes (.stbsN rd rs dis) (regionOf b)) ∧
        writes (.stbuN rd rs dis) (regionOf b) ∧
        writes (.sthuN rd rs dis) (regionOf b) ∧
        (outsideSigned 16 v.toInt = false → writes (.sthsN rd rs dis) (regionOf b)) ∧
        writes (.stwN rd rs dis) (regionOf b) ∧
        (nextPlace rs s = some q → writes (.stdN rd rs dis) (regionOf b)) ∧
        (if b.toNat < s.sp.toNat then writes (.stwS rd rs dis) (regionOf b) else ends (.stwS rd rs dis) false false))) ∧
    (let v := if rs.isSR then 0#32 else source dis.length rs s
     let e := disValue dis
     s.window = false →
      (loadable → ends (.ldwIOA rs dis) true false ∧
        reads (.ldbsA rs dis) (regionOf e) [(e, 1)] ∧
        reads (.ldbuA rs dis) (regionOf e) [(e, 1)] ∧
        reads (.ldhuA rs dis) (regionOf e) [(alignHalf (e), 2)] ∧
        reads (.ldhsA rs dis) (regionOf e) [(alignHalf (e), 2)] ∧
        reads (.ldwA rs dis) (regionOf e) [(alignWord (e), 4)]) ∧
      (loadable2 → nextPlace rs s = some q → ends (.lddIOA rs dis) true false ∧
        reads (.lddA rs dis) (regionOf e) [(alignWord (e), 4), (alignWord (e + 4#32), 4)]) ∧
      (outsideSigned 8 v.toInt = false → writes (.stbsA rs dis) (regionOf e)) ∧
      writes (.stbuA rs dis) (regionOf e) ∧
      writes (.sthuA rs dis) (regionOf e) ∧
      (outsideSigned 16 v.toInt = false → writes (.sthsA rs dis) (regionOf e)) ∧
      writes (.stwA rs dis) (regionOf e) ∧
      ends (.stwIOA rs dis) true false ∧
      (nextPlace rs s = some q → writes (.stdA rs dis) (regionOf e) ∧ ends (.stdIOA rs dis) true false)) ∧
    (let b := s.lr ld.toNat
     Usable [rs] s → b ≠ 0#32 →
      (loadable → reads (.ldwR ld rs) (regionOf b) [(alignWord b, 4)] ∧ reads (.ldwP ld rs) (regionOf b) [(alignWord b, 4)]) ∧
      (loadable2 → nextPlace rs s = some q →
        reads (.lddR ld rs) (regionOf b) [(alignWord (b), 4), (alignWord (b + 4#32), 4)] ∧
        reads (.lddP ld rs) (regionOf b) [(alignWord (b), 4), (alignWord (b + 4#32), 4)]) ∧
      writes (.stwR ld rs) (regionOf b) ∧ writes (.stwP ld rs) (regionOf b) ∧
      (nextPlace rs s = some q → writes (.stdR ld rs) (regionOf b) ∧ writes (.stdP ld rs) (regionOf b)))

end
end

