-- ==== Sys2Proof/Laws/Memory.lean ====
section
/-! SUPPORT. The basic laws of memory: a byte written reads back, every other byte is unchanged, and every operation keeps the
canonical form (spec/20_memory.md R100 to R119). -/

namespace Sys2Proof.Machine

/-! ### The list of cells -/

/-- A rising list may start lower. -/
theorem Memory.rising_mono {lo lo' : Nat} {m : List Host.Cell} (h : Memory.rising lo m = true) (hl : lo' ≤ lo) :
    Memory.rising lo' m = true := by
  cases m with
  | nil => rfl
  | cons c rest =>
    obtain ⟨k, x⟩ := c
    simp only [Memory.rising, Bool.and_eq_true, decide_eq_true_eq] at h ⊢
    exact ⟨by omega, h.2⟩

/-- Below its first address a rising list reads as unlisted. -/
theorem Memory.read_below {lo : Nat} {m : List Host.Cell} (h : Memory.rising lo m = true) {a : Nat} (ha : a < lo) :
    Memory.read m a = Memory.unlisted := by
  cases m with
  | nil => rfl
  | cons c rest =>
    obtain ⟨k, x⟩ := c
    simp only [Memory.rising, Bool.and_eq_true, decide_eq_true_eq] at h
    rw [Memory.read, if_neg (by omega), if_pos (by omega)]

/-- A byte written reads back. -/
theorem Memory.read_write_same {lo : Nat} {m : List Host.Cell} (h : Memory.rising lo m = true) (a : Nat) (v : Byte) :
    Memory.read (Memory.write m a v) a = v := by
  induction m generalizing lo with
  | nil =>
    by_cases hv : v = Memory.unlisted
    · simp [Memory.write, hv, Memory.read]
    · simp [Memory.write, hv, Memory.read]
  | cons c rest ih =>
    obtain ⟨k, x⟩ := c
    simp only [Memory.rising, Bool.and_eq_true, decide_eq_true_eq] at h
    rw [Memory.write]
    split
    · rename_i hak
      split
      · rename_i hv
        rw [Memory.read, if_neg (by omega), if_pos hak, hv]
      · rw [Memory.read, if_pos rfl]
    · split
      · rename_i hak
        split
        · rename_i hv
          rw [Memory.read_below h.2 (by omega), hv]
        · rw [Memory.read, if_pos rfl]
      · rw [Memory.read, if_neg (by omega), if_neg (by omega), ih h.2]

/-- Every other byte is unchanged by a write. -/
theorem Memory.read_write_other {lo : Nat} {m : List Host.Cell} (h : Memory.rising lo m = true) {a b : Nat} (v : Byte)
    (hab : b ≠ a) : Memory.read (Memory.write m a v) b = Memory.read m b := by
  induction m generalizing lo with
  | nil =>
    by_cases hv : v = Memory.unlisted
    · simp [Memory.write, hv]
    · simp [Memory.write, hv, Memory.read, hab.symm]
  | cons c rest ih =>
    obtain ⟨k, x⟩ := c
    simp only [Memory.rising, Bool.and_eq_true, decide_eq_true_eq] at h
    rw [Memory.write]
    split
    · rename_i hak
      split
      · rfl
      · rw [Memory.read, if_neg hab.symm]
        split
        · rw [Memory.read, if_neg (by omega), if_pos (by omega)]
        · rfl
    · split
      · rename_i hak
        split
        · rw [Memory.read, if_neg (by omega)]
          split
          · exact Memory.read_below h.2 (by omega)
          · rfl
        · subst hak
          simp [Memory.read, hab.symm]
      · rw [Memory.read, Memory.read, ih h.2]

/-- A write keeps a rising list rising. -/
theorem Memory.rising_write {lo : Nat} {m : List Host.Cell} (h : Memory.rising lo m = true) {a : Nat} (v : Byte)
    (ha : lo ≤ a) : Memory.rising lo (Memory.write m a v) = true := by
  induction m generalizing lo with
  | nil =>
    by_cases hv : v = Memory.unlisted
    · simp [Memory.write, hv, Memory.rising]
    · simp [Memory.write, hv, Memory.rising, ha]
  | cons c rest ih =>
    obtain ⟨k, x⟩ := c
    have h' := h
    simp only [Memory.rising, Bool.and_eq_true, decide_eq_true_eq] at h
    rw [Memory.write]
    split
    · rename_i hak
      split
      · exact h'
      · simp only [Memory.rising, Bool.and_eq_true, decide_eq_true_eq]
        exact ⟨ha, by omega, h.2⟩
    · split
      · split
        · exact Memory.rising_mono h.2 (by omega)
        · simp only [Memory.rising, Bool.and_eq_true, decide_eq_true_eq]
          rename_i hak _
          exact ⟨ha, hak ▸ h.2⟩
      · simp only [Memory.rising, Bool.and_eq_true, decide_eq_true_eq]
        exact ⟨h.1, ih h.2 (by omega)⟩

/-- The entries of a written list: the old ones and the new one. -/
theorem Memory.mem_write {m : List Host.Cell} {a : Nat} {v : Byte} {c : Host.Cell} (h : c ∈ Memory.write m a v) :
    c ∈ m ∨ (c = (a, v) ∧ v ≠ Memory.unlisted) := by
  induction m with
  | nil =>
    rw [Memory.write] at h
    split at h
    · exact absurd h (List.not_mem_nil)
    · rename_i hv
      exact Or.inr ⟨by simpa using h, hv⟩
  | cons d rest ih =>
    obtain ⟨k, x⟩ := d
    rw [Memory.write] at h
    split at h
    · split at h
      · exact Or.inl h
      · rename_i hv
        rcases List.mem_cons.mp h with h | h
        · exact Or.inr ⟨h, hv⟩
        · exact Or.inl h
    · split at h
      · split at h
        · exact Or.inl (List.mem_cons_of_mem _ h)
        · rename_i hv
          rcases List.mem_cons.mp h with h | h
          · exact Or.inr ⟨h, hv⟩
          · exact Or.inl (List.mem_cons_of_mem _ h)
      · rcases List.mem_cons.mp h with h | h
        · exact Or.inl (h ▸ List.mem_cons_self)
        · rcases ih h with h | h
          · exact Or.inl (List.mem_cons_of_mem _ h)
          · exact Or.inr h

/-- A canonical memory rises. -/
theorem Memory.rising_of_wf {m : List Host.Cell} (h : Memory.wf m = true) : Memory.rising 0 m = true := by
  simp only [Memory.wf, Bool.and_eq_true] at h
  exact h.1

/-- A write to a cell keeps the canonical form. -/
theorem Memory.wf_write {m : List Host.Cell} (h : Memory.wf m = true) {a : Nat} (v : Byte)
    (ha : Memory.isCell a = true) : Memory.wf (Memory.write m a v) = true := by
  have hr := Memory.rising_of_wf h
  simp only [Memory.wf, Bool.and_eq_true, List.all_eq_true, bne_iff_ne] at h ⊢
  refine ⟨Memory.rising_write hr v (Nat.zero_le a), fun c hc => ?_⟩
  rcases Memory.mem_write hc with hc | ⟨rfl, hv⟩
  · exact h.2 c hc
  · exact ⟨hv, ha⟩

/-! ### The cells of an address -/

/-- Every cell an address reaches is one of the address map. -/
theorem isCell_of_cellOf {r : Region} {a : Word} {k : Nat} (h : cellOf r a = some k) : Memory.isCell k = true := by
  cases r with
  | iram =>
    simp only [cellOf, Option.some.injEq] at h
    simp only [Memory.isCell, Bool.or_eq_true, Bool.and_eq_true, decide_eq_true_eq]
    omega
  | external =>
    simp only [cellOf] at h
    split at h
    · exact absurd h (by simp)
    · rename_i hr
      have hk : a.toNat = k := by simpa using h
      have hlt := a.isLt
      have he : (a.extractLsb' 29 3).toNat = a.toNat / 2 ^ 29 % 8 := by
        simp [BitVec.extractLsb'_toNat, Nat.shiftRight_eq_div_pow]
      have hne : a.extractLsb' 29 3 ≠ 6#3 := by
        intro hc
        exact hr (by simp [regionOf, hc])
      have hne' : (a.extractLsb' 29 3).toNat ≠ 6 := fun hc => hne (BitVec.eq_of_toNat_eq hc)
      simp only [Memory.isCell, Bool.or_eq_true, Bool.and_eq_true, decide_eq_true_eq]
      omega

/-! ### The processor's accesses -/

/-- A fitted cell is a cell of the address map. -/
theorem cellOf_of_cell {s : State} {r : Region} {a : Word} {k : Nat} (h : s.cell r a = some k) : cellOf r a = some k := by
  unfold State.cell at h
  split at h
  · rename_i j hj
    split at h
    · exact hj.trans h
    · exact absurd h (by simp)
  · exact absurd h (by simp)

/-- Which cells are fitted depends on the platform alone. -/
theorem cell_congr {s t : State} (h : t.platform = s.platform) (r : Region) (a : Word) : t.cell r a = s.cell r a := by
  unfold State.cell
  rw [h]

/-- The memory that reset assumes is flat: every cell of the address map is fitted (D1). -/
theorem cell_reset (r : Region) (a : Word) : State.reset.cell r a = cellOf r a := by
  unfold State.cell
  cases cellOf r a with
  | none => rfl
  | some k => simp [Platform.fitted, State.reset]

/-- What one stored byte does to memory. -/
theorem State.putByte_mem (s : State) (r : Region) (a : Word) (v : Byte) :
    (s.putByte r a v).mem = match s.cell r a with | some k => Memory.write s.mem k v | none => s.mem := by
  unfold State.putByte State.cell
  cases cellOf r a with
  | none => rfl
  | some k =>
    dsimp only
    split <;> rfl

/-- A stored byte keeps the canonical form. -/
theorem State.wf_putByte {s : State} (h : Memory.wf s.mem = true) (r : Region) (a : Word) (v : Byte) :
    Memory.wf (s.putByte r a v).mem = true := by
  rw [State.putByte_mem]
  split
  · rename_i k hk
    exact Memory.wf_write h v (isCell_of_cellOf (cellOf_of_cell hk))
  · exact h

/-- A cell other than the one an address reaches is unchanged by a store there. -/
theorem State.read_putByte_other {s : State} (h : Memory.wf s.mem = true) (r : Region) (a : Word) (v : Byte) {k : Nat}
    (hk : s.cell r a ≠ some k) : Memory.read (s.putByte r a v).mem k = Memory.read s.mem k := by
  rw [State.putByte_mem]
  split
  · rename_i j hj
    exact Memory.read_write_other (Memory.rising_of_wf h) v (fun hc => hk (by rw [hj, hc]))
  · rfl

/-- The cell an address reaches holds the byte stored there. -/
theorem State.read_putByte_same {s : State} (h : Memory.wf s.mem = true) (r : Region) (a : Word) (v : Byte) {k : Nat}
    (hk : s.cell r a = some k) : Memory.read (s.putByte r a v).mem k = v := by
  rw [State.putByte_mem, hk]
  exact Memory.read_write_same (Memory.rising_of_wf h) k v

/-- Noting a store for the fetch leaves memory alone. -/
@[simp] theorem State.noteStale_mem (s : State) (r : Region) (a : Word) : (s.noteStale r a).mem = s.mem := by
  unfold State.noteStale
  split <;> rfl

/-- A byte store keeps the canonical form. -/
theorem State.wf_writeByte {s : State} (h : Memory.wf s.mem = true) (r : Region) (a : Word) (v : Byte) :
    Memory.wf (s.writeByte r a v).mem = true :=
  State.wf_putByte (by rw [State.noteStale_mem]; exact h) r a v

/-- A halfword store keeps the canonical form. -/
theorem State.wf_writeHalf {s : State} (h : Memory.wf s.mem = true) (r : Region) (a : Word) (v : Half) :
    Memory.wf (s.writeHalf r a v).mem = true :=
  State.wf_putByte (State.wf_putByte (by rw [State.noteStale_mem]; exact h) r _ _) r _ _

/-- A word store keeps the canonical form. -/
theorem State.wf_writeWord {s : State} (h : Memory.wf s.mem = true) (r : Region) (a v : Word) :
    Memory.wf (s.writeWord r a v).mem = true :=
  State.wf_putByte (State.wf_putByte (State.wf_putByte (State.wf_putByte
    (by rw [State.noteStale_mem, State.noteStale_mem]; exact h) r _ _) r _ _) r _ _) r _ _

/-! ### What refresh guarantees -/

/-- A byte stored in the IRAM marks its cell, as refresh is enabled or not (R112). -/
theorem State.putByte_iramKept (s : State) (r : Region) (a : Word) (v : Byte) :
    (s.putByte r a v).iramKept =
      if r = .iram then
        Memory.write s.iramKept (0xC0000000 + a.toNat % 4096) (if refreshes s.mcr then 1#8 else 0#8)
      else s.iramKept := by
  cases r with
  | iram => rfl
  | external =>
    unfold State.putByte
    split <;> rfl

/-- Which byte of the IRAM is guaranteed after a byte is stored: the stored one as refresh is enabled or not, any other as before
(R112). -/
theorem State.guarantees_putByte {s : State} (h : Memory.wf s.iramKept = true) (r : Region) (a : Word) (v : Byte) (c : Word) :
    (s.putByte r a v).guarantees .iram c 1 =
      if r = .iram ∧ a.toNat % 4096 = c.toNat % 4096 then refreshes s.mcr else s.guarantees .iram c 1 := by
  have hg : ∀ t : State, t.guarantees .iram c 1 = (Memory.read t.iramKept (0xC0000000 + c.toNat % 4096) == 1#8) := by
    intro t
    simp [State.guarantees, List.range_succ]
  rw [hg, hg, State.putByte_iramKept]
  by_cases hr : r = .iram
  · rw [if_pos hr]
    by_cases hc : a.toNat % 4096 = c.toNat % 4096
    · rw [if_pos (show r = .iram ∧ a.toNat % 4096 = c.toNat % 4096 from ⟨hr, hc⟩), hc,
        Memory.read_write_same (Memory.rising_of_wf h)]
      cases refreshes s.mcr <;> rfl
    · rw [if_neg (show ¬ (r = .iram ∧ a.toNat % 4096 = c.toNat % 4096) from fun hh => hc hh.2),
        Memory.read_write_other (Memory.rising_of_wf h) _ (by omega)]
  · rw [if_neg hr, if_neg (fun hh => hr hh.1)]

/-- The marks of the IRAM keep the canonical form at a byte stored. -/
theorem State.wf_iramKept_putByte {s : State} (h : Memory.wf s.iramKept = true) (r : Region) (a : Word) (v : Byte) :
    Memory.wf (s.putByte r a v).iramKept = true := by
  rw [State.putByte_iramKept]
  split
  · exact Memory.wf_write h _ (isCell_of_cellOf (r := .iram) (a := a) rfl)
  · exact h

/-- Noting a store for the fetch marks nothing. -/
theorem iramKept_noteStale (s : State) (r : Region) (a : Word) : (s.noteStale r a).iramKept = s.iramKept := by
  unfold State.noteStale
  split <;> rfl

/-- The marks of the IRAM keep the canonical form at a byte store. -/
theorem State.wf_iramKept_writeByte {s : State} (h : Memory.wf s.iramKept = true) (r : Region) (a : Word) (v : Byte) :
    Memory.wf (s.writeByte r a v).iramKept = true :=
  State.wf_iramKept_putByte (by rw [iramKept_noteStale]; exact h) r a v

/-- The marks of the IRAM keep the canonical form at a halfword store. -/
theorem State.wf_iramKept_writeHalf {s : State} (h : Memory.wf s.iramKept = true) (r : Region) (a : Word) (v : Half) :
    Memory.wf (s.writeHalf r a v).iramKept = true :=
  State.wf_iramKept_putByte (State.wf_iramKept_putByte (by rw [iramKept_noteStale]; exact h) r _ _) r _ _

/-- The marks of the IRAM keep the canonical form at a word store. -/
theorem State.wf_iramKept_writeWord {s : State} (h : Memory.wf s.iramKept = true) (r : Region) (a v : Word) :
    Memory.wf (s.writeWord r a v).iramKept = true :=
  State.wf_iramKept_putByte (State.wf_iramKept_putByte (State.wf_iramKept_putByte (State.wf_iramKept_putByte
    (by rw [iramKept_noteStale, iramKept_noteStale]; exact h) r _ _) r _ _) r _ _) r _ _

/-- The memory after reset has the canonical form. -/
theorem State.wf_reset : Memory.wf State.reset.mem = true := rfl

end Sys2Proof.Machine
end

