-- ==== Sys2Proof/Laws/State.lean ====
section
/-! SUPPORT. One lemma per field per update of the state: what each update of a state leaves alone and what it writes. -/

namespace Sys2Proof.Machine

/-- A field that both branches leave alone. -/
theorem field_ite {α : Type} (f : State → α) {c : Prop} [Decidable c] {a b s : State} (ha : f a = f s) (hb : f b = f s) :
    f (if c then a else b) = f s := by
  split
  · exact ha
  · exact hb

/-! ### A local register written (R60) -/

@[simp] theorem State.setLocal_pc (s : State) (i : BitVec 6) (v : Word) : (s.setLocal i v).pc = s.pc := rfl
@[simp] theorem State.setLocal_sr (s : State) (i : BitVec 6) (v : Word) : (s.setLocal i v).sr = s.sr := rfl
@[simp] theorem State.setLocal_fer (s : State) (i : BitVec 6) (v : Word) : (s.setLocal i v).fer = s.fer := rfl
@[simp] theorem State.setLocal_gpr (s : State) (i : BitVec 6) (v : Word) : (s.setLocal i v).gpr = s.gpr := rfl
@[simp] theorem State.setLocal_sp (s : State) (i : BitVec 6) (v : Word) : (s.setLocal i v).sp = s.sp := rfl
@[simp] theorem State.setLocal_ub (s : State) (i : BitVec 6) (v : Word) : (s.setLocal i v).ub = s.ub := rfl
@[simp] theorem State.setLocal_bcr (s : State) (i : BitVec 6) (v : Word) : (s.setLocal i v).bcr = s.bcr := rfl
@[simp] theorem State.setLocal_tpr (s : State) (i : BitVec 6) (v : Word) : (s.setLocal i v).tpr = s.tpr := rfl
@[simp] theorem State.setLocal_tcr (s : State) (i : BitVec 6) (v : Word) : (s.setLocal i v).tcr = s.tcr := rfl
@[simp] theorem State.setLocal_tr (s : State) (i : BitVec 6) (v : Word) : (s.setLocal i v).tr = s.tr := rfl
@[simp] theorem State.setLocal_wcr (s : State) (i : BitVec 6) (v : Word) : (s.setLocal i v).wcr = s.wcr := rfl
@[simp] theorem State.setLocal_wcrUpperOpen (s : State) (i : BitVec 6) (v : Word) : (s.setLocal i v).wcrUpperOpen = s.wcrUpperOpen := rfl
@[simp] theorem State.setLocal_equalFlag (s : State) (i : BitVec 6) (v : Word) : (s.setLocal i v).equalFlag = s.equalFlag := rfl
@[simp] theorem State.setLocal_eventFlag (s : State) (i : BitVec 6) (v : Word) : (s.setLocal i v).eventFlag = s.eventFlag := rfl
@[simp] theorem State.setLocal_fcr (s : State) (i : BitVec 6) (v : Word) : (s.setLocal i v).fcr = s.fcr := rfl
@[simp] theorem State.setLocal_mcr (s : State) (i : BitVec 6) (v : Word) : (s.setLocal i v).mcr = s.mcr := rfl
@[simp] theorem State.setLocal_mem (s : State) (i : BitVec 6) (v : Word) : (s.setLocal i v).mem = s.mem := rfl
@[simp] theorem State.setLocal_iramKept (s : State) (i : BitVec 6) (v : Word) : (s.setLocal i v).iramKept = s.iramKept := rfl
@[simp] theorem State.setLocal_iramRelied (s : State) (i : BitVec 6) (v : Word) : (s.setLocal i v).iramRelied = s.iramRelied := rfl
@[simp] theorem State.setLocal_stale (s : State) (i : BitVec 6) (v : Word) : (s.setLocal i v).stale = s.stale := rfl
@[simp] theorem State.setLocal_lookBack (s : State) (i : BitVec 6) (v : Word) : (s.setLocal i v).lookBack = s.lookBack := rfl
@[simp] theorem State.setLocal_lookAhead (s : State) (i : BitVec 6) (v : Word) : (s.setLocal i v).lookAhead = s.lookAhead := rfl
@[simp] theorem State.setLocal_busLock (s : State) (i : BitVec 6) (v : Word) : (s.setLocal i v).busLock = s.busLock := rfl
@[simp] theorem State.setLocal_delayPending (s : State) (i : BitVec 6) (v : Word) : (s.setLocal i v).delayPending = s.delayPending := rfl
@[simp] theorem State.setLocal_delayAddr (s : State) (i : BitVec 6) (v : Word) : (s.setLocal i v).delayAddr = s.delayAddr := rfl
@[simp] theorem State.setLocal_slotAhead (s : State) (i : BitVec 6) (v : Word) : (s.setLocal i v).slotAhead = s.slotAhead := rfl
@[simp] theorem State.setLocal_afterDelayedBranch (s : State) (i : BitVec 6) (v : Word) : (s.setLocal i v).afterDelayedBranch = s.afterDelayedBranch := rfl
@[simp] theorem State.setLocal_callLockout (s : State) (i : BitVec 6) (v : Word) : (s.setLocal i v).callLockout = s.callLockout := rfl
@[simp] theorem State.setLocal_extOvfPending (s : State) (i : BitVec 6) (v : Word) : (s.setLocal i v).extOvfPending = s.extOvfPending := rfl
@[simp] theorem State.setLocal_parityPending (s : State) (i : BitVec 6) (v : Word) : (s.setLocal i v).parityPending = s.parityPending := rfl
@[simp] theorem State.setLocal_prescaler (s : State) (i : BitVec 6) (v : Word) : (s.setLocal i v).prescaler = s.prescaler := rfl
@[simp] theorem State.setLocal_io3Toggle (s : State) (i : BitVec 6) (v : Word) : (s.setLocal i v).io3Toggle = s.io3Toggle := rfl
@[simp] theorem State.setLocal_powerDown (s : State) (i : BitVec 6) (v : Word) : (s.setLocal i v).powerDown = s.powerDown := rfl
@[simp] theorem State.setLocal_resetRequest (s : State) (i : BitVec 6) (v : Word) : (s.setLocal i v).resetRequest = s.resetRequest := rfl
@[simp] theorem State.setLocal_pins (s : State) (i : BitVec 6) (v : Word) : (s.setLocal i v).pins = s.pins := rfl
@[simp] theorem State.setLocal_pinsDriven (s : State) (i : BitVec 6) (v : Word) : (s.setLocal i v).pinsDriven = s.pinsDriven := rfl
@[simp] theorem State.setLocal_platform (s : State) (i : BitVec 6) (v : Word) : (s.setLocal i v).platform = s.platform := rfl
@[simp] theorem State.setLocal_inputs (s : State) (i : BitVec 6) (v : Word) : (s.setLocal i v).inputs = s.inputs := rfl
@[simp] theorem State.setLocal_between (s : State) (i : BitVec 6) (v : Word) : (s.setLocal i v).between = s.between := rfl
@[simp] theorem State.setLocal_ioTrace (s : State) (i : BitVec 6) (v : Word) : (s.setLocal i v).ioTrace = s.ioTrace := rfl
@[simp] theorem State.setLocal_fresh (s : State) (i : BitVec 6) (v : Word) : (s.setLocal i v).fresh = s.fresh := rfl

@[simp] theorem State.setLocal_locals (s : State) (i : BitVec 6) (v : Word) : (s.setLocal i v).locals = s.locals.set i.toNat v := rfl
/-! ### A local register relative to FP written (R60) -/

@[simp] theorem State.setLr_pc (s : State) (c : Nat) (v : Word) : (s.setLr c v).pc = s.pc := rfl
@[simp] theorem State.setLr_sr (s : State) (c : Nat) (v : Word) : (s.setLr c v).sr = s.sr := rfl
@[simp] theorem State.setLr_fer (s : State) (c : Nat) (v : Word) : (s.setLr c v).fer = s.fer := rfl
@[simp] theorem State.setLr_gpr (s : State) (c : Nat) (v : Word) : (s.setLr c v).gpr = s.gpr := rfl
@[simp] theorem State.setLr_sp (s : State) (c : Nat) (v : Word) : (s.setLr c v).sp = s.sp := rfl
@[simp] theorem State.setLr_ub (s : State) (c : Nat) (v : Word) : (s.setLr c v).ub = s.ub := rfl
@[simp] theorem State.setLr_bcr (s : State) (c : Nat) (v : Word) : (s.setLr c v).bcr = s.bcr := rfl
@[simp] theorem State.setLr_tpr (s : State) (c : Nat) (v : Word) : (s.setLr c v).tpr = s.tpr := rfl
@[simp] theorem State.setLr_tcr (s : State) (c : Nat) (v : Word) : (s.setLr c v).tcr = s.tcr := rfl
@[simp] theorem State.setLr_tr (s : State) (c : Nat) (v : Word) : (s.setLr c v).tr = s.tr := rfl
@[simp] theorem State.setLr_wcr (s : State) (c : Nat) (v : Word) : (s.setLr c v).wcr = s.wcr := rfl
@[simp] theorem State.setLr_wcrUpperOpen (s : State) (c : Nat) (v : Word) : (s.setLr c v).wcrUpperOpen = s.wcrUpperOpen := rfl
@[simp] theorem State.setLr_equalFlag (s : State) (c : Nat) (v : Word) : (s.setLr c v).equalFlag = s.equalFlag := rfl
@[simp] theorem State.setLr_eventFlag (s : State) (c : Nat) (v : Word) : (s.setLr c v).eventFlag = s.eventFlag := rfl
@[simp] theorem State.setLr_fcr (s : State) (c : Nat) (v : Word) : (s.setLr c v).fcr = s.fcr := rfl
@[simp] theorem State.setLr_mcr (s : State) (c : Nat) (v : Word) : (s.setLr c v).mcr = s.mcr := rfl
@[simp] theorem State.setLr_mem (s : State) (c : Nat) (v : Word) : (s.setLr c v).mem = s.mem := rfl
@[simp] theorem State.setLr_iramKept (s : State) (c : Nat) (v : Word) : (s.setLr c v).iramKept = s.iramKept := rfl
@[simp] theorem State.setLr_iramRelied (s : State) (c : Nat) (v : Word) : (s.setLr c v).iramRelied = s.iramRelied := rfl
@[simp] theorem State.setLr_stale (s : State) (c : Nat) (v : Word) : (s.setLr c v).stale = s.stale := rfl
@[simp] theorem State.setLr_lookBack (s : State) (c : Nat) (v : Word) : (s.setLr c v).lookBack = s.lookBack := rfl
@[simp] theorem State.setLr_lookAhead (s : State) (c : Nat) (v : Word) : (s.setLr c v).lookAhead = s.lookAhead := rfl
@[simp] theorem State.setLr_busLock (s : State) (c : Nat) (v : Word) : (s.setLr c v).busLock = s.busLock := rfl
@[simp] theorem State.setLr_delayPending (s : State) (c : Nat) (v : Word) : (s.setLr c v).delayPending = s.delayPending := rfl
@[simp] theorem State.setLr_delayAddr (s : State) (c : Nat) (v : Word) : (s.setLr c v).delayAddr = s.delayAddr := rfl
@[simp] theorem State.setLr_slotAhead (s : State) (c : Nat) (v : Word) : (s.setLr c v).slotAhead = s.slotAhead := rfl
@[simp] theorem State.setLr_afterDelayedBranch (s : State) (c : Nat) (v : Word) : (s.setLr c v).afterDelayedBranch = s.afterDelayedBranch := rfl
@[simp] theorem State.setLr_callLockout (s : State) (c : Nat) (v : Word) : (s.setLr c v).callLockout = s.callLockout := rfl
@[simp] theorem State.setLr_extOvfPending (s : State) (c : Nat) (v : Word) : (s.setLr c v).extOvfPending = s.extOvfPending := rfl
@[simp] theorem State.setLr_parityPending (s : State) (c : Nat) (v : Word) : (s.setLr c v).parityPending = s.parityPending := rfl
@[simp] theorem State.setLr_prescaler (s : State) (c : Nat) (v : Word) : (s.setLr c v).prescaler = s.prescaler := rfl
@[simp] theorem State.setLr_io3Toggle (s : State) (c : Nat) (v : Word) : (s.setLr c v).io3Toggle = s.io3Toggle := rfl
@[simp] theorem State.setLr_powerDown (s : State) (c : Nat) (v : Word) : (s.setLr c v).powerDown = s.powerDown := rfl
@[simp] theorem State.setLr_resetRequest (s : State) (c : Nat) (v : Word) : (s.setLr c v).resetRequest = s.resetRequest := rfl
@[simp] theorem State.setLr_pins (s : State) (c : Nat) (v : Word) : (s.setLr c v).pins = s.pins := rfl
@[simp] theorem State.setLr_pinsDriven (s : State) (c : Nat) (v : Word) : (s.setLr c v).pinsDriven = s.pinsDriven := rfl
@[simp] theorem State.setLr_platform (s : State) (c : Nat) (v : Word) : (s.setLr c v).platform = s.platform := rfl
@[simp] theorem State.setLr_inputs (s : State) (c : Nat) (v : Word) : (s.setLr c v).inputs = s.inputs := rfl
@[simp] theorem State.setLr_between (s : State) (c : Nat) (v : Word) : (s.setLr c v).between = s.between := rfl
@[simp] theorem State.setLr_ioTrace (s : State) (c : Nat) (v : Word) : (s.setLr c v).ioTrace = s.ioTrace := rfl
@[simp] theorem State.setLr_fresh (s : State) (c : Nat) (v : Word) : (s.setLr c v).fresh = s.fresh := rfl

/-! ### A result placed (R24, R25, R60) -/

/-- The fields it leaves alone, at once. -/
theorem State.put_frame (s : State) (p : Place) (v : Word) :
    s.put p v = { s with pc := (s.put p v).pc, sr := (s.put p v).sr, fer := (s.put p v).fer, gpr := (s.put p v).gpr, locals := (s.put p v).locals } := by
  cases p <;> rfl
@[simp] theorem State.put_sp (s : State) (p : Place) (v : Word) : (s.put p v).sp = s.sp := (congrArg State.sp (State.put_frame s p v) :)
@[simp] theorem State.put_ub (s : State) (p : Place) (v : Word) : (s.put p v).ub = s.ub := (congrArg State.ub (State.put_frame s p v) :)
@[simp] theorem State.put_bcr (s : State) (p : Place) (v : Word) : (s.put p v).bcr = s.bcr := (congrArg State.bcr (State.put_frame s p v) :)
@[simp] theorem State.put_tpr (s : State) (p : Place) (v : Word) : (s.put p v).tpr = s.tpr := (congrArg State.tpr (State.put_frame s p v) :)
@[simp] theorem State.put_tcr (s : State) (p : Place) (v : Word) : (s.put p v).tcr = s.tcr := (congrArg State.tcr (State.put_frame s p v) :)
@[simp] theorem State.put_tr (s : State) (p : Place) (v : Word) : (s.put p v).tr = s.tr := (congrArg State.tr (State.put_frame s p v) :)
@[simp] theorem State.put_wcr (s : State) (p : Place) (v : Word) : (s.put p v).wcr = s.wcr := (congrArg State.wcr (State.put_frame s p v) :)
@[simp] theorem State.put_wcrUpperOpen (s : State) (p : Place) (v : Word) : (s.put p v).wcrUpperOpen = s.wcrUpperOpen := (congrArg State.wcrUpperOpen (State.put_frame s p v) :)
@[simp] theorem State.put_equalFlag (s : State) (p : Place) (v : Word) : (s.put p v).equalFlag = s.equalFlag := (congrArg State.equalFlag (State.put_frame s p v) :)
@[simp] theorem State.put_eventFlag (s : State) (p : Place) (v : Word) : (s.put p v).eventFlag = s.eventFlag := (congrArg State.eventFlag (State.put_frame s p v) :)
@[simp] theorem State.put_fcr (s : State) (p : Place) (v : Word) : (s.put p v).fcr = s.fcr := (congrArg State.fcr (State.put_frame s p v) :)
@[simp] theorem State.put_mcr (s : State) (p : Place) (v : Word) : (s.put p v).mcr = s.mcr := (congrArg State.mcr (State.put_frame s p v) :)
@[simp] theorem State.put_mem (s : State) (p : Place) (v : Word) : (s.put p v).mem = s.mem := (congrArg State.mem (State.put_frame s p v) :)
@[simp] theorem State.put_iramKept (s : State) (p : Place) (v : Word) : (s.put p v).iramKept = s.iramKept := (congrArg State.iramKept (State.put_frame s p v) :)
@[simp] theorem State.put_iramRelied (s : State) (p : Place) (v : Word) : (s.put p v).iramRelied = s.iramRelied := (congrArg State.iramRelied (State.put_frame s p v) :)
@[simp] theorem State.put_stale (s : State) (p : Place) (v : Word) : (s.put p v).stale = s.stale := (congrArg State.stale (State.put_frame s p v) :)
@[simp] theorem State.put_lookBack (s : State) (p : Place) (v : Word) : (s.put p v).lookBack = s.lookBack := (congrArg State.lookBack (State.put_frame s p v) :)
@[simp] theorem State.put_lookAhead (s : State) (p : Place) (v : Word) : (s.put p v).lookAhead = s.lookAhead := (congrArg State.lookAhead (State.put_frame s p v) :)
@[simp] theorem State.put_busLock (s : State) (p : Place) (v : Word) : (s.put p v).busLock = s.busLock := (congrArg State.busLock (State.put_frame s p v) :)
@[simp] theorem State.put_delayPending (s : State) (p : Place) (v : Word) : (s.put p v).delayPending = s.delayPending := (congrArg State.delayPending (State.put_frame s p v) :)
@[simp] theorem State.put_delayAddr (s : State) (p : Place) (v : Word) : (s.put p v).delayAddr = s.delayAddr := (congrArg State.delayAddr (State.put_frame s p v) :)
@[simp] theorem State.put_slotAhead (s : State) (p : Place) (v : Word) : (s.put p v).slotAhead = s.slotAhead := (congrArg State.slotAhead (State.put_frame s p v) :)
@[simp] theorem State.put_afterDelayedBranch (s : State) (p : Place) (v : Word) : (s.put p v).afterDelayedBranch = s.afterDelayedBranch := (congrArg State.afterDelayedBranch (State.put_frame s p v) :)
@[simp] theorem State.put_callLockout (s : State) (p : Place) (v : Word) : (s.put p v).callLockout = s.callLockout := (congrArg State.callLockout (State.put_frame s p v) :)
@[simp] theorem State.put_extOvfPending (s : State) (p : Place) (v : Word) : (s.put p v).extOvfPending = s.extOvfPending := (congrArg State.extOvfPending (State.put_frame s p v) :)
@[simp] theorem State.put_parityPending (s : State) (p : Place) (v : Word) : (s.put p v).parityPending = s.parityPending := (congrArg State.parityPending (State.put_frame s p v) :)
@[simp] theorem State.put_prescaler (s : State) (p : Place) (v : Word) : (s.put p v).prescaler = s.prescaler := (congrArg State.prescaler (State.put_frame s p v) :)
@[simp] theorem State.put_io3Toggle (s : State) (p : Place) (v : Word) : (s.put p v).io3Toggle = s.io3Toggle := (congrArg State.io3Toggle (State.put_frame s p v) :)
@[simp] theorem State.put_powerDown (s : State) (p : Place) (v : Word) : (s.put p v).powerDown = s.powerDown := (congrArg State.powerDown (State.put_frame s p v) :)
@[simp] theorem State.put_resetRequest (s : State) (p : Place) (v : Word) : (s.put p v).resetRequest = s.resetRequest := (congrArg State.resetRequest (State.put_frame s p v) :)
@[simp] theorem State.put_pins (s : State) (p : Place) (v : Word) : (s.put p v).pins = s.pins := (congrArg State.pins (State.put_frame s p v) :)
@[simp] theorem State.put_pinsDriven (s : State) (p : Place) (v : Word) : (s.put p v).pinsDriven = s.pinsDriven := (congrArg State.pinsDriven (State.put_frame s p v) :)
@[simp] theorem State.put_platform (s : State) (p : Place) (v : Word) : (s.put p v).platform = s.platform := (congrArg State.platform (State.put_frame s p v) :)
@[simp] theorem State.put_inputs (s : State) (p : Place) (v : Word) : (s.put p v).inputs = s.inputs := (congrArg State.inputs (State.put_frame s p v) :)
@[simp] theorem State.put_between (s : State) (p : Place) (v : Word) : (s.put p v).between = s.between := (congrArg State.between (State.put_frame s p v) :)
@[simp] theorem State.put_ioTrace (s : State) (p : Place) (v : Word) : (s.put p v).ioTrace = s.ioTrace := (congrArg State.ioTrace (State.put_frame s p v) :)
@[simp] theorem State.put_fresh (s : State) (p : Place) (v : Word) : (s.put p v).fresh = s.fresh := (congrArg State.fresh (State.put_frame s p v) :)

/-! ### The condition flags updated -/

@[simp] theorem State.withFlags_pc (s : State) (f : FlagUpdate) : (s.withFlags f).pc = s.pc := rfl
@[simp] theorem State.withFlags_fer (s : State) (f : FlagUpdate) : (s.withFlags f).fer = s.fer := rfl
@[simp] theorem State.withFlags_gpr (s : State) (f : FlagUpdate) : (s.withFlags f).gpr = s.gpr := rfl
@[simp] theorem State.withFlags_sp (s : State) (f : FlagUpdate) : (s.withFlags f).sp = s.sp := rfl
@[simp] theorem State.withFlags_ub (s : State) (f : FlagUpdate) : (s.withFlags f).ub = s.ub := rfl
@[simp] theorem State.withFlags_bcr (s : State) (f : FlagUpdate) : (s.withFlags f).bcr = s.bcr := rfl
@[simp] theorem State.withFlags_tpr (s : State) (f : FlagUpdate) : (s.withFlags f).tpr = s.tpr := rfl
@[simp] theorem State.withFlags_tcr (s : State) (f : FlagUpdate) : (s.withFlags f).tcr = s.tcr := rfl
@[simp] theorem State.withFlags_tr (s : State) (f : FlagUpdate) : (s.withFlags f).tr = s.tr := rfl
@[simp] theorem State.withFlags_wcr (s : State) (f : FlagUpdate) : (s.withFlags f).wcr = s.wcr := rfl
@[simp] theorem State.withFlags_wcrUpperOpen (s : State) (f : FlagUpdate) : (s.withFlags f).wcrUpperOpen = s.wcrUpperOpen := rfl
@[simp] theorem State.withFlags_equalFlag (s : State) (f : FlagUpdate) : (s.withFlags f).equalFlag = s.equalFlag := rfl
@[simp] theorem State.withFlags_eventFlag (s : State) (f : FlagUpdate) : (s.withFlags f).eventFlag = s.eventFlag := rfl
@[simp] theorem State.withFlags_fcr (s : State) (f : FlagUpdate) : (s.withFlags f).fcr = s.fcr := rfl
@[simp] theorem State.withFlags_mcr (s : State) (f : FlagUpdate) : (s.withFlags f).mcr = s.mcr := rfl
@[simp] theorem State.withFlags_locals (s : State) (f : FlagUpdate) : (s.withFlags f).locals = s.locals := rfl
@[simp] theorem State.withFlags_mem (s : State) (f : FlagUpdate) : (s.withFlags f).mem = s.mem := rfl
@[simp] theorem State.withFlags_iramKept (s : State) (f : FlagUpdate) : (s.withFlags f).iramKept = s.iramKept := rfl
@[simp] theorem State.withFlags_iramRelied (s : State) (f : FlagUpdate) : (s.withFlags f).iramRelied = s.iramRelied := rfl
@[simp] theorem State.withFlags_stale (s : State) (f : FlagUpdate) : (s.withFlags f).stale = s.stale := rfl
@[simp] theorem State.withFlags_lookBack (s : State) (f : FlagUpdate) : (s.withFlags f).lookBack = s.lookBack := rfl
@[simp] theorem State.withFlags_lookAhead (s : State) (f : FlagUpdate) : (s.withFlags f).lookAhead = s.lookAhead := rfl
@[simp] theorem State.withFlags_busLock (s : State) (f : FlagUpdate) : (s.withFlags f).busLock = s.busLock := rfl
@[simp] theorem State.withFlags_delayPending (s : State) (f : FlagUpdate) : (s.withFlags f).delayPending = s.delayPending := rfl
@[simp] theorem State.withFlags_delayAddr (s : State) (f : FlagUpdate) : (s.withFlags f).delayAddr = s.delayAddr := rfl
@[simp] theorem State.withFlags_slotAhead (s : State) (f : FlagUpdate) : (s.withFlags f).slotAhead = s.slotAhead := rfl
@[simp] theorem State.withFlags_afterDelayedBranch (s : State) (f : FlagUpdate) : (s.withFlags f).afterDelayedBranch = s.afterDelayedBranch := rfl
@[simp] theorem State.withFlags_callLockout (s : State) (f : FlagUpdate) : (s.withFlags f).callLockout = s.callLockout := rfl
@[simp] theorem State.withFlags_extOvfPending (s : State) (f : FlagUpdate) : (s.withFlags f).extOvfPending = s.extOvfPending := rfl
@[simp] theorem State.withFlags_parityPending (s : State) (f : FlagUpdate) : (s.withFlags f).parityPending = s.parityPending := rfl
@[simp] theorem State.withFlags_prescaler (s : State) (f : FlagUpdate) : (s.withFlags f).prescaler = s.prescaler := rfl
@[simp] theorem State.withFlags_io3Toggle (s : State) (f : FlagUpdate) : (s.withFlags f).io3Toggle = s.io3Toggle := rfl
@[simp] theorem State.withFlags_powerDown (s : State) (f : FlagUpdate) : (s.withFlags f).powerDown = s.powerDown := rfl
@[simp] theorem State.withFlags_resetRequest (s : State) (f : FlagUpdate) : (s.withFlags f).resetRequest = s.resetRequest := rfl
@[simp] theorem State.withFlags_pins (s : State) (f : FlagUpdate) : (s.withFlags f).pins = s.pins := rfl
@[simp] theorem State.withFlags_pinsDriven (s : State) (f : FlagUpdate) : (s.withFlags f).pinsDriven = s.pinsDriven := rfl
@[simp] theorem State.withFlags_platform (s : State) (f : FlagUpdate) : (s.withFlags f).platform = s.platform := rfl
@[simp] theorem State.withFlags_inputs (s : State) (f : FlagUpdate) : (s.withFlags f).inputs = s.inputs := rfl
@[simp] theorem State.withFlags_between (s : State) (f : FlagUpdate) : (s.withFlags f).between = s.between := rfl
@[simp] theorem State.withFlags_ioTrace (s : State) (f : FlagUpdate) : (s.withFlags f).ioTrace = s.ioTrace := rfl
@[simp] theorem State.withFlags_fresh (s : State) (f : FlagUpdate) : (s.withFlags f).fresh = s.fresh := rfl

@[simp] theorem State.withFlags_sr (s : State) (f : FlagUpdate) : (s.withFlags f).sr = applyFlags f s.sr := rfl
/-! ### The start of an instruction (R33, R532) -/

@[simp] theorem State.opened_pc (s : State) : (s.opened).pc = s.pc := rfl
@[simp] theorem State.opened_fer (s : State) : (s.opened).fer = s.fer := rfl
@[simp] theorem State.opened_gpr (s : State) : (s.opened).gpr = s.gpr := rfl
@[simp] theorem State.opened_sp (s : State) : (s.opened).sp = s.sp := rfl
@[simp] theorem State.opened_ub (s : State) : (s.opened).ub = s.ub := rfl
@[simp] theorem State.opened_bcr (s : State) : (s.opened).bcr = s.bcr := rfl
@[simp] theorem State.opened_tpr (s : State) : (s.opened).tpr = s.tpr := rfl
@[simp] theorem State.opened_tcr (s : State) : (s.opened).tcr = s.tcr := rfl
@[simp] theorem State.opened_tr (s : State) : (s.opened).tr = s.tr := rfl
@[simp] theorem State.opened_wcr (s : State) : (s.opened).wcr = s.wcr := rfl
@[simp] theorem State.opened_wcrUpperOpen (s : State) : (s.opened).wcrUpperOpen = s.wcrUpperOpen := rfl
@[simp] theorem State.opened_equalFlag (s : State) : (s.opened).equalFlag = s.equalFlag := rfl
@[simp] theorem State.opened_eventFlag (s : State) : (s.opened).eventFlag = s.eventFlag := rfl
@[simp] theorem State.opened_fcr (s : State) : (s.opened).fcr = s.fcr := rfl
@[simp] theorem State.opened_mcr (s : State) : (s.opened).mcr = s.mcr := rfl
@[simp] theorem State.opened_locals (s : State) : (s.opened).locals = s.locals := rfl
@[simp] theorem State.opened_mem (s : State) : (s.opened).mem = s.mem := rfl
@[simp] theorem State.opened_iramKept (s : State) : (s.opened).iramKept = s.iramKept := rfl
@[simp] theorem State.opened_iramRelied (s : State) : (s.opened).iramRelied = s.iramRelied := rfl
@[simp] theorem State.opened_stale (s : State) : (s.opened).stale = s.stale := rfl
@[simp] theorem State.opened_lookBack (s : State) : (s.opened).lookBack = s.lookBack := rfl
@[simp] theorem State.opened_lookAhead (s : State) : (s.opened).lookAhead = s.lookAhead := rfl
@[simp] theorem State.opened_busLock (s : State) : (s.opened).busLock = s.busLock := rfl
@[simp] theorem State.opened_delayPending (s : State) : (s.opened).delayPending = s.delayPending := rfl
@[simp] theorem State.opened_delayAddr (s : State) : (s.opened).delayAddr = s.delayAddr := rfl
@[simp] theorem State.opened_slotAhead (s : State) : (s.opened).slotAhead = s.slotAhead := rfl
@[simp] theorem State.opened_extOvfPending (s : State) : (s.opened).extOvfPending = s.extOvfPending := rfl
@[simp] theorem State.opened_parityPending (s : State) : (s.opened).parityPending = s.parityPending := rfl
@[simp] theorem State.opened_prescaler (s : State) : (s.opened).prescaler = s.prescaler := rfl
@[simp] theorem State.opened_io3Toggle (s : State) : (s.opened).io3Toggle = s.io3Toggle := rfl
@[simp] theorem State.opened_powerDown (s : State) : (s.opened).powerDown = s.powerDown := rfl
@[simp] theorem State.opened_resetRequest (s : State) : (s.opened).resetRequest = s.resetRequest := rfl
@[simp] theorem State.opened_pins (s : State) : (s.opened).pins = s.pins := rfl
@[simp] theorem State.opened_pinsDriven (s : State) : (s.opened).pinsDriven = s.pinsDriven := rfl
@[simp] theorem State.opened_platform (s : State) : (s.opened).platform = s.platform := rfl
@[simp] theorem State.opened_inputs (s : State) : (s.opened).inputs = s.inputs := rfl
@[simp] theorem State.opened_between (s : State) : (s.opened).between = s.between := rfl
@[simp] theorem State.opened_ioTrace (s : State) : (s.opened).ioTrace = s.ioTrace := rfl
@[simp] theorem State.opened_fresh (s : State) : (s.opened).fresh = s.fresh := rfl

@[simp] theorem State.opened_sr (s : State) : (s.opened).sr = setH s.sr false := rfl
@[simp] theorem State.opened_callLockout (s : State) : (s.opened).callLockout = false := rfl
@[simp] theorem State.opened_afterDelayedBranch (s : State) : (s.opened).afterDelayedBranch = false := rfl
/-! ### The next draw of free values -/

@[simp] theorem State.bump_pc (s : State) : (s.bump).pc = s.pc := rfl
@[simp] theorem State.bump_sr (s : State) : (s.bump).sr = s.sr := rfl
@[simp] theorem State.bump_fer (s : State) : (s.bump).fer = s.fer := rfl
@[simp] theorem State.bump_gpr (s : State) : (s.bump).gpr = s.gpr := rfl
@[simp] theorem State.bump_sp (s : State) : (s.bump).sp = s.sp := rfl
@[simp] theorem State.bump_ub (s : State) : (s.bump).ub = s.ub := rfl
@[simp] theorem State.bump_bcr (s : State) : (s.bump).bcr = s.bcr := rfl
@[simp] theorem State.bump_tpr (s : State) : (s.bump).tpr = s.tpr := rfl
@[simp] theorem State.bump_tcr (s : State) : (s.bump).tcr = s.tcr := rfl
@[simp] theorem State.bump_tr (s : State) : (s.bump).tr = s.tr := rfl
@[simp] theorem State.bump_wcr (s : State) : (s.bump).wcr = s.wcr := rfl
@[simp] theorem State.bump_wcrUpperOpen (s : State) : (s.bump).wcrUpperOpen = s.wcrUpperOpen := rfl
@[simp] theorem State.bump_equalFlag (s : State) : (s.bump).equalFlag = s.equalFlag := rfl
@[simp] theorem State.bump_eventFlag (s : State) : (s.bump).eventFlag = s.eventFlag := rfl
@[simp] theorem State.bump_fcr (s : State) : (s.bump).fcr = s.fcr := rfl
@[simp] theorem State.bump_mcr (s : State) : (s.bump).mcr = s.mcr := rfl
@[simp] theorem State.bump_locals (s : State) : (s.bump).locals = s.locals := rfl
@[simp] theorem State.bump_mem (s : State) : (s.bump).mem = s.mem := rfl
@[simp] theorem State.bump_iramKept (s : State) : (s.bump).iramKept = s.iramKept := rfl
@[simp] theorem State.bump_iramRelied (s : State) : (s.bump).iramRelied = s.iramRelied := rfl
@[simp] theorem State.bump_stale (s : State) : (s.bump).stale = s.stale := rfl
@[simp] theorem State.bump_lookBack (s : State) : (s.bump).lookBack = s.lookBack := rfl
@[simp] theorem State.bump_lookAhead (s : State) : (s.bump).lookAhead = s.lookAhead := rfl
@[simp] theorem State.bump_busLock (s : State) : (s.bump).busLock = s.busLock := rfl
@[simp] theorem State.bump_delayPending (s : State) : (s.bump).delayPending = s.delayPending := rfl
@[simp] theorem State.bump_delayAddr (s : State) : (s.bump).delayAddr = s.delayAddr := rfl
@[simp] theorem State.bump_slotAhead (s : State) : (s.bump).slotAhead = s.slotAhead := rfl
@[simp] theorem State.bump_afterDelayedBranch (s : State) : (s.bump).afterDelayedBranch = s.afterDelayedBranch := rfl
@[simp] theorem State.bump_callLockout (s : State) : (s.bump).callLockout = s.callLockout := rfl
@[simp] theorem State.bump_extOvfPending (s : State) : (s.bump).extOvfPending = s.extOvfPending := rfl
@[simp] theorem State.bump_parityPending (s : State) : (s.bump).parityPending = s.parityPending := rfl
@[simp] theorem State.bump_prescaler (s : State) : (s.bump).prescaler = s.prescaler := rfl
@[simp] theorem State.bump_io3Toggle (s : State) : (s.bump).io3Toggle = s.io3Toggle := rfl
@[simp] theorem State.bump_powerDown (s : State) : (s.bump).powerDown = s.powerDown := rfl
@[simp] theorem State.bump_resetRequest (s : State) : (s.bump).resetRequest = s.resetRequest := rfl
@[simp] theorem State.bump_pins (s : State) : (s.bump).pins = s.pins := rfl
@[simp] theorem State.bump_pinsDriven (s : State) : (s.bump).pinsDriven = s.pinsDriven := rfl
@[simp] theorem State.bump_platform (s : State) : (s.bump).platform = s.platform := rfl
@[simp] theorem State.bump_inputs (s : State) : (s.bump).inputs = s.inputs := rfl
@[simp] theorem State.bump_between (s : State) : (s.bump).between = s.between := rfl
@[simp] theorem State.bump_ioTrace (s : State) : (s.bump).ioTrace = s.ioTrace := rfl

@[simp] theorem State.bump_fresh (s : State) : (s.bump).fresh = s.fresh + 1 := rfl
/-! ### The end of an instruction that is no branch taken (R22, R41) -/

/-- The fields it leaves alone, at once. -/
theorem State.settle_frame (s : State) (len : Nat) :
    s.settle len = { s with pc := (s.settle len).pc, sr := (s.settle len).sr, delayPending := (s.settle len).delayPending } := by
  unfold State.settle
  split <;> rfl
@[simp] theorem State.settle_fer (s : State) (len : Nat) : (s.settle len).fer = s.fer := (congrArg State.fer (State.settle_frame s len) :)
@[simp] theorem State.settle_gpr (s : State) (len : Nat) : (s.settle len).gpr = s.gpr := (congrArg State.gpr (State.settle_frame s len) :)
@[simp] theorem State.settle_sp (s : State) (len : Nat) : (s.settle len).sp = s.sp := (congrArg State.sp (State.settle_frame s len) :)
@[simp] theorem State.settle_ub (s : State) (len : Nat) : (s.settle len).ub = s.ub := (congrArg State.ub (State.settle_frame s len) :)
@[simp] theorem State.settle_bcr (s : State) (len : Nat) : (s.settle len).bcr = s.bcr := (congrArg State.bcr (State.settle_frame s len) :)
@[simp] theorem State.settle_tpr (s : State) (len : Nat) : (s.settle len).tpr = s.tpr := (congrArg State.tpr (State.settle_frame s len) :)
@[simp] theorem State.settle_tcr (s : State) (len : Nat) : (s.settle len).tcr = s.tcr := (congrArg State.tcr (State.settle_frame s len) :)
@[simp] theorem State.settle_tr (s : State) (len : Nat) : (s.settle len).tr = s.tr := (congrArg State.tr (State.settle_frame s len) :)
@[simp] theorem State.settle_wcr (s : State) (len : Nat) : (s.settle len).wcr = s.wcr := (congrArg State.wcr (State.settle_frame s len) :)
@[simp] theorem State.settle_wcrUpperOpen (s : State) (len : Nat) : (s.settle len).wcrUpperOpen = s.wcrUpperOpen := (congrArg State.wcrUpperOpen (State.settle_frame s len) :)
@[simp] theorem State.settle_equalFlag (s : State) (len : Nat) : (s.settle len).equalFlag = s.equalFlag := (congrArg State.equalFlag (State.settle_frame s len) :)
@[simp] theorem State.settle_eventFlag (s : State) (len : Nat) : (s.settle len).eventFlag = s.eventFlag := (congrArg State.eventFlag (State.settle_frame s len) :)
@[simp] theorem State.settle_fcr (s : State) (len : Nat) : (s.settle len).fcr = s.fcr := (congrArg State.fcr (State.settle_frame s len) :)
@[simp] theorem State.settle_mcr (s : State) (len : Nat) : (s.settle len).mcr = s.mcr := (congrArg State.mcr (State.settle_frame s len) :)
@[simp] theorem State.settle_locals (s : State) (len : Nat) : (s.settle len).locals = s.locals := (congrArg State.locals (State.settle_frame s len) :)
@[simp] theorem State.settle_mem (s : State) (len : Nat) : (s.settle len).mem = s.mem := (congrArg State.mem (State.settle_frame s len) :)
@[simp] theorem State.settle_iramKept (s : State) (len : Nat) : (s.settle len).iramKept = s.iramKept := (congrArg State.iramKept (State.settle_frame s len) :)
@[simp] theorem State.settle_iramRelied (s : State) (len : Nat) : (s.settle len).iramRelied = s.iramRelied := (congrArg State.iramRelied (State.settle_frame s len) :)
@[simp] theorem State.settle_stale (s : State) (len : Nat) : (s.settle len).stale = s.stale := (congrArg State.stale (State.settle_frame s len) :)
@[simp] theorem State.settle_lookBack (s : State) (len : Nat) : (s.settle len).lookBack = s.lookBack := (congrArg State.lookBack (State.settle_frame s len) :)
@[simp] theorem State.settle_lookAhead (s : State) (len : Nat) : (s.settle len).lookAhead = s.lookAhead := (congrArg State.lookAhead (State.settle_frame s len) :)
@[simp] theorem State.settle_busLock (s : State) (len : Nat) : (s.settle len).busLock = s.busLock := (congrArg State.busLock (State.settle_frame s len) :)
@[simp] theorem State.settle_delayAddr (s : State) (len : Nat) : (s.settle len).delayAddr = s.delayAddr := (congrArg State.delayAddr (State.settle_frame s len) :)
@[simp] theorem State.settle_slotAhead (s : State) (len : Nat) : (s.settle len).slotAhead = s.slotAhead := (congrArg State.slotAhead (State.settle_frame s len) :)
@[simp] theorem State.settle_afterDelayedBranch (s : State) (len : Nat) : (s.settle len).afterDelayedBranch = s.afterDelayedBranch := (congrArg State.afterDelayedBranch (State.settle_frame s len) :)
@[simp] theorem State.settle_callLockout (s : State) (len : Nat) : (s.settle len).callLockout = s.callLockout := (congrArg State.callLockout (State.settle_frame s len) :)
@[simp] theorem State.settle_extOvfPending (s : State) (len : Nat) : (s.settle len).extOvfPending = s.extOvfPending := (congrArg State.extOvfPending (State.settle_frame s len) :)
@[simp] theorem State.settle_parityPending (s : State) (len : Nat) : (s.settle len).parityPending = s.parityPending := (congrArg State.parityPending (State.settle_frame s len) :)
@[simp] theorem State.settle_prescaler (s : State) (len : Nat) : (s.settle len).prescaler = s.prescaler := (congrArg State.prescaler (State.settle_frame s len) :)
@[simp] theorem State.settle_io3Toggle (s : State) (len : Nat) : (s.settle len).io3Toggle = s.io3Toggle := (congrArg State.io3Toggle (State.settle_frame s len) :)
@[simp] theorem State.settle_powerDown (s : State) (len : Nat) : (s.settle len).powerDown = s.powerDown := (congrArg State.powerDown (State.settle_frame s len) :)
@[simp] theorem State.settle_resetRequest (s : State) (len : Nat) : (s.settle len).resetRequest = s.resetRequest := (congrArg State.resetRequest (State.settle_frame s len) :)
@[simp] theorem State.settle_pins (s : State) (len : Nat) : (s.settle len).pins = s.pins := (congrArg State.pins (State.settle_frame s len) :)
@[simp] theorem State.settle_pinsDriven (s : State) (len : Nat) : (s.settle len).pinsDriven = s.pinsDriven := (congrArg State.pinsDriven (State.settle_frame s len) :)
@[simp] theorem State.settle_platform (s : State) (len : Nat) : (s.settle len).platform = s.platform := (congrArg State.platform (State.settle_frame s len) :)
@[simp] theorem State.settle_inputs (s : State) (len : Nat) : (s.settle len).inputs = s.inputs := (congrArg State.inputs (State.settle_frame s len) :)
@[simp] theorem State.settle_between (s : State) (len : Nat) : (s.settle len).between = s.between := (congrArg State.between (State.settle_frame s len) :)
@[simp] theorem State.settle_ioTrace (s : State) (len : Nat) : (s.settle len).ioTrace = s.ioTrace := (congrArg State.ioTrace (State.settle_frame s len) :)
@[simp] theorem State.settle_fresh (s : State) (len : Nat) : (s.settle len).fresh = s.fresh := (congrArg State.fresh (State.settle_frame s len) :)

@[simp] theorem State.settle_delayPending (s : State) (len : Nat) : (s.settle len).delayPending = false := by
  unfold State.settle
  split
  · rfl
  · exact Bool.eq_false_iff.mpr ‹_›
@[simp] theorem State.settle_pc (s : State) (len : Nat) : (s.settle len).pc = s.pcSeen len := by
  unfold State.settle State.pcSeen
  split <;> rfl
/-! ### The state an error exception saves (R533) -/

/-- The fields it leaves alone, at once. -/
theorem State.settleError_frame (s : State) (len : Nat) :
    s.settleError len = { s with pc := (s.settleError len).pc, sr := (s.settleError len).sr, delayPending := (s.settleError len).delayPending } := by
  unfold State.settleError
  split <;> rfl
@[simp] theorem State.settleError_fer (s : State) (len : Nat) : (s.settleError len).fer = s.fer := (congrArg State.fer (State.settleError_frame s len) :)
@[simp] theorem State.settleError_gpr (s : State) (len : Nat) : (s.settleError len).gpr = s.gpr := (congrArg State.gpr (State.settleError_frame s len) :)
@[simp] theorem State.settleError_sp (s : State) (len : Nat) : (s.settleError len).sp = s.sp := (congrArg State.sp (State.settleError_frame s len) :)
@[simp] theorem State.settleError_ub (s : State) (len : Nat) : (s.settleError len).ub = s.ub := (congrArg State.ub (State.settleError_frame s len) :)
@[simp] theorem State.settleError_bcr (s : State) (len : Nat) : (s.settleError len).bcr = s.bcr := (congrArg State.bcr (State.settleError_frame s len) :)
@[simp] theorem State.settleError_tpr (s : State) (len : Nat) : (s.settleError len).tpr = s.tpr := (congrArg State.tpr (State.settleError_frame s len) :)
@[simp] theorem State.settleError_tcr (s : State) (len : Nat) : (s.settleError len).tcr = s.tcr := (congrArg State.tcr (State.settleError_frame s len) :)
@[simp] theorem State.settleError_tr (s : State) (len : Nat) : (s.settleError len).tr = s.tr := (congrArg State.tr (State.settleError_frame s len) :)
@[simp] theorem State.settleError_wcr (s : State) (len : Nat) : (s.settleError len).wcr = s.wcr := (congrArg State.wcr (State.settleError_frame s len) :)
@[simp] theorem State.settleError_wcrUpperOpen (s : State) (len : Nat) : (s.settleError len).wcrUpperOpen = s.wcrUpperOpen := (congrArg State.wcrUpperOpen (State.settleError_frame s len) :)
@[simp] theorem State.settleError_equalFlag (s : State) (len : Nat) : (s.settleError len).equalFlag = s.equalFlag := (congrArg State.equalFlag (State.settleError_frame s len) :)
@[simp] theorem State.settleError_eventFlag (s : State) (len : Nat) : (s.settleError len).eventFlag = s.eventFlag := (congrArg State.eventFlag (State.settleError_frame s len) :)
@[simp] theorem State.settleError_fcr (s : State) (len : Nat) : (s.settleError len).fcr = s.fcr := (congrArg State.fcr (State.settleError_frame s len) :)
@[simp] theorem State.settleError_mcr (s : State) (len : Nat) : (s.settleError len).mcr = s.mcr := (congrArg State.mcr (State.settleError_frame s len) :)
@[simp] theorem State.settleError_locals (s : State) (len : Nat) : (s.settleError len).locals = s.locals := (congrArg State.locals (State.settleError_frame s len) :)
@[simp] theorem State.settleError_mem (s : State) (len : Nat) : (s.settleError len).mem = s.mem := (congrArg State.mem (State.settleError_frame s len) :)
@[simp] theorem State.settleError_iramKept (s : State) (len : Nat) : (s.settleError len).iramKept = s.iramKept := (congrArg State.iramKept (State.settleError_frame s len) :)
@[simp] theorem State.settleError_iramRelied (s : State) (len : Nat) : (s.settleError len).iramRelied = s.iramRelied := (congrArg State.iramRelied (State.settleError_frame s len) :)
@[simp] theorem State.settleError_stale (s : State) (len : Nat) : (s.settleError len).stale = s.stale := (congrArg State.stale (State.settleError_frame s len) :)
@[simp] theorem State.settleError_lookBack (s : State) (len : Nat) : (s.settleError len).lookBack = s.lookBack := (congrArg State.lookBack (State.settleError_frame s len) :)
@[simp] theorem State.settleError_lookAhead (s : State) (len : Nat) : (s.settleError len).lookAhead = s.lookAhead := (congrArg State.lookAhead (State.settleError_frame s len) :)
@[simp] theorem State.settleError_busLock (s : State) (len : Nat) : (s.settleError len).busLock = s.busLock := (congrArg State.busLock (State.settleError_frame s len) :)
@[simp] theorem State.settleError_delayAddr (s : State) (len : Nat) : (s.settleError len).delayAddr = s.delayAddr := (congrArg State.delayAddr (State.settleError_frame s len) :)
@[simp] theorem State.settleError_slotAhead (s : State) (len : Nat) : (s.settleError len).slotAhead = s.slotAhead := (congrArg State.slotAhead (State.settleError_frame s len) :)
@[simp] theorem State.settleError_afterDelayedBranch (s : State) (len : Nat) : (s.settleError len).afterDelayedBranch = s.afterDelayedBranch := (congrArg State.afterDelayedBranch (State.settleError_frame s len) :)
@[simp] theorem State.settleError_callLockout (s : State) (len : Nat) : (s.settleError len).callLockout = s.callLockout := (congrArg State.callLockout (State.settleError_frame s len) :)
@[simp] theorem State.settleError_extOvfPending (s : State) (len : Nat) : (s.settleError len).extOvfPending = s.extOvfPending := (congrArg State.extOvfPending (State.settleError_frame s len) :)
@[simp] theorem State.settleError_parityPending (s : State) (len : Nat) : (s.settleError len).parityPending = s.parityPending := (congrArg State.parityPending (State.settleError_frame s len) :)
@[simp] theorem State.settleError_prescaler (s : State) (len : Nat) : (s.settleError len).prescaler = s.prescaler := (congrArg State.prescaler (State.settleError_frame s len) :)
@[simp] theorem State.settleError_io3Toggle (s : State) (len : Nat) : (s.settleError len).io3Toggle = s.io3Toggle := (congrArg State.io3Toggle (State.settleError_frame s len) :)
@[simp] theorem State.settleError_powerDown (s : State) (len : Nat) : (s.settleError len).powerDown = s.powerDown := (congrArg State.powerDown (State.settleError_frame s len) :)
@[simp] theorem State.settleError_resetRequest (s : State) (len : Nat) : (s.settleError len).resetRequest = s.resetRequest := (congrArg State.resetRequest (State.settleError_frame s len) :)
@[simp] theorem State.settleError_pins (s : State) (len : Nat) : (s.settleError len).pins = s.pins := (congrArg State.pins (State.settleError_frame s len) :)
@[simp] theorem State.settleError_pinsDriven (s : State) (len : Nat) : (s.settleError len).pinsDriven = s.pinsDriven := (congrArg State.pinsDriven (State.settleError_frame s len) :)
@[simp] theorem State.settleError_platform (s : State) (len : Nat) : (s.settleError len).platform = s.platform := (congrArg State.platform (State.settleError_frame s len) :)
@[simp] theorem State.settleError_inputs (s : State) (len : Nat) : (s.settleError len).inputs = s.inputs := (congrArg State.inputs (State.settleError_frame s len) :)
@[simp] theorem State.settleError_between (s : State) (len : Nat) : (s.settleError len).between = s.between := (congrArg State.between (State.settleError_frame s len) :)
@[simp] theorem State.settleError_ioTrace (s : State) (len : Nat) : (s.settleError len).ioTrace = s.ioTrace := (congrArg State.ioTrace (State.settleError_frame s len) :)
@[simp] theorem State.settleError_fresh (s : State) (len : Nat) : (s.settleError len).fresh = s.fresh := (congrArg State.fresh (State.settleError_frame s len) :)

/-! ### An access to external memory or I/O (R165) -/

@[simp] theorem State.noteAccess_pc (s : State) (r : Region) : (s.noteAccess r).pc = s.pc := rfl
@[simp] theorem State.noteAccess_sr (s : State) (r : Region) : (s.noteAccess r).sr = s.sr := rfl
@[simp] theorem State.noteAccess_fer (s : State) (r : Region) : (s.noteAccess r).fer = s.fer := rfl
@[simp] theorem State.noteAccess_gpr (s : State) (r : Region) : (s.noteAccess r).gpr = s.gpr := rfl
@[simp] theorem State.noteAccess_sp (s : State) (r : Region) : (s.noteAccess r).sp = s.sp := rfl
@[simp] theorem State.noteAccess_ub (s : State) (r : Region) : (s.noteAccess r).ub = s.ub := rfl
@[simp] theorem State.noteAccess_bcr (s : State) (r : Region) : (s.noteAccess r).bcr = s.bcr := rfl
@[simp] theorem State.noteAccess_tpr (s : State) (r : Region) : (s.noteAccess r).tpr = s.tpr := rfl
@[simp] theorem State.noteAccess_tcr (s : State) (r : Region) : (s.noteAccess r).tcr = s.tcr := rfl
@[simp] theorem State.noteAccess_tr (s : State) (r : Region) : (s.noteAccess r).tr = s.tr := rfl
@[simp] theorem State.noteAccess_wcr (s : State) (r : Region) : (s.noteAccess r).wcr = s.wcr := rfl
@[simp] theorem State.noteAccess_wcrUpperOpen (s : State) (r : Region) : (s.noteAccess r).wcrUpperOpen = s.wcrUpperOpen := rfl
@[simp] theorem State.noteAccess_equalFlag (s : State) (r : Region) : (s.noteAccess r).equalFlag = s.equalFlag := rfl
@[simp] theorem State.noteAccess_eventFlag (s : State) (r : Region) : (s.noteAccess r).eventFlag = s.eventFlag := rfl
@[simp] theorem State.noteAccess_fcr (s : State) (r : Region) : (s.noteAccess r).fcr = s.fcr := rfl
@[simp] theorem State.noteAccess_mcr (s : State) (r : Region) : (s.noteAccess r).mcr = s.mcr := rfl
@[simp] theorem State.noteAccess_locals (s : State) (r : Region) : (s.noteAccess r).locals = s.locals := rfl
@[simp] theorem State.noteAccess_mem (s : State) (r : Region) : (s.noteAccess r).mem = s.mem := rfl
@[simp] theorem State.noteAccess_iramKept (s : State) (r : Region) : (s.noteAccess r).iramKept = s.iramKept := rfl
@[simp] theorem State.noteAccess_iramRelied (s : State) (r : Region) : (s.noteAccess r).iramRelied = s.iramRelied := rfl
@[simp] theorem State.noteAccess_stale (s : State) (r : Region) : (s.noteAccess r).stale = s.stale := rfl
@[simp] theorem State.noteAccess_lookBack (s : State) (r : Region) : (s.noteAccess r).lookBack = s.lookBack := rfl
@[simp] theorem State.noteAccess_lookAhead (s : State) (r : Region) : (s.noteAccess r).lookAhead = s.lookAhead := rfl
@[simp] theorem State.noteAccess_delayPending (s : State) (r : Region) : (s.noteAccess r).delayPending = s.delayPending := rfl
@[simp] theorem State.noteAccess_delayAddr (s : State) (r : Region) : (s.noteAccess r).delayAddr = s.delayAddr := rfl
@[simp] theorem State.noteAccess_slotAhead (s : State) (r : Region) : (s.noteAccess r).slotAhead = s.slotAhead := rfl
@[simp] theorem State.noteAccess_afterDelayedBranch (s : State) (r : Region) : (s.noteAccess r).afterDelayedBranch = s.afterDelayedBranch := rfl
@[simp] theorem State.noteAccess_callLockout (s : State) (r : Region) : (s.noteAccess r).callLockout = s.callLockout := rfl
@[simp] theorem State.noteAccess_extOvfPending (s : State) (r : Region) : (s.noteAccess r).extOvfPending = s.extOvfPending := rfl
@[simp] theorem State.noteAccess_parityPending (s : State) (r : Region) : (s.noteAccess r).parityPending = s.parityPending := rfl
@[simp] theorem State.noteAccess_prescaler (s : State) (r : Region) : (s.noteAccess r).prescaler = s.prescaler := rfl
@[simp] theorem State.noteAccess_io3Toggle (s : State) (r : Region) : (s.noteAccess r).io3Toggle = s.io3Toggle := rfl
@[simp] theorem State.noteAccess_powerDown (s : State) (r : Region) : (s.noteAccess r).powerDown = s.powerDown := rfl
@[simp] theorem State.noteAccess_resetRequest (s : State) (r : Region) : (s.noteAccess r).resetRequest = s.resetRequest := rfl
@[simp] theorem State.noteAccess_pins (s : State) (r : Region) : (s.noteAccess r).pins = s.pins := rfl
@[simp] theorem State.noteAccess_pinsDriven (s : State) (r : Region) : (s.noteAccess r).pinsDriven = s.pinsDriven := rfl
@[simp] theorem State.noteAccess_platform (s : State) (r : Region) : (s.noteAccess r).platform = s.platform := rfl
@[simp] theorem State.noteAccess_inputs (s : State) (r : Region) : (s.noteAccess r).inputs = s.inputs := rfl
@[simp] theorem State.noteAccess_between (s : State) (r : Region) : (s.noteAccess r).between = s.between := rfl
@[simp] theorem State.noteAccess_ioTrace (s : State) (r : Region) : (s.noteAccess r).ioTrace = s.ioTrace := rfl
@[simp] theorem State.noteAccess_fresh (s : State) (r : Region) : (s.noteAccess r).fresh = s.fresh := rfl

/-! ### A read of memory (R112, R165) -/

@[simp] theorem State.noteRead_pc (s : State) (r : Region) (a : Word) (n : Nat) : (s.noteRead r a n).pc = s.pc := rfl
@[simp] theorem State.noteRead_sr (s : State) (r : Region) (a : Word) (n : Nat) : (s.noteRead r a n).sr = s.sr := rfl
@[simp] theorem State.noteRead_fer (s : State) (r : Region) (a : Word) (n : Nat) : (s.noteRead r a n).fer = s.fer := rfl
@[simp] theorem State.noteRead_gpr (s : State) (r : Region) (a : Word) (n : Nat) : (s.noteRead r a n).gpr = s.gpr := rfl
@[simp] theorem State.noteRead_sp (s : State) (r : Region) (a : Word) (n : Nat) : (s.noteRead r a n).sp = s.sp := rfl
@[simp] theorem State.noteRead_ub (s : State) (r : Region) (a : Word) (n : Nat) : (s.noteRead r a n).ub = s.ub := rfl
@[simp] theorem State.noteRead_bcr (s : State) (r : Region) (a : Word) (n : Nat) : (s.noteRead r a n).bcr = s.bcr := rfl
@[simp] theorem State.noteRead_tpr (s : State) (r : Region) (a : Word) (n : Nat) : (s.noteRead r a n).tpr = s.tpr := rfl
@[simp] theorem State.noteRead_tcr (s : State) (r : Region) (a : Word) (n : Nat) : (s.noteRead r a n).tcr = s.tcr := rfl
@[simp] theorem State.noteRead_tr (s : State) (r : Region) (a : Word) (n : Nat) : (s.noteRead r a n).tr = s.tr := rfl
@[simp] theorem State.noteRead_wcr (s : State) (r : Region) (a : Word) (n : Nat) : (s.noteRead r a n).wcr = s.wcr := rfl
@[simp] theorem State.noteRead_wcrUpperOpen (s : State) (r : Region) (a : Word) (n : Nat) : (s.noteRead r a n).wcrUpperOpen = s.wcrUpperOpen := rfl
@[simp] theorem State.noteRead_equalFlag (s : State) (r : Region) (a : Word) (n : Nat) : (s.noteRead r a n).equalFlag = s.equalFlag := rfl
@[simp] theorem State.noteRead_eventFlag (s : State) (r : Region) (a : Word) (n : Nat) : (s.noteRead r a n).eventFlag = s.eventFlag := rfl
@[simp] theorem State.noteRead_fcr (s : State) (r : Region) (a : Word) (n : Nat) : (s.noteRead r a n).fcr = s.fcr := rfl
@[simp] theorem State.noteRead_mcr (s : State) (r : Region) (a : Word) (n : Nat) : (s.noteRead r a n).mcr = s.mcr := rfl
@[simp] theorem State.noteRead_locals (s : State) (r : Region) (a : Word) (n : Nat) : (s.noteRead r a n).locals = s.locals := rfl
@[simp] theorem State.noteRead_mem (s : State) (r : Region) (a : Word) (n : Nat) : (s.noteRead r a n).mem = s.mem := rfl
@[simp] theorem State.noteRead_iramKept (s : State) (r : Region) (a : Word) (n : Nat) : (s.noteRead r a n).iramKept = s.iramKept := rfl
@[simp] theorem State.noteRead_stale (s : State) (r : Region) (a : Word) (n : Nat) : (s.noteRead r a n).stale = s.stale := rfl
@[simp] theorem State.noteRead_lookBack (s : State) (r : Region) (a : Word) (n : Nat) : (s.noteRead r a n).lookBack = s.lookBack := rfl
@[simp] theorem State.noteRead_lookAhead (s : State) (r : Region) (a : Word) (n : Nat) : (s.noteRead r a n).lookAhead = s.lookAhead := rfl
@[simp] theorem State.noteRead_delayPending (s : State) (r : Region) (a : Word) (n : Nat) : (s.noteRead r a n).delayPending = s.delayPending := rfl
@[simp] theorem State.noteRead_delayAddr (s : State) (r : Region) (a : Word) (n : Nat) : (s.noteRead r a n).delayAddr = s.delayAddr := rfl
@[simp] theorem State.noteRead_slotAhead (s : State) (r : Region) (a : Word) (n : Nat) : (s.noteRead r a n).slotAhead = s.slotAhead := rfl
@[simp] theorem State.noteRead_afterDelayedBranch (s : State) (r : Region) (a : Word) (n : Nat) : (s.noteRead r a n).afterDelayedBranch = s.afterDelayedBranch := rfl
@[simp] theorem State.noteRead_callLockout (s : State) (r : Region) (a : Word) (n : Nat) : (s.noteRead r a n).callLockout = s.callLockout := rfl
@[simp] theorem State.noteRead_extOvfPending (s : State) (r : Region) (a : Word) (n : Nat) : (s.noteRead r a n).extOvfPending = s.extOvfPending := rfl
@[simp] theorem State.noteRead_parityPending (s : State) (r : Region) (a : Word) (n : Nat) : (s.noteRead r a n).parityPending = s.parityPending := rfl
@[simp] theorem State.noteRead_prescaler (s : State) (r : Region) (a : Word) (n : Nat) : (s.noteRead r a n).prescaler = s.prescaler := rfl
@[simp] theorem State.noteRead_io3Toggle (s : State) (r : Region) (a : Word) (n : Nat) : (s.noteRead r a n).io3Toggle = s.io3Toggle := rfl
@[simp] theorem State.noteRead_powerDown (s : State) (r : Region) (a : Word) (n : Nat) : (s.noteRead r a n).powerDown = s.powerDown := rfl
@[simp] theorem State.noteRead_resetRequest (s : State) (r : Region) (a : Word) (n : Nat) : (s.noteRead r a n).resetRequest = s.resetRequest := rfl
@[simp] theorem State.noteRead_pins (s : State) (r : Region) (a : Word) (n : Nat) : (s.noteRead r a n).pins = s.pins := rfl
@[simp] theorem State.noteRead_pinsDriven (s : State) (r : Region) (a : Word) (n : Nat) : (s.noteRead r a n).pinsDriven = s.pinsDriven := rfl
@[simp] theorem State.noteRead_platform (s : State) (r : Region) (a : Word) (n : Nat) : (s.noteRead r a n).platform = s.platform := rfl
@[simp] theorem State.noteRead_inputs (s : State) (r : Region) (a : Word) (n : Nat) : (s.noteRead r a n).inputs = s.inputs := rfl
@[simp] theorem State.noteRead_between (s : State) (r : Region) (a : Word) (n : Nat) : (s.noteRead r a n).between = s.between := rfl
@[simp] theorem State.noteRead_ioTrace (s : State) (r : Region) (a : Word) (n : Nat) : (s.noteRead r a n).ioTrace = s.ioTrace := rfl
@[simp] theorem State.noteRead_fresh (s : State) (r : Region) (a : Word) (n : Nat) : (s.noteRead r a n).fresh = s.fresh := rfl

/-! ### The counters of the cache (R127) -/

@[simp] theorem State.cachedTo_pc (s : State) (top : Word) : (s.cachedTo top).pc = s.pc := rfl
@[simp] theorem State.cachedTo_sr (s : State) (top : Word) : (s.cachedTo top).sr = s.sr := rfl
@[simp] theorem State.cachedTo_fer (s : State) (top : Word) : (s.cachedTo top).fer = s.fer := rfl
@[simp] theorem State.cachedTo_gpr (s : State) (top : Word) : (s.cachedTo top).gpr = s.gpr := rfl
@[simp] theorem State.cachedTo_sp (s : State) (top : Word) : (s.cachedTo top).sp = s.sp := rfl
@[simp] theorem State.cachedTo_ub (s : State) (top : Word) : (s.cachedTo top).ub = s.ub := rfl
@[simp] theorem State.cachedTo_bcr (s : State) (top : Word) : (s.cachedTo top).bcr = s.bcr := rfl
@[simp] theorem State.cachedTo_tpr (s : State) (top : Word) : (s.cachedTo top).tpr = s.tpr := rfl
@[simp] theorem State.cachedTo_tcr (s : State) (top : Word) : (s.cachedTo top).tcr = s.tcr := rfl
@[simp] theorem State.cachedTo_tr (s : State) (top : Word) : (s.cachedTo top).tr = s.tr := rfl
@[simp] theorem State.cachedTo_wcr (s : State) (top : Word) : (s.cachedTo top).wcr = s.wcr := rfl
@[simp] theorem State.cachedTo_wcrUpperOpen (s : State) (top : Word) : (s.cachedTo top).wcrUpperOpen = s.wcrUpperOpen := rfl
@[simp] theorem State.cachedTo_equalFlag (s : State) (top : Word) : (s.cachedTo top).equalFlag = s.equalFlag := rfl
@[simp] theorem State.cachedTo_eventFlag (s : State) (top : Word) : (s.cachedTo top).eventFlag = s.eventFlag := rfl
@[simp] theorem State.cachedTo_fcr (s : State) (top : Word) : (s.cachedTo top).fcr = s.fcr := rfl
@[simp] theorem State.cachedTo_mcr (s : State) (top : Word) : (s.cachedTo top).mcr = s.mcr := rfl
@[simp] theorem State.cachedTo_locals (s : State) (top : Word) : (s.cachedTo top).locals = s.locals := rfl
@[simp] theorem State.cachedTo_mem (s : State) (top : Word) : (s.cachedTo top).mem = s.mem := rfl
@[simp] theorem State.cachedTo_iramKept (s : State) (top : Word) : (s.cachedTo top).iramKept = s.iramKept := rfl
@[simp] theorem State.cachedTo_iramRelied (s : State) (top : Word) : (s.cachedTo top).iramRelied = s.iramRelied := rfl
@[simp] theorem State.cachedTo_stale (s : State) (top : Word) : (s.cachedTo top).stale = s.stale := rfl
@[simp] theorem State.cachedTo_delayPending (s : State) (top : Word) : (s.cachedTo top).delayPending = s.delayPending := rfl
@[simp] theorem State.cachedTo_delayAddr (s : State) (top : Word) : (s.cachedTo top).delayAddr = s.delayAddr := rfl
@[simp] theorem State.cachedTo_slotAhead (s : State) (top : Word) : (s.cachedTo top).slotAhead = s.slotAhead := rfl
@[simp] theorem State.cachedTo_afterDelayedBranch (s : State) (top : Word) : (s.cachedTo top).afterDelayedBranch = s.afterDelayedBranch := rfl
@[simp] theorem State.cachedTo_callLockout (s : State) (top : Word) : (s.cachedTo top).callLockout = s.callLockout := rfl
@[simp] theorem State.cachedTo_extOvfPending (s : State) (top : Word) : (s.cachedTo top).extOvfPending = s.extOvfPending := rfl
@[simp] theorem State.cachedTo_parityPending (s : State) (top : Word) : (s.cachedTo top).parityPending = s.parityPending := rfl
@[simp] theorem State.cachedTo_prescaler (s : State) (top : Word) : (s.cachedTo top).prescaler = s.prescaler := rfl
@[simp] theorem State.cachedTo_io3Toggle (s : State) (top : Word) : (s.cachedTo top).io3Toggle = s.io3Toggle := rfl
@[simp] theorem State.cachedTo_powerDown (s : State) (top : Word) : (s.cachedTo top).powerDown = s.powerDown := rfl
@[simp] theorem State.cachedTo_resetRequest (s : State) (top : Word) : (s.cachedTo top).resetRequest = s.resetRequest := rfl
@[simp] theorem State.cachedTo_pins (s : State) (top : Word) : (s.cachedTo top).pins = s.pins := rfl
@[simp] theorem State.cachedTo_pinsDriven (s : State) (top : Word) : (s.cachedTo top).pinsDriven = s.pinsDriven := rfl
@[simp] theorem State.cachedTo_platform (s : State) (top : Word) : (s.cachedTo top).platform = s.platform := rfl
@[simp] theorem State.cachedTo_inputs (s : State) (top : Word) : (s.cachedTo top).inputs = s.inputs := rfl
@[simp] theorem State.cachedTo_between (s : State) (top : Word) : (s.cachedTo top).between = s.between := rfl
@[simp] theorem State.cachedTo_ioTrace (s : State) (top : Word) : (s.cachedTo top).ioTrace = s.ioTrace := rfl
@[simp] theorem State.cachedTo_fresh (s : State) (top : Word) : (s.cachedTo top).fresh = s.fresh := rfl

@[simp] theorem State.cachedTo_lookAhead (s : State) (top : Word) : (s.cachedTo top).lookAhead = top := rfl
@[simp] theorem State.cachedTo_lookBack (s : State) (top : Word) : (s.cachedTo top).lookBack = if 124 < (top - s.lookBack).toNat then top - 124#32 else s.lookBack := rfl
@[simp] theorem State.cachedTo_busLock (s : State) (top : Word) : (s.cachedTo top).busLock = s.fetchLock s.lookAhead top := rfl
/-! ### The prefetch (R128) -/

@[simp] theorem State.prefetchTo_pc (s : State) (w : Word) : (s.prefetchTo w).pc = s.pc := rfl
@[simp] theorem State.prefetchTo_sr (s : State) (w : Word) : (s.prefetchTo w).sr = s.sr := rfl
@[simp] theorem State.prefetchTo_fer (s : State) (w : Word) : (s.prefetchTo w).fer = s.fer := rfl
@[simp] theorem State.prefetchTo_gpr (s : State) (w : Word) : (s.prefetchTo w).gpr = s.gpr := rfl
@[simp] theorem State.prefetchTo_sp (s : State) (w : Word) : (s.prefetchTo w).sp = s.sp := rfl
@[simp] theorem State.prefetchTo_ub (s : State) (w : Word) : (s.prefetchTo w).ub = s.ub := rfl
@[simp] theorem State.prefetchTo_bcr (s : State) (w : Word) : (s.prefetchTo w).bcr = s.bcr := rfl
@[simp] theorem State.prefetchTo_tpr (s : State) (w : Word) : (s.prefetchTo w).tpr = s.tpr := rfl
@[simp] theorem State.prefetchTo_tcr (s : State) (w : Word) : (s.prefetchTo w).tcr = s.tcr := rfl
@[simp] theorem State.prefetchTo_tr (s : State) (w : Word) : (s.prefetchTo w).tr = s.tr := rfl
@[simp] theorem State.prefetchTo_wcr (s : State) (w : Word) : (s.prefetchTo w).wcr = s.wcr := rfl
@[simp] theorem State.prefetchTo_wcrUpperOpen (s : State) (w : Word) : (s.prefetchTo w).wcrUpperOpen = s.wcrUpperOpen := rfl
@[simp] theorem State.prefetchTo_equalFlag (s : State) (w : Word) : (s.prefetchTo w).equalFlag = s.equalFlag := rfl
@[simp] theorem State.prefetchTo_eventFlag (s : State) (w : Word) : (s.prefetchTo w).eventFlag = s.eventFlag := rfl
@[simp] theorem State.prefetchTo_fcr (s : State) (w : Word) : (s.prefetchTo w).fcr = s.fcr := rfl
@[simp] theorem State.prefetchTo_mcr (s : State) (w : Word) : (s.prefetchTo w).mcr = s.mcr := rfl
@[simp] theorem State.prefetchTo_locals (s : State) (w : Word) : (s.prefetchTo w).locals = s.locals := rfl
@[simp] theorem State.prefetchTo_mem (s : State) (w : Word) : (s.prefetchTo w).mem = s.mem := rfl
@[simp] theorem State.prefetchTo_iramKept (s : State) (w : Word) : (s.prefetchTo w).iramKept = s.iramKept := rfl
@[simp] theorem State.prefetchTo_iramRelied (s : State) (w : Word) : (s.prefetchTo w).iramRelied = s.iramRelied := rfl
@[simp] theorem State.prefetchTo_stale (s : State) (w : Word) : (s.prefetchTo w).stale = s.stale := rfl
@[simp] theorem State.prefetchTo_delayPending (s : State) (w : Word) : (s.prefetchTo w).delayPending = s.delayPending := rfl
@[simp] theorem State.prefetchTo_delayAddr (s : State) (w : Word) : (s.prefetchTo w).delayAddr = s.delayAddr := rfl
@[simp] theorem State.prefetchTo_slotAhead (s : State) (w : Word) : (s.prefetchTo w).slotAhead = s.slotAhead := rfl
@[simp] theorem State.prefetchTo_afterDelayedBranch (s : State) (w : Word) : (s.prefetchTo w).afterDelayedBranch = s.afterDelayedBranch := rfl
@[simp] theorem State.prefetchTo_callLockout (s : State) (w : Word) : (s.prefetchTo w).callLockout = s.callLockout := rfl
@[simp] theorem State.prefetchTo_extOvfPending (s : State) (w : Word) : (s.prefetchTo w).extOvfPending = s.extOvfPending := rfl
@[simp] theorem State.prefetchTo_parityPending (s : State) (w : Word) : (s.prefetchTo w).parityPending = s.parityPending := rfl
@[simp] theorem State.prefetchTo_prescaler (s : State) (w : Word) : (s.prefetchTo w).prescaler = s.prescaler := rfl
@[simp] theorem State.prefetchTo_io3Toggle (s : State) (w : Word) : (s.prefetchTo w).io3Toggle = s.io3Toggle := rfl
@[simp] theorem State.prefetchTo_powerDown (s : State) (w : Word) : (s.prefetchTo w).powerDown = s.powerDown := rfl
@[simp] theorem State.prefetchTo_resetRequest (s : State) (w : Word) : (s.prefetchTo w).resetRequest = s.resetRequest := rfl
@[simp] theorem State.prefetchTo_pins (s : State) (w : Word) : (s.prefetchTo w).pins = s.pins := rfl
@[simp] theorem State.prefetchTo_pinsDriven (s : State) (w : Word) : (s.prefetchTo w).pinsDriven = s.pinsDriven := rfl
@[simp] theorem State.prefetchTo_platform (s : State) (w : Word) : (s.prefetchTo w).platform = s.platform := rfl
@[simp] theorem State.prefetchTo_inputs (s : State) (w : Word) : (s.prefetchTo w).inputs = s.inputs := rfl
@[simp] theorem State.prefetchTo_between (s : State) (w : Word) : (s.prefetchTo w).between = s.between := rfl
@[simp] theorem State.prefetchTo_ioTrace (s : State) (w : Word) : (s.prefetchTo w).ioTrace = s.ioTrace := rfl
@[simp] theorem State.prefetchTo_fresh (s : State) (w : Word) : (s.prefetchTo w).fresh = s.fresh := rfl

/-! ### The prefetch at an instruction (R128) -/

@[simp] theorem State.prefetched_pc (s : State) (next : Word) : (s.prefetched next).pc = s.pc := rfl
@[simp] theorem State.prefetched_sr (s : State) (next : Word) : (s.prefetched next).sr = s.sr := rfl
@[simp] theorem State.prefetched_fer (s : State) (next : Word) : (s.prefetched next).fer = s.fer := rfl
@[simp] theorem State.prefetched_gpr (s : State) (next : Word) : (s.prefetched next).gpr = s.gpr := rfl
@[simp] theorem State.prefetched_sp (s : State) (next : Word) : (s.prefetched next).sp = s.sp := rfl
@[simp] theorem State.prefetched_ub (s : State) (next : Word) : (s.prefetched next).ub = s.ub := rfl
@[simp] theorem State.prefetched_bcr (s : State) (next : Word) : (s.prefetched next).bcr = s.bcr := rfl
@[simp] theorem State.prefetched_tpr (s : State) (next : Word) : (s.prefetched next).tpr = s.tpr := rfl
@[simp] theorem State.prefetched_tcr (s : State) (next : Word) : (s.prefetched next).tcr = s.tcr := rfl
@[simp] theorem State.prefetched_tr (s : State) (next : Word) : (s.prefetched next).tr = s.tr := rfl
@[simp] theorem State.prefetched_wcr (s : State) (next : Word) : (s.prefetched next).wcr = s.wcr := rfl
@[simp] theorem State.prefetched_wcrUpperOpen (s : State) (next : Word) : (s.prefetched next).wcrUpperOpen = s.wcrUpperOpen := rfl
@[simp] theorem State.prefetched_equalFlag (s : State) (next : Word) : (s.prefetched next).equalFlag = s.equalFlag := rfl
@[simp] theorem State.prefetched_eventFlag (s : State) (next : Word) : (s.prefetched next).eventFlag = s.eventFlag := rfl
@[simp] theorem State.prefetched_fcr (s : State) (next : Word) : (s.prefetched next).fcr = s.fcr := rfl
@[simp] theorem State.prefetched_mcr (s : State) (next : Word) : (s.prefetched next).mcr = s.mcr := rfl
@[simp] theorem State.prefetched_locals (s : State) (next : Word) : (s.prefetched next).locals = s.locals := rfl
@[simp] theorem State.prefetched_mem (s : State) (next : Word) : (s.prefetched next).mem = s.mem := rfl
@[simp] theorem State.prefetched_iramKept (s : State) (next : Word) : (s.prefetched next).iramKept = s.iramKept := rfl
@[simp] theorem State.prefetched_iramRelied (s : State) (next : Word) : (s.prefetched next).iramRelied = s.iramRelied := rfl
@[simp] theorem State.prefetched_stale (s : State) (next : Word) : (s.prefetched next).stale = s.stale := rfl
@[simp] theorem State.prefetched_delayPending (s : State) (next : Word) : (s.prefetched next).delayPending = s.delayPending := rfl
@[simp] theorem State.prefetched_delayAddr (s : State) (next : Word) : (s.prefetched next).delayAddr = s.delayAddr := rfl
@[simp] theorem State.prefetched_slotAhead (s : State) (next : Word) : (s.prefetched next).slotAhead = s.slotAhead := rfl
@[simp] theorem State.prefetched_afterDelayedBranch (s : State) (next : Word) : (s.prefetched next).afterDelayedBranch = s.afterDelayedBranch := rfl
@[simp] theorem State.prefetched_callLockout (s : State) (next : Word) : (s.prefetched next).callLockout = s.callLockout := rfl
@[simp] theorem State.prefetched_extOvfPending (s : State) (next : Word) : (s.prefetched next).extOvfPending = s.extOvfPending := rfl
@[simp] theorem State.prefetched_parityPending (s : State) (next : Word) : (s.prefetched next).parityPending = s.parityPending := rfl
@[simp] theorem State.prefetched_prescaler (s : State) (next : Word) : (s.prefetched next).prescaler = s.prescaler := rfl
@[simp] theorem State.prefetched_io3Toggle (s : State) (next : Word) : (s.prefetched next).io3Toggle = s.io3Toggle := rfl
@[simp] theorem State.prefetched_powerDown (s : State) (next : Word) : (s.prefetched next).powerDown = s.powerDown := rfl
@[simp] theorem State.prefetched_resetRequest (s : State) (next : Word) : (s.prefetched next).resetRequest = s.resetRequest := rfl
@[simp] theorem State.prefetched_pins (s : State) (next : Word) : (s.prefetched next).pins = s.pins := rfl
@[simp] theorem State.prefetched_pinsDriven (s : State) (next : Word) : (s.prefetched next).pinsDriven = s.pinsDriven := rfl
@[simp] theorem State.prefetched_platform (s : State) (next : Word) : (s.prefetched next).platform = s.platform := rfl
@[simp] theorem State.prefetched_inputs (s : State) (next : Word) : (s.prefetched next).inputs = s.inputs := rfl
@[simp] theorem State.prefetched_between (s : State) (next : Word) : (s.prefetched next).between = s.between := rfl
@[simp] theorem State.prefetched_ioTrace (s : State) (next : Word) : (s.prefetched next).ioTrace = s.ioTrace := rfl
@[simp] theorem State.prefetched_fresh (s : State) (next : Word) : (s.prefetched next).fresh = s.fresh := rfl

/-! ### The cache flushed (R130) -/

@[simp] theorem State.flush_pc (s : State) (target : Word) : (s.flush target).pc = s.pc := rfl
@[simp] theorem State.flush_sr (s : State) (target : Word) : (s.flush target).sr = s.sr := rfl
@[simp] theorem State.flush_fer (s : State) (target : Word) : (s.flush target).fer = s.fer := rfl
@[simp] theorem State.flush_gpr (s : State) (target : Word) : (s.flush target).gpr = s.gpr := rfl
@[simp] theorem State.flush_sp (s : State) (target : Word) : (s.flush target).sp = s.sp := rfl
@[simp] theorem State.flush_ub (s : State) (target : Word) : (s.flush target).ub = s.ub := rfl
@[simp] theorem State.flush_bcr (s : State) (target : Word) : (s.flush target).bcr = s.bcr := rfl
@[simp] theorem State.flush_tpr (s : State) (target : Word) : (s.flush target).tpr = s.tpr := rfl
@[simp] theorem State.flush_tcr (s : State) (target : Word) : (s.flush target).tcr = s.tcr := rfl
@[simp] theorem State.flush_tr (s : State) (target : Word) : (s.flush target).tr = s.tr := rfl
@[simp] theorem State.flush_wcr (s : State) (target : Word) : (s.flush target).wcr = s.wcr := rfl
@[simp] theorem State.flush_wcrUpperOpen (s : State) (target : Word) : (s.flush target).wcrUpperOpen = s.wcrUpperOpen := rfl
@[simp] theorem State.flush_equalFlag (s : State) (target : Word) : (s.flush target).equalFlag = s.equalFlag := rfl
@[simp] theorem State.flush_eventFlag (s : State) (target : Word) : (s.flush target).eventFlag = s.eventFlag := rfl
@[simp] theorem State.flush_fcr (s : State) (target : Word) : (s.flush target).fcr = s.fcr := rfl
@[simp] theorem State.flush_mcr (s : State) (target : Word) : (s.flush target).mcr = s.mcr := rfl
@[simp] theorem State.flush_locals (s : State) (target : Word) : (s.flush target).locals = s.locals := rfl
@[simp] theorem State.flush_mem (s : State) (target : Word) : (s.flush target).mem = s.mem := rfl
@[simp] theorem State.flush_iramKept (s : State) (target : Word) : (s.flush target).iramKept = s.iramKept := rfl
@[simp] theorem State.flush_iramRelied (s : State) (target : Word) : (s.flush target).iramRelied = s.iramRelied := rfl
@[simp] theorem State.flush_delayPending (s : State) (target : Word) : (s.flush target).delayPending = s.delayPending := rfl
@[simp] theorem State.flush_delayAddr (s : State) (target : Word) : (s.flush target).delayAddr = s.delayAddr := rfl
@[simp] theorem State.flush_slotAhead (s : State) (target : Word) : (s.flush target).slotAhead = s.slotAhead := rfl
@[simp] theorem State.flush_afterDelayedBranch (s : State) (target : Word) : (s.flush target).afterDelayedBranch = s.afterDelayedBranch := rfl
@[simp] theorem State.flush_callLockout (s : State) (target : Word) : (s.flush target).callLockout = s.callLockout := rfl
@[simp] theorem State.flush_extOvfPending (s : State) (target : Word) : (s.flush target).extOvfPending = s.extOvfPending := rfl
@[simp] theorem State.flush_parityPending (s : State) (target : Word) : (s.flush target).parityPending = s.parityPending := rfl
@[simp] theorem State.flush_prescaler (s : State) (target : Word) : (s.flush target).prescaler = s.prescaler := rfl
@[simp] theorem State.flush_io3Toggle (s : State) (target : Word) : (s.flush target).io3Toggle = s.io3Toggle := rfl
@[simp] theorem State.flush_powerDown (s : State) (target : Word) : (s.flush target).powerDown = s.powerDown := rfl
@[simp] theorem State.flush_resetRequest (s : State) (target : Word) : (s.flush target).resetRequest = s.resetRequest := rfl
@[simp] theorem State.flush_pins (s : State) (target : Word) : (s.flush target).pins = s.pins := rfl
@[simp] theorem State.flush_pinsDriven (s : State) (target : Word) : (s.flush target).pinsDriven = s.pinsDriven := rfl
@[simp] theorem State.flush_platform (s : State) (target : Word) : (s.flush target).platform = s.platform := rfl
@[simp] theorem State.flush_inputs (s : State) (target : Word) : (s.flush target).inputs = s.inputs := rfl
@[simp] theorem State.flush_between (s : State) (target : Word) : (s.flush target).between = s.between := rfl
@[simp] theorem State.flush_ioTrace (s : State) (target : Word) : (s.flush target).ioTrace = s.ioTrace := rfl
@[simp] theorem State.flush_fresh (s : State) (target : Word) : (s.flush target).fresh = s.fresh := rfl

@[simp] theorem State.flush_stale (s : State) (target : Word) : (s.flush target).stale = [] := rfl
@[simp] theorem State.flush_lookBack (s : State) (target : Word) : (s.flush target).lookBack = alignWord target := rfl
@[simp] theorem State.flush_lookAhead (s : State) (target : Word) : (s.flush target).lookAhead = alignWord target := rfl
/-! ### The cache at a branch taken (R130) -/

@[simp] theorem State.branchCache_pc (s : State) (w : Bool) (rel : Rel) (target : Word) : (s.branchCache w rel target).pc = s.pc := rfl
@[simp] theorem State.branchCache_sr (s : State) (w : Bool) (rel : Rel) (target : Word) : (s.branchCache w rel target).sr = s.sr := rfl
@[simp] theorem State.branchCache_fer (s : State) (w : Bool) (rel : Rel) (target : Word) : (s.branchCache w rel target).fer = s.fer := rfl
@[simp] theorem State.branchCache_gpr (s : State) (w : Bool) (rel : Rel) (target : Word) : (s.branchCache w rel target).gpr = s.gpr := rfl
@[simp] theorem State.branchCache_sp (s : State) (w : Bool) (rel : Rel) (target : Word) : (s.branchCache w rel target).sp = s.sp := rfl
@[simp] theorem State.branchCache_ub (s : State) (w : Bool) (rel : Rel) (target : Word) : (s.branchCache w rel target).ub = s.ub := rfl
@[simp] theorem State.branchCache_bcr (s : State) (w : Bool) (rel : Rel) (target : Word) : (s.branchCache w rel target).bcr = s.bcr := rfl
@[simp] theorem State.branchCache_tpr (s : State) (w : Bool) (rel : Rel) (target : Word) : (s.branchCache w rel target).tpr = s.tpr := rfl
@[simp] theorem State.branchCache_tcr (s : State) (w : Bool) (rel : Rel) (target : Word) : (s.branchCache w rel target).tcr = s.tcr := rfl
@[simp] theorem State.branchCache_tr (s : State) (w : Bool) (rel : Rel) (target : Word) : (s.branchCache w rel target).tr = s.tr := rfl
@[simp] theorem State.branchCache_wcr (s : State) (w : Bool) (rel : Rel) (target : Word) : (s.branchCache w rel target).wcr = s.wcr := rfl
@[simp] theorem State.branchCache_wcrUpperOpen (s : State) (w : Bool) (rel : Rel) (target : Word) : (s.branchCache w rel target).wcrUpperOpen = s.wcrUpperOpen := rfl
@[simp] theorem State.branchCache_equalFlag (s : State) (w : Bool) (rel : Rel) (target : Word) : (s.branchCache w rel target).equalFlag = s.equalFlag := rfl
@[simp] theorem State.branchCache_eventFlag (s : State) (w : Bool) (rel : Rel) (target : Word) : (s.branchCache w rel target).eventFlag = s.eventFlag := rfl
@[simp] theorem State.branchCache_fcr (s : State) (w : Bool) (rel : Rel) (target : Word) : (s.branchCache w rel target).fcr = s.fcr := rfl
@[simp] theorem State.branchCache_mcr (s : State) (w : Bool) (rel : Rel) (target : Word) : (s.branchCache w rel target).mcr = s.mcr := rfl
@[simp] theorem State.branchCache_locals (s : State) (w : Bool) (rel : Rel) (target : Word) : (s.branchCache w rel target).locals = s.locals := rfl
@[simp] theorem State.branchCache_mem (s : State) (w : Bool) (rel : Rel) (target : Word) : (s.branchCache w rel target).mem = s.mem := rfl
@[simp] theorem State.branchCache_iramKept (s : State) (w : Bool) (rel : Rel) (target : Word) : (s.branchCache w rel target).iramKept = s.iramKept := rfl
@[simp] theorem State.branchCache_iramRelied (s : State) (w : Bool) (rel : Rel) (target : Word) : (s.branchCache w rel target).iramRelied = s.iramRelied := rfl
@[simp] theorem State.branchCache_delayPending (s : State) (w : Bool) (rel : Rel) (target : Word) : (s.branchCache w rel target).delayPending = s.delayPending := rfl
@[simp] theorem State.branchCache_delayAddr (s : State) (w : Bool) (rel : Rel) (target : Word) : (s.branchCache w rel target).delayAddr = s.delayAddr := rfl
@[simp] theorem State.branchCache_slotAhead (s : State) (w : Bool) (rel : Rel) (target : Word) : (s.branchCache w rel target).slotAhead = s.slotAhead := rfl
@[simp] theorem State.branchCache_afterDelayedBranch (s : State) (w : Bool) (rel : Rel) (target : Word) : (s.branchCache w rel target).afterDelayedBranch = s.afterDelayedBranch := rfl
@[simp] theorem State.branchCache_callLockout (s : State) (w : Bool) (rel : Rel) (target : Word) : (s.branchCache w rel target).callLockout = s.callLockout := rfl
@[simp] theorem State.branchCache_extOvfPending (s : State) (w : Bool) (rel : Rel) (target : Word) : (s.branchCache w rel target).extOvfPending = s.extOvfPending := rfl
@[simp] theorem State.branchCache_parityPending (s : State) (w : Bool) (rel : Rel) (target : Word) : (s.branchCache w rel target).parityPending = s.parityPending := rfl
@[simp] theorem State.branchCache_prescaler (s : State) (w : Bool) (rel : Rel) (target : Word) : (s.branchCache w rel target).prescaler = s.prescaler := rfl
@[simp] theorem State.branchCache_io3Toggle (s : State) (w : Bool) (rel : Rel) (target : Word) : (s.branchCache w rel target).io3Toggle = s.io3Toggle := rfl
@[simp] theorem State.branchCache_powerDown (s : State) (w : Bool) (rel : Rel) (target : Word) : (s.branchCache w rel target).powerDown = s.powerDown := rfl
@[simp] theorem State.branchCache_resetRequest (s : State) (w : Bool) (rel : Rel) (target : Word) : (s.branchCache w rel target).resetRequest = s.resetRequest := rfl
@[simp] theorem State.branchCache_pins (s : State) (w : Bool) (rel : Rel) (target : Word) : (s.branchCache w rel target).pins = s.pins := rfl
@[simp] theorem State.branchCache_pinsDriven (s : State) (w : Bool) (rel : Rel) (target : Word) : (s.branchCache w rel target).pinsDriven = s.pinsDriven := rfl
@[simp] theorem State.branchCache_platform (s : State) (w : Bool) (rel : Rel) (target : Word) : (s.branchCache w rel target).platform = s.platform := rfl
@[simp] theorem State.branchCache_inputs (s : State) (w : Bool) (rel : Rel) (target : Word) : (s.branchCache w rel target).inputs = s.inputs := rfl
@[simp] theorem State.branchCache_between (s : State) (w : Bool) (rel : Rel) (target : Word) : (s.branchCache w rel target).between = s.between := rfl
@[simp] theorem State.branchCache_ioTrace (s : State) (w : Bool) (rel : Rel) (target : Word) : (s.branchCache w rel target).ioTrace = s.ioTrace := rfl
@[simp] theorem State.branchCache_fresh (s : State) (w : Bool) (rel : Rel) (target : Word) : (s.branchCache w rel target).fresh = s.fresh := rfl

/-! ### A branch taken, the cache apart (R24) -/

@[simp] theorem State.branched_fer (s : State) (target : Word) : (s.branched target).fer = s.fer := rfl
@[simp] theorem State.branched_gpr (s : State) (target : Word) : (s.branched target).gpr = s.gpr := rfl
@[simp] theorem State.branched_sp (s : State) (target : Word) : (s.branched target).sp = s.sp := rfl
@[simp] theorem State.branched_ub (s : State) (target : Word) : (s.branched target).ub = s.ub := rfl
@[simp] theorem State.branched_bcr (s : State) (target : Word) : (s.branched target).bcr = s.bcr := rfl
@[simp] theorem State.branched_tpr (s : State) (target : Word) : (s.branched target).tpr = s.tpr := rfl
@[simp] theorem State.branched_tcr (s : State) (target : Word) : (s.branched target).tcr = s.tcr := rfl
@[simp] theorem State.branched_tr (s : State) (target : Word) : (s.branched target).tr = s.tr := rfl
@[simp] theorem State.branched_wcr (s : State) (target : Word) : (s.branched target).wcr = s.wcr := rfl
@[simp] theorem State.branched_wcrUpperOpen (s : State) (target : Word) : (s.branched target).wcrUpperOpen = s.wcrUpperOpen := rfl
@[simp] theorem State.branched_equalFlag (s : State) (target : Word) : (s.branched target).equalFlag = s.equalFlag := rfl
@[simp] theorem State.branched_eventFlag (s : State) (target : Word) : (s.branched target).eventFlag = s.eventFlag := rfl
@[simp] theorem State.branched_fcr (s : State) (target : Word) : (s.branched target).fcr = s.fcr := rfl
@[simp] theorem State.branched_mcr (s : State) (target : Word) : (s.branched target).mcr = s.mcr := rfl
@[simp] theorem State.branched_locals (s : State) (target : Word) : (s.branched target).locals = s.locals := rfl
@[simp] theorem State.branched_mem (s : State) (target : Word) : (s.branched target).mem = s.mem := rfl
@[simp] theorem State.branched_iramKept (s : State) (target : Word) : (s.branched target).iramKept = s.iramKept := rfl
@[simp] theorem State.branched_iramRelied (s : State) (target : Word) : (s.branched target).iramRelied = s.iramRelied := rfl
@[simp] theorem State.branched_stale (s : State) (target : Word) : (s.branched target).stale = s.stale := rfl
@[simp] theorem State.branched_lookBack (s : State) (target : Word) : (s.branched target).lookBack = s.lookBack := rfl
@[simp] theorem State.branched_lookAhead (s : State) (target : Word) : (s.branched target).lookAhead = s.lookAhead := rfl
@[simp] theorem State.branched_busLock (s : State) (target : Word) : (s.branched target).busLock = s.busLock := rfl
@[simp] theorem State.branched_delayAddr (s : State) (target : Word) : (s.branched target).delayAddr = s.delayAddr := rfl
@[simp] theorem State.branched_slotAhead (s : State) (target : Word) : (s.branched target).slotAhead = s.slotAhead := rfl
@[simp] theorem State.branched_afterDelayedBranch (s : State) (target : Word) : (s.branched target).afterDelayedBranch = s.afterDelayedBranch := rfl
@[simp] theorem State.branched_callLockout (s : State) (target : Word) : (s.branched target).callLockout = s.callLockout := rfl
@[simp] theorem State.branched_extOvfPending (s : State) (target : Word) : (s.branched target).extOvfPending = s.extOvfPending := rfl
@[simp] theorem State.branched_parityPending (s : State) (target : Word) : (s.branched target).parityPending = s.parityPending := rfl
@[simp] theorem State.branched_prescaler (s : State) (target : Word) : (s.branched target).prescaler = s.prescaler := rfl
@[simp] theorem State.branched_io3Toggle (s : State) (target : Word) : (s.branched target).io3Toggle = s.io3Toggle := rfl
@[simp] theorem State.branched_powerDown (s : State) (target : Word) : (s.branched target).powerDown = s.powerDown := rfl
@[simp] theorem State.branched_resetRequest (s : State) (target : Word) : (s.branched target).resetRequest = s.resetRequest := rfl
@[simp] theorem State.branched_pins (s : State) (target : Word) : (s.branched target).pins = s.pins := rfl
@[simp] theorem State.branched_pinsDriven (s : State) (target : Word) : (s.branched target).pinsDriven = s.pinsDriven := rfl
@[simp] theorem State.branched_platform (s : State) (target : Word) : (s.branched target).platform = s.platform := rfl
@[simp] theorem State.branched_inputs (s : State) (target : Word) : (s.branched target).inputs = s.inputs := rfl
@[simp] theorem State.branched_between (s : State) (target : Word) : (s.branched target).between = s.between := rfl
@[simp] theorem State.branched_ioTrace (s : State) (target : Word) : (s.branched target).ioTrace = s.ioTrace := rfl
@[simp] theorem State.branched_fresh (s : State) (target : Word) : (s.branched target).fresh = s.fresh := rfl

@[simp] theorem State.branched_pc (s : State) (target : Word) : (s.branched target).pc = clearBit0 target := rfl
@[simp] theorem State.branched_delayPending (s : State) (target : Word) : (s.branched target).delayPending = false := rfl
/-! ### A branch taken (R24) -/

@[simp] theorem State.jumped_fer (s : State) (target : Word) : (s.jumped target).fer = s.fer := rfl
@[simp] theorem State.jumped_gpr (s : State) (target : Word) : (s.jumped target).gpr = s.gpr := rfl
@[simp] theorem State.jumped_sp (s : State) (target : Word) : (s.jumped target).sp = s.sp := rfl
@[simp] theorem State.jumped_ub (s : State) (target : Word) : (s.jumped target).ub = s.ub := rfl
@[simp] theorem State.jumped_bcr (s : State) (target : Word) : (s.jumped target).bcr = s.bcr := rfl
@[simp] theorem State.jumped_tpr (s : State) (target : Word) : (s.jumped target).tpr = s.tpr := rfl
@[simp] theorem State.jumped_tcr (s : State) (target : Word) : (s.jumped target).tcr = s.tcr := rfl
@[simp] theorem State.jumped_tr (s : State) (target : Word) : (s.jumped target).tr = s.tr := rfl
@[simp] theorem State.jumped_wcr (s : State) (target : Word) : (s.jumped target).wcr = s.wcr := rfl
@[simp] theorem State.jumped_wcrUpperOpen (s : State) (target : Word) : (s.jumped target).wcrUpperOpen = s.wcrUpperOpen := rfl
@[simp] theorem State.jumped_equalFlag (s : State) (target : Word) : (s.jumped target).equalFlag = s.equalFlag := rfl
@[simp] theorem State.jumped_eventFlag (s : State) (target : Word) : (s.jumped target).eventFlag = s.eventFlag := rfl
@[simp] theorem State.jumped_fcr (s : State) (target : Word) : (s.jumped target).fcr = s.fcr := rfl
@[simp] theorem State.jumped_mcr (s : State) (target : Word) : (s.jumped target).mcr = s.mcr := rfl
@[simp] theorem State.jumped_locals (s : State) (target : Word) : (s.jumped target).locals = s.locals := rfl
@[simp] theorem State.jumped_mem (s : State) (target : Word) : (s.jumped target).mem = s.mem := rfl
@[simp] theorem State.jumped_iramKept (s : State) (target : Word) : (s.jumped target).iramKept = s.iramKept := rfl
@[simp] theorem State.jumped_iramRelied (s : State) (target : Word) : (s.jumped target).iramRelied = s.iramRelied := rfl
@[simp] theorem State.jumped_delayAddr (s : State) (target : Word) : (s.jumped target).delayAddr = s.delayAddr := rfl
@[simp] theorem State.jumped_slotAhead (s : State) (target : Word) : (s.jumped target).slotAhead = s.slotAhead := rfl
@[simp] theorem State.jumped_afterDelayedBranch (s : State) (target : Word) : (s.jumped target).afterDelayedBranch = s.afterDelayedBranch := rfl
@[simp] theorem State.jumped_callLockout (s : State) (target : Word) : (s.jumped target).callLockout = s.callLockout := rfl
@[simp] theorem State.jumped_extOvfPending (s : State) (target : Word) : (s.jumped target).extOvfPending = s.extOvfPending := rfl
@[simp] theorem State.jumped_parityPending (s : State) (target : Word) : (s.jumped target).parityPending = s.parityPending := rfl
@[simp] theorem State.jumped_prescaler (s : State) (target : Word) : (s.jumped target).prescaler = s.prescaler := rfl
@[simp] theorem State.jumped_io3Toggle (s : State) (target : Word) : (s.jumped target).io3Toggle = s.io3Toggle := rfl
@[simp] theorem State.jumped_powerDown (s : State) (target : Word) : (s.jumped target).powerDown = s.powerDown := rfl
@[simp] theorem State.jumped_resetRequest (s : State) (target : Word) : (s.jumped target).resetRequest = s.resetRequest := rfl
@[simp] theorem State.jumped_pins (s : State) (target : Word) : (s.jumped target).pins = s.pins := rfl
@[simp] theorem State.jumped_pinsDriven (s : State) (target : Word) : (s.jumped target).pinsDriven = s.pinsDriven := rfl
@[simp] theorem State.jumped_platform (s : State) (target : Word) : (s.jumped target).platform = s.platform := rfl
@[simp] theorem State.jumped_inputs (s : State) (target : Word) : (s.jumped target).inputs = s.inputs := rfl
@[simp] theorem State.jumped_between (s : State) (target : Word) : (s.jumped target).between = s.between := rfl
@[simp] theorem State.jumped_ioTrace (s : State) (target : Word) : (s.jumped target).ioTrace = s.ioTrace := rfl
@[simp] theorem State.jumped_fresh (s : State) (target : Word) : (s.jumped target).fresh = s.fresh := rfl

@[simp] theorem State.jumped_pc (s : State) (target : Word) : (s.jumped target).pc = clearBit0 target := rfl
@[simp] theorem State.jumped_delayPending (s : State) (target : Word) : (s.jumped target).delayPending = false := rfl
/-! ### An exception taken (R534) -/

@[simp] theorem State.entered_fer (s : State) (irq : Bool) (entry : Word) : (s.entered irq entry).fer = s.fer := rfl
@[simp] theorem State.entered_gpr (s : State) (irq : Bool) (entry : Word) : (s.entered irq entry).gpr = s.gpr := rfl
@[simp] theorem State.entered_sp (s : State) (irq : Bool) (entry : Word) : (s.entered irq entry).sp = s.sp := rfl
@[simp] theorem State.entered_ub (s : State) (irq : Bool) (entry : Word) : (s.entered irq entry).ub = s.ub := rfl
@[simp] theorem State.entered_bcr (s : State) (irq : Bool) (entry : Word) : (s.entered irq entry).bcr = s.bcr := rfl
@[simp] theorem State.entered_tpr (s : State) (irq : Bool) (entry : Word) : (s.entered irq entry).tpr = s.tpr := rfl
@[simp] theorem State.entered_tcr (s : State) (irq : Bool) (entry : Word) : (s.entered irq entry).tcr = s.tcr := rfl
@[simp] theorem State.entered_tr (s : State) (irq : Bool) (entry : Word) : (s.entered irq entry).tr = s.tr := rfl
@[simp] theorem State.entered_wcr (s : State) (irq : Bool) (entry : Word) : (s.entered irq entry).wcr = s.wcr := rfl
@[simp] theorem State.entered_wcrUpperOpen (s : State) (irq : Bool) (entry : Word) : (s.entered irq entry).wcrUpperOpen = s.wcrUpperOpen := rfl
@[simp] theorem State.entered_equalFlag (s : State) (irq : Bool) (entry : Word) : (s.entered irq entry).equalFlag = s.equalFlag := rfl
@[simp] theorem State.entered_eventFlag (s : State) (irq : Bool) (entry : Word) : (s.entered irq entry).eventFlag = s.eventFlag := rfl
@[simp] theorem State.entered_fcr (s : State) (irq : Bool) (entry : Word) : (s.entered irq entry).fcr = s.fcr := rfl
@[simp] theorem State.entered_mcr (s : State) (irq : Bool) (entry : Word) : (s.entered irq entry).mcr = s.mcr := rfl
@[simp] theorem State.entered_mem (s : State) (irq : Bool) (entry : Word) : (s.entered irq entry).mem = s.mem := rfl
@[simp] theorem State.entered_iramKept (s : State) (irq : Bool) (entry : Word) : (s.entered irq entry).iramKept = s.iramKept := rfl
@[simp] theorem State.entered_iramRelied (s : State) (irq : Bool) (entry : Word) : (s.entered irq entry).iramRelied = s.iramRelied := rfl
@[simp] theorem State.entered_delayAddr (s : State) (irq : Bool) (entry : Word) : (s.entered irq entry).delayAddr = s.delayAddr := rfl
@[simp] theorem State.entered_slotAhead (s : State) (irq : Bool) (entry : Word) : (s.entered irq entry).slotAhead = s.slotAhead := rfl
@[simp] theorem State.entered_extOvfPending (s : State) (irq : Bool) (entry : Word) : (s.entered irq entry).extOvfPending = s.extOvfPending := rfl
@[simp] theorem State.entered_parityPending (s : State) (irq : Bool) (entry : Word) : (s.entered irq entry).parityPending = s.parityPending := rfl
@[simp] theorem State.entered_prescaler (s : State) (irq : Bool) (entry : Word) : (s.entered irq entry).prescaler = s.prescaler := rfl
@[simp] theorem State.entered_io3Toggle (s : State) (irq : Bool) (entry : Word) : (s.entered irq entry).io3Toggle = s.io3Toggle := rfl
@[simp] theorem State.entered_powerDown (s : State) (irq : Bool) (entry : Word) : (s.entered irq entry).powerDown = s.powerDown := rfl
@[simp] theorem State.entered_resetRequest (s : State) (irq : Bool) (entry : Word) : (s.entered irq entry).resetRequest = s.resetRequest := rfl
@[simp] theorem State.entered_pins (s : State) (irq : Bool) (entry : Word) : (s.entered irq entry).pins = s.pins := rfl
@[simp] theorem State.entered_pinsDriven (s : State) (irq : Bool) (entry : Word) : (s.entered irq entry).pinsDriven = s.pinsDriven := rfl
@[simp] theorem State.entered_platform (s : State) (irq : Bool) (entry : Word) : (s.entered irq entry).platform = s.platform := rfl
@[simp] theorem State.entered_inputs (s : State) (irq : Bool) (entry : Word) : (s.entered irq entry).inputs = s.inputs := rfl
@[simp] theorem State.entered_between (s : State) (irq : Bool) (entry : Word) : (s.entered irq entry).between = s.between := rfl
@[simp] theorem State.entered_ioTrace (s : State) (irq : Bool) (entry : Word) : (s.entered irq entry).ioTrace = s.ioTrace := rfl
@[simp] theorem State.entered_fresh (s : State) (irq : Bool) (entry : Word) : (s.entered irq entry).fresh = s.fresh := rfl

@[simp] theorem State.entered_pc (s : State) (irq : Bool) (entry : Word) : (s.entered irq entry).pc = clearBit0 entry := rfl
@[simp] theorem State.entered_delayPending (s : State) (irq : Bool) (entry : Word) : (s.entered irq entry).delayPending = false := rfl
@[simp] theorem State.entered_afterDelayedBranch (s : State) (irq : Bool) (entry : Word) : (s.entered irq entry).afterDelayedBranch = false := rfl
@[simp] theorem State.entered_callLockout (s : State) (irq : Bool) (entry : Word) : (s.entered irq entry).callLockout = false := rfl
@[simp] theorem State.entered_stale (s : State) (irq : Bool) (entry : Word) : (s.entered irq entry).stale = [] := rfl
/-! ### PC and SR restored by a Return (R446) -/

@[simp] theorem State.returned_fer (s : State) (a b : Word) : (s.returned a b).fer = s.fer := rfl
@[simp] theorem State.returned_gpr (s : State) (a b : Word) : (s.returned a b).gpr = s.gpr := rfl
@[simp] theorem State.returned_sp (s : State) (a b : Word) : (s.returned a b).sp = s.sp := rfl
@[simp] theorem State.returned_ub (s : State) (a b : Word) : (s.returned a b).ub = s.ub := rfl
@[simp] theorem State.returned_bcr (s : State) (a b : Word) : (s.returned a b).bcr = s.bcr := rfl
@[simp] theorem State.returned_tpr (s : State) (a b : Word) : (s.returned a b).tpr = s.tpr := rfl
@[simp] theorem State.returned_tcr (s : State) (a b : Word) : (s.returned a b).tcr = s.tcr := rfl
@[simp] theorem State.returned_tr (s : State) (a b : Word) : (s.returned a b).tr = s.tr := rfl
@[simp] theorem State.returned_wcr (s : State) (a b : Word) : (s.returned a b).wcr = s.wcr := rfl
@[simp] theorem State.returned_wcrUpperOpen (s : State) (a b : Word) : (s.returned a b).wcrUpperOpen = s.wcrUpperOpen := rfl
@[simp] theorem State.returned_equalFlag (s : State) (a b : Word) : (s.returned a b).equalFlag = s.equalFlag := rfl
@[simp] theorem State.returned_eventFlag (s : State) (a b : Word) : (s.returned a b).eventFlag = s.eventFlag := rfl
@[simp] theorem State.returned_fcr (s : State) (a b : Word) : (s.returned a b).fcr = s.fcr := rfl
@[simp] theorem State.returned_mcr (s : State) (a b : Word) : (s.returned a b).mcr = s.mcr := rfl
@[simp] theorem State.returned_locals (s : State) (a b : Word) : (s.returned a b).locals = s.locals := rfl
@[simp] theorem State.returned_mem (s : State) (a b : Word) : (s.returned a b).mem = s.mem := rfl
@[simp] theorem State.returned_iramKept (s : State) (a b : Word) : (s.returned a b).iramKept = s.iramKept := rfl
@[simp] theorem State.returned_iramRelied (s : State) (a b : Word) : (s.returned a b).iramRelied = s.iramRelied := rfl
@[simp] theorem State.returned_delayAddr (s : State) (a b : Word) : (s.returned a b).delayAddr = s.delayAddr := rfl
@[simp] theorem State.returned_slotAhead (s : State) (a b : Word) : (s.returned a b).slotAhead = s.slotAhead := rfl
@[simp] theorem State.returned_afterDelayedBranch (s : State) (a b : Word) : (s.returned a b).afterDelayedBranch = s.afterDelayedBranch := rfl
@[simp] theorem State.returned_callLockout (s : State) (a b : Word) : (s.returned a b).callLockout = s.callLockout := rfl
@[simp] theorem State.returned_extOvfPending (s : State) (a b : Word) : (s.returned a b).extOvfPending = s.extOvfPending := rfl
@[simp] theorem State.returned_parityPending (s : State) (a b : Word) : (s.returned a b).parityPending = s.parityPending := rfl
@[simp] theorem State.returned_prescaler (s : State) (a b : Word) : (s.returned a b).prescaler = s.prescaler := rfl
@[simp] theorem State.returned_io3Toggle (s : State) (a b : Word) : (s.returned a b).io3Toggle = s.io3Toggle := rfl
@[simp] theorem State.returned_powerDown (s : State) (a b : Word) : (s.returned a b).powerDown = s.powerDown := rfl
@[simp] theorem State.returned_resetRequest (s : State) (a b : Word) : (s.returned a b).resetRequest = s.resetRequest := rfl
@[simp] theorem State.returned_pins (s : State) (a b : Word) : (s.returned a b).pins = s.pins := rfl
@[simp] theorem State.returned_pinsDriven (s : State) (a b : Word) : (s.returned a b).pinsDriven = s.pinsDriven := rfl
@[simp] theorem State.returned_platform (s : State) (a b : Word) : (s.returned a b).platform = s.platform := rfl
@[simp] theorem State.returned_inputs (s : State) (a b : Word) : (s.returned a b).inputs = s.inputs := rfl
@[simp] theorem State.returned_between (s : State) (a b : Word) : (s.returned a b).between = s.between := rfl
@[simp] theorem State.returned_ioTrace (s : State) (a b : Word) : (s.returned a b).ioTrace = s.ioTrace := rfl
@[simp] theorem State.returned_fresh (s : State) (a b : Word) : (s.returned a b).fresh = s.fresh := rfl

@[simp] theorem State.returned_pc (s : State) (a b : Word) : (s.returned a b).pc = clearBit0 a := rfl
@[simp] theorem State.returned_sr (s : State) (a b : Word) : (s.returned a b).sr = returnSR a b := rfl
@[simp] theorem State.returned_delayPending (s : State) (a b : Word) : (s.returned a b).delayPending = false := rfl
@[simp] theorem State.returned_stale (s : State) (a b : Word) : (s.returned a b).stale = [] := rfl
/-! ### An I/O read recorded (R101) -/

@[simp] theorem State.noteIoRead_pc (s : State) (a : Word) : (s.noteIoRead a).pc = s.pc := rfl
@[simp] theorem State.noteIoRead_sr (s : State) (a : Word) : (s.noteIoRead a).sr = s.sr := rfl
@[simp] theorem State.noteIoRead_fer (s : State) (a : Word) : (s.noteIoRead a).fer = s.fer := rfl
@[simp] theorem State.noteIoRead_gpr (s : State) (a : Word) : (s.noteIoRead a).gpr = s.gpr := rfl
@[simp] theorem State.noteIoRead_sp (s : State) (a : Word) : (s.noteIoRead a).sp = s.sp := rfl
@[simp] theorem State.noteIoRead_ub (s : State) (a : Word) : (s.noteIoRead a).ub = s.ub := rfl
@[simp] theorem State.noteIoRead_bcr (s : State) (a : Word) : (s.noteIoRead a).bcr = s.bcr := rfl
@[simp] theorem State.noteIoRead_tpr (s : State) (a : Word) : (s.noteIoRead a).tpr = s.tpr := rfl
@[simp] theorem State.noteIoRead_tcr (s : State) (a : Word) : (s.noteIoRead a).tcr = s.tcr := rfl
@[simp] theorem State.noteIoRead_tr (s : State) (a : Word) : (s.noteIoRead a).tr = s.tr := rfl
@[simp] theorem State.noteIoRead_wcr (s : State) (a : Word) : (s.noteIoRead a).wcr = s.wcr := rfl
@[simp] theorem State.noteIoRead_wcrUpperOpen (s : State) (a : Word) : (s.noteIoRead a).wcrUpperOpen = s.wcrUpperOpen := rfl
@[simp] theorem State.noteIoRead_equalFlag (s : State) (a : Word) : (s.noteIoRead a).equalFlag = s.equalFlag := rfl
@[simp] theorem State.noteIoRead_eventFlag (s : State) (a : Word) : (s.noteIoRead a).eventFlag = s.eventFlag := rfl
@[simp] theorem State.noteIoRead_fcr (s : State) (a : Word) : (s.noteIoRead a).fcr = s.fcr := rfl
@[simp] theorem State.noteIoRead_mcr (s : State) (a : Word) : (s.noteIoRead a).mcr = s.mcr := rfl
@[simp] theorem State.noteIoRead_locals (s : State) (a : Word) : (s.noteIoRead a).locals = s.locals := rfl
@[simp] theorem State.noteIoRead_mem (s : State) (a : Word) : (s.noteIoRead a).mem = s.mem := rfl
@[simp] theorem State.noteIoRead_iramKept (s : State) (a : Word) : (s.noteIoRead a).iramKept = s.iramKept := rfl
@[simp] theorem State.noteIoRead_iramRelied (s : State) (a : Word) : (s.noteIoRead a).iramRelied = s.iramRelied := rfl
@[simp] theorem State.noteIoRead_stale (s : State) (a : Word) : (s.noteIoRead a).stale = s.stale := rfl
@[simp] theorem State.noteIoRead_lookBack (s : State) (a : Word) : (s.noteIoRead a).lookBack = s.lookBack := rfl
@[simp] theorem State.noteIoRead_lookAhead (s : State) (a : Word) : (s.noteIoRead a).lookAhead = s.lookAhead := rfl
@[simp] theorem State.noteIoRead_delayPending (s : State) (a : Word) : (s.noteIoRead a).delayPending = s.delayPending := rfl
@[simp] theorem State.noteIoRead_delayAddr (s : State) (a : Word) : (s.noteIoRead a).delayAddr = s.delayAddr := rfl
@[simp] theorem State.noteIoRead_slotAhead (s : State) (a : Word) : (s.noteIoRead a).slotAhead = s.slotAhead := rfl
@[simp] theorem State.noteIoRead_afterDelayedBranch (s : State) (a : Word) : (s.noteIoRead a).afterDelayedBranch = s.afterDelayedBranch := rfl
@[simp] theorem State.noteIoRead_callLockout (s : State) (a : Word) : (s.noteIoRead a).callLockout = s.callLockout := rfl
@[simp] theorem State.noteIoRead_extOvfPending (s : State) (a : Word) : (s.noteIoRead a).extOvfPending = s.extOvfPending := rfl
@[simp] theorem State.noteIoRead_parityPending (s : State) (a : Word) : (s.noteIoRead a).parityPending = s.parityPending := rfl
@[simp] theorem State.noteIoRead_prescaler (s : State) (a : Word) : (s.noteIoRead a).prescaler = s.prescaler := rfl
@[simp] theorem State.noteIoRead_io3Toggle (s : State) (a : Word) : (s.noteIoRead a).io3Toggle = s.io3Toggle := rfl
@[simp] theorem State.noteIoRead_powerDown (s : State) (a : Word) : (s.noteIoRead a).powerDown = s.powerDown := rfl
@[simp] theorem State.noteIoRead_resetRequest (s : State) (a : Word) : (s.noteIoRead a).resetRequest = s.resetRequest := rfl
@[simp] theorem State.noteIoRead_pins (s : State) (a : Word) : (s.noteIoRead a).pins = s.pins := rfl
@[simp] theorem State.noteIoRead_pinsDriven (s : State) (a : Word) : (s.noteIoRead a).pinsDriven = s.pinsDriven := rfl
@[simp] theorem State.noteIoRead_platform (s : State) (a : Word) : (s.noteIoRead a).platform = s.platform := rfl
@[simp] theorem State.noteIoRead_inputs (s : State) (a : Word) : (s.noteIoRead a).inputs = s.inputs := rfl
@[simp] theorem State.noteIoRead_between (s : State) (a : Word) : (s.noteIoRead a).between = s.between := rfl
@[simp] theorem State.noteIoRead_fresh (s : State) (a : Word) : (s.noteIoRead a).fresh = s.fresh := rfl

/-! ### An I/O write (R101) -/

@[simp] theorem State.ioWrite_pc (s : State) (a v : Word) : (s.ioWrite a v).pc = s.pc := rfl
@[simp] theorem State.ioWrite_sr (s : State) (a v : Word) : (s.ioWrite a v).sr = s.sr := rfl
@[simp] theorem State.ioWrite_fer (s : State) (a v : Word) : (s.ioWrite a v).fer = s.fer := rfl
@[simp] theorem State.ioWrite_gpr (s : State) (a v : Word) : (s.ioWrite a v).gpr = s.gpr := rfl
@[simp] theorem State.ioWrite_sp (s : State) (a v : Word) : (s.ioWrite a v).sp = s.sp := rfl
@[simp] theorem State.ioWrite_ub (s : State) (a v : Word) : (s.ioWrite a v).ub = s.ub := rfl
@[simp] theorem State.ioWrite_bcr (s : State) (a v : Word) : (s.ioWrite a v).bcr = s.bcr := rfl
@[simp] theorem State.ioWrite_tpr (s : State) (a v : Word) : (s.ioWrite a v).tpr = s.tpr := rfl
@[simp] theorem State.ioWrite_tcr (s : State) (a v : Word) : (s.ioWrite a v).tcr = s.tcr := rfl
@[simp] theorem State.ioWrite_tr (s : State) (a v : Word) : (s.ioWrite a v).tr = s.tr := rfl
@[simp] theorem State.ioWrite_wcr (s : State) (a v : Word) : (s.ioWrite a v).wcr = s.wcr := rfl
@[simp] theorem State.ioWrite_wcrUpperOpen (s : State) (a v : Word) : (s.ioWrite a v).wcrUpperOpen = s.wcrUpperOpen := rfl
@[simp] theorem State.ioWrite_equalFlag (s : State) (a v : Word) : (s.ioWrite a v).equalFlag = s.equalFlag := rfl
@[simp] theorem State.ioWrite_eventFlag (s : State) (a v : Word) : (s.ioWrite a v).eventFlag = s.eventFlag := rfl
@[simp] theorem State.ioWrite_fcr (s : State) (a v : Word) : (s.ioWrite a v).fcr = s.fcr := rfl
@[simp] theorem State.ioWrite_mcr (s : State) (a v : Word) : (s.ioWrite a v).mcr = s.mcr := rfl
@[simp] theorem State.ioWrite_locals (s : State) (a v : Word) : (s.ioWrite a v).locals = s.locals := rfl
@[simp] theorem State.ioWrite_mem (s : State) (a v : Word) : (s.ioWrite a v).mem = s.mem := rfl
@[simp] theorem State.ioWrite_iramKept (s : State) (a v : Word) : (s.ioWrite a v).iramKept = s.iramKept := rfl
@[simp] theorem State.ioWrite_iramRelied (s : State) (a v : Word) : (s.ioWrite a v).iramRelied = s.iramRelied := rfl
@[simp] theorem State.ioWrite_stale (s : State) (a v : Word) : (s.ioWrite a v).stale = s.stale := rfl
@[simp] theorem State.ioWrite_lookBack (s : State) (a v : Word) : (s.ioWrite a v).lookBack = s.lookBack := rfl
@[simp] theorem State.ioWrite_lookAhead (s : State) (a v : Word) : (s.ioWrite a v).lookAhead = s.lookAhead := rfl
@[simp] theorem State.ioWrite_delayPending (s : State) (a v : Word) : (s.ioWrite a v).delayPending = s.delayPending := rfl
@[simp] theorem State.ioWrite_delayAddr (s : State) (a v : Word) : (s.ioWrite a v).delayAddr = s.delayAddr := rfl
@[simp] theorem State.ioWrite_slotAhead (s : State) (a v : Word) : (s.ioWrite a v).slotAhead = s.slotAhead := rfl
@[simp] theorem State.ioWrite_afterDelayedBranch (s : State) (a v : Word) : (s.ioWrite a v).afterDelayedBranch = s.afterDelayedBranch := rfl
@[simp] theorem State.ioWrite_callLockout (s : State) (a v : Word) : (s.ioWrite a v).callLockout = s.callLockout := rfl
@[simp] theorem State.ioWrite_extOvfPending (s : State) (a v : Word) : (s.ioWrite a v).extOvfPending = s.extOvfPending := rfl
@[simp] theorem State.ioWrite_parityPending (s : State) (a v : Word) : (s.ioWrite a v).parityPending = s.parityPending := rfl
@[simp] theorem State.ioWrite_prescaler (s : State) (a v : Word) : (s.ioWrite a v).prescaler = s.prescaler := rfl
@[simp] theorem State.ioWrite_io3Toggle (s : State) (a v : Word) : (s.ioWrite a v).io3Toggle = s.io3Toggle := rfl
@[simp] theorem State.ioWrite_powerDown (s : State) (a v : Word) : (s.ioWrite a v).powerDown = s.powerDown := rfl
@[simp] theorem State.ioWrite_resetRequest (s : State) (a v : Word) : (s.ioWrite a v).resetRequest = s.resetRequest := rfl
@[simp] theorem State.ioWrite_pins (s : State) (a v : Word) : (s.ioWrite a v).pins = s.pins := rfl
@[simp] theorem State.ioWrite_pinsDriven (s : State) (a v : Word) : (s.ioWrite a v).pinsDriven = s.pinsDriven := rfl
@[simp] theorem State.ioWrite_platform (s : State) (a v : Word) : (s.ioWrite a v).platform = s.platform := rfl
@[simp] theorem State.ioWrite_inputs (s : State) (a v : Word) : (s.ioWrite a v).inputs = s.inputs := rfl
@[simp] theorem State.ioWrite_between (s : State) (a v : Word) : (s.ioWrite a v).between = s.between := rfl
@[simp] theorem State.ioWrite_fresh (s : State) (a v : Word) : (s.ioWrite a v).fresh = s.fresh := rfl

/-! ### A store noted for the fetch (R133) -/

/-- The fields it leaves alone, at once. -/
theorem State.noteStale_frame (s : State) (r : Region) (a : Word) :
    s.noteStale r a = { s with stale := (s.noteStale r a).stale, mem := (s.noteStale r a).mem } := by
  unfold State.noteStale
  split <;> rfl
@[simp] theorem State.noteStale_pc (s : State) (r : Region) (a : Word) : (s.noteStale r a).pc = s.pc := (congrArg State.pc (State.noteStale_frame s r a) :)
@[simp] theorem State.noteStale_sr (s : State) (r : Region) (a : Word) : (s.noteStale r a).sr = s.sr := (congrArg State.sr (State.noteStale_frame s r a) :)
@[simp] theorem State.noteStale_fer (s : State) (r : Region) (a : Word) : (s.noteStale r a).fer = s.fer := (congrArg State.fer (State.noteStale_frame s r a) :)
@[simp] theorem State.noteStale_gpr (s : State) (r : Region) (a : Word) : (s.noteStale r a).gpr = s.gpr := (congrArg State.gpr (State.noteStale_frame s r a) :)
@[simp] theorem State.noteStale_sp (s : State) (r : Region) (a : Word) : (s.noteStale r a).sp = s.sp := (congrArg State.sp (State.noteStale_frame s r a) :)
@[simp] theorem State.noteStale_ub (s : State) (r : Region) (a : Word) : (s.noteStale r a).ub = s.ub := (congrArg State.ub (State.noteStale_frame s r a) :)
@[simp] theorem State.noteStale_bcr (s : State) (r : Region) (a : Word) : (s.noteStale r a).bcr = s.bcr := (congrArg State.bcr (State.noteStale_frame s r a) :)
@[simp] theorem State.noteStale_tpr (s : State) (r : Region) (a : Word) : (s.noteStale r a).tpr = s.tpr := (congrArg State.tpr (State.noteStale_frame s r a) :)
@[simp] theorem State.noteStale_tcr (s : State) (r : Region) (a : Word) : (s.noteStale r a).tcr = s.tcr := (congrArg State.tcr (State.noteStale_frame s r a) :)
@[simp] theorem State.noteStale_tr (s : State) (r : Region) (a : Word) : (s.noteStale r a).tr = s.tr := (congrArg State.tr (State.noteStale_frame s r a) :)
@[simp] theorem State.noteStale_wcr (s : State) (r : Region) (a : Word) : (s.noteStale r a).wcr = s.wcr := (congrArg State.wcr (State.noteStale_frame s r a) :)
@[simp] theorem State.noteStale_wcrUpperOpen (s : State) (r : Region) (a : Word) : (s.noteStale r a).wcrUpperOpen = s.wcrUpperOpen := (congrArg State.wcrUpperOpen (State.noteStale_frame s r a) :)
@[simp] theorem State.noteStale_equalFlag (s : State) (r : Region) (a : Word) : (s.noteStale r a).equalFlag = s.equalFlag := (congrArg State.equalFlag (State.noteStale_frame s r a) :)
@[simp] theorem State.noteStale_eventFlag (s : State) (r : Region) (a : Word) : (s.noteStale r a).eventFlag = s.eventFlag := (congrArg State.eventFlag (State.noteStale_frame s r a) :)
@[simp] theorem State.noteStale_fcr (s : State) (r : Region) (a : Word) : (s.noteStale r a).fcr = s.fcr := (congrArg State.fcr (State.noteStale_frame s r a) :)
@[simp] theorem State.noteStale_mcr (s : State) (r : Region) (a : Word) : (s.noteStale r a).mcr = s.mcr := (congrArg State.mcr (State.noteStale_frame s r a) :)
@[simp] theorem State.noteStale_locals (s : State) (r : Region) (a : Word) : (s.noteStale r a).locals = s.locals := (congrArg State.locals (State.noteStale_frame s r a) :)
@[simp] theorem State.noteStale_iramKept (s : State) (r : Region) (a : Word) : (s.noteStale r a).iramKept = s.iramKept := (congrArg State.iramKept (State.noteStale_frame s r a) :)
@[simp] theorem State.noteStale_iramRelied (s : State) (r : Region) (a : Word) : (s.noteStale r a).iramRelied = s.iramRelied := (congrArg State.iramRelied (State.noteStale_frame s r a) :)
@[simp] theorem State.noteStale_lookBack (s : State) (r : Region) (a : Word) : (s.noteStale r a).lookBack = s.lookBack := (congrArg State.lookBack (State.noteStale_frame s r a) :)
@[simp] theorem State.noteStale_lookAhead (s : State) (r : Region) (a : Word) : (s.noteStale r a).lookAhead = s.lookAhead := (congrArg State.lookAhead (State.noteStale_frame s r a) :)
@[simp] theorem State.noteStale_busLock (s : State) (r : Region) (a : Word) : (s.noteStale r a).busLock = s.busLock := (congrArg State.busLock (State.noteStale_frame s r a) :)
@[simp] theorem State.noteStale_delayPending (s : State) (r : Region) (a : Word) : (s.noteStale r a).delayPending = s.delayPending := (congrArg State.delayPending (State.noteStale_frame s r a) :)
@[simp] theorem State.noteStale_delayAddr (s : State) (r : Region) (a : Word) : (s.noteStale r a).delayAddr = s.delayAddr := (congrArg State.delayAddr (State.noteStale_frame s r a) :)
@[simp] theorem State.noteStale_slotAhead (s : State) (r : Region) (a : Word) : (s.noteStale r a).slotAhead = s.slotAhead := (congrArg State.slotAhead (State.noteStale_frame s r a) :)
@[simp] theorem State.noteStale_afterDelayedBranch (s : State) (r : Region) (a : Word) : (s.noteStale r a).afterDelayedBranch = s.afterDelayedBranch := (congrArg State.afterDelayedBranch (State.noteStale_frame s r a) :)
@[simp] theorem State.noteStale_callLockout (s : State) (r : Region) (a : Word) : (s.noteStale r a).callLockout = s.callLockout := (congrArg State.callLockout (State.noteStale_frame s r a) :)
@[simp] theorem State.noteStale_extOvfPending (s : State) (r : Region) (a : Word) : (s.noteStale r a).extOvfPending = s.extOvfPending := (congrArg State.extOvfPending (State.noteStale_frame s r a) :)
@[simp] theorem State.noteStale_parityPending (s : State) (r : Region) (a : Word) : (s.noteStale r a).parityPending = s.parityPending := (congrArg State.parityPending (State.noteStale_frame s r a) :)
@[simp] theorem State.noteStale_prescaler (s : State) (r : Region) (a : Word) : (s.noteStale r a).prescaler = s.prescaler := (congrArg State.prescaler (State.noteStale_frame s r a) :)
@[simp] theorem State.noteStale_io3Toggle (s : State) (r : Region) (a : Word) : (s.noteStale r a).io3Toggle = s.io3Toggle := (congrArg State.io3Toggle (State.noteStale_frame s r a) :)
@[simp] theorem State.noteStale_powerDown (s : State) (r : Region) (a : Word) : (s.noteStale r a).powerDown = s.powerDown := (congrArg State.powerDown (State.noteStale_frame s r a) :)
@[simp] theorem State.noteStale_resetRequest (s : State) (r : Region) (a : Word) : (s.noteStale r a).resetRequest = s.resetRequest := (congrArg State.resetRequest (State.noteStale_frame s r a) :)
@[simp] theorem State.noteStale_pins (s : State) (r : Region) (a : Word) : (s.noteStale r a).pins = s.pins := (congrArg State.pins (State.noteStale_frame s r a) :)
@[simp] theorem State.noteStale_pinsDriven (s : State) (r : Region) (a : Word) : (s.noteStale r a).pinsDriven = s.pinsDriven := (congrArg State.pinsDriven (State.noteStale_frame s r a) :)
@[simp] theorem State.noteStale_platform (s : State) (r : Region) (a : Word) : (s.noteStale r a).platform = s.platform := (congrArg State.platform (State.noteStale_frame s r a) :)
@[simp] theorem State.noteStale_inputs (s : State) (r : Region) (a : Word) : (s.noteStale r a).inputs = s.inputs := (congrArg State.inputs (State.noteStale_frame s r a) :)
@[simp] theorem State.noteStale_between (s : State) (r : Region) (a : Word) : (s.noteStale r a).between = s.between := (congrArg State.between (State.noteStale_frame s r a) :)
@[simp] theorem State.noteStale_ioTrace (s : State) (r : Region) (a : Word) : (s.noteStale r a).ioTrace = s.ioTrace := (congrArg State.ioTrace (State.noteStale_frame s r a) :)
@[simp] theorem State.noteStale_fresh (s : State) (r : Region) (a : Word) : (s.noteStale r a).fresh = s.fresh := (congrArg State.fresh (State.noteStale_frame s r a) :)

/-! ### One byte stored -/

/-- The fields it leaves alone, at once. -/
theorem State.putByte_frame (s : State) (r : Region) (a : Word) (v : Byte) :
    s.putByte r a v = { s with mem := (s.putByte r a v).mem, iramKept := (s.putByte r a v).iramKept } := by
  unfold State.putByte
  split <;> rfl
@[simp] theorem State.putByte_pc (s : State) (r : Region) (a : Word) (v : Byte) : (s.putByte r a v).pc = s.pc := (congrArg State.pc (State.putByte_frame s r a v) :)
@[simp] theorem State.putByte_sr (s : State) (r : Region) (a : Word) (v : Byte) : (s.putByte r a v).sr = s.sr := (congrArg State.sr (State.putByte_frame s r a v) :)
@[simp] theorem State.putByte_fer (s : State) (r : Region) (a : Word) (v : Byte) : (s.putByte r a v).fer = s.fer := (congrArg State.fer (State.putByte_frame s r a v) :)
@[simp] theorem State.putByte_gpr (s : State) (r : Region) (a : Word) (v : Byte) : (s.putByte r a v).gpr = s.gpr := (congrArg State.gpr (State.putByte_frame s r a v) :)
@[simp] theorem State.putByte_sp (s : State) (r : Region) (a : Word) (v : Byte) : (s.putByte r a v).sp = s.sp := (congrArg State.sp (State.putByte_frame s r a v) :)
@[simp] theorem State.putByte_ub (s : State) (r : Region) (a : Word) (v : Byte) : (s.putByte r a v).ub = s.ub := (congrArg State.ub (State.putByte_frame s r a v) :)
@[simp] theorem State.putByte_bcr (s : State) (r : Region) (a : Word) (v : Byte) : (s.putByte r a v).bcr = s.bcr := (congrArg State.bcr (State.putByte_frame s r a v) :)
@[simp] theorem State.putByte_tpr (s : State) (r : Region) (a : Word) (v : Byte) : (s.putByte r a v).tpr = s.tpr := (congrArg State.tpr (State.putByte_frame s r a v) :)
@[simp] theorem State.putByte_tcr (s : State) (r : Region) (a : Word) (v : Byte) : (s.putByte r a v).tcr = s.tcr := (congrArg State.tcr (State.putByte_frame s r a v) :)
@[simp] theorem State.putByte_tr (s : State) (r : Region) (a : Word) (v : Byte) : (s.putByte r a v).tr = s.tr := (congrArg State.tr (State.putByte_frame s r a v) :)
@[simp] theorem State.putByte_wcr (s : State) (r : Region) (a : Word) (v : Byte) : (s.putByte r a v).wcr = s.wcr := (congrArg State.wcr (State.putByte_frame s r a v) :)
@[simp] theorem State.putByte_wcrUpperOpen (s : State) (r : Region) (a : Word) (v : Byte) : (s.putByte r a v).wcrUpperOpen = s.wcrUpperOpen := (congrArg State.wcrUpperOpen (State.putByte_frame s r a v) :)
@[simp] theorem State.putByte_equalFlag (s : State) (r : Region) (a : Word) (v : Byte) : (s.putByte r a v).equalFlag = s.equalFlag := (congrArg State.equalFlag (State.putByte_frame s r a v) :)
@[simp] theorem State.putByte_eventFlag (s : State) (r : Region) (a : Word) (v : Byte) : (s.putByte r a v).eventFlag = s.eventFlag := (congrArg State.eventFlag (State.putByte_frame s r a v) :)
@[simp] theorem State.putByte_fcr (s : State) (r : Region) (a : Word) (v : Byte) : (s.putByte r a v).fcr = s.fcr := (congrArg State.fcr (State.putByte_frame s r a v) :)
@[simp] theorem State.putByte_mcr (s : State) (r : Region) (a : Word) (v : Byte) : (s.putByte r a v).mcr = s.mcr := (congrArg State.mcr (State.putByte_frame s r a v) :)
@[simp] theorem State.putByte_locals (s : State) (r : Region) (a : Word) (v : Byte) : (s.putByte r a v).locals = s.locals := (congrArg State.locals (State.putByte_frame s r a v) :)
@[simp] theorem State.putByte_iramRelied (s : State) (r : Region) (a : Word) (v : Byte) : (s.putByte r a v).iramRelied = s.iramRelied := (congrArg State.iramRelied (State.putByte_frame s r a v) :)
@[simp] theorem State.putByte_stale (s : State) (r : Region) (a : Word) (v : Byte) : (s.putByte r a v).stale = s.stale := (congrArg State.stale (State.putByte_frame s r a v) :)
@[simp] theorem State.putByte_lookBack (s : State) (r : Region) (a : Word) (v : Byte) : (s.putByte r a v).lookBack = s.lookBack := (congrArg State.lookBack (State.putByte_frame s r a v) :)
@[simp] theorem State.putByte_lookAhead (s : State) (r : Region) (a : Word) (v : Byte) : (s.putByte r a v).lookAhead = s.lookAhead := (congrArg State.lookAhead (State.putByte_frame s r a v) :)
@[simp] theorem State.putByte_busLock (s : State) (r : Region) (a : Word) (v : Byte) : (s.putByte r a v).busLock = s.busLock := (congrArg State.busLock (State.putByte_frame s r a v) :)
@[simp] theorem State.putByte_delayPending (s : State) (r : Region) (a : Word) (v : Byte) : (s.putByte r a v).delayPending = s.delayPending := (congrArg State.delayPending (State.putByte_frame s r a v) :)
@[simp] theorem State.putByte_delayAddr (s : State) (r : Region) (a : Word) (v : Byte) : (s.putByte r a v).delayAddr = s.delayAddr := (congrArg State.delayAddr (State.putByte_frame s r a v) :)
@[simp] theorem State.putByte_slotAhead (s : State) (r : Region) (a : Word) (v : Byte) : (s.putByte r a v).slotAhead = s.slotAhead := (congrArg State.slotAhead (State.putByte_frame s r a v) :)
@[simp] theorem State.putByte_afterDelayedBranch (s : State) (r : Region) (a : Word) (v : Byte) : (s.putByte r a v).afterDelayedBranch = s.afterDelayedBranch := (congrArg State.afterDelayedBranch (State.putByte_frame s r a v) :)
@[simp] theorem State.putByte_callLockout (s : State) (r : Region) (a : Word) (v : Byte) : (s.putByte r a v).callLockout = s.callLockout := (congrArg State.callLockout (State.putByte_frame s r a v) :)
@[simp] theorem State.putByte_extOvfPending (s : State) (r : Region) (a : Word) (v : Byte) : (s.putByte r a v).extOvfPending = s.extOvfPending := (congrArg State.extOvfPending (State.putByte_frame s r a v) :)
@[simp] theorem State.putByte_parityPending (s : State) (r : Region) (a : Word) (v : Byte) : (s.putByte r a v).parityPending = s.parityPending := (congrArg State.parityPending (State.putByte_frame s r a v) :)
@[simp] theorem State.putByte_prescaler (s : State) (r : Region) (a : Word) (v : Byte) : (s.putByte r a v).prescaler = s.prescaler := (congrArg State.prescaler (State.putByte_frame s r a v) :)
@[simp] theorem State.putByte_io3Toggle (s : State) (r : Region) (a : Word) (v : Byte) : (s.putByte r a v).io3Toggle = s.io3Toggle := (congrArg State.io3Toggle (State.putByte_frame s r a v) :)
@[simp] theorem State.putByte_powerDown (s : State) (r : Region) (a : Word) (v : Byte) : (s.putByte r a v).powerDown = s.powerDown := (congrArg State.powerDown (State.putByte_frame s r a v) :)
@[simp] theorem State.putByte_resetRequest (s : State) (r : Region) (a : Word) (v : Byte) : (s.putByte r a v).resetRequest = s.resetRequest := (congrArg State.resetRequest (State.putByte_frame s r a v) :)
@[simp] theorem State.putByte_pins (s : State) (r : Region) (a : Word) (v : Byte) : (s.putByte r a v).pins = s.pins := (congrArg State.pins (State.putByte_frame s r a v) :)
@[simp] theorem State.putByte_pinsDriven (s : State) (r : Region) (a : Word) (v : Byte) : (s.putByte r a v).pinsDriven = s.pinsDriven := (congrArg State.pinsDriven (State.putByte_frame s r a v) :)
@[simp] theorem State.putByte_platform (s : State) (r : Region) (a : Word) (v : Byte) : (s.putByte r a v).platform = s.platform := (congrArg State.platform (State.putByte_frame s r a v) :)
@[simp] theorem State.putByte_inputs (s : State) (r : Region) (a : Word) (v : Byte) : (s.putByte r a v).inputs = s.inputs := (congrArg State.inputs (State.putByte_frame s r a v) :)
@[simp] theorem State.putByte_between (s : State) (r : Region) (a : Word) (v : Byte) : (s.putByte r a v).between = s.between := (congrArg State.between (State.putByte_frame s r a v) :)
@[simp] theorem State.putByte_ioTrace (s : State) (r : Region) (a : Word) (v : Byte) : (s.putByte r a v).ioTrace = s.ioTrace := (congrArg State.ioTrace (State.putByte_frame s r a v) :)
@[simp] theorem State.putByte_fresh (s : State) (r : Region) (a : Word) (v : Byte) : (s.putByte r a v).fresh = s.fresh := (congrArg State.fresh (State.putByte_frame s r a v) :)

/-! ### A byte store (R234) -/

@[simp] theorem State.writeByte_pc (s : State) (r : Region) (a : Word) (v : Byte) : (s.writeByte r a v).pc = s.pc := (State.putByte_pc ..).trans (State.noteStale_pc ..)
@[simp] theorem State.writeByte_sr (s : State) (r : Region) (a : Word) (v : Byte) : (s.writeByte r a v).sr = s.sr := (State.putByte_sr ..).trans (State.noteStale_sr ..)
@[simp] theorem State.writeByte_fer (s : State) (r : Region) (a : Word) (v : Byte) : (s.writeByte r a v).fer = s.fer := (State.putByte_fer ..).trans (State.noteStale_fer ..)
@[simp] theorem State.writeByte_gpr (s : State) (r : Region) (a : Word) (v : Byte) : (s.writeByte r a v).gpr = s.gpr := (State.putByte_gpr ..).trans (State.noteStale_gpr ..)
@[simp] theorem State.writeByte_sp (s : State) (r : Region) (a : Word) (v : Byte) : (s.writeByte r a v).sp = s.sp := (State.putByte_sp ..).trans (State.noteStale_sp ..)
@[simp] theorem State.writeByte_ub (s : State) (r : Region) (a : Word) (v : Byte) : (s.writeByte r a v).ub = s.ub := (State.putByte_ub ..).trans (State.noteStale_ub ..)
@[simp] theorem State.writeByte_bcr (s : State) (r : Region) (a : Word) (v : Byte) : (s.writeByte r a v).bcr = s.bcr := (State.putByte_bcr ..).trans (State.noteStale_bcr ..)
@[simp] theorem State.writeByte_tpr (s : State) (r : Region) (a : Word) (v : Byte) : (s.writeByte r a v).tpr = s.tpr := (State.putByte_tpr ..).trans (State.noteStale_tpr ..)
@[simp] theorem State.writeByte_tcr (s : State) (r : Region) (a : Word) (v : Byte) : (s.writeByte r a v).tcr = s.tcr := (State.putByte_tcr ..).trans (State.noteStale_tcr ..)
@[simp] theorem State.writeByte_tr (s : State) (r : Region) (a : Word) (v : Byte) : (s.writeByte r a v).tr = s.tr := (State.putByte_tr ..).trans (State.noteStale_tr ..)
@[simp] theorem State.writeByte_wcr (s : State) (r : Region) (a : Word) (v : Byte) : (s.writeByte r a v).wcr = s.wcr := (State.putByte_wcr ..).trans (State.noteStale_wcr ..)
@[simp] theorem State.writeByte_wcrUpperOpen (s : State) (r : Region) (a : Word) (v : Byte) : (s.writeByte r a v).wcrUpperOpen = s.wcrUpperOpen := (State.putByte_wcrUpperOpen ..).trans (State.noteStale_wcrUpperOpen ..)
@[simp] theorem State.writeByte_equalFlag (s : State) (r : Region) (a : Word) (v : Byte) : (s.writeByte r a v).equalFlag = s.equalFlag := (State.putByte_equalFlag ..).trans (State.noteStale_equalFlag ..)
@[simp] theorem State.writeByte_eventFlag (s : State) (r : Region) (a : Word) (v : Byte) : (s.writeByte r a v).eventFlag = s.eventFlag := (State.putByte_eventFlag ..).trans (State.noteStale_eventFlag ..)
@[simp] theorem State.writeByte_fcr (s : State) (r : Region) (a : Word) (v : Byte) : (s.writeByte r a v).fcr = s.fcr := (State.putByte_fcr ..).trans (State.noteStale_fcr ..)
@[simp] theorem State.writeByte_mcr (s : State) (r : Region) (a : Word) (v : Byte) : (s.writeByte r a v).mcr = s.mcr := (State.putByte_mcr ..).trans (State.noteStale_mcr ..)
@[simp] theorem State.writeByte_locals (s : State) (r : Region) (a : Word) (v : Byte) : (s.writeByte r a v).locals = s.locals := (State.putByte_locals ..).trans (State.noteStale_locals ..)
@[simp] theorem State.writeByte_iramRelied (s : State) (r : Region) (a : Word) (v : Byte) : (s.writeByte r a v).iramRelied = s.iramRelied := (State.putByte_iramRelied ..).trans (State.noteStale_iramRelied ..)
@[simp] theorem State.writeByte_lookBack (s : State) (r : Region) (a : Word) (v : Byte) : (s.writeByte r a v).lookBack = s.lookBack := (State.putByte_lookBack ..).trans (State.noteStale_lookBack ..)
@[simp] theorem State.writeByte_lookAhead (s : State) (r : Region) (a : Word) (v : Byte) : (s.writeByte r a v).lookAhead = s.lookAhead := (State.putByte_lookAhead ..).trans (State.noteStale_lookAhead ..)
@[simp] theorem State.writeByte_busLock (s : State) (r : Region) (a : Word) (v : Byte) : (s.writeByte r a v).busLock = s.busLock := (State.putByte_busLock ..).trans (State.noteStale_busLock ..)
@[simp] theorem State.writeByte_delayPending (s : State) (r : Region) (a : Word) (v : Byte) : (s.writeByte r a v).delayPending = s.delayPending := (State.putByte_delayPending ..).trans (State.noteStale_delayPending ..)
@[simp] theorem State.writeByte_delayAddr (s : State) (r : Region) (a : Word) (v : Byte) : (s.writeByte r a v).delayAddr = s.delayAddr := (State.putByte_delayAddr ..).trans (State.noteStale_delayAddr ..)
@[simp] theorem State.writeByte_slotAhead (s : State) (r : Region) (a : Word) (v : Byte) : (s.writeByte r a v).slotAhead = s.slotAhead := (State.putByte_slotAhead ..).trans (State.noteStale_slotAhead ..)
@[simp] theorem State.writeByte_afterDelayedBranch (s : State) (r : Region) (a : Word) (v : Byte) : (s.writeByte r a v).afterDelayedBranch = s.afterDelayedBranch := (State.putByte_afterDelayedBranch ..).trans (State.noteStale_afterDelayedBranch ..)
@[simp] theorem State.writeByte_callLockout (s : State) (r : Region) (a : Word) (v : Byte) : (s.writeByte r a v).callLockout = s.callLockout := (State.putByte_callLockout ..).trans (State.noteStale_callLockout ..)
@[simp] theorem State.writeByte_extOvfPending (s : State) (r : Region) (a : Word) (v : Byte) : (s.writeByte r a v).extOvfPending = s.extOvfPending := (State.putByte_extOvfPending ..).trans (State.noteStale_extOvfPending ..)
@[simp] theorem State.writeByte_parityPending (s : State) (r : Region) (a : Word) (v : Byte) : (s.writeByte r a v).parityPending = s.parityPending := (State.putByte_parityPending ..).trans (State.noteStale_parityPending ..)
@[simp] theorem State.writeByte_prescaler (s : State) (r : Region) (a : Word) (v : Byte) : (s.writeByte r a v).prescaler = s.prescaler := (State.putByte_prescaler ..).trans (State.noteStale_prescaler ..)
@[simp] theorem State.writeByte_io3Toggle (s : State) (r : Region) (a : Word) (v : Byte) : (s.writeByte r a v).io3Toggle = s.io3Toggle := (State.putByte_io3Toggle ..).trans (State.noteStale_io3Toggle ..)
@[simp] theorem State.writeByte_powerDown (s : State) (r : Region) (a : Word) (v : Byte) : (s.writeByte r a v).powerDown = s.powerDown := (State.putByte_powerDown ..).trans (State.noteStale_powerDown ..)
@[simp] theorem State.writeByte_resetRequest (s : State) (r : Region) (a : Word) (v : Byte) : (s.writeByte r a v).resetRequest = s.resetRequest := (State.putByte_resetRequest ..).trans (State.noteStale_resetRequest ..)
@[simp] theorem State.writeByte_pins (s : State) (r : Region) (a : Word) (v : Byte) : (s.writeByte r a v).pins = s.pins := (State.putByte_pins ..).trans (State.noteStale_pins ..)
@[simp] theorem State.writeByte_pinsDriven (s : State) (r : Region) (a : Word) (v : Byte) : (s.writeByte r a v).pinsDriven = s.pinsDriven := (State.putByte_pinsDriven ..).trans (State.noteStale_pinsDriven ..)
@[simp] theorem State.writeByte_platform (s : State) (r : Region) (a : Word) (v : Byte) : (s.writeByte r a v).platform = s.platform := (State.putByte_platform ..).trans (State.noteStale_platform ..)
@[simp] theorem State.writeByte_inputs (s : State) (r : Region) (a : Word) (v : Byte) : (s.writeByte r a v).inputs = s.inputs := (State.putByte_inputs ..).trans (State.noteStale_inputs ..)
@[simp] theorem State.writeByte_between (s : State) (r : Region) (a : Word) (v : Byte) : (s.writeByte r a v).between = s.between := (State.putByte_between ..).trans (State.noteStale_between ..)
@[simp] theorem State.writeByte_ioTrace (s : State) (r : Region) (a : Word) (v : Byte) : (s.writeByte r a v).ioTrace = s.ioTrace := (State.putByte_ioTrace ..).trans (State.noteStale_ioTrace ..)
@[simp] theorem State.writeByte_fresh (s : State) (r : Region) (a : Word) (v : Byte) : (s.writeByte r a v).fresh = s.fresh := (State.putByte_fresh ..).trans (State.noteStale_fresh ..)

/-! ### A halfword store (R234) -/

@[simp] theorem State.writeHalf_pc (s : State) (r : Region) (a : Word) (v : Half) : (s.writeHalf r a v).pc = s.pc := (State.putByte_pc ..).trans ((State.putByte_pc ..).trans (State.noteStale_pc ..))
@[simp] theorem State.writeHalf_sr (s : State) (r : Region) (a : Word) (v : Half) : (s.writeHalf r a v).sr = s.sr := (State.putByte_sr ..).trans ((State.putByte_sr ..).trans (State.noteStale_sr ..))
@[simp] theorem State.writeHalf_fer (s : State) (r : Region) (a : Word) (v : Half) : (s.writeHalf r a v).fer = s.fer := (State.putByte_fer ..).trans ((State.putByte_fer ..).trans (State.noteStale_fer ..))
@[simp] theorem State.writeHalf_gpr (s : State) (r : Region) (a : Word) (v : Half) : (s.writeHalf r a v).gpr = s.gpr := (State.putByte_gpr ..).trans ((State.putByte_gpr ..).trans (State.noteStale_gpr ..))
@[simp] theorem State.writeHalf_sp (s : State) (r : Region) (a : Word) (v : Half) : (s.writeHalf r a v).sp = s.sp := (State.putByte_sp ..).trans ((State.putByte_sp ..).trans (State.noteStale_sp ..))
@[simp] theorem State.writeHalf_ub (s : State) (r : Region) (a : Word) (v : Half) : (s.writeHalf r a v).ub = s.ub := (State.putByte_ub ..).trans ((State.putByte_ub ..).trans (State.noteStale_ub ..))
@[simp] theorem State.writeHalf_bcr (s : State) (r : Region) (a : Word) (v : Half) : (s.writeHalf r a v).bcr = s.bcr := (State.putByte_bcr ..).trans ((State.putByte_bcr ..).trans (State.noteStale_bcr ..))
@[simp] theorem State.writeHalf_tpr (s : State) (r : Region) (a : Word) (v : Half) : (s.writeHalf r a v).tpr = s.tpr := (State.putByte_tpr ..).trans ((State.putByte_tpr ..).trans (State.noteStale_tpr ..))
@[simp] theorem State.writeHalf_tcr (s : State) (r : Region) (a : Word) (v : Half) : (s.writeHalf r a v).tcr = s.tcr := (State.putByte_tcr ..).trans ((State.putByte_tcr ..).trans (State.noteStale_tcr ..))
@[simp] theorem State.writeHalf_tr (s : State) (r : Region) (a : Word) (v : Half) : (s.writeHalf r a v).tr = s.tr := (State.putByte_tr ..).trans ((State.putByte_tr ..).trans (State.noteStale_tr ..))
@[simp] theorem State.writeHalf_wcr (s : State) (r : Region) (a : Word) (v : Half) : (s.writeHalf r a v).wcr = s.wcr := (State.putByte_wcr ..).trans ((State.putByte_wcr ..).trans (State.noteStale_wcr ..))
@[simp] theorem State.writeHalf_wcrUpperOpen (s : State) (r : Region) (a : Word) (v : Half) : (s.writeHalf r a v).wcrUpperOpen = s.wcrUpperOpen := (State.putByte_wcrUpperOpen ..).trans ((State.putByte_wcrUpperOpen ..).trans (State.noteStale_wcrUpperOpen ..))
@[simp] theorem State.writeHalf_equalFlag (s : State) (r : Region) (a : Word) (v : Half) : (s.writeHalf r a v).equalFlag = s.equalFlag := (State.putByte_equalFlag ..).trans ((State.putByte_equalFlag ..).trans (State.noteStale_equalFlag ..))
@[simp] theorem State.writeHalf_eventFlag (s : State) (r : Region) (a : Word) (v : Half) : (s.writeHalf r a v).eventFlag = s.eventFlag := (State.putByte_eventFlag ..).trans ((State.putByte_eventFlag ..).trans (State.noteStale_eventFlag ..))
@[simp] theorem State.writeHalf_fcr (s : State) (r : Region) (a : Word) (v : Half) : (s.writeHalf r a v).fcr = s.fcr := (State.putByte_fcr ..).trans ((State.putByte_fcr ..).trans (State.noteStale_fcr ..))
@[simp] theorem State.writeHalf_mcr (s : State) (r : Region) (a : Word) (v : Half) : (s.writeHalf r a v).mcr = s.mcr := (State.putByte_mcr ..).trans ((State.putByte_mcr ..).trans (State.noteStale_mcr ..))
@[simp] theorem State.writeHalf_locals (s : State) (r : Region) (a : Word) (v : Half) : (s.writeHalf r a v).locals = s.locals := (State.putByte_locals ..).trans ((State.putByte_locals ..).trans (State.noteStale_locals ..))
@[simp] theorem State.writeHalf_iramRelied (s : State) (r : Region) (a : Word) (v : Half) : (s.writeHalf r a v).iramRelied = s.iramRelied := (State.putByte_iramRelied ..).trans ((State.putByte_iramRelied ..).trans (State.noteStale_iramRelied ..))
@[simp] theorem State.writeHalf_lookBack (s : State) (r : Region) (a : Word) (v : Half) : (s.writeHalf r a v).lookBack = s.lookBack := (State.putByte_lookBack ..).trans ((State.putByte_lookBack ..).trans (State.noteStale_lookBack ..))
@[simp] theorem State.writeHalf_lookAhead (s : State) (r : Region) (a : Word) (v : Half) : (s.writeHalf r a v).lookAhead = s.lookAhead := (State.putByte_lookAhead ..).trans ((State.putByte_lookAhead ..).trans (State.noteStale_lookAhead ..))
@[simp] theorem State.writeHalf_busLock (s : State) (r : Region) (a : Word) (v : Half) : (s.writeHalf r a v).busLock = s.busLock := (State.putByte_busLock ..).trans ((State.putByte_busLock ..).trans (State.noteStale_busLock ..))
@[simp] theorem State.writeHalf_delayPending (s : State) (r : Region) (a : Word) (v : Half) : (s.writeHalf r a v).delayPending = s.delayPending := (State.putByte_delayPending ..).trans ((State.putByte_delayPending ..).trans (State.noteStale_delayPending ..))
@[simp] theorem State.writeHalf_delayAddr (s : State) (r : Region) (a : Word) (v : Half) : (s.writeHalf r a v).delayAddr = s.delayAddr := (State.putByte_delayAddr ..).trans ((State.putByte_delayAddr ..).trans (State.noteStale_delayAddr ..))
@[simp] theorem State.writeHalf_slotAhead (s : State) (r : Region) (a : Word) (v : Half) : (s.writeHalf r a v).slotAhead = s.slotAhead := (State.putByte_slotAhead ..).trans ((State.putByte_slotAhead ..).trans (State.noteStale_slotAhead ..))
@[simp] theorem State.writeHalf_afterDelayedBranch (s : State) (r : Region) (a : Word) (v : Half) : (s.writeHalf r a v).afterDelayedBranch = s.afterDelayedBranch := (State.putByte_afterDelayedBranch ..).trans ((State.putByte_afterDelayedBranch ..).trans (State.noteStale_afterDelayedBranch ..))
@[simp] theorem State.writeHalf_callLockout (s : State) (r : Region) (a : Word) (v : Half) : (s.writeHalf r a v).callLockout = s.callLockout := (State.putByte_callLockout ..).trans ((State.putByte_callLockout ..).trans (State.noteStale_callLockout ..))
@[simp] theorem State.writeHalf_extOvfPending (s : State) (r : Region) (a : Word) (v : Half) : (s.writeHalf r a v).extOvfPending = s.extOvfPending := (State.putByte_extOvfPending ..).trans ((State.putByte_extOvfPending ..).trans (State.noteStale_extOvfPending ..))
@[simp] theorem State.writeHalf_parityPending (s : State) (r : Region) (a : Word) (v : Half) : (s.writeHalf r a v).parityPending = s.parityPending := (State.putByte_parityPending ..).trans ((State.putByte_parityPending ..).trans (State.noteStale_parityPending ..))
@[simp] theorem State.writeHalf_prescaler (s : State) (r : Region) (a : Word) (v : Half) : (s.writeHalf r a v).prescaler = s.prescaler := (State.putByte_prescaler ..).trans ((State.putByte_prescaler ..).trans (State.noteStale_prescaler ..))
@[simp] theorem State.writeHalf_io3Toggle (s : State) (r : Region) (a : Word) (v : Half) : (s.writeHalf r a v).io3Toggle = s.io3Toggle := (State.putByte_io3Toggle ..).trans ((State.putByte_io3Toggle ..).trans (State.noteStale_io3Toggle ..))
@[simp] theorem State.writeHalf_powerDown (s : State) (r : Region) (a : Word) (v : Half) : (s.writeHalf r a v).powerDown = s.powerDown := (State.putByte_powerDown ..).trans ((State.putByte_powerDown ..).trans (State.noteStale_powerDown ..))
@[simp] theorem State.writeHalf_resetRequest (s : State) (r : Region) (a : Word) (v : Half) : (s.writeHalf r a v).resetRequest = s.resetRequest := (State.putByte_resetRequest ..).trans ((State.putByte_resetRequest ..).trans (State.noteStale_resetRequest ..))
@[simp] theorem State.writeHalf_pins (s : State) (r : Region) (a : Word) (v : Half) : (s.writeHalf r a v).pins = s.pins := (State.putByte_pins ..).trans ((State.putByte_pins ..).trans (State.noteStale_pins ..))
@[simp] theorem State.writeHalf_pinsDriven (s : State) (r : Region) (a : Word) (v : Half) : (s.writeHalf r a v).pinsDriven = s.pinsDriven := (State.putByte_pinsDriven ..).trans ((State.putByte_pinsDriven ..).trans (State.noteStale_pinsDriven ..))
@[simp] theorem State.writeHalf_platform (s : State) (r : Region) (a : Word) (v : Half) : (s.writeHalf r a v).platform = s.platform := (State.putByte_platform ..).trans ((State.putByte_platform ..).trans (State.noteStale_platform ..))
@[simp] theorem State.writeHalf_inputs (s : State) (r : Region) (a : Word) (v : Half) : (s.writeHalf r a v).inputs = s.inputs := (State.putByte_inputs ..).trans ((State.putByte_inputs ..).trans (State.noteStale_inputs ..))
@[simp] theorem State.writeHalf_between (s : State) (r : Region) (a : Word) (v : Half) : (s.writeHalf r a v).between = s.between := (State.putByte_between ..).trans ((State.putByte_between ..).trans (State.noteStale_between ..))
@[simp] theorem State.writeHalf_ioTrace (s : State) (r : Region) (a : Word) (v : Half) : (s.writeHalf r a v).ioTrace = s.ioTrace := (State.putByte_ioTrace ..).trans ((State.putByte_ioTrace ..).trans (State.noteStale_ioTrace ..))
@[simp] theorem State.writeHalf_fresh (s : State) (r : Region) (a : Word) (v : Half) : (s.writeHalf r a v).fresh = s.fresh := (State.putByte_fresh ..).trans ((State.putByte_fresh ..).trans (State.noteStale_fresh ..))

/-! ### A word store (R234) -/

@[simp] theorem State.writeWord_pc (s : State) (r : Region) (a v : Word) : (s.writeWord r a v).pc = s.pc := (State.putByte_pc ..).trans ((State.putByte_pc ..).trans ((State.putByte_pc ..).trans ((State.putByte_pc ..).trans ((State.noteStale_pc ..).trans (State.noteStale_pc ..)))))
@[simp] theorem State.writeWord_sr (s : State) (r : Region) (a v : Word) : (s.writeWord r a v).sr = s.sr := (State.putByte_sr ..).trans ((State.putByte_sr ..).trans ((State.putByte_sr ..).trans ((State.putByte_sr ..).trans ((State.noteStale_sr ..).trans (State.noteStale_sr ..)))))
@[simp] theorem State.writeWord_fer (s : State) (r : Region) (a v : Word) : (s.writeWord r a v).fer = s.fer := (State.putByte_fer ..).trans ((State.putByte_fer ..).trans ((State.putByte_fer ..).trans ((State.putByte_fer ..).trans ((State.noteStale_fer ..).trans (State.noteStale_fer ..)))))
@[simp] theorem State.writeWord_gpr (s : State) (r : Region) (a v : Word) : (s.writeWord r a v).gpr = s.gpr := (State.putByte_gpr ..).trans ((State.putByte_gpr ..).trans ((State.putByte_gpr ..).trans ((State.putByte_gpr ..).trans ((State.noteStale_gpr ..).trans (State.noteStale_gpr ..)))))
@[simp] theorem State.writeWord_sp (s : State) (r : Region) (a v : Word) : (s.writeWord r a v).sp = s.sp := (State.putByte_sp ..).trans ((State.putByte_sp ..).trans ((State.putByte_sp ..).trans ((State.putByte_sp ..).trans ((State.noteStale_sp ..).trans (State.noteStale_sp ..)))))
@[simp] theorem State.writeWord_ub (s : State) (r : Region) (a v : Word) : (s.writeWord r a v).ub = s.ub := (State.putByte_ub ..).trans ((State.putByte_ub ..).trans ((State.putByte_ub ..).trans ((State.putByte_ub ..).trans ((State.noteStale_ub ..).trans (State.noteStale_ub ..)))))
@[simp] theorem State.writeWord_bcr (s : State) (r : Region) (a v : Word) : (s.writeWord r a v).bcr = s.bcr := (State.putByte_bcr ..).trans ((State.putByte_bcr ..).trans ((State.putByte_bcr ..).trans ((State.putByte_bcr ..).trans ((State.noteStale_bcr ..).trans (State.noteStale_bcr ..)))))
@[simp] theorem State.writeWord_tpr (s : State) (r : Region) (a v : Word) : (s.writeWord r a v).tpr = s.tpr := (State.putByte_tpr ..).trans ((State.putByte_tpr ..).trans ((State.putByte_tpr ..).trans ((State.putByte_tpr ..).trans ((State.noteStale_tpr ..).trans (State.noteStale_tpr ..)))))
@[simp] theorem State.writeWord_tcr (s : State) (r : Region) (a v : Word) : (s.writeWord r a v).tcr = s.tcr := (State.putByte_tcr ..).trans ((State.putByte_tcr ..).trans ((State.putByte_tcr ..).trans ((State.putByte_tcr ..).trans ((State.noteStale_tcr ..).trans (State.noteStale_tcr ..)))))
@[simp] theorem State.writeWord_tr (s : State) (r : Region) (a v : Word) : (s.writeWord r a v).tr = s.tr := (State.putByte_tr ..).trans ((State.putByte_tr ..).trans ((State.putByte_tr ..).trans ((State.putByte_tr ..).trans ((State.noteStale_tr ..).trans (State.noteStale_tr ..)))))
@[simp] theorem State.writeWord_wcr (s : State) (r : Region) (a v : Word) : (s.writeWord r a v).wcr = s.wcr := (State.putByte_wcr ..).trans ((State.putByte_wcr ..).trans ((State.putByte_wcr ..).trans ((State.putByte_wcr ..).trans ((State.noteStale_wcr ..).trans (State.noteStale_wcr ..)))))
@[simp] theorem State.writeWord_wcrUpperOpen (s : State) (r : Region) (a v : Word) : (s.writeWord r a v).wcrUpperOpen = s.wcrUpperOpen := (State.putByte_wcrUpperOpen ..).trans ((State.putByte_wcrUpperOpen ..).trans ((State.putByte_wcrUpperOpen ..).trans ((State.putByte_wcrUpperOpen ..).trans ((State.noteStale_wcrUpperOpen ..).trans (State.noteStale_wcrUpperOpen ..)))))
@[simp] theorem State.writeWord_equalFlag (s : State) (r : Region) (a v : Word) : (s.writeWord r a v).equalFlag = s.equalFlag := (State.putByte_equalFlag ..).trans ((State.putByte_equalFlag ..).trans ((State.putByte_equalFlag ..).trans ((State.putByte_equalFlag ..).trans ((State.noteStale_equalFlag ..).trans (State.noteStale_equalFlag ..)))))
@[simp] theorem State.writeWord_eventFlag (s : State) (r : Region) (a v : Word) : (s.writeWord r a v).eventFlag = s.eventFlag := (State.putByte_eventFlag ..).trans ((State.putByte_eventFlag ..).trans ((State.putByte_eventFlag ..).trans ((State.putByte_eventFlag ..).trans ((State.noteStale_eventFlag ..).trans (State.noteStale_eventFlag ..)))))
@[simp] theorem State.writeWord_fcr (s : State) (r : Region) (a v : Word) : (s.writeWord r a v).fcr = s.fcr := (State.putByte_fcr ..).trans ((State.putByte_fcr ..).trans ((State.putByte_fcr ..).trans ((State.putByte_fcr ..).trans ((State.noteStale_fcr ..).trans (State.noteStale_fcr ..)))))
@[simp] theorem State.writeWord_mcr (s : State) (r : Region) (a v : Word) : (s.writeWord r a v).mcr = s.mcr := (State.putByte_mcr ..).trans ((State.putByte_mcr ..).trans ((State.putByte_mcr ..).trans ((State.putByte_mcr ..).trans ((State.noteStale_mcr ..).trans (State.noteStale_mcr ..)))))
@[simp] theorem State.writeWord_locals (s : State) (r : Region) (a v : Word) : (s.writeWord r a v).locals = s.locals := (State.putByte_locals ..).trans ((State.putByte_locals ..).trans ((State.putByte_locals ..).trans ((State.putByte_locals ..).trans ((State.noteStale_locals ..).trans (State.noteStale_locals ..)))))
@[simp] theorem State.writeWord_iramRelied (s : State) (r : Region) (a v : Word) : (s.writeWord r a v).iramRelied = s.iramRelied := (State.putByte_iramRelied ..).trans ((State.putByte_iramRelied ..).trans ((State.putByte_iramRelied ..).trans ((State.putByte_iramRelied ..).trans ((State.noteStale_iramRelied ..).trans (State.noteStale_iramRelied ..)))))
@[simp] theorem State.writeWord_lookBack (s : State) (r : Region) (a v : Word) : (s.writeWord r a v).lookBack = s.lookBack := (State.putByte_lookBack ..).trans ((State.putByte_lookBack ..).trans ((State.putByte_lookBack ..).trans ((State.putByte_lookBack ..).trans ((State.noteStale_lookBack ..).trans (State.noteStale_lookBack ..)))))
@[simp] theorem State.writeWord_lookAhead (s : State) (r : Region) (a v : Word) : (s.writeWord r a v).lookAhead = s.lookAhead := (State.putByte_lookAhead ..).trans ((State.putByte_lookAhead ..).trans ((State.putByte_lookAhead ..).trans ((State.putByte_lookAhead ..).trans ((State.noteStale_lookAhead ..).trans (State.noteStale_lookAhead ..)))))
@[simp] theorem State.writeWord_busLock (s : State) (r : Region) (a v : Word) : (s.writeWord r a v).busLock = s.busLock := (State.putByte_busLock ..).trans ((State.putByte_busLock ..).trans ((State.putByte_busLock ..).trans ((State.putByte_busLock ..).trans ((State.noteStale_busLock ..).trans (State.noteStale_busLock ..)))))
@[simp] theorem State.writeWord_delayPending (s : State) (r : Region) (a v : Word) : (s.writeWord r a v).delayPending = s.delayPending := (State.putByte_delayPending ..).trans ((State.putByte_delayPending ..).trans ((State.putByte_delayPending ..).trans ((State.putByte_delayPending ..).trans ((State.noteStale_delayPending ..).trans (State.noteStale_delayPending ..)))))
@[simp] theorem State.writeWord_delayAddr (s : State) (r : Region) (a v : Word) : (s.writeWord r a v).delayAddr = s.delayAddr := (State.putByte_delayAddr ..).trans ((State.putByte_delayAddr ..).trans ((State.putByte_delayAddr ..).trans ((State.putByte_delayAddr ..).trans ((State.noteStale_delayAddr ..).trans (State.noteStale_delayAddr ..)))))
@[simp] theorem State.writeWord_slotAhead (s : State) (r : Region) (a v : Word) : (s.writeWord r a v).slotAhead = s.slotAhead := (State.putByte_slotAhead ..).trans ((State.putByte_slotAhead ..).trans ((State.putByte_slotAhead ..).trans ((State.putByte_slotAhead ..).trans ((State.noteStale_slotAhead ..).trans (State.noteStale_slotAhead ..)))))
@[simp] theorem State.writeWord_afterDelayedBranch (s : State) (r : Region) (a v : Word) : (s.writeWord r a v).afterDelayedBranch = s.afterDelayedBranch := (State.putByte_afterDelayedBranch ..).trans ((State.putByte_afterDelayedBranch ..).trans ((State.putByte_afterDelayedBranch ..).trans ((State.putByte_afterDelayedBranch ..).trans ((State.noteStale_afterDelayedBranch ..).trans (State.noteStale_afterDelayedBranch ..)))))
@[simp] theorem State.writeWord_callLockout (s : State) (r : Region) (a v : Word) : (s.writeWord r a v).callLockout = s.callLockout := (State.putByte_callLockout ..).trans ((State.putByte_callLockout ..).trans ((State.putByte_callLockout ..).trans ((State.putByte_callLockout ..).trans ((State.noteStale_callLockout ..).trans (State.noteStale_callLockout ..)))))
@[simp] theorem State.writeWord_extOvfPending (s : State) (r : Region) (a v : Word) : (s.writeWord r a v).extOvfPending = s.extOvfPending := (State.putByte_extOvfPending ..).trans ((State.putByte_extOvfPending ..).trans ((State.putByte_extOvfPending ..).trans ((State.putByte_extOvfPending ..).trans ((State.noteStale_extOvfPending ..).trans (State.noteStale_extOvfPending ..)))))
@[simp] theorem State.writeWord_parityPending (s : State) (r : Region) (a v : Word) : (s.writeWord r a v).parityPending = s.parityPending := (State.putByte_parityPending ..).trans ((State.putByte_parityPending ..).trans ((State.putByte_parityPending ..).trans ((State.putByte_parityPending ..).trans ((State.noteStale_parityPending ..).trans (State.noteStale_parityPending ..)))))
@[simp] theorem State.writeWord_prescaler (s : State) (r : Region) (a v : Word) : (s.writeWord r a v).prescaler = s.prescaler := (State.putByte_prescaler ..).trans ((State.putByte_prescaler ..).trans ((State.putByte_prescaler ..).trans ((State.putByte_prescaler ..).trans ((State.noteStale_prescaler ..).trans (State.noteStale_prescaler ..)))))
@[simp] theorem State.writeWord_io3Toggle (s : State) (r : Region) (a v : Word) : (s.writeWord r a v).io3Toggle = s.io3Toggle := (State.putByte_io3Toggle ..).trans ((State.putByte_io3Toggle ..).trans ((State.putByte_io3Toggle ..).trans ((State.putByte_io3Toggle ..).trans ((State.noteStale_io3Toggle ..).trans (State.noteStale_io3Toggle ..)))))
@[simp] theorem State.writeWord_powerDown (s : State) (r : Region) (a v : Word) : (s.writeWord r a v).powerDown = s.powerDown := (State.putByte_powerDown ..).trans ((State.putByte_powerDown ..).trans ((State.putByte_powerDown ..).trans ((State.putByte_powerDown ..).trans ((State.noteStale_powerDown ..).trans (State.noteStale_powerDown ..)))))
@[simp] theorem State.writeWord_resetRequest (s : State) (r : Region) (a v : Word) : (s.writeWord r a v).resetRequest = s.resetRequest := (State.putByte_resetRequest ..).trans ((State.putByte_resetRequest ..).trans ((State.putByte_resetRequest ..).trans ((State.putByte_resetRequest ..).trans ((State.noteStale_resetRequest ..).trans (State.noteStale_resetRequest ..)))))
@[simp] theorem State.writeWord_pins (s : State) (r : Region) (a v : Word) : (s.writeWord r a v).pins = s.pins := (State.putByte_pins ..).trans ((State.putByte_pins ..).trans ((State.putByte_pins ..).trans ((State.putByte_pins ..).trans ((State.noteStale_pins ..).trans (State.noteStale_pins ..)))))
@[simp] theorem State.writeWord_pinsDriven (s : State) (r : Region) (a v : Word) : (s.writeWord r a v).pinsDriven = s.pinsDriven := (State.putByte_pinsDriven ..).trans ((State.putByte_pinsDriven ..).trans ((State.putByte_pinsDriven ..).trans ((State.putByte_pinsDriven ..).trans ((State.noteStale_pinsDriven ..).trans (State.noteStale_pinsDriven ..)))))
@[simp] theorem State.writeWord_platform (s : State) (r : Region) (a v : Word) : (s.writeWord r a v).platform = s.platform := (State.putByte_platform ..).trans ((State.putByte_platform ..).trans ((State.putByte_platform ..).trans ((State.putByte_platform ..).trans ((State.noteStale_platform ..).trans (State.noteStale_platform ..)))))
@[simp] theorem State.writeWord_inputs (s : State) (r : Region) (a v : Word) : (s.writeWord r a v).inputs = s.inputs := (State.putByte_inputs ..).trans ((State.putByte_inputs ..).trans ((State.putByte_inputs ..).trans ((State.putByte_inputs ..).trans ((State.noteStale_inputs ..).trans (State.noteStale_inputs ..)))))
@[simp] theorem State.writeWord_between (s : State) (r : Region) (a v : Word) : (s.writeWord r a v).between = s.between := (State.putByte_between ..).trans ((State.putByte_between ..).trans ((State.putByte_between ..).trans ((State.putByte_between ..).trans ((State.noteStale_between ..).trans (State.noteStale_between ..)))))
@[simp] theorem State.writeWord_ioTrace (s : State) (r : Region) (a v : Word) : (s.writeWord r a v).ioTrace = s.ioTrace := (State.putByte_ioTrace ..).trans ((State.putByte_ioTrace ..).trans ((State.putByte_ioTrace ..).trans ((State.putByte_ioTrace ..).trans ((State.noteStale_ioTrace ..).trans (State.noteStale_ioTrace ..)))))
@[simp] theorem State.writeWord_fresh (s : State) (r : Region) (a v : Word) : (s.writeWord r a v).fresh = s.fresh := (State.putByte_fresh ..).trans ((State.putByte_fresh ..).trans ((State.putByte_fresh ..).trans ((State.putByte_fresh ..).trans ((State.noteStale_fresh ..).trans (State.noteStale_fresh ..)))))

/-! ### What another bus master wrote (R123) -/

/-- The fields it leaves alone, at once. -/
theorem State.dma_frame (s : State) (w : List (Word × Byte)) :
    s.dma w = { s with mem := (s.dma w).mem, stale := (s.dma w).stale } := by
  have h : ∀ (l : List (Word × Byte)) (t : State), l.foldl (fun t e => t.writeByte .external e.1 e.2) t =
      { t with
        mem := (l.foldl (fun t e => t.writeByte .external e.1 e.2) t).mem
        stale := (l.foldl (fun t e => t.writeByte .external e.1 e.2) t).stale } := by
    intro l
    induction l with
    | nil => exact fun _ => rfl
    | cons e l ih =>
      intro t
      have hb : t.writeByte .external e.1 e.2 = { t with
          mem := (t.writeByte .external e.1 e.2).mem
          stale := (t.writeByte .external e.1 e.2).stale } := by
        unfold State.writeByte
        rw [State.putByte_frame, State.noteStale_frame]
        congr 1
        unfold State.putByte State.noteStale
        split <;> (try split) <;> rfl
      rw [List.foldl_cons]
      exact (ih _).trans (by rw [hb])
  unfold State.dma
  split
  · rfl
  · exact h w s
@[simp] theorem State.dma_pc (s : State) (w : List (Word × Byte)) : (s.dma w).pc = s.pc := (congrArg State.pc (State.dma_frame s w) :)
@[simp] theorem State.dma_sr (s : State) (w : List (Word × Byte)) : (s.dma w).sr = s.sr := (congrArg State.sr (State.dma_frame s w) :)
@[simp] theorem State.dma_fer (s : State) (w : List (Word × Byte)) : (s.dma w).fer = s.fer := (congrArg State.fer (State.dma_frame s w) :)
@[simp] theorem State.dma_gpr (s : State) (w : List (Word × Byte)) : (s.dma w).gpr = s.gpr := (congrArg State.gpr (State.dma_frame s w) :)
@[simp] theorem State.dma_sp (s : State) (w : List (Word × Byte)) : (s.dma w).sp = s.sp := (congrArg State.sp (State.dma_frame s w) :)
@[simp] theorem State.dma_ub (s : State) (w : List (Word × Byte)) : (s.dma w).ub = s.ub := (congrArg State.ub (State.dma_frame s w) :)
@[simp] theorem State.dma_bcr (s : State) (w : List (Word × Byte)) : (s.dma w).bcr = s.bcr := (congrArg State.bcr (State.dma_frame s w) :)
@[simp] theorem State.dma_tpr (s : State) (w : List (Word × Byte)) : (s.dma w).tpr = s.tpr := (congrArg State.tpr (State.dma_frame s w) :)
@[simp] theorem State.dma_tcr (s : State) (w : List (Word × Byte)) : (s.dma w).tcr = s.tcr := (congrArg State.tcr (State.dma_frame s w) :)
@[simp] theorem State.dma_tr (s : State) (w : List (Word × Byte)) : (s.dma w).tr = s.tr := (congrArg State.tr (State.dma_frame s w) :)
@[simp] theorem State.dma_wcr (s : State) (w : List (Word × Byte)) : (s.dma w).wcr = s.wcr := (congrArg State.wcr (State.dma_frame s w) :)
@[simp] theorem State.dma_wcrUpperOpen (s : State) (w : List (Word × Byte)) : (s.dma w).wcrUpperOpen = s.wcrUpperOpen := (congrArg State.wcrUpperOpen (State.dma_frame s w) :)
@[simp] theorem State.dma_equalFlag (s : State) (w : List (Word × Byte)) : (s.dma w).equalFlag = s.equalFlag := (congrArg State.equalFlag (State.dma_frame s w) :)
@[simp] theorem State.dma_eventFlag (s : State) (w : List (Word × Byte)) : (s.dma w).eventFlag = s.eventFlag := (congrArg State.eventFlag (State.dma_frame s w) :)
@[simp] theorem State.dma_fcr (s : State) (w : List (Word × Byte)) : (s.dma w).fcr = s.fcr := (congrArg State.fcr (State.dma_frame s w) :)
@[simp] theorem State.dma_mcr (s : State) (w : List (Word × Byte)) : (s.dma w).mcr = s.mcr := (congrArg State.mcr (State.dma_frame s w) :)
@[simp] theorem State.dma_locals (s : State) (w : List (Word × Byte)) : (s.dma w).locals = s.locals := (congrArg State.locals (State.dma_frame s w) :)
@[simp] theorem State.dma_iramKept (s : State) (w : List (Word × Byte)) : (s.dma w).iramKept = s.iramKept := (congrArg State.iramKept (State.dma_frame s w) :)
@[simp] theorem State.dma_iramRelied (s : State) (w : List (Word × Byte)) : (s.dma w).iramRelied = s.iramRelied := (congrArg State.iramRelied (State.dma_frame s w) :)
@[simp] theorem State.dma_lookBack (s : State) (w : List (Word × Byte)) : (s.dma w).lookBack = s.lookBack := (congrArg State.lookBack (State.dma_frame s w) :)
@[simp] theorem State.dma_lookAhead (s : State) (w : List (Word × Byte)) : (s.dma w).lookAhead = s.lookAhead := (congrArg State.lookAhead (State.dma_frame s w) :)
@[simp] theorem State.dma_busLock (s : State) (w : List (Word × Byte)) : (s.dma w).busLock = s.busLock := (congrArg State.busLock (State.dma_frame s w) :)
@[simp] theorem State.dma_delayPending (s : State) (w : List (Word × Byte)) : (s.dma w).delayPending = s.delayPending := (congrArg State.delayPending (State.dma_frame s w) :)
@[simp] theorem State.dma_delayAddr (s : State) (w : List (Word × Byte)) : (s.dma w).delayAddr = s.delayAddr := (congrArg State.delayAddr (State.dma_frame s w) :)
@[simp] theorem State.dma_slotAhead (s : State) (w : List (Word × Byte)) : (s.dma w).slotAhead = s.slotAhead := (congrArg State.slotAhead (State.dma_frame s w) :)
@[simp] theorem State.dma_afterDelayedBranch (s : State) (w : List (Word × Byte)) : (s.dma w).afterDelayedBranch = s.afterDelayedBranch := (congrArg State.afterDelayedBranch (State.dma_frame s w) :)
@[simp] theorem State.dma_callLockout (s : State) (w : List (Word × Byte)) : (s.dma w).callLockout = s.callLockout := (congrArg State.callLockout (State.dma_frame s w) :)
@[simp] theorem State.dma_extOvfPending (s : State) (w : List (Word × Byte)) : (s.dma w).extOvfPending = s.extOvfPending := (congrArg State.extOvfPending (State.dma_frame s w) :)
@[simp] theorem State.dma_parityPending (s : State) (w : List (Word × Byte)) : (s.dma w).parityPending = s.parityPending := (congrArg State.parityPending (State.dma_frame s w) :)
@[simp] theorem State.dma_prescaler (s : State) (w : List (Word × Byte)) : (s.dma w).prescaler = s.prescaler := (congrArg State.prescaler (State.dma_frame s w) :)
@[simp] theorem State.dma_io3Toggle (s : State) (w : List (Word × Byte)) : (s.dma w).io3Toggle = s.io3Toggle := (congrArg State.io3Toggle (State.dma_frame s w) :)
@[simp] theorem State.dma_powerDown (s : State) (w : List (Word × Byte)) : (s.dma w).powerDown = s.powerDown := (congrArg State.powerDown (State.dma_frame s w) :)
@[simp] theorem State.dma_resetRequest (s : State) (w : List (Word × Byte)) : (s.dma w).resetRequest = s.resetRequest := (congrArg State.resetRequest (State.dma_frame s w) :)
@[simp] theorem State.dma_pins (s : State) (w : List (Word × Byte)) : (s.dma w).pins = s.pins := (congrArg State.pins (State.dma_frame s w) :)
@[simp] theorem State.dma_pinsDriven (s : State) (w : List (Word × Byte)) : (s.dma w).pinsDriven = s.pinsDriven := (congrArg State.pinsDriven (State.dma_frame s w) :)
@[simp] theorem State.dma_platform (s : State) (w : List (Word × Byte)) : (s.dma w).platform = s.platform := (congrArg State.platform (State.dma_frame s w) :)
@[simp] theorem State.dma_inputs (s : State) (w : List (Word × Byte)) : (s.dma w).inputs = s.inputs := (congrArg State.inputs (State.dma_frame s w) :)
@[simp] theorem State.dma_between (s : State) (w : List (Word × Byte)) : (s.dma w).between = s.between := (congrArg State.between (State.dma_frame s w) :)
@[simp] theorem State.dma_ioTrace (s : State) (w : List (Word × Byte)) : (s.dma w).ioTrace = s.ioTrace := (congrArg State.ioTrace (State.dma_frame s w) :)
@[simp] theorem State.dma_fresh (s : State) (w : List (Word × Byte)) : (s.dma w).fresh = s.fresh := (congrArg State.fresh (State.dma_frame s w) :)

/-! ### What another bus master wrote between two words (R109) -/

@[simp] theorem State.interlude_pc (s : State) : (s.interlude).pc = s.pc := State.dma_pc ..
@[simp] theorem State.interlude_sr (s : State) : (s.interlude).sr = s.sr := State.dma_sr ..
@[simp] theorem State.interlude_fer (s : State) : (s.interlude).fer = s.fer := State.dma_fer ..
@[simp] theorem State.interlude_gpr (s : State) : (s.interlude).gpr = s.gpr := State.dma_gpr ..
@[simp] theorem State.interlude_sp (s : State) : (s.interlude).sp = s.sp := State.dma_sp ..
@[simp] theorem State.interlude_ub (s : State) : (s.interlude).ub = s.ub := State.dma_ub ..
@[simp] theorem State.interlude_bcr (s : State) : (s.interlude).bcr = s.bcr := State.dma_bcr ..
@[simp] theorem State.interlude_tpr (s : State) : (s.interlude).tpr = s.tpr := State.dma_tpr ..
@[simp] theorem State.interlude_tcr (s : State) : (s.interlude).tcr = s.tcr := State.dma_tcr ..
@[simp] theorem State.interlude_tr (s : State) : (s.interlude).tr = s.tr := State.dma_tr ..
@[simp] theorem State.interlude_wcr (s : State) : (s.interlude).wcr = s.wcr := State.dma_wcr ..
@[simp] theorem State.interlude_wcrUpperOpen (s : State) : (s.interlude).wcrUpperOpen = s.wcrUpperOpen := State.dma_wcrUpperOpen ..
@[simp] theorem State.interlude_equalFlag (s : State) : (s.interlude).equalFlag = s.equalFlag := State.dma_equalFlag ..
@[simp] theorem State.interlude_eventFlag (s : State) : (s.interlude).eventFlag = s.eventFlag := State.dma_eventFlag ..
@[simp] theorem State.interlude_fcr (s : State) : (s.interlude).fcr = s.fcr := State.dma_fcr ..
@[simp] theorem State.interlude_mcr (s : State) : (s.interlude).mcr = s.mcr := State.dma_mcr ..
@[simp] theorem State.interlude_locals (s : State) : (s.interlude).locals = s.locals := State.dma_locals ..
@[simp] theorem State.interlude_iramKept (s : State) : (s.interlude).iramKept = s.iramKept := State.dma_iramKept ..
@[simp] theorem State.interlude_iramRelied (s : State) : (s.interlude).iramRelied = s.iramRelied := State.dma_iramRelied ..
@[simp] theorem State.interlude_lookBack (s : State) : (s.interlude).lookBack = s.lookBack := State.dma_lookBack ..
@[simp] theorem State.interlude_lookAhead (s : State) : (s.interlude).lookAhead = s.lookAhead := State.dma_lookAhead ..
@[simp] theorem State.interlude_busLock (s : State) : (s.interlude).busLock = s.busLock := State.dma_busLock ..
@[simp] theorem State.interlude_delayPending (s : State) : (s.interlude).delayPending = s.delayPending := State.dma_delayPending ..
@[simp] theorem State.interlude_delayAddr (s : State) : (s.interlude).delayAddr = s.delayAddr := State.dma_delayAddr ..
@[simp] theorem State.interlude_slotAhead (s : State) : (s.interlude).slotAhead = s.slotAhead := State.dma_slotAhead ..
@[simp] theorem State.interlude_afterDelayedBranch (s : State) : (s.interlude).afterDelayedBranch = s.afterDelayedBranch := State.dma_afterDelayedBranch ..
@[simp] theorem State.interlude_callLockout (s : State) : (s.interlude).callLockout = s.callLockout := State.dma_callLockout ..
@[simp] theorem State.interlude_extOvfPending (s : State) : (s.interlude).extOvfPending = s.extOvfPending := State.dma_extOvfPending ..
@[simp] theorem State.interlude_parityPending (s : State) : (s.interlude).parityPending = s.parityPending := State.dma_parityPending ..
@[simp] theorem State.interlude_prescaler (s : State) : (s.interlude).prescaler = s.prescaler := State.dma_prescaler ..
@[simp] theorem State.interlude_io3Toggle (s : State) : (s.interlude).io3Toggle = s.io3Toggle := State.dma_io3Toggle ..
@[simp] theorem State.interlude_powerDown (s : State) : (s.interlude).powerDown = s.powerDown := State.dma_powerDown ..
@[simp] theorem State.interlude_resetRequest (s : State) : (s.interlude).resetRequest = s.resetRequest := State.dma_resetRequest ..
@[simp] theorem State.interlude_pins (s : State) : (s.interlude).pins = s.pins := State.dma_pins ..
@[simp] theorem State.interlude_pinsDriven (s : State) : (s.interlude).pinsDriven = s.pinsDriven := State.dma_pinsDriven ..
@[simp] theorem State.interlude_platform (s : State) : (s.interlude).platform = s.platform := State.dma_platform ..
@[simp] theorem State.interlude_inputs (s : State) : (s.interlude).inputs = s.inputs := State.dma_inputs ..
@[simp] theorem State.interlude_between (s : State) : (s.interlude).between = s.between := State.dma_between ..
@[simp] theorem State.interlude_ioTrace (s : State) : (s.interlude).ioTrace = s.ioTrace := State.dma_ioTrace ..
@[simp] theorem State.interlude_fresh (s : State) : (s.interlude).fresh = s.fresh := State.dma_fresh ..

/-! ### A read of a data type (R235) -/

@[simp] theorem State.noteLoad_pc (s : State) (ty : DataType) (r : Region) (a : Word) : (s.noteLoad ty r a).pc = s.pc := match ty with
  | .bs => rfl
  | .bu => rfl
  | .hu => rfl
  | .hs => rfl
  | .w => rfl
@[simp] theorem State.noteLoad_sr (s : State) (ty : DataType) (r : Region) (a : Word) : (s.noteLoad ty r a).sr = s.sr := match ty with
  | .bs => rfl
  | .bu => rfl
  | .hu => rfl
  | .hs => rfl
  | .w => rfl
@[simp] theorem State.noteLoad_fer (s : State) (ty : DataType) (r : Region) (a : Word) : (s.noteLoad ty r a).fer = s.fer := match ty with
  | .bs => rfl
  | .bu => rfl
  | .hu => rfl
  | .hs => rfl
  | .w => rfl
@[simp] theorem State.noteLoad_gpr (s : State) (ty : DataType) (r : Region) (a : Word) : (s.noteLoad ty r a).gpr = s.gpr := match ty with
  | .bs => rfl
  | .bu => rfl
  | .hu => rfl
  | .hs => rfl
  | .w => rfl
@[simp] theorem State.noteLoad_sp (s : State) (ty : DataType) (r : Region) (a : Word) : (s.noteLoad ty r a).sp = s.sp := match ty with
  | .bs => rfl
  | .bu => rfl
  | .hu => rfl
  | .hs => rfl
  | .w => rfl
@[simp] theorem State.noteLoad_ub (s : State) (ty : DataType) (r : Region) (a : Word) : (s.noteLoad ty r a).ub = s.ub := match ty with
  | .bs => rfl
  | .bu => rfl
  | .hu => rfl
  | .hs => rfl
  | .w => rfl
@[simp] theorem State.noteLoad_bcr (s : State) (ty : DataType) (r : Region) (a : Word) : (s.noteLoad ty r a).bcr = s.bcr := match ty with
  | .bs => rfl
  | .bu => rfl
  | .hu => rfl
  | .hs => rfl
  | .w => rfl
@[simp] theorem State.noteLoad_tpr (s : State) (ty : DataType) (r : Region) (a : Word) : (s.noteLoad ty r a).tpr = s.tpr := match ty with
  | .bs => rfl
  | .bu => rfl
  | .hu => rfl
  | .hs => rfl
  | .w => rfl
@[simp] theorem State.noteLoad_tcr (s : State) (ty : DataType) (r : Region) (a : Word) : (s.noteLoad ty r a).tcr = s.tcr := match ty with
  | .bs => rfl
  | .bu => rfl
  | .hu => rfl
  | .hs => rfl
  | .w => rfl
@[simp] theorem State.noteLoad_tr (s : State) (ty : DataType) (r : Region) (a : Word) : (s.noteLoad ty r a).tr = s.tr := match ty with
  | .bs => rfl
  | .bu => rfl
  | .hu => rfl
  | .hs => rfl
  | .w => rfl
@[simp] theorem State.noteLoad_wcr (s : State) (ty : DataType) (r : Region) (a : Word) : (s.noteLoad ty r a).wcr = s.wcr := match ty with
  | .bs => rfl
  | .bu => rfl
  | .hu => rfl
  | .hs => rfl
  | .w => rfl
@[simp] theorem State.noteLoad_wcrUpperOpen (s : State) (ty : DataType) (r : Region) (a : Word) : (s.noteLoad ty r a).wcrUpperOpen = s.wcrUpperOpen := match ty with
  | .bs => rfl
  | .bu => rfl
  | .hu => rfl
  | .hs => rfl
  | .w => rfl
@[simp] theorem State.noteLoad_equalFlag (s : State) (ty : DataType) (r : Region) (a : Word) : (s.noteLoad ty r a).equalFlag = s.equalFlag := match ty with
  | .bs => rfl
  | .bu => rfl
  | .hu => rfl
  | .hs => rfl
  | .w => rfl
@[simp] theorem State.noteLoad_eventFlag (s : State) (ty : DataType) (r : Region) (a : Word) : (s.noteLoad ty r a).eventFlag = s.eventFlag := match ty with
  | .bs => rfl
  | .bu => rfl
  | .hu => rfl
  | .hs => rfl
  | .w => rfl
@[simp] theorem State.noteLoad_fcr (s : State) (ty : DataType) (r : Region) (a : Word) : (s.noteLoad ty r a).fcr = s.fcr := match ty with
  | .bs => rfl
  | .bu => rfl
  | .hu => rfl
  | .hs => rfl
  | .w => rfl
@[simp] theorem State.noteLoad_mcr (s : State) (ty : DataType) (r : Region) (a : Word) : (s.noteLoad ty r a).mcr = s.mcr := match ty with
  | .bs => rfl
  | .bu => rfl
  | .hu => rfl
  | .hs => rfl
  | .w => rfl
@[simp] theorem State.noteLoad_locals (s : State) (ty : DataType) (r : Region) (a : Word) : (s.noteLoad ty r a).locals = s.locals := match ty with
  | .bs => rfl
  | .bu => rfl
  | .hu => rfl
  | .hs => rfl
  | .w => rfl
@[simp] theorem State.noteLoad_mem (s : State) (ty : DataType) (r : Region) (a : Word) : (s.noteLoad ty r a).mem = s.mem := match ty with
  | .bs => rfl
  | .bu => rfl
  | .hu => rfl
  | .hs => rfl
  | .w => rfl
@[simp] theorem State.noteLoad_iramKept (s : State) (ty : DataType) (r : Region) (a : Word) : (s.noteLoad ty r a).iramKept = s.iramKept := match ty with
  | .bs => rfl
  | .bu => rfl
  | .hu => rfl
  | .hs => rfl
  | .w => rfl
@[simp] theorem State.noteLoad_stale (s : State) (ty : DataType) (r : Region) (a : Word) : (s.noteLoad ty r a).stale = s.stale := match ty with
  | .bs => rfl
  | .bu => rfl
  | .hu => rfl
  | .hs => rfl
  | .w => rfl
@[simp] theorem State.noteLoad_lookBack (s : State) (ty : DataType) (r : Region) (a : Word) : (s.noteLoad ty r a).lookBack = s.lookBack := match ty with
  | .bs => rfl
  | .bu => rfl
  | .hu => rfl
  | .hs => rfl
  | .w => rfl
@[simp] theorem State.noteLoad_lookAhead (s : State) (ty : DataType) (r : Region) (a : Word) : (s.noteLoad ty r a).lookAhead = s.lookAhead := match ty with
  | .bs => rfl
  | .bu => rfl
  | .hu => rfl
  | .hs => rfl
  | .w => rfl
@[simp] theorem State.noteLoad_delayPending (s : State) (ty : DataType) (r : Region) (a : Word) : (s.noteLoad ty r a).delayPending = s.delayPending := match ty with
  | .bs => rfl
  | .bu => rfl
  | .hu => rfl
  | .hs => rfl
  | .w => rfl
@[simp] theorem State.noteLoad_delayAddr (s : State) (ty : DataType) (r : Region) (a : Word) : (s.noteLoad ty r a).delayAddr = s.delayAddr := match ty with
  | .bs => rfl
  | .bu => rfl
  | .hu => rfl
  | .hs => rfl
  | .w => rfl
@[simp] theorem State.noteLoad_slotAhead (s : State) (ty : DataType) (r : Region) (a : Word) : (s.noteLoad ty r a).slotAhead = s.slotAhead := match ty with
  | .bs => rfl
  | .bu => rfl
  | .hu => rfl
  | .hs => rfl
  | .w => rfl
@[simp] theorem State.noteLoad_afterDelayedBranch (s : State) (ty : DataType) (r : Region) (a : Word) : (s.noteLoad ty r a).afterDelayedBranch = s.afterDelayedBranch := match ty with
  | .bs => rfl
  | .bu => rfl
  | .hu => rfl
  | .hs => rfl
  | .w => rfl
@[simp] theorem State.noteLoad_callLockout (s : State) (ty : DataType) (r : Region) (a : Word) : (s.noteLoad ty r a).callLockout = s.callLockout := match ty with
  | .bs => rfl
  | .bu => rfl
  | .hu => rfl
  | .hs => rfl
  | .w => rfl
@[simp] theorem State.noteLoad_extOvfPending (s : State) (ty : DataType) (r : Region) (a : Word) : (s.noteLoad ty r a).extOvfPending = s.extOvfPending := match ty with
  | .bs => rfl
  | .bu => rfl
  | .hu => rfl
  | .hs => rfl
  | .w => rfl
@[simp] theorem State.noteLoad_parityPending (s : State) (ty : DataType) (r : Region) (a : Word) : (s.noteLoad ty r a).parityPending = s.parityPending := match ty with
  | .bs => rfl
  | .bu => rfl
  | .hu => rfl
  | .hs => rfl
  | .w => rfl
@[simp] theorem State.noteLoad_prescaler (s : State) (ty : DataType) (r : Region) (a : Word) : (s.noteLoad ty r a).prescaler = s.prescaler := match ty with
  | .bs => rfl
  | .bu => rfl
  | .hu => rfl
  | .hs => rfl
  | .w => rfl
@[simp] theorem State.noteLoad_io3Toggle (s : State) (ty : DataType) (r : Region) (a : Word) : (s.noteLoad ty r a).io3Toggle = s.io3Toggle := match ty with
  | .bs => rfl
  | .bu => rfl
  | .hu => rfl
  | .hs => rfl
  | .w => rfl
@[simp] theorem State.noteLoad_powerDown (s : State) (ty : DataType) (r : Region) (a : Word) : (s.noteLoad ty r a).powerDown = s.powerDown := match ty with
  | .bs => rfl
  | .bu => rfl
  | .hu => rfl
  | .hs => rfl
  | .w => rfl
@[simp] theorem State.noteLoad_resetRequest (s : State) (ty : DataType) (r : Region) (a : Word) : (s.noteLoad ty r a).resetRequest = s.resetRequest := match ty with
  | .bs => rfl
  | .bu => rfl
  | .hu => rfl
  | .hs => rfl
  | .w => rfl
@[simp] theorem State.noteLoad_pins (s : State) (ty : DataType) (r : Region) (a : Word) : (s.noteLoad ty r a).pins = s.pins := match ty with
  | .bs => rfl
  | .bu => rfl
  | .hu => rfl
  | .hs => rfl
  | .w => rfl
@[simp] theorem State.noteLoad_pinsDriven (s : State) (ty : DataType) (r : Region) (a : Word) : (s.noteLoad ty r a).pinsDriven = s.pinsDriven := match ty with
  | .bs => rfl
  | .bu => rfl
  | .hu => rfl
  | .hs => rfl
  | .w => rfl
@[simp] theorem State.noteLoad_platform (s : State) (ty : DataType) (r : Region) (a : Word) : (s.noteLoad ty r a).platform = s.platform := match ty with
  | .bs => rfl
  | .bu => rfl
  | .hu => rfl
  | .hs => rfl
  | .w => rfl
@[simp] theorem State.noteLoad_inputs (s : State) (ty : DataType) (r : Region) (a : Word) : (s.noteLoad ty r a).inputs = s.inputs := match ty with
  | .bs => rfl
  | .bu => rfl
  | .hu => rfl
  | .hs => rfl
  | .w => rfl
@[simp] theorem State.noteLoad_between (s : State) (ty : DataType) (r : Region) (a : Word) : (s.noteLoad ty r a).between = s.between := match ty with
  | .bs => rfl
  | .bu => rfl
  | .hu => rfl
  | .hs => rfl
  | .w => rfl
@[simp] theorem State.noteLoad_ioTrace (s : State) (ty : DataType) (r : Region) (a : Word) : (s.noteLoad ty r a).ioTrace = s.ioTrace := match ty with
  | .bs => rfl
  | .bu => rfl
  | .hu => rfl
  | .hs => rfl
  | .w => rfl
@[simp] theorem State.noteLoad_fresh (s : State) (ty : DataType) (r : Region) (a : Word) : (s.noteLoad ty r a).fresh = s.fresh := match ty with
  | .bs => rfl
  | .bu => rfl
  | .hu => rfl
  | .hs => rfl
  | .w => rfl

/-! ### A store of a data type (R234) -/

@[simp] theorem State.storeData_pc (s : State) (ty : DataType) (r : Region) (a v : Word) : (s.storeData ty r a v).pc = s.pc := match ty with
  | .bs => State.writeByte_pc ..
  | .bu => State.writeByte_pc ..
  | .hu => State.writeHalf_pc ..
  | .hs => State.writeHalf_pc ..
  | .w => State.writeWord_pc ..
@[simp] theorem State.storeData_sr (s : State) (ty : DataType) (r : Region) (a v : Word) : (s.storeData ty r a v).sr = s.sr := match ty with
  | .bs => State.writeByte_sr ..
  | .bu => State.writeByte_sr ..
  | .hu => State.writeHalf_sr ..
  | .hs => State.writeHalf_sr ..
  | .w => State.writeWord_sr ..
@[simp] theorem State.storeData_fer (s : State) (ty : DataType) (r : Region) (a v : Word) : (s.storeData ty r a v).fer = s.fer := match ty with
  | .bs => State.writeByte_fer ..
  | .bu => State.writeByte_fer ..
  | .hu => State.writeHalf_fer ..
  | .hs => State.writeHalf_fer ..
  | .w => State.writeWord_fer ..
@[simp] theorem State.storeData_gpr (s : State) (ty : DataType) (r : Region) (a v : Word) : (s.storeData ty r a v).gpr = s.gpr := match ty with
  | .bs => State.writeByte_gpr ..
  | .bu => State.writeByte_gpr ..
  | .hu => State.writeHalf_gpr ..
  | .hs => State.writeHalf_gpr ..
  | .w => State.writeWord_gpr ..
@[simp] theorem State.storeData_sp (s : State) (ty : DataType) (r : Region) (a v : Word) : (s.storeData ty r a v).sp = s.sp := match ty with
  | .bs => State.writeByte_sp ..
  | .bu => State.writeByte_sp ..
  | .hu => State.writeHalf_sp ..
  | .hs => State.writeHalf_sp ..
  | .w => State.writeWord_sp ..
@[simp] theorem State.storeData_ub (s : State) (ty : DataType) (r : Region) (a v : Word) : (s.storeData ty r a v).ub = s.ub := match ty with
  | .bs => State.writeByte_ub ..
  | .bu => State.writeByte_ub ..
  | .hu => State.writeHalf_ub ..
  | .hs => State.writeHalf_ub ..
  | .w => State.writeWord_ub ..
@[simp] theorem State.storeData_bcr (s : State) (ty : DataType) (r : Region) (a v : Word) : (s.storeData ty r a v).bcr = s.bcr := match ty with
  | .bs => State.writeByte_bcr ..
  | .bu => State.writeByte_bcr ..
  | .hu => State.writeHalf_bcr ..
  | .hs => State.writeHalf_bcr ..
  | .w => State.writeWord_bcr ..
@[simp] theorem State.storeData_tpr (s : State) (ty : DataType) (r : Region) (a v : Word) : (s.storeData ty r a v).tpr = s.tpr := match ty with
  | .bs => State.writeByte_tpr ..
  | .bu => State.writeByte_tpr ..
  | .hu => State.writeHalf_tpr ..
  | .hs => State.writeHalf_tpr ..
  | .w => State.writeWord_tpr ..
@[simp] theorem State.storeData_tcr (s : State) (ty : DataType) (r : Region) (a v : Word) : (s.storeData ty r a v).tcr = s.tcr := match ty with
  | .bs => State.writeByte_tcr ..
  | .bu => State.writeByte_tcr ..
  | .hu => State.writeHalf_tcr ..
  | .hs => State.writeHalf_tcr ..
  | .w => State.writeWord_tcr ..
@[simp] theorem State.storeData_tr (s : State) (ty : DataType) (r : Region) (a v : Word) : (s.storeData ty r a v).tr = s.tr := match ty with
  | .bs => State.writeByte_tr ..
  | .bu => State.writeByte_tr ..
  | .hu => State.writeHalf_tr ..
  | .hs => State.writeHalf_tr ..
  | .w => State.writeWord_tr ..
@[simp] theorem State.storeData_wcr (s : State) (ty : DataType) (r : Region) (a v : Word) : (s.storeData ty r a v).wcr = s.wcr := match ty with
  | .bs => State.writeByte_wcr ..
  | .bu => State.writeByte_wcr ..
  | .hu => State.writeHalf_wcr ..
  | .hs => State.writeHalf_wcr ..
  | .w => State.writeWord_wcr ..
@[simp] theorem State.storeData_wcrUpperOpen (s : State) (ty : DataType) (r : Region) (a v : Word) : (s.storeData ty r a v).wcrUpperOpen = s.wcrUpperOpen := match ty with
  | .bs => State.writeByte_wcrUpperOpen ..
  | .bu => State.writeByte_wcrUpperOpen ..
  | .hu => State.writeHalf_wcrUpperOpen ..
  | .hs => State.writeHalf_wcrUpperOpen ..
  | .w => State.writeWord_wcrUpperOpen ..
@[simp] theorem State.storeData_equalFlag (s : State) (ty : DataType) (r : Region) (a v : Word) : (s.storeData ty r a v).equalFlag = s.equalFlag := match ty with
  | .bs => State.writeByte_equalFlag ..
  | .bu => State.writeByte_equalFlag ..
  | .hu => State.writeHalf_equalFlag ..
  | .hs => State.writeHalf_equalFlag ..
  | .w => State.writeWord_equalFlag ..
@[simp] theorem State.storeData_eventFlag (s : State) (ty : DataType) (r : Region) (a v : Word) : (s.storeData ty r a v).eventFlag = s.eventFlag := match ty with
  | .bs => State.writeByte_eventFlag ..
  | .bu => State.writeByte_eventFlag ..
  | .hu => State.writeHalf_eventFlag ..
  | .hs => State.writeHalf_eventFlag ..
  | .w => State.writeWord_eventFlag ..
@[simp] theorem State.storeData_fcr (s : State) (ty : DataType) (r : Region) (a v : Word) : (s.storeData ty r a v).fcr = s.fcr := match ty with
  | .bs => State.writeByte_fcr ..
  | .bu => State.writeByte_fcr ..
  | .hu => State.writeHalf_fcr ..
  | .hs => State.writeHalf_fcr ..
  | .w => State.writeWord_fcr ..
@[simp] theorem State.storeData_mcr (s : State) (ty : DataType) (r : Region) (a v : Word) : (s.storeData ty r a v).mcr = s.mcr := match ty with
  | .bs => State.writeByte_mcr ..
  | .bu => State.writeByte_mcr ..
  | .hu => State.writeHalf_mcr ..
  | .hs => State.writeHalf_mcr ..
  | .w => State.writeWord_mcr ..
@[simp] theorem State.storeData_locals (s : State) (ty : DataType) (r : Region) (a v : Word) : (s.storeData ty r a v).locals = s.locals := match ty with
  | .bs => State.writeByte_locals ..
  | .bu => State.writeByte_locals ..
  | .hu => State.writeHalf_locals ..
  | .hs => State.writeHalf_locals ..
  | .w => State.writeWord_locals ..
@[simp] theorem State.storeData_iramRelied (s : State) (ty : DataType) (r : Region) (a v : Word) : (s.storeData ty r a v).iramRelied = s.iramRelied := match ty with
  | .bs => State.writeByte_iramRelied ..
  | .bu => State.writeByte_iramRelied ..
  | .hu => State.writeHalf_iramRelied ..
  | .hs => State.writeHalf_iramRelied ..
  | .w => State.writeWord_iramRelied ..
@[simp] theorem State.storeData_lookBack (s : State) (ty : DataType) (r : Region) (a v : Word) : (s.storeData ty r a v).lookBack = s.lookBack := match ty with
  | .bs => State.writeByte_lookBack ..
  | .bu => State.writeByte_lookBack ..
  | .hu => State.writeHalf_lookBack ..
  | .hs => State.writeHalf_lookBack ..
  | .w => State.writeWord_lookBack ..
@[simp] theorem State.storeData_lookAhead (s : State) (ty : DataType) (r : Region) (a v : Word) : (s.storeData ty r a v).lookAhead = s.lookAhead := match ty with
  | .bs => State.writeByte_lookAhead ..
  | .bu => State.writeByte_lookAhead ..
  | .hu => State.writeHalf_lookAhead ..
  | .hs => State.writeHalf_lookAhead ..
  | .w => State.writeWord_lookAhead ..
@[simp] theorem State.storeData_busLock (s : State) (ty : DataType) (r : Region) (a v : Word) : (s.storeData ty r a v).busLock = s.busLock := match ty with
  | .bs => State.writeByte_busLock ..
  | .bu => State.writeByte_busLock ..
  | .hu => State.writeHalf_busLock ..
  | .hs => State.writeHalf_busLock ..
  | .w => State.writeWord_busLock ..
@[simp] theorem State.storeData_delayPending (s : State) (ty : DataType) (r : Region) (a v : Word) : (s.storeData ty r a v).delayPending = s.delayPending := match ty with
  | .bs => State.writeByte_delayPending ..
  | .bu => State.writeByte_delayPending ..
  | .hu => State.writeHalf_delayPending ..
  | .hs => State.writeHalf_delayPending ..
  | .w => State.writeWord_delayPending ..
@[simp] theorem State.storeData_delayAddr (s : State) (ty : DataType) (r : Region) (a v : Word) : (s.storeData ty r a v).delayAddr = s.delayAddr := match ty with
  | .bs => State.writeByte_delayAddr ..
  | .bu => State.writeByte_delayAddr ..
  | .hu => State.writeHalf_delayAddr ..
  | .hs => State.writeHalf_delayAddr ..
  | .w => State.writeWord_delayAddr ..
@[simp] theorem State.storeData_slotAhead (s : State) (ty : DataType) (r : Region) (a v : Word) : (s.storeData ty r a v).slotAhead = s.slotAhead := match ty with
  | .bs => State.writeByte_slotAhead ..
  | .bu => State.writeByte_slotAhead ..
  | .hu => State.writeHalf_slotAhead ..
  | .hs => State.writeHalf_slotAhead ..
  | .w => State.writeWord_slotAhead ..
@[simp] theorem State.storeData_afterDelayedBranch (s : State) (ty : DataType) (r : Region) (a v : Word) : (s.storeData ty r a v).afterDelayedBranch = s.afterDelayedBranch := match ty with
  | .bs => State.writeByte_afterDelayedBranch ..
  | .bu => State.writeByte_afterDelayedBranch ..
  | .hu => State.writeHalf_afterDelayedBranch ..
  | .hs => State.writeHalf_afterDelayedBranch ..
  | .w => State.writeWord_afterDelayedBranch ..
@[simp] theorem State.storeData_callLockout (s : State) (ty : DataType) (r : Region) (a v : Word) : (s.storeData ty r a v).callLockout = s.callLockout := match ty with
  | .bs => State.writeByte_callLockout ..
  | .bu => State.writeByte_callLockout ..
  | .hu => State.writeHalf_callLockout ..
  | .hs => State.writeHalf_callLockout ..
  | .w => State.writeWord_callLockout ..
@[simp] theorem State.storeData_extOvfPending (s : State) (ty : DataType) (r : Region) (a v : Word) : (s.storeData ty r a v).extOvfPending = s.extOvfPending := match ty with
  | .bs => State.writeByte_extOvfPending ..
  | .bu => State.writeByte_extOvfPending ..
  | .hu => State.writeHalf_extOvfPending ..
  | .hs => State.writeHalf_extOvfPending ..
  | .w => State.writeWord_extOvfPending ..
@[simp] theorem State.storeData_parityPending (s : State) (ty : DataType) (r : Region) (a v : Word) : (s.storeData ty r a v).parityPending = s.parityPending := match ty with
  | .bs => State.writeByte_parityPending ..
  | .bu => State.writeByte_parityPending ..
  | .hu => State.writeHalf_parityPending ..
  | .hs => State.writeHalf_parityPending ..
  | .w => State.writeWord_parityPending ..
@[simp] theorem State.storeData_prescaler (s : State) (ty : DataType) (r : Region) (a v : Word) : (s.storeData ty r a v).prescaler = s.prescaler := match ty with
  | .bs => State.writeByte_prescaler ..
  | .bu => State.writeByte_prescaler ..
  | .hu => State.writeHalf_prescaler ..
  | .hs => State.writeHalf_prescaler ..
  | .w => State.writeWord_prescaler ..
@[simp] theorem State.storeData_io3Toggle (s : State) (ty : DataType) (r : Region) (a v : Word) : (s.storeData ty r a v).io3Toggle = s.io3Toggle := match ty with
  | .bs => State.writeByte_io3Toggle ..
  | .bu => State.writeByte_io3Toggle ..
  | .hu => State.writeHalf_io3Toggle ..
  | .hs => State.writeHalf_io3Toggle ..
  | .w => State.writeWord_io3Toggle ..
@[simp] theorem State.storeData_powerDown (s : State) (ty : DataType) (r : Region) (a v : Word) : (s.storeData ty r a v).powerDown = s.powerDown := match ty with
  | .bs => State.writeByte_powerDown ..
  | .bu => State.writeByte_powerDown ..
  | .hu => State.writeHalf_powerDown ..
  | .hs => State.writeHalf_powerDown ..
  | .w => State.writeWord_powerDown ..
@[simp] theorem State.storeData_resetRequest (s : State) (ty : DataType) (r : Region) (a v : Word) : (s.storeData ty r a v).resetRequest = s.resetRequest := match ty with
  | .bs => State.writeByte_resetRequest ..
  | .bu => State.writeByte_resetRequest ..
  | .hu => State.writeHalf_resetRequest ..
  | .hs => State.writeHalf_resetRequest ..
  | .w => State.writeWord_resetRequest ..
@[simp] theorem State.storeData_pins (s : State) (ty : DataType) (r : Region) (a v : Word) : (s.storeData ty r a v).pins = s.pins := match ty with
  | .bs => State.writeByte_pins ..
  | .bu => State.writeByte_pins ..
  | .hu => State.writeHalf_pins ..
  | .hs => State.writeHalf_pins ..
  | .w => State.writeWord_pins ..
@[simp] theorem State.storeData_pinsDriven (s : State) (ty : DataType) (r : Region) (a v : Word) : (s.storeData ty r a v).pinsDriven = s.pinsDriven := match ty with
  | .bs => State.writeByte_pinsDriven ..
  | .bu => State.writeByte_pinsDriven ..
  | .hu => State.writeHalf_pinsDriven ..
  | .hs => State.writeHalf_pinsDriven ..
  | .w => State.writeWord_pinsDriven ..
@[simp] theorem State.storeData_platform (s : State) (ty : DataType) (r : Region) (a v : Word) : (s.storeData ty r a v).platform = s.platform := match ty with
  | .bs => State.writeByte_platform ..
  | .bu => State.writeByte_platform ..
  | .hu => State.writeHalf_platform ..
  | .hs => State.writeHalf_platform ..
  | .w => State.writeWord_platform ..
@[simp] theorem State.storeData_inputs (s : State) (ty : DataType) (r : Region) (a v : Word) : (s.storeData ty r a v).inputs = s.inputs := match ty with
  | .bs => State.writeByte_inputs ..
  | .bu => State.writeByte_inputs ..
  | .hu => State.writeHalf_inputs ..
  | .hs => State.writeHalf_inputs ..
  | .w => State.writeWord_inputs ..
@[simp] theorem State.storeData_between (s : State) (ty : DataType) (r : Region) (a v : Word) : (s.storeData ty r a v).between = s.between := match ty with
  | .bs => State.writeByte_between ..
  | .bu => State.writeByte_between ..
  | .hu => State.writeHalf_between ..
  | .hs => State.writeHalf_between ..
  | .w => State.writeWord_between ..
@[simp] theorem State.storeData_ioTrace (s : State) (ty : DataType) (r : Region) (a v : Word) : (s.storeData ty r a v).ioTrace = s.ioTrace := match ty with
  | .bs => State.writeByte_ioTrace ..
  | .bu => State.writeByte_ioTrace ..
  | .hu => State.writeHalf_ioTrace ..
  | .hs => State.writeHalf_ioTrace ..
  | .w => State.writeWord_ioTrace ..
@[simp] theorem State.storeData_fresh (s : State) (ty : DataType) (r : Region) (a v : Word) : (s.storeData ty r a v).fresh = s.fresh := match ty with
  | .bs => State.writeByte_fresh ..
  | .bu => State.writeByte_fresh ..
  | .hu => State.writeHalf_fresh ..
  | .hs => State.writeHalf_fresh ..
  | .w => State.writeWord_fresh ..

/-! ### The address register updated (R242, R246) -/

/-- The fields it leaves alone, at once. -/
theorem State.updateAddress_frame (s : State) (a : Access) :
    s.updateAddress a = { s with pc := (s.updateAddress a).pc, sr := (s.updateAddress a).sr, fer := (s.updateAddress a).fer, gpr := (s.updateAddress a).gpr, locals := (s.updateAddress a).locals } := by
  unfold State.updateAddress
  split
  · exact State.put_frame ..
  · rfl
@[simp] theorem State.updateAddress_sp (s : State) (a : Access) : (s.updateAddress a).sp = s.sp := (congrArg State.sp (State.updateAddress_frame s a) :)
@[simp] theorem State.updateAddress_ub (s : State) (a : Access) : (s.updateAddress a).ub = s.ub := (congrArg State.ub (State.updateAddress_frame s a) :)
@[simp] theorem State.updateAddress_bcr (s : State) (a : Access) : (s.updateAddress a).bcr = s.bcr := (congrArg State.bcr (State.updateAddress_frame s a) :)
@[simp] theorem State.updateAddress_tpr (s : State) (a : Access) : (s.updateAddress a).tpr = s.tpr := (congrArg State.tpr (State.updateAddress_frame s a) :)
@[simp] theorem State.updateAddress_tcr (s : State) (a : Access) : (s.updateAddress a).tcr = s.tcr := (congrArg State.tcr (State.updateAddress_frame s a) :)
@[simp] theorem State.updateAddress_tr (s : State) (a : Access) : (s.updateAddress a).tr = s.tr := (congrArg State.tr (State.updateAddress_frame s a) :)
@[simp] theorem State.updateAddress_wcr (s : State) (a : Access) : (s.updateAddress a).wcr = s.wcr := (congrArg State.wcr (State.updateAddress_frame s a) :)
@[simp] theorem State.updateAddress_wcrUpperOpen (s : State) (a : Access) : (s.updateAddress a).wcrUpperOpen = s.wcrUpperOpen := (congrArg State.wcrUpperOpen (State.updateAddress_frame s a) :)
@[simp] theorem State.updateAddress_equalFlag (s : State) (a : Access) : (s.updateAddress a).equalFlag = s.equalFlag := (congrArg State.equalFlag (State.updateAddress_frame s a) :)
@[simp] theorem State.updateAddress_eventFlag (s : State) (a : Access) : (s.updateAddress a).eventFlag = s.eventFlag := (congrArg State.eventFlag (State.updateAddress_frame s a) :)
@[simp] theorem State.updateAddress_fcr (s : State) (a : Access) : (s.updateAddress a).fcr = s.fcr := (congrArg State.fcr (State.updateAddress_frame s a) :)
@[simp] theorem State.updateAddress_mcr (s : State) (a : Access) : (s.updateAddress a).mcr = s.mcr := (congrArg State.mcr (State.updateAddress_frame s a) :)
@[simp] theorem State.updateAddress_mem (s : State) (a : Access) : (s.updateAddress a).mem = s.mem := (congrArg State.mem (State.updateAddress_frame s a) :)
@[simp] theorem State.updateAddress_iramKept (s : State) (a : Access) : (s.updateAddress a).iramKept = s.iramKept := (congrArg State.iramKept (State.updateAddress_frame s a) :)
@[simp] theorem State.updateAddress_iramRelied (s : State) (a : Access) : (s.updateAddress a).iramRelied = s.iramRelied := (congrArg State.iramRelied (State.updateAddress_frame s a) :)
@[simp] theorem State.updateAddress_stale (s : State) (a : Access) : (s.updateAddress a).stale = s.stale := (congrArg State.stale (State.updateAddress_frame s a) :)
@[simp] theorem State.updateAddress_lookBack (s : State) (a : Access) : (s.updateAddress a).lookBack = s.lookBack := (congrArg State.lookBack (State.updateAddress_frame s a) :)
@[simp] theorem State.updateAddress_lookAhead (s : State) (a : Access) : (s.updateAddress a).lookAhead = s.lookAhead := (congrArg State.lookAhead (State.updateAddress_frame s a) :)
@[simp] theorem State.updateAddress_busLock (s : State) (a : Access) : (s.updateAddress a).busLock = s.busLock := (congrArg State.busLock (State.updateAddress_frame s a) :)
@[simp] theorem State.updateAddress_delayPending (s : State) (a : Access) : (s.updateAddress a).delayPending = s.delayPending := (congrArg State.delayPending (State.updateAddress_frame s a) :)
@[simp] theorem State.updateAddress_delayAddr (s : State) (a : Access) : (s.updateAddress a).delayAddr = s.delayAddr := (congrArg State.delayAddr (State.updateAddress_frame s a) :)
@[simp] theorem State.updateAddress_slotAhead (s : State) (a : Access) : (s.updateAddress a).slotAhead = s.slotAhead := (congrArg State.slotAhead (State.updateAddress_frame s a) :)
@[simp] theorem State.updateAddress_afterDelayedBranch (s : State) (a : Access) : (s.updateAddress a).afterDelayedBranch = s.afterDelayedBranch := (congrArg State.afterDelayedBranch (State.updateAddress_frame s a) :)
@[simp] theorem State.updateAddress_callLockout (s : State) (a : Access) : (s.updateAddress a).callLockout = s.callLockout := (congrArg State.callLockout (State.updateAddress_frame s a) :)
@[simp] theorem State.updateAddress_extOvfPending (s : State) (a : Access) : (s.updateAddress a).extOvfPending = s.extOvfPending := (congrArg State.extOvfPending (State.updateAddress_frame s a) :)
@[simp] theorem State.updateAddress_parityPending (s : State) (a : Access) : (s.updateAddress a).parityPending = s.parityPending := (congrArg State.parityPending (State.updateAddress_frame s a) :)
@[simp] theorem State.updateAddress_prescaler (s : State) (a : Access) : (s.updateAddress a).prescaler = s.prescaler := (congrArg State.prescaler (State.updateAddress_frame s a) :)
@[simp] theorem State.updateAddress_io3Toggle (s : State) (a : Access) : (s.updateAddress a).io3Toggle = s.io3Toggle := (congrArg State.io3Toggle (State.updateAddress_frame s a) :)
@[simp] theorem State.updateAddress_powerDown (s : State) (a : Access) : (s.updateAddress a).powerDown = s.powerDown := (congrArg State.powerDown (State.updateAddress_frame s a) :)
@[simp] theorem State.updateAddress_resetRequest (s : State) (a : Access) : (s.updateAddress a).resetRequest = s.resetRequest := (congrArg State.resetRequest (State.updateAddress_frame s a) :)
@[simp] theorem State.updateAddress_pins (s : State) (a : Access) : (s.updateAddress a).pins = s.pins := (congrArg State.pins (State.updateAddress_frame s a) :)
@[simp] theorem State.updateAddress_pinsDriven (s : State) (a : Access) : (s.updateAddress a).pinsDriven = s.pinsDriven := (congrArg State.pinsDriven (State.updateAddress_frame s a) :)
@[simp] theorem State.updateAddress_platform (s : State) (a : Access) : (s.updateAddress a).platform = s.platform := (congrArg State.platform (State.updateAddress_frame s a) :)
@[simp] theorem State.updateAddress_inputs (s : State) (a : Access) : (s.updateAddress a).inputs = s.inputs := (congrArg State.inputs (State.updateAddress_frame s a) :)
@[simp] theorem State.updateAddress_between (s : State) (a : Access) : (s.updateAddress a).between = s.between := (congrArg State.between (State.updateAddress_frame s a) :)
@[simp] theorem State.updateAddress_ioTrace (s : State) (a : Access) : (s.updateAddress a).ioTrace = s.ioTrace := (congrArg State.ioTrace (State.updateAddress_frame s a) :)
@[simp] theorem State.updateAddress_fresh (s : State) (a : Access) : (s.updateAddress a).fresh = s.fresh := (congrArg State.fresh (State.updateAddress_frame s a) :)

/-! ### The bus after a stack read (R118) -/

@[simp] theorem State.noteStackRead_pc (s : State) (a : Word) : (s.noteStackRead a).pc = s.pc := field_ite State.pc rfl rfl
@[simp] theorem State.noteStackRead_sr (s : State) (a : Word) : (s.noteStackRead a).sr = s.sr := field_ite State.sr rfl rfl
@[simp] theorem State.noteStackRead_fer (s : State) (a : Word) : (s.noteStackRead a).fer = s.fer := field_ite State.fer rfl rfl
@[simp] theorem State.noteStackRead_gpr (s : State) (a : Word) : (s.noteStackRead a).gpr = s.gpr := field_ite State.gpr rfl rfl
@[simp] theorem State.noteStackRead_sp (s : State) (a : Word) : (s.noteStackRead a).sp = s.sp := field_ite State.sp rfl rfl
@[simp] theorem State.noteStackRead_ub (s : State) (a : Word) : (s.noteStackRead a).ub = s.ub := field_ite State.ub rfl rfl
@[simp] theorem State.noteStackRead_bcr (s : State) (a : Word) : (s.noteStackRead a).bcr = s.bcr := field_ite State.bcr rfl rfl
@[simp] theorem State.noteStackRead_tpr (s : State) (a : Word) : (s.noteStackRead a).tpr = s.tpr := field_ite State.tpr rfl rfl
@[simp] theorem State.noteStackRead_tcr (s : State) (a : Word) : (s.noteStackRead a).tcr = s.tcr := field_ite State.tcr rfl rfl
@[simp] theorem State.noteStackRead_tr (s : State) (a : Word) : (s.noteStackRead a).tr = s.tr := field_ite State.tr rfl rfl
@[simp] theorem State.noteStackRead_wcr (s : State) (a : Word) : (s.noteStackRead a).wcr = s.wcr := field_ite State.wcr rfl rfl
@[simp] theorem State.noteStackRead_wcrUpperOpen (s : State) (a : Word) : (s.noteStackRead a).wcrUpperOpen = s.wcrUpperOpen := field_ite State.wcrUpperOpen rfl rfl
@[simp] theorem State.noteStackRead_equalFlag (s : State) (a : Word) : (s.noteStackRead a).equalFlag = s.equalFlag := field_ite State.equalFlag rfl rfl
@[simp] theorem State.noteStackRead_eventFlag (s : State) (a : Word) : (s.noteStackRead a).eventFlag = s.eventFlag := field_ite State.eventFlag rfl rfl
@[simp] theorem State.noteStackRead_fcr (s : State) (a : Word) : (s.noteStackRead a).fcr = s.fcr := field_ite State.fcr rfl rfl
@[simp] theorem State.noteStackRead_mcr (s : State) (a : Word) : (s.noteStackRead a).mcr = s.mcr := field_ite State.mcr rfl rfl
@[simp] theorem State.noteStackRead_locals (s : State) (a : Word) : (s.noteStackRead a).locals = s.locals := field_ite State.locals rfl rfl
@[simp] theorem State.noteStackRead_mem (s : State) (a : Word) : (s.noteStackRead a).mem = s.mem := field_ite State.mem rfl rfl
@[simp] theorem State.noteStackRead_iramKept (s : State) (a : Word) : (s.noteStackRead a).iramKept = s.iramKept := field_ite State.iramKept rfl rfl
@[simp] theorem State.noteStackRead_stale (s : State) (a : Word) : (s.noteStackRead a).stale = s.stale := field_ite State.stale rfl rfl
@[simp] theorem State.noteStackRead_lookBack (s : State) (a : Word) : (s.noteStackRead a).lookBack = s.lookBack := field_ite State.lookBack rfl rfl
@[simp] theorem State.noteStackRead_lookAhead (s : State) (a : Word) : (s.noteStackRead a).lookAhead = s.lookAhead := field_ite State.lookAhead rfl rfl
@[simp] theorem State.noteStackRead_delayPending (s : State) (a : Word) : (s.noteStackRead a).delayPending = s.delayPending := field_ite State.delayPending rfl rfl
@[simp] theorem State.noteStackRead_delayAddr (s : State) (a : Word) : (s.noteStackRead a).delayAddr = s.delayAddr := field_ite State.delayAddr rfl rfl
@[simp] theorem State.noteStackRead_slotAhead (s : State) (a : Word) : (s.noteStackRead a).slotAhead = s.slotAhead := field_ite State.slotAhead rfl rfl
@[simp] theorem State.noteStackRead_afterDelayedBranch (s : State) (a : Word) : (s.noteStackRead a).afterDelayedBranch = s.afterDelayedBranch := field_ite State.afterDelayedBranch rfl rfl
@[simp] theorem State.noteStackRead_callLockout (s : State) (a : Word) : (s.noteStackRead a).callLockout = s.callLockout := field_ite State.callLockout rfl rfl
@[simp] theorem State.noteStackRead_extOvfPending (s : State) (a : Word) : (s.noteStackRead a).extOvfPending = s.extOvfPending := field_ite State.extOvfPending rfl rfl
@[simp] theorem State.noteStackRead_parityPending (s : State) (a : Word) : (s.noteStackRead a).parityPending = s.parityPending := field_ite State.parityPending rfl rfl
@[simp] theorem State.noteStackRead_prescaler (s : State) (a : Word) : (s.noteStackRead a).prescaler = s.prescaler := field_ite State.prescaler rfl rfl
@[simp] theorem State.noteStackRead_io3Toggle (s : State) (a : Word) : (s.noteStackRead a).io3Toggle = s.io3Toggle := field_ite State.io3Toggle rfl rfl
@[simp] theorem State.noteStackRead_powerDown (s : State) (a : Word) : (s.noteStackRead a).powerDown = s.powerDown := field_ite State.powerDown rfl rfl
@[simp] theorem State.noteStackRead_resetRequest (s : State) (a : Word) : (s.noteStackRead a).resetRequest = s.resetRequest := field_ite State.resetRequest rfl rfl
@[simp] theorem State.noteStackRead_pins (s : State) (a : Word) : (s.noteStackRead a).pins = s.pins := field_ite State.pins rfl rfl
@[simp] theorem State.noteStackRead_pinsDriven (s : State) (a : Word) : (s.noteStackRead a).pinsDriven = s.pinsDriven := field_ite State.pinsDriven rfl rfl
@[simp] theorem State.noteStackRead_platform (s : State) (a : Word) : (s.noteStackRead a).platform = s.platform := field_ite State.platform rfl rfl
@[simp] theorem State.noteStackRead_inputs (s : State) (a : Word) : (s.noteStackRead a).inputs = s.inputs := field_ite State.inputs rfl rfl
@[simp] theorem State.noteStackRead_between (s : State) (a : Word) : (s.noteStackRead a).between = s.between := field_ite State.between rfl rfl
@[simp] theorem State.noteStackRead_ioTrace (s : State) (a : Word) : (s.noteStackRead a).ioTrace = s.ioTrace := field_ite State.ioTrace rfl rfl
@[simp] theorem State.noteStackRead_fresh (s : State) (a : Word) : (s.noteStackRead a).fresh = s.fresh := field_ite State.fresh rfl rfl

/-! ### The result of an Extended DSP instruction (R473) -/

@[simp] theorem State.putDsp_pc (s : State) (r : DspResult) : (s.putDsp r).pc = s.pc := rfl
@[simp] theorem State.putDsp_sr (s : State) (r : DspResult) : (s.putDsp r).sr = s.sr := rfl
@[simp] theorem State.putDsp_fer (s : State) (r : DspResult) : (s.putDsp r).fer = s.fer := rfl
@[simp] theorem State.putDsp_sp (s : State) (r : DspResult) : (s.putDsp r).sp = s.sp := rfl
@[simp] theorem State.putDsp_ub (s : State) (r : DspResult) : (s.putDsp r).ub = s.ub := rfl
@[simp] theorem State.putDsp_bcr (s : State) (r : DspResult) : (s.putDsp r).bcr = s.bcr := rfl
@[simp] theorem State.putDsp_tpr (s : State) (r : DspResult) : (s.putDsp r).tpr = s.tpr := rfl
@[simp] theorem State.putDsp_tcr (s : State) (r : DspResult) : (s.putDsp r).tcr = s.tcr := rfl
@[simp] theorem State.putDsp_tr (s : State) (r : DspResult) : (s.putDsp r).tr = s.tr := rfl
@[simp] theorem State.putDsp_wcr (s : State) (r : DspResult) : (s.putDsp r).wcr = s.wcr := rfl
@[simp] theorem State.putDsp_wcrUpperOpen (s : State) (r : DspResult) : (s.putDsp r).wcrUpperOpen = s.wcrUpperOpen := rfl
@[simp] theorem State.putDsp_equalFlag (s : State) (r : DspResult) : (s.putDsp r).equalFlag = s.equalFlag := rfl
@[simp] theorem State.putDsp_eventFlag (s : State) (r : DspResult) : (s.putDsp r).eventFlag = s.eventFlag := rfl
@[simp] theorem State.putDsp_fcr (s : State) (r : DspResult) : (s.putDsp r).fcr = s.fcr := rfl
@[simp] theorem State.putDsp_mcr (s : State) (r : DspResult) : (s.putDsp r).mcr = s.mcr := rfl
@[simp] theorem State.putDsp_locals (s : State) (r : DspResult) : (s.putDsp r).locals = s.locals := rfl
@[simp] theorem State.putDsp_mem (s : State) (r : DspResult) : (s.putDsp r).mem = s.mem := rfl
@[simp] theorem State.putDsp_iramKept (s : State) (r : DspResult) : (s.putDsp r).iramKept = s.iramKept := rfl
@[simp] theorem State.putDsp_iramRelied (s : State) (r : DspResult) : (s.putDsp r).iramRelied = s.iramRelied := rfl
@[simp] theorem State.putDsp_stale (s : State) (r : DspResult) : (s.putDsp r).stale = s.stale := rfl
@[simp] theorem State.putDsp_lookBack (s : State) (r : DspResult) : (s.putDsp r).lookBack = s.lookBack := rfl
@[simp] theorem State.putDsp_lookAhead (s : State) (r : DspResult) : (s.putDsp r).lookAhead = s.lookAhead := rfl
@[simp] theorem State.putDsp_busLock (s : State) (r : DspResult) : (s.putDsp r).busLock = s.busLock := rfl
@[simp] theorem State.putDsp_delayPending (s : State) (r : DspResult) : (s.putDsp r).delayPending = s.delayPending := rfl
@[simp] theorem State.putDsp_delayAddr (s : State) (r : DspResult) : (s.putDsp r).delayAddr = s.delayAddr := rfl
@[simp] theorem State.putDsp_slotAhead (s : State) (r : DspResult) : (s.putDsp r).slotAhead = s.slotAhead := rfl
@[simp] theorem State.putDsp_afterDelayedBranch (s : State) (r : DspResult) : (s.putDsp r).afterDelayedBranch = s.afterDelayedBranch := rfl
@[simp] theorem State.putDsp_callLockout (s : State) (r : DspResult) : (s.putDsp r).callLockout = s.callLockout := rfl
@[simp] theorem State.putDsp_parityPending (s : State) (r : DspResult) : (s.putDsp r).parityPending = s.parityPending := rfl
@[simp] theorem State.putDsp_prescaler (s : State) (r : DspResult) : (s.putDsp r).prescaler = s.prescaler := rfl
@[simp] theorem State.putDsp_io3Toggle (s : State) (r : DspResult) : (s.putDsp r).io3Toggle = s.io3Toggle := rfl
@[simp] theorem State.putDsp_powerDown (s : State) (r : DspResult) : (s.putDsp r).powerDown = s.powerDown := rfl
@[simp] theorem State.putDsp_resetRequest (s : State) (r : DspResult) : (s.putDsp r).resetRequest = s.resetRequest := rfl
@[simp] theorem State.putDsp_pins (s : State) (r : DspResult) : (s.putDsp r).pins = s.pins := rfl
@[simp] theorem State.putDsp_pinsDriven (s : State) (r : DspResult) : (s.putDsp r).pinsDriven = s.pinsDriven := rfl
@[simp] theorem State.putDsp_platform (s : State) (r : DspResult) : (s.putDsp r).platform = s.platform := rfl
@[simp] theorem State.putDsp_inputs (s : State) (r : DspResult) : (s.putDsp r).inputs = s.inputs := rfl
@[simp] theorem State.putDsp_between (s : State) (r : DspResult) : (s.putDsp r).between = s.between := rfl
@[simp] theorem State.putDsp_ioTrace (s : State) (r : DspResult) : (s.putDsp r).ioTrace = s.ioTrace := rfl
@[simp] theorem State.putDsp_fresh (s : State) (r : DspResult) : (s.putDsp r).fresh = s.fresh := rfl

/-! ### A Delayed Branch taken (R424) -/

@[simp] theorem State.delayed_fer (s : State) (rel : Rel) : (s.delayed rel).fer = s.fer := State.branchCache_fer ..
@[simp] theorem State.delayed_gpr (s : State) (rel : Rel) : (s.delayed rel).gpr = s.gpr := State.branchCache_gpr ..
@[simp] theorem State.delayed_sp (s : State) (rel : Rel) : (s.delayed rel).sp = s.sp := State.branchCache_sp ..
@[simp] theorem State.delayed_ub (s : State) (rel : Rel) : (s.delayed rel).ub = s.ub := State.branchCache_ub ..
@[simp] theorem State.delayed_bcr (s : State) (rel : Rel) : (s.delayed rel).bcr = s.bcr := State.branchCache_bcr ..
@[simp] theorem State.delayed_tpr (s : State) (rel : Rel) : (s.delayed rel).tpr = s.tpr := State.branchCache_tpr ..
@[simp] theorem State.delayed_tcr (s : State) (rel : Rel) : (s.delayed rel).tcr = s.tcr := State.branchCache_tcr ..
@[simp] theorem State.delayed_tr (s : State) (rel : Rel) : (s.delayed rel).tr = s.tr := State.branchCache_tr ..
@[simp] theorem State.delayed_wcr (s : State) (rel : Rel) : (s.delayed rel).wcr = s.wcr := State.branchCache_wcr ..
@[simp] theorem State.delayed_wcrUpperOpen (s : State) (rel : Rel) : (s.delayed rel).wcrUpperOpen = s.wcrUpperOpen := State.branchCache_wcrUpperOpen ..
@[simp] theorem State.delayed_equalFlag (s : State) (rel : Rel) : (s.delayed rel).equalFlag = s.equalFlag := State.branchCache_equalFlag ..
@[simp] theorem State.delayed_eventFlag (s : State) (rel : Rel) : (s.delayed rel).eventFlag = s.eventFlag := State.branchCache_eventFlag ..
@[simp] theorem State.delayed_fcr (s : State) (rel : Rel) : (s.delayed rel).fcr = s.fcr := State.branchCache_fcr ..
@[simp] theorem State.delayed_mcr (s : State) (rel : Rel) : (s.delayed rel).mcr = s.mcr := State.branchCache_mcr ..
@[simp] theorem State.delayed_locals (s : State) (rel : Rel) : (s.delayed rel).locals = s.locals := State.branchCache_locals ..
@[simp] theorem State.delayed_mem (s : State) (rel : Rel) : (s.delayed rel).mem = s.mem := State.branchCache_mem ..
@[simp] theorem State.delayed_iramKept (s : State) (rel : Rel) : (s.delayed rel).iramKept = s.iramKept := State.branchCache_iramKept ..
@[simp] theorem State.delayed_iramRelied (s : State) (rel : Rel) : (s.delayed rel).iramRelied = s.iramRelied := State.branchCache_iramRelied ..
@[simp] theorem State.delayed_callLockout (s : State) (rel : Rel) : (s.delayed rel).callLockout = s.callLockout := State.branchCache_callLockout ..
@[simp] theorem State.delayed_extOvfPending (s : State) (rel : Rel) : (s.delayed rel).extOvfPending = s.extOvfPending := State.branchCache_extOvfPending ..
@[simp] theorem State.delayed_parityPending (s : State) (rel : Rel) : (s.delayed rel).parityPending = s.parityPending := State.branchCache_parityPending ..
@[simp] theorem State.delayed_prescaler (s : State) (rel : Rel) : (s.delayed rel).prescaler = s.prescaler := State.branchCache_prescaler ..
@[simp] theorem State.delayed_io3Toggle (s : State) (rel : Rel) : (s.delayed rel).io3Toggle = s.io3Toggle := State.branchCache_io3Toggle ..
@[simp] theorem State.delayed_powerDown (s : State) (rel : Rel) : (s.delayed rel).powerDown = s.powerDown := State.branchCache_powerDown ..
@[simp] theorem State.delayed_resetRequest (s : State) (rel : Rel) : (s.delayed rel).resetRequest = s.resetRequest := State.branchCache_resetRequest ..
@[simp] theorem State.delayed_pins (s : State) (rel : Rel) : (s.delayed rel).pins = s.pins := State.branchCache_pins ..
@[simp] theorem State.delayed_pinsDriven (s : State) (rel : Rel) : (s.delayed rel).pinsDriven = s.pinsDriven := State.branchCache_pinsDriven ..
@[simp] theorem State.delayed_platform (s : State) (rel : Rel) : (s.delayed rel).platform = s.platform := State.branchCache_platform ..
@[simp] theorem State.delayed_inputs (s : State) (rel : Rel) : (s.delayed rel).inputs = s.inputs := State.branchCache_inputs ..
@[simp] theorem State.delayed_between (s : State) (rel : Rel) : (s.delayed rel).between = s.between := State.branchCache_between ..
@[simp] theorem State.delayed_ioTrace (s : State) (rel : Rel) : (s.delayed rel).ioTrace = s.ioTrace := State.branchCache_ioTrace ..
@[simp] theorem State.delayed_fresh (s : State) (rel : Rel) : (s.delayed rel).fresh = s.fresh := State.branchCache_fresh ..

/-! ### A CALL (R430) -/

@[simp] theorem State.called_fer (s : State) (ld : BitVec 4) (len : Nat) (target : Word) : (s.called ld len target).fer = s.fer := rfl
@[simp] theorem State.called_gpr (s : State) (ld : BitVec 4) (len : Nat) (target : Word) : (s.called ld len target).gpr = s.gpr := rfl
@[simp] theorem State.called_sp (s : State) (ld : BitVec 4) (len : Nat) (target : Word) : (s.called ld len target).sp = s.sp := rfl
@[simp] theorem State.called_ub (s : State) (ld : BitVec 4) (len : Nat) (target : Word) : (s.called ld len target).ub = s.ub := rfl
@[simp] theorem State.called_bcr (s : State) (ld : BitVec 4) (len : Nat) (target : Word) : (s.called ld len target).bcr = s.bcr := rfl
@[simp] theorem State.called_tpr (s : State) (ld : BitVec 4) (len : Nat) (target : Word) : (s.called ld len target).tpr = s.tpr := rfl
@[simp] theorem State.called_tcr (s : State) (ld : BitVec 4) (len : Nat) (target : Word) : (s.called ld len target).tcr = s.tcr := rfl
@[simp] theorem State.called_tr (s : State) (ld : BitVec 4) (len : Nat) (target : Word) : (s.called ld len target).tr = s.tr := rfl
@[simp] theorem State.called_wcr (s : State) (ld : BitVec 4) (len : Nat) (target : Word) : (s.called ld len target).wcr = s.wcr := rfl
@[simp] theorem State.called_wcrUpperOpen (s : State) (ld : BitVec 4) (len : Nat) (target : Word) : (s.called ld len target).wcrUpperOpen = s.wcrUpperOpen := rfl
@[simp] theorem State.called_equalFlag (s : State) (ld : BitVec 4) (len : Nat) (target : Word) : (s.called ld len target).equalFlag = s.equalFlag := rfl
@[simp] theorem State.called_eventFlag (s : State) (ld : BitVec 4) (len : Nat) (target : Word) : (s.called ld len target).eventFlag = s.eventFlag := rfl
@[simp] theorem State.called_fcr (s : State) (ld : BitVec 4) (len : Nat) (target : Word) : (s.called ld len target).fcr = s.fcr := rfl
@[simp] theorem State.called_mcr (s : State) (ld : BitVec 4) (len : Nat) (target : Word) : (s.called ld len target).mcr = s.mcr := rfl
@[simp] theorem State.called_mem (s : State) (ld : BitVec 4) (len : Nat) (target : Word) : (s.called ld len target).mem = s.mem := rfl
@[simp] theorem State.called_iramKept (s : State) (ld : BitVec 4) (len : Nat) (target : Word) : (s.called ld len target).iramKept = s.iramKept := rfl
@[simp] theorem State.called_iramRelied (s : State) (ld : BitVec 4) (len : Nat) (target : Word) : (s.called ld len target).iramRelied = s.iramRelied := rfl
@[simp] theorem State.called_delayAddr (s : State) (ld : BitVec 4) (len : Nat) (target : Word) : (s.called ld len target).delayAddr = s.delayAddr := rfl
@[simp] theorem State.called_slotAhead (s : State) (ld : BitVec 4) (len : Nat) (target : Word) : (s.called ld len target).slotAhead = s.slotAhead := rfl
@[simp] theorem State.called_extOvfPending (s : State) (ld : BitVec 4) (len : Nat) (target : Word) : (s.called ld len target).extOvfPending = s.extOvfPending := rfl
@[simp] theorem State.called_parityPending (s : State) (ld : BitVec 4) (len : Nat) (target : Word) : (s.called ld len target).parityPending = s.parityPending := rfl
@[simp] theorem State.called_prescaler (s : State) (ld : BitVec 4) (len : Nat) (target : Word) : (s.called ld len target).prescaler = s.prescaler := rfl
@[simp] theorem State.called_io3Toggle (s : State) (ld : BitVec 4) (len : Nat) (target : Word) : (s.called ld len target).io3Toggle = s.io3Toggle := rfl
@[simp] theorem State.called_powerDown (s : State) (ld : BitVec 4) (len : Nat) (target : Word) : (s.called ld len target).powerDown = s.powerDown := rfl
@[simp] theorem State.called_resetRequest (s : State) (ld : BitVec 4) (len : Nat) (target : Word) : (s.called ld len target).resetRequest = s.resetRequest := rfl
@[simp] theorem State.called_pins (s : State) (ld : BitVec 4) (len : Nat) (target : Word) : (s.called ld len target).pins = s.pins := rfl
@[simp] theorem State.called_pinsDriven (s : State) (ld : BitVec 4) (len : Nat) (target : Word) : (s.called ld len target).pinsDriven = s.pinsDriven := rfl
@[simp] theorem State.called_platform (s : State) (ld : BitVec 4) (len : Nat) (target : Word) : (s.called ld len target).platform = s.platform := rfl
@[simp] theorem State.called_inputs (s : State) (ld : BitVec 4) (len : Nat) (target : Word) : (s.called ld len target).inputs = s.inputs := rfl
@[simp] theorem State.called_between (s : State) (ld : BitVec 4) (len : Nat) (target : Word) : (s.called ld len target).between = s.between := rfl
@[simp] theorem State.called_ioTrace (s : State) (ld : BitVec 4) (len : Nat) (target : Word) : (s.called ld len target).ioTrace = s.ioTrace := rfl
@[simp] theorem State.called_fresh (s : State) (ld : BitVec 4) (len : Nat) (target : Word) : (s.called ld len target).fresh = s.fresh := rfl

/-! ### A Trap instruction taken (R434) -/

@[simp] theorem State.trapped_fer (s : State) (entry : Word) : (s.trapped entry).fer = s.fer := rfl
@[simp] theorem State.trapped_gpr (s : State) (entry : Word) : (s.trapped entry).gpr = s.gpr := rfl
@[simp] theorem State.trapped_sp (s : State) (entry : Word) : (s.trapped entry).sp = s.sp := rfl
@[simp] theorem State.trapped_ub (s : State) (entry : Word) : (s.trapped entry).ub = s.ub := rfl
@[simp] theorem State.trapped_bcr (s : State) (entry : Word) : (s.trapped entry).bcr = s.bcr := rfl
@[simp] theorem State.trapped_tpr (s : State) (entry : Word) : (s.trapped entry).tpr = s.tpr := rfl
@[simp] theorem State.trapped_tcr (s : State) (entry : Word) : (s.trapped entry).tcr = s.tcr := rfl
@[simp] theorem State.trapped_tr (s : State) (entry : Word) : (s.trapped entry).tr = s.tr := rfl
@[simp] theorem State.trapped_wcr (s : State) (entry : Word) : (s.trapped entry).wcr = s.wcr := rfl
@[simp] theorem State.trapped_wcrUpperOpen (s : State) (entry : Word) : (s.trapped entry).wcrUpperOpen = s.wcrUpperOpen := rfl
@[simp] theorem State.trapped_equalFlag (s : State) (entry : Word) : (s.trapped entry).equalFlag = s.equalFlag := rfl
@[simp] theorem State.trapped_eventFlag (s : State) (entry : Word) : (s.trapped entry).eventFlag = s.eventFlag := rfl
@[simp] theorem State.trapped_fcr (s : State) (entry : Word) : (s.trapped entry).fcr = s.fcr := rfl
@[simp] theorem State.trapped_mcr (s : State) (entry : Word) : (s.trapped entry).mcr = s.mcr := rfl
@[simp] theorem State.trapped_mem (s : State) (entry : Word) : (s.trapped entry).mem = s.mem := rfl
@[simp] theorem State.trapped_iramKept (s : State) (entry : Word) : (s.trapped entry).iramKept = s.iramKept := rfl
@[simp] theorem State.trapped_iramRelied (s : State) (entry : Word) : (s.trapped entry).iramRelied = s.iramRelied := rfl
@[simp] theorem State.trapped_delayAddr (s : State) (entry : Word) : (s.trapped entry).delayAddr = s.delayAddr := rfl
@[simp] theorem State.trapped_slotAhead (s : State) (entry : Word) : (s.trapped entry).slotAhead = s.slotAhead := rfl
@[simp] theorem State.trapped_extOvfPending (s : State) (entry : Word) : (s.trapped entry).extOvfPending = s.extOvfPending := rfl
@[simp] theorem State.trapped_parityPending (s : State) (entry : Word) : (s.trapped entry).parityPending = s.parityPending := rfl
@[simp] theorem State.trapped_prescaler (s : State) (entry : Word) : (s.trapped entry).prescaler = s.prescaler := rfl
@[simp] theorem State.trapped_io3Toggle (s : State) (entry : Word) : (s.trapped entry).io3Toggle = s.io3Toggle := rfl
@[simp] theorem State.trapped_powerDown (s : State) (entry : Word) : (s.trapped entry).powerDown = s.powerDown := rfl
@[simp] theorem State.trapped_resetRequest (s : State) (entry : Word) : (s.trapped entry).resetRequest = s.resetRequest := rfl
@[simp] theorem State.trapped_pins (s : State) (entry : Word) : (s.trapped entry).pins = s.pins := rfl
@[simp] theorem State.trapped_pinsDriven (s : State) (entry : Word) : (s.trapped entry).pinsDriven = s.pinsDriven := rfl
@[simp] theorem State.trapped_platform (s : State) (entry : Word) : (s.trapped entry).platform = s.platform := rfl
@[simp] theorem State.trapped_inputs (s : State) (entry : Word) : (s.trapped entry).inputs = s.inputs := rfl
@[simp] theorem State.trapped_between (s : State) (entry : Word) : (s.trapped entry).between = s.between := rfl
@[simp] theorem State.trapped_ioTrace (s : State) (entry : Word) : (s.trapped entry).ioTrace = s.ioTrace := rfl
@[simp] theorem State.trapped_fresh (s : State) (entry : Word) : (s.trapped entry).fresh = s.fresh := rfl

/-! ### A Software instruction's entry (R501) -/

@[simp] theorem State.softEntered_fer (s : State) (ld ls : BitVec 4) (entry : Word) : (s.softEntered ld ls entry).fer = s.fer := rfl
@[simp] theorem State.softEntered_gpr (s : State) (ld ls : BitVec 4) (entry : Word) : (s.softEntered ld ls entry).gpr = s.gpr := rfl
@[simp] theorem State.softEntered_sp (s : State) (ld ls : BitVec 4) (entry : Word) : (s.softEntered ld ls entry).sp = s.sp := rfl
@[simp] theorem State.softEntered_ub (s : State) (ld ls : BitVec 4) (entry : Word) : (s.softEntered ld ls entry).ub = s.ub := rfl
@[simp] theorem State.softEntered_bcr (s : State) (ld ls : BitVec 4) (entry : Word) : (s.softEntered ld ls entry).bcr = s.bcr := rfl
@[simp] theorem State.softEntered_tpr (s : State) (ld ls : BitVec 4) (entry : Word) : (s.softEntered ld ls entry).tpr = s.tpr := rfl
@[simp] theorem State.softEntered_tcr (s : State) (ld ls : BitVec 4) (entry : Word) : (s.softEntered ld ls entry).tcr = s.tcr := rfl
@[simp] theorem State.softEntered_tr (s : State) (ld ls : BitVec 4) (entry : Word) : (s.softEntered ld ls entry).tr = s.tr := rfl
@[simp] theorem State.softEntered_wcr (s : State) (ld ls : BitVec 4) (entry : Word) : (s.softEntered ld ls entry).wcr = s.wcr := rfl
@[simp] theorem State.softEntered_wcrUpperOpen (s : State) (ld ls : BitVec 4) (entry : Word) : (s.softEntered ld ls entry).wcrUpperOpen = s.wcrUpperOpen := rfl
@[simp] theorem State.softEntered_equalFlag (s : State) (ld ls : BitVec 4) (entry : Word) : (s.softEntered ld ls entry).equalFlag = s.equalFlag := rfl
@[simp] theorem State.softEntered_eventFlag (s : State) (ld ls : BitVec 4) (entry : Word) : (s.softEntered ld ls entry).eventFlag = s.eventFlag := rfl
@[simp] theorem State.softEntered_fcr (s : State) (ld ls : BitVec 4) (entry : Word) : (s.softEntered ld ls entry).fcr = s.fcr := rfl
@[simp] theorem State.softEntered_mcr (s : State) (ld ls : BitVec 4) (entry : Word) : (s.softEntered ld ls entry).mcr = s.mcr := rfl
@[simp] theorem State.softEntered_mem (s : State) (ld ls : BitVec 4) (entry : Word) : (s.softEntered ld ls entry).mem = s.mem := rfl
@[simp] theorem State.softEntered_iramKept (s : State) (ld ls : BitVec 4) (entry : Word) : (s.softEntered ld ls entry).iramKept = s.iramKept := rfl
@[simp] theorem State.softEntered_iramRelied (s : State) (ld ls : BitVec 4) (entry : Word) : (s.softEntered ld ls entry).iramRelied = s.iramRelied := rfl
@[simp] theorem State.softEntered_delayAddr (s : State) (ld ls : BitVec 4) (entry : Word) : (s.softEntered ld ls entry).delayAddr = s.delayAddr := rfl
@[simp] theorem State.softEntered_slotAhead (s : State) (ld ls : BitVec 4) (entry : Word) : (s.softEntered ld ls entry).slotAhead = s.slotAhead := rfl
@[simp] theorem State.softEntered_extOvfPending (s : State) (ld ls : BitVec 4) (entry : Word) : (s.softEntered ld ls entry).extOvfPending = s.extOvfPending := rfl
@[simp] theorem State.softEntered_parityPending (s : State) (ld ls : BitVec 4) (entry : Word) : (s.softEntered ld ls entry).parityPending = s.parityPending := rfl
@[simp] theorem State.softEntered_prescaler (s : State) (ld ls : BitVec 4) (entry : Word) : (s.softEntered ld ls entry).prescaler = s.prescaler := rfl
@[simp] theorem State.softEntered_io3Toggle (s : State) (ld ls : BitVec 4) (entry : Word) : (s.softEntered ld ls entry).io3Toggle = s.io3Toggle := rfl
@[simp] theorem State.softEntered_powerDown (s : State) (ld ls : BitVec 4) (entry : Word) : (s.softEntered ld ls entry).powerDown = s.powerDown := rfl
@[simp] theorem State.softEntered_resetRequest (s : State) (ld ls : BitVec 4) (entry : Word) : (s.softEntered ld ls entry).resetRequest = s.resetRequest := rfl
@[simp] theorem State.softEntered_pins (s : State) (ld ls : BitVec 4) (entry : Word) : (s.softEntered ld ls entry).pins = s.pins := rfl
@[simp] theorem State.softEntered_pinsDriven (s : State) (ld ls : BitVec 4) (entry : Word) : (s.softEntered ld ls entry).pinsDriven = s.pinsDriven := rfl
@[simp] theorem State.softEntered_platform (s : State) (ld ls : BitVec 4) (entry : Word) : (s.softEntered ld ls entry).platform = s.platform := rfl
@[simp] theorem State.softEntered_inputs (s : State) (ld ls : BitVec 4) (entry : Word) : (s.softEntered ld ls entry).inputs = s.inputs := rfl
@[simp] theorem State.softEntered_between (s : State) (ld ls : BitVec 4) (entry : Word) : (s.softEntered ld ls entry).between = s.between := rfl
@[simp] theorem State.softEntered_ioTrace (s : State) (ld ls : BitVec 4) (entry : Word) : (s.softEntered ld ls entry).ioTrace = s.ioTrace := rfl
@[simp] theorem State.softEntered_fresh (s : State) (ld ls : BitVec 4) (entry : Word) : (s.softEntered ld ls entry).fresh = s.fresh := rfl

/-! ### One word pulled (R446) -/

@[simp] theorem State.pull_pc (s : State) : (s.pull).pc = s.pc := rfl
@[simp] theorem State.pull_sr (s : State) : (s.pull).sr = s.sr := rfl
@[simp] theorem State.pull_fer (s : State) : (s.pull).fer = s.fer := rfl
@[simp] theorem State.pull_gpr (s : State) : (s.pull).gpr = s.gpr := rfl
@[simp] theorem State.pull_ub (s : State) : (s.pull).ub = s.ub := rfl
@[simp] theorem State.pull_bcr (s : State) : (s.pull).bcr = s.bcr := rfl
@[simp] theorem State.pull_tpr (s : State) : (s.pull).tpr = s.tpr := rfl
@[simp] theorem State.pull_tcr (s : State) : (s.pull).tcr = s.tcr := rfl
@[simp] theorem State.pull_tr (s : State) : (s.pull).tr = s.tr := rfl
@[simp] theorem State.pull_wcr (s : State) : (s.pull).wcr = s.wcr := rfl
@[simp] theorem State.pull_wcrUpperOpen (s : State) : (s.pull).wcrUpperOpen = s.wcrUpperOpen := rfl
@[simp] theorem State.pull_equalFlag (s : State) : (s.pull).equalFlag = s.equalFlag := rfl
@[simp] theorem State.pull_eventFlag (s : State) : (s.pull).eventFlag = s.eventFlag := rfl
@[simp] theorem State.pull_fcr (s : State) : (s.pull).fcr = s.fcr := rfl
@[simp] theorem State.pull_mcr (s : State) : (s.pull).mcr = s.mcr := rfl
@[simp] theorem State.pull_mem (s : State) : (s.pull).mem = s.mem := rfl
@[simp] theorem State.pull_iramKept (s : State) : (s.pull).iramKept = s.iramKept := rfl
@[simp] theorem State.pull_stale (s : State) : (s.pull).stale = s.stale := rfl
@[simp] theorem State.pull_lookBack (s : State) : (s.pull).lookBack = s.lookBack := rfl
@[simp] theorem State.pull_lookAhead (s : State) : (s.pull).lookAhead = s.lookAhead := rfl
@[simp] theorem State.pull_delayPending (s : State) : (s.pull).delayPending = s.delayPending := rfl
@[simp] theorem State.pull_delayAddr (s : State) : (s.pull).delayAddr = s.delayAddr := rfl
@[simp] theorem State.pull_slotAhead (s : State) : (s.pull).slotAhead = s.slotAhead := rfl
@[simp] theorem State.pull_afterDelayedBranch (s : State) : (s.pull).afterDelayedBranch = s.afterDelayedBranch := rfl
@[simp] theorem State.pull_callLockout (s : State) : (s.pull).callLockout = s.callLockout := rfl
@[simp] theorem State.pull_extOvfPending (s : State) : (s.pull).extOvfPending = s.extOvfPending := rfl
@[simp] theorem State.pull_parityPending (s : State) : (s.pull).parityPending = s.parityPending := rfl
@[simp] theorem State.pull_prescaler (s : State) : (s.pull).prescaler = s.prescaler := rfl
@[simp] theorem State.pull_io3Toggle (s : State) : (s.pull).io3Toggle = s.io3Toggle := rfl
@[simp] theorem State.pull_powerDown (s : State) : (s.pull).powerDown = s.powerDown := rfl
@[simp] theorem State.pull_resetRequest (s : State) : (s.pull).resetRequest = s.resetRequest := rfl
@[simp] theorem State.pull_pins (s : State) : (s.pull).pins = s.pins := rfl
@[simp] theorem State.pull_pinsDriven (s : State) : (s.pull).pinsDriven = s.pinsDriven := rfl
@[simp] theorem State.pull_platform (s : State) : (s.pull).platform = s.platform := rfl
@[simp] theorem State.pull_inputs (s : State) : (s.pull).inputs = s.inputs := rfl
@[simp] theorem State.pull_between (s : State) : (s.pull).between = s.between := rfl
@[simp] theorem State.pull_ioTrace (s : State) : (s.pull).ioTrace = s.ioTrace := rfl
@[simp] theorem State.pull_fresh (s : State) : (s.pull).fresh = s.fresh := rfl

/-! ### One word pushed (R440) -/

@[simp] theorem State.push_pc (s : State) : (s.push).pc = s.pc := State.writeWord_pc (s.noteAccess (regionOf s.sp)) (regionOf s.sp) s.sp (s.getLocal (s.sp.extractLsb' 2 6))
@[simp] theorem State.push_sr (s : State) : (s.push).sr = s.sr := State.writeWord_sr (s.noteAccess (regionOf s.sp)) (regionOf s.sp) s.sp (s.getLocal (s.sp.extractLsb' 2 6))
@[simp] theorem State.push_fer (s : State) : (s.push).fer = s.fer := State.writeWord_fer (s.noteAccess (regionOf s.sp)) (regionOf s.sp) s.sp (s.getLocal (s.sp.extractLsb' 2 6))
@[simp] theorem State.push_gpr (s : State) : (s.push).gpr = s.gpr := State.writeWord_gpr (s.noteAccess (regionOf s.sp)) (regionOf s.sp) s.sp (s.getLocal (s.sp.extractLsb' 2 6))
@[simp] theorem State.push_ub (s : State) : (s.push).ub = s.ub := State.writeWord_ub (s.noteAccess (regionOf s.sp)) (regionOf s.sp) s.sp (s.getLocal (s.sp.extractLsb' 2 6))
@[simp] theorem State.push_bcr (s : State) : (s.push).bcr = s.bcr := State.writeWord_bcr (s.noteAccess (regionOf s.sp)) (regionOf s.sp) s.sp (s.getLocal (s.sp.extractLsb' 2 6))
@[simp] theorem State.push_tpr (s : State) : (s.push).tpr = s.tpr := State.writeWord_tpr (s.noteAccess (regionOf s.sp)) (regionOf s.sp) s.sp (s.getLocal (s.sp.extractLsb' 2 6))
@[simp] theorem State.push_tcr (s : State) : (s.push).tcr = s.tcr := State.writeWord_tcr (s.noteAccess (regionOf s.sp)) (regionOf s.sp) s.sp (s.getLocal (s.sp.extractLsb' 2 6))
@[simp] theorem State.push_tr (s : State) : (s.push).tr = s.tr := State.writeWord_tr (s.noteAccess (regionOf s.sp)) (regionOf s.sp) s.sp (s.getLocal (s.sp.extractLsb' 2 6))
@[simp] theorem State.push_wcr (s : State) : (s.push).wcr = s.wcr := State.writeWord_wcr (s.noteAccess (regionOf s.sp)) (regionOf s.sp) s.sp (s.getLocal (s.sp.extractLsb' 2 6))
@[simp] theorem State.push_wcrUpperOpen (s : State) : (s.push).wcrUpperOpen = s.wcrUpperOpen := State.writeWord_wcrUpperOpen (s.noteAccess (regionOf s.sp)) (regionOf s.sp) s.sp (s.getLocal (s.sp.extractLsb' 2 6))
@[simp] theorem State.push_equalFlag (s : State) : (s.push).equalFlag = s.equalFlag := State.writeWord_equalFlag (s.noteAccess (regionOf s.sp)) (regionOf s.sp) s.sp (s.getLocal (s.sp.extractLsb' 2 6))
@[simp] theorem State.push_eventFlag (s : State) : (s.push).eventFlag = s.eventFlag := State.writeWord_eventFlag (s.noteAccess (regionOf s.sp)) (regionOf s.sp) s.sp (s.getLocal (s.sp.extractLsb' 2 6))
@[simp] theorem State.push_fcr (s : State) : (s.push).fcr = s.fcr := State.writeWord_fcr (s.noteAccess (regionOf s.sp)) (regionOf s.sp) s.sp (s.getLocal (s.sp.extractLsb' 2 6))
@[simp] theorem State.push_mcr (s : State) : (s.push).mcr = s.mcr := State.writeWord_mcr (s.noteAccess (regionOf s.sp)) (regionOf s.sp) s.sp (s.getLocal (s.sp.extractLsb' 2 6))
@[simp] theorem State.push_locals (s : State) : (s.push).locals = s.locals := State.writeWord_locals (s.noteAccess (regionOf s.sp)) (regionOf s.sp) s.sp (s.getLocal (s.sp.extractLsb' 2 6))
@[simp] theorem State.push_iramRelied (s : State) : (s.push).iramRelied = s.iramRelied := State.writeWord_iramRelied (s.noteAccess (regionOf s.sp)) (regionOf s.sp) s.sp (s.getLocal (s.sp.extractLsb' 2 6))
@[simp] theorem State.push_lookBack (s : State) : (s.push).lookBack = s.lookBack := State.writeWord_lookBack (s.noteAccess (regionOf s.sp)) (regionOf s.sp) s.sp (s.getLocal (s.sp.extractLsb' 2 6))
@[simp] theorem State.push_lookAhead (s : State) : (s.push).lookAhead = s.lookAhead := State.writeWord_lookAhead (s.noteAccess (regionOf s.sp)) (regionOf s.sp) s.sp (s.getLocal (s.sp.extractLsb' 2 6))
@[simp] theorem State.push_delayPending (s : State) : (s.push).delayPending = s.delayPending := State.writeWord_delayPending (s.noteAccess (regionOf s.sp)) (regionOf s.sp) s.sp (s.getLocal (s.sp.extractLsb' 2 6))
@[simp] theorem State.push_delayAddr (s : State) : (s.push).delayAddr = s.delayAddr := State.writeWord_delayAddr (s.noteAccess (regionOf s.sp)) (regionOf s.sp) s.sp (s.getLocal (s.sp.extractLsb' 2 6))
@[simp] theorem State.push_slotAhead (s : State) : (s.push).slotAhead = s.slotAhead := State.writeWord_slotAhead (s.noteAccess (regionOf s.sp)) (regionOf s.sp) s.sp (s.getLocal (s.sp.extractLsb' 2 6))
@[simp] theorem State.push_afterDelayedBranch (s : State) : (s.push).afterDelayedBranch = s.afterDelayedBranch := State.writeWord_afterDelayedBranch (s.noteAccess (regionOf s.sp)) (regionOf s.sp) s.sp (s.getLocal (s.sp.extractLsb' 2 6))
@[simp] theorem State.push_callLockout (s : State) : (s.push).callLockout = s.callLockout := State.writeWord_callLockout (s.noteAccess (regionOf s.sp)) (regionOf s.sp) s.sp (s.getLocal (s.sp.extractLsb' 2 6))
@[simp] theorem State.push_extOvfPending (s : State) : (s.push).extOvfPending = s.extOvfPending := State.writeWord_extOvfPending (s.noteAccess (regionOf s.sp)) (regionOf s.sp) s.sp (s.getLocal (s.sp.extractLsb' 2 6))
@[simp] theorem State.push_parityPending (s : State) : (s.push).parityPending = s.parityPending := State.writeWord_parityPending (s.noteAccess (regionOf s.sp)) (regionOf s.sp) s.sp (s.getLocal (s.sp.extractLsb' 2 6))
@[simp] theorem State.push_prescaler (s : State) : (s.push).prescaler = s.prescaler := State.writeWord_prescaler (s.noteAccess (regionOf s.sp)) (regionOf s.sp) s.sp (s.getLocal (s.sp.extractLsb' 2 6))
@[simp] theorem State.push_io3Toggle (s : State) : (s.push).io3Toggle = s.io3Toggle := State.writeWord_io3Toggle (s.noteAccess (regionOf s.sp)) (regionOf s.sp) s.sp (s.getLocal (s.sp.extractLsb' 2 6))
@[simp] theorem State.push_powerDown (s : State) : (s.push).powerDown = s.powerDown := State.writeWord_powerDown (s.noteAccess (regionOf s.sp)) (regionOf s.sp) s.sp (s.getLocal (s.sp.extractLsb' 2 6))
@[simp] theorem State.push_resetRequest (s : State) : (s.push).resetRequest = s.resetRequest := State.writeWord_resetRequest (s.noteAccess (regionOf s.sp)) (regionOf s.sp) s.sp (s.getLocal (s.sp.extractLsb' 2 6))
@[simp] theorem State.push_pins (s : State) : (s.push).pins = s.pins := State.writeWord_pins (s.noteAccess (regionOf s.sp)) (regionOf s.sp) s.sp (s.getLocal (s.sp.extractLsb' 2 6))
@[simp] theorem State.push_pinsDriven (s : State) : (s.push).pinsDriven = s.pinsDriven := State.writeWord_pinsDriven (s.noteAccess (regionOf s.sp)) (regionOf s.sp) s.sp (s.getLocal (s.sp.extractLsb' 2 6))
@[simp] theorem State.push_platform (s : State) : (s.push).platform = s.platform := State.writeWord_platform (s.noteAccess (regionOf s.sp)) (regionOf s.sp) s.sp (s.getLocal (s.sp.extractLsb' 2 6))
@[simp] theorem State.push_inputs (s : State) : (s.push).inputs = s.inputs := State.writeWord_inputs (s.noteAccess (regionOf s.sp)) (regionOf s.sp) s.sp (s.getLocal (s.sp.extractLsb' 2 6))
@[simp] theorem State.push_between (s : State) : (s.push).between = s.between := State.writeWord_between (s.noteAccess (regionOf s.sp)) (regionOf s.sp) s.sp (s.getLocal (s.sp.extractLsb' 2 6))
@[simp] theorem State.push_ioTrace (s : State) : (s.push).ioTrace = s.ioTrace := State.writeWord_ioTrace (s.noteAccess (regionOf s.sp)) (regionOf s.sp) s.sp (s.getLocal (s.sp.extractLsb' 2 6))
@[simp] theorem State.push_fresh (s : State) : (s.push).fresh = s.fresh := State.writeWord_fresh (s.noteAccess (regionOf s.sp)) (regionOf s.sp) s.sp (s.getLocal (s.sp.extractLsb' 2 6))

/-! ### Words pulled (R446) -/

@[simp] theorem State.pulls_pc : (s : State) → (n : Nat) → (s.pulls n).pc = s.pc
  | _, 0 => rfl
  | s, n + 1 => (State.pulls_pc s.pull n).trans (State.pull_pc s)
@[simp] theorem State.pulls_sr : (s : State) → (n : Nat) → (s.pulls n).sr = s.sr
  | _, 0 => rfl
  | s, n + 1 => (State.pulls_sr s.pull n).trans (State.pull_sr s)
@[simp] theorem State.pulls_fer : (s : State) → (n : Nat) → (s.pulls n).fer = s.fer
  | _, 0 => rfl
  | s, n + 1 => (State.pulls_fer s.pull n).trans (State.pull_fer s)
@[simp] theorem State.pulls_gpr : (s : State) → (n : Nat) → (s.pulls n).gpr = s.gpr
  | _, 0 => rfl
  | s, n + 1 => (State.pulls_gpr s.pull n).trans (State.pull_gpr s)
@[simp] theorem State.pulls_ub : (s : State) → (n : Nat) → (s.pulls n).ub = s.ub
  | _, 0 => rfl
  | s, n + 1 => (State.pulls_ub s.pull n).trans (State.pull_ub s)
@[simp] theorem State.pulls_bcr : (s : State) → (n : Nat) → (s.pulls n).bcr = s.bcr
  | _, 0 => rfl
  | s, n + 1 => (State.pulls_bcr s.pull n).trans (State.pull_bcr s)
@[simp] theorem State.pulls_tpr : (s : State) → (n : Nat) → (s.pulls n).tpr = s.tpr
  | _, 0 => rfl
  | s, n + 1 => (State.pulls_tpr s.pull n).trans (State.pull_tpr s)
@[simp] theorem State.pulls_tcr : (s : State) → (n : Nat) → (s.pulls n).tcr = s.tcr
  | _, 0 => rfl
  | s, n + 1 => (State.pulls_tcr s.pull n).trans (State.pull_tcr s)
@[simp] theorem State.pulls_tr : (s : State) → (n : Nat) → (s.pulls n).tr = s.tr
  | _, 0 => rfl
  | s, n + 1 => (State.pulls_tr s.pull n).trans (State.pull_tr s)
@[simp] theorem State.pulls_wcr : (s : State) → (n : Nat) → (s.pulls n).wcr = s.wcr
  | _, 0 => rfl
  | s, n + 1 => (State.pulls_wcr s.pull n).trans (State.pull_wcr s)
@[simp] theorem State.pulls_wcrUpperOpen : (s : State) → (n : Nat) → (s.pulls n).wcrUpperOpen = s.wcrUpperOpen
  | _, 0 => rfl
  | s, n + 1 => (State.pulls_wcrUpperOpen s.pull n).trans (State.pull_wcrUpperOpen s)
@[simp] theorem State.pulls_equalFlag : (s : State) → (n : Nat) → (s.pulls n).equalFlag = s.equalFlag
  | _, 0 => rfl
  | s, n + 1 => (State.pulls_equalFlag s.pull n).trans (State.pull_equalFlag s)
@[simp] theorem State.pulls_eventFlag : (s : State) → (n : Nat) → (s.pulls n).eventFlag = s.eventFlag
  | _, 0 => rfl
  | s, n + 1 => (State.pulls_eventFlag s.pull n).trans (State.pull_eventFlag s)
@[simp] theorem State.pulls_fcr : (s : State) → (n : Nat) → (s.pulls n).fcr = s.fcr
  | _, 0 => rfl
  | s, n + 1 => (State.pulls_fcr s.pull n).trans (State.pull_fcr s)
@[simp] theorem State.pulls_mcr : (s : State) → (n : Nat) → (s.pulls n).mcr = s.mcr
  | _, 0 => rfl
  | s, n + 1 => (State.pulls_mcr s.pull n).trans (State.pull_mcr s)
@[simp] theorem State.pulls_mem : (s : State) → (n : Nat) → (s.pulls n).mem = s.mem
  | _, 0 => rfl
  | s, n + 1 => (State.pulls_mem s.pull n).trans (State.pull_mem s)
@[simp] theorem State.pulls_iramKept : (s : State) → (n : Nat) → (s.pulls n).iramKept = s.iramKept
  | _, 0 => rfl
  | s, n + 1 => (State.pulls_iramKept s.pull n).trans (State.pull_iramKept s)
@[simp] theorem State.pulls_stale : (s : State) → (n : Nat) → (s.pulls n).stale = s.stale
  | _, 0 => rfl
  | s, n + 1 => (State.pulls_stale s.pull n).trans (State.pull_stale s)
@[simp] theorem State.pulls_lookBack : (s : State) → (n : Nat) → (s.pulls n).lookBack = s.lookBack
  | _, 0 => rfl
  | s, n + 1 => (State.pulls_lookBack s.pull n).trans (State.pull_lookBack s)
@[simp] theorem State.pulls_lookAhead : (s : State) → (n : Nat) → (s.pulls n).lookAhead = s.lookAhead
  | _, 0 => rfl
  | s, n + 1 => (State.pulls_lookAhead s.pull n).trans (State.pull_lookAhead s)
@[simp] theorem State.pulls_delayPending : (s : State) → (n : Nat) → (s.pulls n).delayPending = s.delayPending
  | _, 0 => rfl
  | s, n + 1 => (State.pulls_delayPending s.pull n).trans (State.pull_delayPending s)
@[simp] theorem State.pulls_delayAddr : (s : State) → (n : Nat) → (s.pulls n).delayAddr = s.delayAddr
  | _, 0 => rfl
  | s, n + 1 => (State.pulls_delayAddr s.pull n).trans (State.pull_delayAddr s)
@[simp] theorem State.pulls_slotAhead : (s : State) → (n : Nat) → (s.pulls n).slotAhead = s.slotAhead
  | _, 0 => rfl
  | s, n + 1 => (State.pulls_slotAhead s.pull n).trans (State.pull_slotAhead s)
@[simp] theorem State.pulls_afterDelayedBranch : (s : State) → (n : Nat) → (s.pulls n).afterDelayedBranch = s.afterDelayedBranch
  | _, 0 => rfl
  | s, n + 1 => (State.pulls_afterDelayedBranch s.pull n).trans (State.pull_afterDelayedBranch s)
@[simp] theorem State.pulls_callLockout : (s : State) → (n : Nat) → (s.pulls n).callLockout = s.callLockout
  | _, 0 => rfl
  | s, n + 1 => (State.pulls_callLockout s.pull n).trans (State.pull_callLockout s)
@[simp] theorem State.pulls_extOvfPending : (s : State) → (n : Nat) → (s.pulls n).extOvfPending = s.extOvfPending
  | _, 0 => rfl
  | s, n + 1 => (State.pulls_extOvfPending s.pull n).trans (State.pull_extOvfPending s)
@[simp] theorem State.pulls_parityPending : (s : State) → (n : Nat) → (s.pulls n).parityPending = s.parityPending
  | _, 0 => rfl
  | s, n + 1 => (State.pulls_parityPending s.pull n).trans (State.pull_parityPending s)
@[simp] theorem State.pulls_prescaler : (s : State) → (n : Nat) → (s.pulls n).prescaler = s.prescaler
  | _, 0 => rfl
  | s, n + 1 => (State.pulls_prescaler s.pull n).trans (State.pull_prescaler s)
@[simp] theorem State.pulls_io3Toggle : (s : State) → (n : Nat) → (s.pulls n).io3Toggle = s.io3Toggle
  | _, 0 => rfl
  | s, n + 1 => (State.pulls_io3Toggle s.pull n).trans (State.pull_io3Toggle s)
@[simp] theorem State.pulls_powerDown : (s : State) → (n : Nat) → (s.pulls n).powerDown = s.powerDown
  | _, 0 => rfl
  | s, n + 1 => (State.pulls_powerDown s.pull n).trans (State.pull_powerDown s)
@[simp] theorem State.pulls_resetRequest : (s : State) → (n : Nat) → (s.pulls n).resetRequest = s.resetRequest
  | _, 0 => rfl
  | s, n + 1 => (State.pulls_resetRequest s.pull n).trans (State.pull_resetRequest s)
@[simp] theorem State.pulls_pins : (s : State) → (n : Nat) → (s.pulls n).pins = s.pins
  | _, 0 => rfl
  | s, n + 1 => (State.pulls_pins s.pull n).trans (State.pull_pins s)
@[simp] theorem State.pulls_pinsDriven : (s : State) → (n : Nat) → (s.pulls n).pinsDriven = s.pinsDriven
  | _, 0 => rfl
  | s, n + 1 => (State.pulls_pinsDriven s.pull n).trans (State.pull_pinsDriven s)
@[simp] theorem State.pulls_platform : (s : State) → (n : Nat) → (s.pulls n).platform = s.platform
  | _, 0 => rfl
  | s, n + 1 => (State.pulls_platform s.pull n).trans (State.pull_platform s)
@[simp] theorem State.pulls_inputs : (s : State) → (n : Nat) → (s.pulls n).inputs = s.inputs
  | _, 0 => rfl
  | s, n + 1 => (State.pulls_inputs s.pull n).trans (State.pull_inputs s)
@[simp] theorem State.pulls_between : (s : State) → (n : Nat) → (s.pulls n).between = s.between
  | _, 0 => rfl
  | s, n + 1 => (State.pulls_between s.pull n).trans (State.pull_between s)
@[simp] theorem State.pulls_ioTrace : (s : State) → (n : Nat) → (s.pulls n).ioTrace = s.ioTrace
  | _, 0 => rfl
  | s, n + 1 => (State.pulls_ioTrace s.pull n).trans (State.pull_ioTrace s)
@[simp] theorem State.pulls_fresh : (s : State) → (n : Nat) → (s.pulls n).fresh = s.fresh
  | _, 0 => rfl
  | s, n + 1 => (State.pulls_fresh s.pull n).trans (State.pull_fresh s)

/-! ### Words pushed (R440) -/

@[simp] theorem State.pushes_pc : (s : State) → (n : Nat) → (s.pushes n).pc = s.pc
  | _, 0 => rfl
  | s, n + 1 => (State.pushes_pc s.push n).trans (State.push_pc s)
@[simp] theorem State.pushes_sr : (s : State) → (n : Nat) → (s.pushes n).sr = s.sr
  | _, 0 => rfl
  | s, n + 1 => (State.pushes_sr s.push n).trans (State.push_sr s)
@[simp] theorem State.pushes_fer : (s : State) → (n : Nat) → (s.pushes n).fer = s.fer
  | _, 0 => rfl
  | s, n + 1 => (State.pushes_fer s.push n).trans (State.push_fer s)
@[simp] theorem State.pushes_gpr : (s : State) → (n : Nat) → (s.pushes n).gpr = s.gpr
  | _, 0 => rfl
  | s, n + 1 => (State.pushes_gpr s.push n).trans (State.push_gpr s)
@[simp] theorem State.pushes_ub : (s : State) → (n : Nat) → (s.pushes n).ub = s.ub
  | _, 0 => rfl
  | s, n + 1 => (State.pushes_ub s.push n).trans (State.push_ub s)
@[simp] theorem State.pushes_bcr : (s : State) → (n : Nat) → (s.pushes n).bcr = s.bcr
  | _, 0 => rfl
  | s, n + 1 => (State.pushes_bcr s.push n).trans (State.push_bcr s)
@[simp] theorem State.pushes_tpr : (s : State) → (n : Nat) → (s.pushes n).tpr = s.tpr
  | _, 0 => rfl
  | s, n + 1 => (State.pushes_tpr s.push n).trans (State.push_tpr s)
@[simp] theorem State.pushes_tcr : (s : State) → (n : Nat) → (s.pushes n).tcr = s.tcr
  | _, 0 => rfl
  | s, n + 1 => (State.pushes_tcr s.push n).trans (State.push_tcr s)
@[simp] theorem State.pushes_tr : (s : State) → (n : Nat) → (s.pushes n).tr = s.tr
  | _, 0 => rfl
  | s, n + 1 => (State.pushes_tr s.push n).trans (State.push_tr s)
@[simp] theorem State.pushes_wcr : (s : State) → (n : Nat) → (s.pushes n).wcr = s.wcr
  | _, 0 => rfl
  | s, n + 1 => (State.pushes_wcr s.push n).trans (State.push_wcr s)
@[simp] theorem State.pushes_wcrUpperOpen : (s : State) → (n : Nat) → (s.pushes n).wcrUpperOpen = s.wcrUpperOpen
  | _, 0 => rfl
  | s, n + 1 => (State.pushes_wcrUpperOpen s.push n).trans (State.push_wcrUpperOpen s)
@[simp] theorem State.pushes_equalFlag : (s : State) → (n : Nat) → (s.pushes n).equalFlag = s.equalFlag
  | _, 0 => rfl
  | s, n + 1 => (State.pushes_equalFlag s.push n).trans (State.push_equalFlag s)
@[simp] theorem State.pushes_eventFlag : (s : State) → (n : Nat) → (s.pushes n).eventFlag = s.eventFlag
  | _, 0 => rfl
  | s, n + 1 => (State.pushes_eventFlag s.push n).trans (State.push_eventFlag s)
@[simp] theorem State.pushes_fcr : (s : State) → (n : Nat) → (s.pushes n).fcr = s.fcr
  | _, 0 => rfl
  | s, n + 1 => (State.pushes_fcr s.push n).trans (State.push_fcr s)
@[simp] theorem State.pushes_mcr : (s : State) → (n : Nat) → (s.pushes n).mcr = s.mcr
  | _, 0 => rfl
  | s, n + 1 => (State.pushes_mcr s.push n).trans (State.push_mcr s)
@[simp] theorem State.pushes_locals : (s : State) → (n : Nat) → (s.pushes n).locals = s.locals
  | _, 0 => rfl
  | s, n + 1 => (State.pushes_locals s.push n).trans (State.push_locals s)
@[simp] theorem State.pushes_iramRelied : (s : State) → (n : Nat) → (s.pushes n).iramRelied = s.iramRelied
  | _, 0 => rfl
  | s, n + 1 => (State.pushes_iramRelied s.push n).trans (State.push_iramRelied s)
@[simp] theorem State.pushes_lookBack : (s : State) → (n : Nat) → (s.pushes n).lookBack = s.lookBack
  | _, 0 => rfl
  | s, n + 1 => (State.pushes_lookBack s.push n).trans (State.push_lookBack s)
@[simp] theorem State.pushes_lookAhead : (s : State) → (n : Nat) → (s.pushes n).lookAhead = s.lookAhead
  | _, 0 => rfl
  | s, n + 1 => (State.pushes_lookAhead s.push n).trans (State.push_lookAhead s)
@[simp] theorem State.pushes_delayPending : (s : State) → (n : Nat) → (s.pushes n).delayPending = s.delayPending
  | _, 0 => rfl
  | s, n + 1 => (State.pushes_delayPending s.push n).trans (State.push_delayPending s)
@[simp] theorem State.pushes_delayAddr : (s : State) → (n : Nat) → (s.pushes n).delayAddr = s.delayAddr
  | _, 0 => rfl
  | s, n + 1 => (State.pushes_delayAddr s.push n).trans (State.push_delayAddr s)
@[simp] theorem State.pushes_slotAhead : (s : State) → (n : Nat) → (s.pushes n).slotAhead = s.slotAhead
  | _, 0 => rfl
  | s, n + 1 => (State.pushes_slotAhead s.push n).trans (State.push_slotAhead s)
@[simp] theorem State.pushes_afterDelayedBranch : (s : State) → (n : Nat) → (s.pushes n).afterDelayedBranch = s.afterDelayedBranch
  | _, 0 => rfl
  | s, n + 1 => (State.pushes_afterDelayedBranch s.push n).trans (State.push_afterDelayedBranch s)
@[simp] theorem State.pushes_callLockout : (s : State) → (n : Nat) → (s.pushes n).callLockout = s.callLockout
  | _, 0 => rfl
  | s, n + 1 => (State.pushes_callLockout s.push n).trans (State.push_callLockout s)
@[simp] theorem State.pushes_extOvfPending : (s : State) → (n : Nat) → (s.pushes n).extOvfPending = s.extOvfPending
  | _, 0 => rfl
  | s, n + 1 => (State.pushes_extOvfPending s.push n).trans (State.push_extOvfPending s)
@[simp] theorem State.pushes_parityPending : (s : State) → (n : Nat) → (s.pushes n).parityPending = s.parityPending
  | _, 0 => rfl
  | s, n + 1 => (State.pushes_parityPending s.push n).trans (State.push_parityPending s)
@[simp] theorem State.pushes_prescaler : (s : State) → (n : Nat) → (s.pushes n).prescaler = s.prescaler
  | _, 0 => rfl
  | s, n + 1 => (State.pushes_prescaler s.push n).trans (State.push_prescaler s)
@[simp] theorem State.pushes_io3Toggle : (s : State) → (n : Nat) → (s.pushes n).io3Toggle = s.io3Toggle
  | _, 0 => rfl
  | s, n + 1 => (State.pushes_io3Toggle s.push n).trans (State.push_io3Toggle s)
@[simp] theorem State.pushes_powerDown : (s : State) → (n : Nat) → (s.pushes n).powerDown = s.powerDown
  | _, 0 => rfl
  | s, n + 1 => (State.pushes_powerDown s.push n).trans (State.push_powerDown s)
@[simp] theorem State.pushes_resetRequest : (s : State) → (n : Nat) → (s.pushes n).resetRequest = s.resetRequest
  | _, 0 => rfl
  | s, n + 1 => (State.pushes_resetRequest s.push n).trans (State.push_resetRequest s)
@[simp] theorem State.pushes_pins : (s : State) → (n : Nat) → (s.pushes n).pins = s.pins
  | _, 0 => rfl
  | s, n + 1 => (State.pushes_pins s.push n).trans (State.push_pins s)
@[simp] theorem State.pushes_pinsDriven : (s : State) → (n : Nat) → (s.pushes n).pinsDriven = s.pinsDriven
  | _, 0 => rfl
  | s, n + 1 => (State.pushes_pinsDriven s.push n).trans (State.push_pinsDriven s)
@[simp] theorem State.pushes_platform : (s : State) → (n : Nat) → (s.pushes n).platform = s.platform
  | _, 0 => rfl
  | s, n + 1 => (State.pushes_platform s.push n).trans (State.push_platform s)
@[simp] theorem State.pushes_inputs : (s : State) → (n : Nat) → (s.pushes n).inputs = s.inputs
  | _, 0 => rfl
  | s, n + 1 => (State.pushes_inputs s.push n).trans (State.push_inputs s)
@[simp] theorem State.pushes_between : (s : State) → (n : Nat) → (s.pushes n).between = s.between
  | _, 0 => rfl
  | s, n + 1 => (State.pushes_between s.push n).trans (State.push_between s)
@[simp] theorem State.pushes_ioTrace : (s : State) → (n : Nat) → (s.pushes n).ioTrace = s.ioTrace
  | _, 0 => rfl
  | s, n + 1 => (State.pushes_ioTrace s.push n).trans (State.push_ioTrace s)
@[simp] theorem State.pushes_fresh : (s : State) → (n : Nat) → (s.pushes n).fresh = s.fresh
  | _, 0 => rfl
  | s, n + 1 => (State.pushes_fresh s.push n).trans (State.push_fresh s)

/-! ### The IO3 control modes evaluated (R564) -/

/-- The fields it leaves alone, at once. -/
theorem State.evalIO3_frame (s : State) (b : Bool) :
    s.evalIO3 b = { s with equalFlag := (s.evalIO3 b).equalFlag, eventFlag := (s.evalIO3 b).eventFlag, wcr := (s.evalIO3 b).wcr, wcrUpperOpen := (s.evalIO3 b).wcrUpperOpen, io3Toggle := (s.evalIO3 b).io3Toggle, resetRequest := (s.evalIO3 b).resetRequest } := by
  unfold State.evalIO3 State.io3TimingInput State.io3TimingOutput
  (repeat' split) <;> first | rfl | (dsimp only; (repeat' split) <;> rfl)
@[simp] theorem State.evalIO3_pc (s : State) (b : Bool) : (s.evalIO3 b).pc = s.pc := (congrArg State.pc (State.evalIO3_frame s b) :)
@[simp] theorem State.evalIO3_sr (s : State) (b : Bool) : (s.evalIO3 b).sr = s.sr := (congrArg State.sr (State.evalIO3_frame s b) :)
@[simp] theorem State.evalIO3_fer (s : State) (b : Bool) : (s.evalIO3 b).fer = s.fer := (congrArg State.fer (State.evalIO3_frame s b) :)
@[simp] theorem State.evalIO3_gpr (s : State) (b : Bool) : (s.evalIO3 b).gpr = s.gpr := (congrArg State.gpr (State.evalIO3_frame s b) :)
@[simp] theorem State.evalIO3_sp (s : State) (b : Bool) : (s.evalIO3 b).sp = s.sp := (congrArg State.sp (State.evalIO3_frame s b) :)
@[simp] theorem State.evalIO3_ub (s : State) (b : Bool) : (s.evalIO3 b).ub = s.ub := (congrArg State.ub (State.evalIO3_frame s b) :)
@[simp] theorem State.evalIO3_bcr (s : State) (b : Bool) : (s.evalIO3 b).bcr = s.bcr := (congrArg State.bcr (State.evalIO3_frame s b) :)
@[simp] theorem State.evalIO3_tpr (s : State) (b : Bool) : (s.evalIO3 b).tpr = s.tpr := (congrArg State.tpr (State.evalIO3_frame s b) :)
@[simp] theorem State.evalIO3_tcr (s : State) (b : Bool) : (s.evalIO3 b).tcr = s.tcr := (congrArg State.tcr (State.evalIO3_frame s b) :)
@[simp] theorem State.evalIO3_tr (s : State) (b : Bool) : (s.evalIO3 b).tr = s.tr := (congrArg State.tr (State.evalIO3_frame s b) :)
@[simp] theorem State.evalIO3_fcr (s : State) (b : Bool) : (s.evalIO3 b).fcr = s.fcr := (congrArg State.fcr (State.evalIO3_frame s b) :)
@[simp] theorem State.evalIO3_mcr (s : State) (b : Bool) : (s.evalIO3 b).mcr = s.mcr := (congrArg State.mcr (State.evalIO3_frame s b) :)
@[simp] theorem State.evalIO3_locals (s : State) (b : Bool) : (s.evalIO3 b).locals = s.locals := (congrArg State.locals (State.evalIO3_frame s b) :)
@[simp] theorem State.evalIO3_mem (s : State) (b : Bool) : (s.evalIO3 b).mem = s.mem := (congrArg State.mem (State.evalIO3_frame s b) :)
@[simp] theorem State.evalIO3_iramKept (s : State) (b : Bool) : (s.evalIO3 b).iramKept = s.iramKept := (congrArg State.iramKept (State.evalIO3_frame s b) :)
@[simp] theorem State.evalIO3_iramRelied (s : State) (b : Bool) : (s.evalIO3 b).iramRelied = s.iramRelied := (congrArg State.iramRelied (State.evalIO3_frame s b) :)
@[simp] theorem State.evalIO3_stale (s : State) (b : Bool) : (s.evalIO3 b).stale = s.stale := (congrArg State.stale (State.evalIO3_frame s b) :)
@[simp] theorem State.evalIO3_lookBack (s : State) (b : Bool) : (s.evalIO3 b).lookBack = s.lookBack := (congrArg State.lookBack (State.evalIO3_frame s b) :)
@[simp] theorem State.evalIO3_lookAhead (s : State) (b : Bool) : (s.evalIO3 b).lookAhead = s.lookAhead := (congrArg State.lookAhead (State.evalIO3_frame s b) :)
@[simp] theorem State.evalIO3_busLock (s : State) (b : Bool) : (s.evalIO3 b).busLock = s.busLock := (congrArg State.busLock (State.evalIO3_frame s b) :)
@[simp] theorem State.evalIO3_delayPending (s : State) (b : Bool) : (s.evalIO3 b).delayPending = s.delayPending := (congrArg State.delayPending (State.evalIO3_frame s b) :)
@[simp] theorem State.evalIO3_delayAddr (s : State) (b : Bool) : (s.evalIO3 b).delayAddr = s.delayAddr := (congrArg State.delayAddr (State.evalIO3_frame s b) :)
@[simp] theorem State.evalIO3_slotAhead (s : State) (b : Bool) : (s.evalIO3 b).slotAhead = s.slotAhead := (congrArg State.slotAhead (State.evalIO3_frame s b) :)
@[simp] theorem State.evalIO3_afterDelayedBranch (s : State) (b : Bool) : (s.evalIO3 b).afterDelayedBranch = s.afterDelayedBranch := (congrArg State.afterDelayedBranch (State.evalIO3_frame s b) :)
@[simp] theorem State.evalIO3_callLockout (s : State) (b : Bool) : (s.evalIO3 b).callLockout = s.callLockout := (congrArg State.callLockout (State.evalIO3_frame s b) :)
@[simp] theorem State.evalIO3_extOvfPending (s : State) (b : Bool) : (s.evalIO3 b).extOvfPending = s.extOvfPending := (congrArg State.extOvfPending (State.evalIO3_frame s b) :)
@[simp] theorem State.evalIO3_parityPending (s : State) (b : Bool) : (s.evalIO3 b).parityPending = s.parityPending := (congrArg State.parityPending (State.evalIO3_frame s b) :)
@[simp] theorem State.evalIO3_prescaler (s : State) (b : Bool) : (s.evalIO3 b).prescaler = s.prescaler := (congrArg State.prescaler (State.evalIO3_frame s b) :)
@[simp] theorem State.evalIO3_powerDown (s : State) (b : Bool) : (s.evalIO3 b).powerDown = s.powerDown := (congrArg State.powerDown (State.evalIO3_frame s b) :)
@[simp] theorem State.evalIO3_pins (s : State) (b : Bool) : (s.evalIO3 b).pins = s.pins := (congrArg State.pins (State.evalIO3_frame s b) :)
@[simp] theorem State.evalIO3_pinsDriven (s : State) (b : Bool) : (s.evalIO3 b).pinsDriven = s.pinsDriven := (congrArg State.pinsDriven (State.evalIO3_frame s b) :)
@[simp] theorem State.evalIO3_platform (s : State) (b : Bool) : (s.evalIO3 b).platform = s.platform := (congrArg State.platform (State.evalIO3_frame s b) :)
@[simp] theorem State.evalIO3_inputs (s : State) (b : Bool) : (s.evalIO3 b).inputs = s.inputs := (congrArg State.inputs (State.evalIO3_frame s b) :)
@[simp] theorem State.evalIO3_between (s : State) (b : Bool) : (s.evalIO3 b).between = s.between := (congrArg State.between (State.evalIO3_frame s b) :)
@[simp] theorem State.evalIO3_ioTrace (s : State) (b : Bool) : (s.evalIO3 b).ioTrace = s.ioTrace := (congrArg State.ioTrace (State.evalIO3_frame s b) :)
@[simp] theorem State.evalIO3_fresh (s : State) (b : Bool) : (s.evalIO3 b).fresh = s.fresh := (congrArg State.fresh (State.evalIO3_frame s b) :)

/-! ### One time unit (R559) -/

@[simp] theorem State.tick_pc (s : State) : (s.tick).pc = s.pc := State.evalIO3_pc ..
@[simp] theorem State.tick_sr (s : State) : (s.tick).sr = s.sr := State.evalIO3_sr ..
@[simp] theorem State.tick_fer (s : State) : (s.tick).fer = s.fer := State.evalIO3_fer ..
@[simp] theorem State.tick_gpr (s : State) : (s.tick).gpr = s.gpr := State.evalIO3_gpr ..
@[simp] theorem State.tick_sp (s : State) : (s.tick).sp = s.sp := State.evalIO3_sp ..
@[simp] theorem State.tick_ub (s : State) : (s.tick).ub = s.ub := State.evalIO3_ub ..
@[simp] theorem State.tick_bcr (s : State) : (s.tick).bcr = s.bcr := State.evalIO3_bcr ..
@[simp] theorem State.tick_tpr (s : State) : (s.tick).tpr = s.tpr := State.evalIO3_tpr ..
@[simp] theorem State.tick_tcr (s : State) : (s.tick).tcr = s.tcr := State.evalIO3_tcr ..
@[simp] theorem State.tick_fcr (s : State) : (s.tick).fcr = s.fcr := State.evalIO3_fcr ..
@[simp] theorem State.tick_mcr (s : State) : (s.tick).mcr = s.mcr := State.evalIO3_mcr ..
@[simp] theorem State.tick_locals (s : State) : (s.tick).locals = s.locals := State.evalIO3_locals ..
@[simp] theorem State.tick_mem (s : State) : (s.tick).mem = s.mem := State.evalIO3_mem ..
@[simp] theorem State.tick_iramKept (s : State) : (s.tick).iramKept = s.iramKept := State.evalIO3_iramKept ..
@[simp] theorem State.tick_iramRelied (s : State) : (s.tick).iramRelied = s.iramRelied := State.evalIO3_iramRelied ..
@[simp] theorem State.tick_stale (s : State) : (s.tick).stale = s.stale := State.evalIO3_stale ..
@[simp] theorem State.tick_lookBack (s : State) : (s.tick).lookBack = s.lookBack := State.evalIO3_lookBack ..
@[simp] theorem State.tick_lookAhead (s : State) : (s.tick).lookAhead = s.lookAhead := State.evalIO3_lookAhead ..
@[simp] theorem State.tick_busLock (s : State) : (s.tick).busLock = s.busLock := State.evalIO3_busLock ..
@[simp] theorem State.tick_delayPending (s : State) : (s.tick).delayPending = s.delayPending := State.evalIO3_delayPending ..
@[simp] theorem State.tick_delayAddr (s : State) : (s.tick).delayAddr = s.delayAddr := State.evalIO3_delayAddr ..
@[simp] theorem State.tick_slotAhead (s : State) : (s.tick).slotAhead = s.slotAhead := State.evalIO3_slotAhead ..
@[simp] theorem State.tick_afterDelayedBranch (s : State) : (s.tick).afterDelayedBranch = s.afterDelayedBranch := State.evalIO3_afterDelayedBranch ..
@[simp] theorem State.tick_callLockout (s : State) : (s.tick).callLockout = s.callLockout := State.evalIO3_callLockout ..
@[simp] theorem State.tick_extOvfPending (s : State) : (s.tick).extOvfPending = s.extOvfPending := State.evalIO3_extOvfPending ..
@[simp] theorem State.tick_parityPending (s : State) : (s.tick).parityPending = s.parityPending := State.evalIO3_parityPending ..
@[simp] theorem State.tick_prescaler (s : State) : (s.tick).prescaler = s.prescaler := State.evalIO3_prescaler ..
@[simp] theorem State.tick_powerDown (s : State) : (s.tick).powerDown = s.powerDown := State.evalIO3_powerDown ..
@[simp] theorem State.tick_pins (s : State) : (s.tick).pins = s.pins := State.evalIO3_pins ..
@[simp] theorem State.tick_pinsDriven (s : State) : (s.tick).pinsDriven = s.pinsDriven := State.evalIO3_pinsDriven ..
@[simp] theorem State.tick_platform (s : State) : (s.tick).platform = s.platform := State.evalIO3_platform ..
@[simp] theorem State.tick_inputs (s : State) : (s.tick).inputs = s.inputs := State.evalIO3_inputs ..
@[simp] theorem State.tick_between (s : State) : (s.tick).between = s.between := State.evalIO3_between ..
@[simp] theorem State.tick_ioTrace (s : State) : (s.tick).ioTrace = s.ioTrace := State.evalIO3_ioTrace ..
@[simp] theorem State.tick_fresh (s : State) : (s.tick).fresh = s.fresh := State.evalIO3_fresh ..

/-! ### One processor cycle (R558) -/

@[simp] theorem State.cycle_pc (s : State) : (s.cycle).pc = s.pc := field_ite State.pc (State.tick_pc _) rfl
@[simp] theorem State.cycle_sr (s : State) : (s.cycle).sr = s.sr := field_ite State.sr (State.tick_sr _) rfl
@[simp] theorem State.cycle_fer (s : State) : (s.cycle).fer = s.fer := field_ite State.fer (State.tick_fer _) rfl
@[simp] theorem State.cycle_gpr (s : State) : (s.cycle).gpr = s.gpr := field_ite State.gpr (State.tick_gpr _) rfl
@[simp] theorem State.cycle_sp (s : State) : (s.cycle).sp = s.sp := field_ite State.sp (State.tick_sp _) rfl
@[simp] theorem State.cycle_ub (s : State) : (s.cycle).ub = s.ub := field_ite State.ub (State.tick_ub _) rfl
@[simp] theorem State.cycle_bcr (s : State) : (s.cycle).bcr = s.bcr := field_ite State.bcr (State.tick_bcr _) rfl
@[simp] theorem State.cycle_tpr (s : State) : (s.cycle).tpr = s.tpr := field_ite State.tpr (State.tick_tpr _) rfl
@[simp] theorem State.cycle_tcr (s : State) : (s.cycle).tcr = s.tcr := field_ite State.tcr (State.tick_tcr _) rfl
@[simp] theorem State.cycle_fcr (s : State) : (s.cycle).fcr = s.fcr := field_ite State.fcr (State.tick_fcr _) rfl
@[simp] theorem State.cycle_mcr (s : State) : (s.cycle).mcr = s.mcr := field_ite State.mcr (State.tick_mcr _) rfl
@[simp] theorem State.cycle_locals (s : State) : (s.cycle).locals = s.locals := field_ite State.locals (State.tick_locals _) rfl
@[simp] theorem State.cycle_mem (s : State) : (s.cycle).mem = s.mem := field_ite State.mem (State.tick_mem _) rfl
@[simp] theorem State.cycle_iramKept (s : State) : (s.cycle).iramKept = s.iramKept := field_ite State.iramKept (State.tick_iramKept _) rfl
@[simp] theorem State.cycle_iramRelied (s : State) : (s.cycle).iramRelied = s.iramRelied := field_ite State.iramRelied (State.tick_iramRelied _) rfl
@[simp] theorem State.cycle_stale (s : State) : (s.cycle).stale = s.stale := field_ite State.stale (State.tick_stale _) rfl
@[simp] theorem State.cycle_lookBack (s : State) : (s.cycle).lookBack = s.lookBack := field_ite State.lookBack (State.tick_lookBack _) rfl
@[simp] theorem State.cycle_lookAhead (s : State) : (s.cycle).lookAhead = s.lookAhead := field_ite State.lookAhead (State.tick_lookAhead _) rfl
@[simp] theorem State.cycle_busLock (s : State) : (s.cycle).busLock = s.busLock := field_ite State.busLock (State.tick_busLock _) rfl
@[simp] theorem State.cycle_delayPending (s : State) : (s.cycle).delayPending = s.delayPending := field_ite State.delayPending (State.tick_delayPending _) rfl
@[simp] theorem State.cycle_delayAddr (s : State) : (s.cycle).delayAddr = s.delayAddr := field_ite State.delayAddr (State.tick_delayAddr _) rfl
@[simp] theorem State.cycle_slotAhead (s : State) : (s.cycle).slotAhead = s.slotAhead := field_ite State.slotAhead (State.tick_slotAhead _) rfl
@[simp] theorem State.cycle_afterDelayedBranch (s : State) : (s.cycle).afterDelayedBranch = s.afterDelayedBranch := field_ite State.afterDelayedBranch (State.tick_afterDelayedBranch _) rfl
@[simp] theorem State.cycle_callLockout (s : State) : (s.cycle).callLockout = s.callLockout := field_ite State.callLockout (State.tick_callLockout _) rfl
@[simp] theorem State.cycle_extOvfPending (s : State) : (s.cycle).extOvfPending = s.extOvfPending := field_ite State.extOvfPending (State.tick_extOvfPending _) rfl
@[simp] theorem State.cycle_parityPending (s : State) : (s.cycle).parityPending = s.parityPending := field_ite State.parityPending (State.tick_parityPending _) rfl
@[simp] theorem State.cycle_powerDown (s : State) : (s.cycle).powerDown = s.powerDown := field_ite State.powerDown (State.tick_powerDown _) rfl
@[simp] theorem State.cycle_pins (s : State) : (s.cycle).pins = s.pins := field_ite State.pins (State.tick_pins _) rfl
@[simp] theorem State.cycle_pinsDriven (s : State) : (s.cycle).pinsDriven = s.pinsDriven := field_ite State.pinsDriven (State.tick_pinsDriven _) rfl
@[simp] theorem State.cycle_platform (s : State) : (s.cycle).platform = s.platform := field_ite State.platform (State.tick_platform _) rfl
@[simp] theorem State.cycle_inputs (s : State) : (s.cycle).inputs = s.inputs := field_ite State.inputs (State.tick_inputs _) rfl
@[simp] theorem State.cycle_between (s : State) : (s.cycle).between = s.between := field_ite State.between (State.tick_between _) rfl
@[simp] theorem State.cycle_ioTrace (s : State) : (s.cycle).ioTrace = s.ioTrace := field_ite State.ioTrace (State.tick_ioTrace _) rfl
@[simp] theorem State.cycle_fresh (s : State) : (s.cycle).fresh = s.fresh := field_ite State.fresh (State.tick_fresh _) rfl

/-! ### Time going on (R559) -/

@[simp] theorem State.advance_pc : (s : State) → (n : Nat) → (s.advance n).pc = s.pc
  | _, 0 => rfl
  | s, n + 1 => (State.advance_pc s.cycle n).trans (State.cycle_pc s)
@[simp] theorem State.advance_sr : (s : State) → (n : Nat) → (s.advance n).sr = s.sr
  | _, 0 => rfl
  | s, n + 1 => (State.advance_sr s.cycle n).trans (State.cycle_sr s)
@[simp] theorem State.advance_fer : (s : State) → (n : Nat) → (s.advance n).fer = s.fer
  | _, 0 => rfl
  | s, n + 1 => (State.advance_fer s.cycle n).trans (State.cycle_fer s)
@[simp] theorem State.advance_gpr : (s : State) → (n : Nat) → (s.advance n).gpr = s.gpr
  | _, 0 => rfl
  | s, n + 1 => (State.advance_gpr s.cycle n).trans (State.cycle_gpr s)
@[simp] theorem State.advance_sp : (s : State) → (n : Nat) → (s.advance n).sp = s.sp
  | _, 0 => rfl
  | s, n + 1 => (State.advance_sp s.cycle n).trans (State.cycle_sp s)
@[simp] theorem State.advance_ub : (s : State) → (n : Nat) → (s.advance n).ub = s.ub
  | _, 0 => rfl
  | s, n + 1 => (State.advance_ub s.cycle n).trans (State.cycle_ub s)
@[simp] theorem State.advance_bcr : (s : State) → (n : Nat) → (s.advance n).bcr = s.bcr
  | _, 0 => rfl
  | s, n + 1 => (State.advance_bcr s.cycle n).trans (State.cycle_bcr s)
@[simp] theorem State.advance_tpr : (s : State) → (n : Nat) → (s.advance n).tpr = s.tpr
  | _, 0 => rfl
  | s, n + 1 => (State.advance_tpr s.cycle n).trans (State.cycle_tpr s)
@[simp] theorem State.advance_tcr : (s : State) → (n : Nat) → (s.advance n).tcr = s.tcr
  | _, 0 => rfl
  | s, n + 1 => (State.advance_tcr s.cycle n).trans (State.cycle_tcr s)
@[simp] theorem State.advance_fcr : (s : State) → (n : Nat) → (s.advance n).fcr = s.fcr
  | _, 0 => rfl
  | s, n + 1 => (State.advance_fcr s.cycle n).trans (State.cycle_fcr s)
@[simp] theorem State.advance_mcr : (s : State) → (n : Nat) → (s.advance n).mcr = s.mcr
  | _, 0 => rfl
  | s, n + 1 => (State.advance_mcr s.cycle n).trans (State.cycle_mcr s)
@[simp] theorem State.advance_locals : (s : State) → (n : Nat) → (s.advance n).locals = s.locals
  | _, 0 => rfl
  | s, n + 1 => (State.advance_locals s.cycle n).trans (State.cycle_locals s)
@[simp] theorem State.advance_mem : (s : State) → (n : Nat) → (s.advance n).mem = s.mem
  | _, 0 => rfl
  | s, n + 1 => (State.advance_mem s.cycle n).trans (State.cycle_mem s)
@[simp] theorem State.advance_iramKept : (s : State) → (n : Nat) → (s.advance n).iramKept = s.iramKept
  | _, 0 => rfl
  | s, n + 1 => (State.advance_iramKept s.cycle n).trans (State.cycle_iramKept s)
@[simp] theorem State.advance_iramRelied : (s : State) → (n : Nat) → (s.advance n).iramRelied = s.iramRelied
  | _, 0 => rfl
  | s, n + 1 => (State.advance_iramRelied s.cycle n).trans (State.cycle_iramRelied s)
@[simp] theorem State.advance_stale : (s : State) → (n : Nat) → (s.advance n).stale = s.stale
  | _, 0 => rfl
  | s, n + 1 => (State.advance_stale s.cycle n).trans (State.cycle_stale s)
@[simp] theorem State.advance_lookBack : (s : State) → (n : Nat) → (s.advance n).lookBack = s.lookBack
  | _, 0 => rfl
  | s, n + 1 => (State.advance_lookBack s.cycle n).trans (State.cycle_lookBack s)
@[simp] theorem State.advance_lookAhead : (s : State) → (n : Nat) → (s.advance n).lookAhead = s.lookAhead
  | _, 0 => rfl
  | s, n + 1 => (State.advance_lookAhead s.cycle n).trans (State.cycle_lookAhead s)
@[simp] theorem State.advance_busLock : (s : State) → (n : Nat) → (s.advance n).busLock = s.busLock
  | _, 0 => rfl
  | s, n + 1 => (State.advance_busLock s.cycle n).trans (State.cycle_busLock s)
@[simp] theorem State.advance_delayPending : (s : State) → (n : Nat) → (s.advance n).delayPending = s.delayPending
  | _, 0 => rfl
  | s, n + 1 => (State.advance_delayPending s.cycle n).trans (State.cycle_delayPending s)
@[simp] theorem State.advance_delayAddr : (s : State) → (n : Nat) → (s.advance n).delayAddr = s.delayAddr
  | _, 0 => rfl
  | s, n + 1 => (State.advance_delayAddr s.cycle n).trans (State.cycle_delayAddr s)
@[simp] theorem State.advance_slotAhead : (s : State) → (n : Nat) → (s.advance n).slotAhead = s.slotAhead
  | _, 0 => rfl
  | s, n + 1 => (State.advance_slotAhead s.cycle n).trans (State.cycle_slotAhead s)
@[simp] theorem State.advance_afterDelayedBranch : (s : State) → (n : Nat) → (s.advance n).afterDelayedBranch = s.afterDelayedBranch
  | _, 0 => rfl
  | s, n + 1 => (State.advance_afterDelayedBranch s.cycle n).trans (State.cycle_afterDelayedBranch s)
@[simp] theorem State.advance_callLockout : (s : State) → (n : Nat) → (s.advance n).callLockout = s.callLockout
  | _, 0 => rfl
  | s, n + 1 => (State.advance_callLockout s.cycle n).trans (State.cycle_callLockout s)
@[simp] theorem State.advance_extOvfPending : (s : State) → (n : Nat) → (s.advance n).extOvfPending = s.extOvfPending
  | _, 0 => rfl
  | s, n + 1 => (State.advance_extOvfPending s.cycle n).trans (State.cycle_extOvfPending s)
@[simp] theorem State.advance_parityPending : (s : State) → (n : Nat) → (s.advance n).parityPending = s.parityPending
  | _, 0 => rfl
  | s, n + 1 => (State.advance_parityPending s.cycle n).trans (State.cycle_parityPending s)
@[simp] theorem State.advance_powerDown : (s : State) → (n : Nat) → (s.advance n).powerDown = s.powerDown
  | _, 0 => rfl
  | s, n + 1 => (State.advance_powerDown s.cycle n).trans (State.cycle_powerDown s)
@[simp] theorem State.advance_pins : (s : State) → (n : Nat) → (s.advance n).pins = s.pins
  | _, 0 => rfl
  | s, n + 1 => (State.advance_pins s.cycle n).trans (State.cycle_pins s)
@[simp] theorem State.advance_pinsDriven : (s : State) → (n : Nat) → (s.advance n).pinsDriven = s.pinsDriven
  | _, 0 => rfl
  | s, n + 1 => (State.advance_pinsDriven s.cycle n).trans (State.cycle_pinsDriven s)
@[simp] theorem State.advance_platform : (s : State) → (n : Nat) → (s.advance n).platform = s.platform
  | _, 0 => rfl
  | s, n + 1 => (State.advance_platform s.cycle n).trans (State.cycle_platform s)
@[simp] theorem State.advance_inputs : (s : State) → (n : Nat) → (s.advance n).inputs = s.inputs
  | _, 0 => rfl
  | s, n + 1 => (State.advance_inputs s.cycle n).trans (State.cycle_inputs s)
@[simp] theorem State.advance_between : (s : State) → (n : Nat) → (s.advance n).between = s.between
  | _, 0 => rfl
  | s, n + 1 => (State.advance_between s.cycle n).trans (State.cycle_between s)
@[simp] theorem State.advance_ioTrace : (s : State) → (n : Nat) → (s.advance n).ioTrace = s.ioTrace
  | _, 0 => rfl
  | s, n + 1 => (State.advance_ioTrace s.cycle n).trans (State.cycle_ioTrace s)
@[simp] theorem State.advance_fresh : (s : State) → (n : Nat) → (s.advance n).fresh = s.fresh
  | _, 0 => rfl
  | s, n + 1 => (State.advance_fresh s.cycle n).trans (State.cycle_fresh s)


end Sys2Proof.Machine
end

