-- ==== Sys2Proof/Laws/Bytes.lean ====
section
/-! SUPPORT. Bytes at successive addresses: their cells are different, so that a store of several bytes leaves each of them and
nothing else changed. -/

namespace Sys2Proof.Machine

/-! ### Alignment -/

/-- A word address by its number (R104). -/
theorem alignWord_toNat (a : Word) : (alignWord a).toNat = a.toNat / 4 * 4 := by
  have h : alignWord a = (a >>> 2) <<< 2 := by
    apply BitVec.eq_of_getLsbD_eq
    intro i hi
    simp only [alignWord, BitVec.getLsbD_and, BitVec.getLsbD_shiftLeft, BitVec.getLsbD_ushiftRight]
    have hm : ∀ i : Fin 32, (0xFFFFFFFC#32).getLsbD i.val = decide (2 ≤ i.val) := by decide
    have := hm ⟨i, hi⟩
    simp only at this
    rw [this]
    by_cases h2 : 2 ≤ i
    · rw [show 2 + (i - 2) = i by omega]
      simp [h2, hi]
      omega
    · simp [h2]
      omega
  rw [h, BitVec.toNat_shiftLeft, BitVec.toNat_ushiftRight, Nat.shiftRight_eq_div_pow, Nat.shiftLeft_eq]
  have := a.isLt
  omega

/-- A halfword address by its number (R104). -/
theorem alignHalf_toNat (a : Word) : (alignHalf a).toNat = a.toNat / 2 * 2 := by
  have h : alignHalf a = (a >>> 1) <<< 1 := by
    apply BitVec.eq_of_getLsbD_eq
    intro i hi
    simp only [alignHalf, BitVec.getLsbD_and, BitVec.getLsbD_shiftLeft, BitVec.getLsbD_ushiftRight]
    have hm : ∀ i : Fin 32, (0xFFFFFFFE#32).getLsbD i.val = decide (1 ≤ i.val) := by decide
    have := hm ⟨i, hi⟩
    simp only at this
    rw [this]
    by_cases h2 : 1 ≤ i
    · rw [show 1 + (i - 1) = i by omega]
      simp [h2, hi]
      omega
    · simp [h2]
      omega
  rw [h, BitVec.toNat_shiftLeft, BitVec.toNat_ushiftRight, Nat.shiftRight_eq_div_pow, Nat.shiftLeft_eq]
  have := a.isLt
  omega

/-- The next word's address is the word's address and four. -/
theorem alignWord_add4 (a : Word) (n : Nat) :
    alignWord (a + BitVec.ofNat 32 (4 * n)) = alignWord a + BitVec.ofNat 32 (4 * n) := by
  apply BitVec.eq_of_toNat_eq
  rw [alignWord_toNat, BitVec.toNat_add, BitVec.toNat_add, alignWord_toNat, BitVec.toNat_ofNat]
  have := a.isLt
  omega

/-! ### Cells -/

/-- Bits 31..29 of an address by its number. -/
theorem regionOf_eq (a : Word) : regionOf a = if a.toNat / 2 ^ 29 = 6 then .iram else .external := by
  have he : (a.extractLsb' 29 3).toNat = a.toNat / 2 ^ 29 := by
    have := a.isLt
    simp only [BitVec.extractLsb'_toNat, Nat.shiftRight_eq_div_pow]
    omega
  unfold regionOf
  by_cases h : a.extractLsb' 29 3 = 6#3
  · rw [if_pos h, if_pos (by rw [← he, h]; rfl)]
  · rw [if_neg h, if_neg]
    intro hc
    exact h (BitVec.eq_of_toNat_eq (by rw [he, hc]; rfl))

/-- The cell of an address, by its number. -/
theorem cellOf_cases {r : Region} {a : Word} {k : Nat} (h : cellOf r a = some k) :
    (r = .iram ∧ k = 0xC0000000 + a.toNat % 4096) ∨
      (r = .external ∧ k = a.toNat ∧ (k < 0xC0000000 ∨ 0xE0000000 ≤ k)) := by
  have hlt := a.isLt
  cases r with
  | iram => exact .inl ⟨rfl, (Option.some.inj h).symm⟩
  | external =>
    right
    simp only [cellOf] at h
    split at h
    · exact absurd h (by simp)
    · rename_i hr
      have hk : a.toNat = k := Option.some.inj h
      refine ⟨rfl, hk.symm, ?_⟩
      rw [regionOf_eq] at hr
      split at hr
      · exact absurd rfl hr
      · omega

/-- Addresses less than 4096 apart have different cells, whatever the units. -/
theorem cellOf_ne {r r' : Region} {a : Word} {i j k : Nat} (hi : i < 4096) (hj : j < 4096) (hij : i ≠ j)
    (h : cellOf r (a + BitVec.ofNat 32 i) = some k) : cellOf r' (a + BitVec.ofNat 32 j) ≠ some k := by
  intro h'
  have e1 : (a + BitVec.ofNat 32 i).toNat = (a.toNat + i) % 2 ^ 32 := by
    rw [BitVec.toNat_add, BitVec.toNat_ofNat]; omega
  have e2 : (a + BitVec.ofNat 32 j).toNat = (a.toNat + j) % 2 ^ 32 := by
    rw [BitVec.toNat_add, BitVec.toNat_ofNat]; omega
  rcases cellOf_cases h with ⟨rfl, hk⟩ | ⟨rfl, hk, hlim⟩ <;> rcases cellOf_cases h' with ⟨rfl, hk'⟩ | ⟨rfl, hk', hlim'⟩
  · rw [e1] at hk
    rw [e2] at hk'
    omega
  · omega
  · omega
  · rw [e1] at hk
    rw [e2] at hk'
    omega

/-- So have their fitted cells. -/
theorem cell_ne {s t : State} {r r' : Region} {a : Word} {i j k : Nat} (hi : i < 4096) (hj : j < 4096) (hij : i ≠ j)
    (h : s.cell r (a + BitVec.ofNat 32 i) = some k) : t.cell r' (a + BitVec.ofNat 32 j) ≠ some k :=
  fun h' => cellOf_ne hi hj hij (cellOf_of_cell h) (cellOf_of_cell h')

/-! ### Bytes stored one after another -/

/-- Bytes stored at successive addresses of one unit. -/
def State.putBytes (s : State) (r : Region) (a : Word) : List Byte → State
  | [] => s
  | b :: rest => (s.putByte r a b).putBytes r (a + 1#32) rest

/-- Storing bytes changes memory alone. -/
theorem State.putBytes_frame (s : State) (r : Region) (a : Word) (l : List Byte) :
    s.putBytes r a l = { s with mem := (s.putBytes r a l).mem, iramKept := (s.putBytes r a l).iramKept } := by
  induction l generalizing s a with
  | nil => rfl
  | cons b rest ih =>
    rw [State.putBytes, ih]
    unfold State.putByte
    split <;> rfl

/-- Stored bytes keep the canonical form. -/
theorem State.wf_putBytes {s : State} (h : Memory.wf s.mem = true) (r : Region) (a : Word) (l : List Byte) :
    Memory.wf (s.putBytes r a l).mem = true := by
  induction l generalizing s a with
  | nil => exact h
  | cons b rest ih => exact ih (State.wf_putByte h r a b) _

/-- The address of byte `j + 1` counted from the next byte. -/
theorem add_succ (a : Word) (j : Nat) : a + 1#32 + BitVec.ofNat 32 j = a + BitVec.ofNat 32 (j + 1) := by
  rw [BitVec.add_assoc]
  congr 1
  apply BitVec.eq_of_toNat_eq
  simp only [BitVec.toNat_add, BitVec.toNat_ofNat]
  omega

/-- A cell none of the stored bytes goes to is unchanged. -/
theorem State.read_putBytes_other {s : State} (h : Memory.wf s.mem = true) (r : Region) (a : Word) (l : List Byte) {k : Nat}
    (hk : ∀ j, j < l.length → s.cell r (a + BitVec.ofNat 32 j) ≠ some k) :
    Memory.read (s.putBytes r a l).mem k = Memory.read s.mem k := by
  induction l generalizing s a with
  | nil => rfl
  | cons b rest ih =>
    have h0 := hk 0 (by simp)
    rw [BitVec.add_zero] at h0
    rw [State.putBytes, ih (State.wf_putByte h r a b)]
    · exact State.read_putByte_other h r a b h0
    · intro j hj
      rw [add_succ, cell_congr (State.putByte_platform s r a b)]
      exact hk (j + 1) (by simpa using hj)

/-- Each stored byte is in its cell. -/
theorem State.read_putBytes_same {s : State} (h : Memory.wf s.mem = true) (r : Region) (a : Word) (l : List Byte)
    (hl : l.length ≤ 4096) {j k : Nat} (hj : j < l.length) (hk : s.cell r (a + BitVec.ofNat 32 j) = some k) :
    Memory.read (s.putBytes r a l).mem k = l.getD j 0#8 := by
  induction l generalizing s a j with
  | nil => exact absurd hj (by simp)
  | cons b rest ih =>
    simp only [List.length_cons] at hl hj
    cases j with
    | zero =>
      rw [State.putBytes, State.read_putBytes_other (State.wf_putByte h r a b)]
      · rw [BitVec.add_zero] at hk
        exact State.read_putByte_same h r a b hk
      · intro i hi
        rw [add_succ]
        exact cell_ne (i := 0) (by omega) (by omega) (by omega) hk
    | succ j =>
      rw [State.putBytes, List.getD_cons_succ]
      refine ih (State.wf_putByte h r a b) _ (by omega) (by omega) ?_
      rw [add_succ, cell_congr (State.putByte_platform s r a b)]
      exact hk

/-- What a store of bytes does. -/
theorem stores_putBytes {s : State} (h : Memory.wf s.mem = true) (r : Region) (a : Word) (l : List Byte)
    (hl : l.length ≤ 4096) : Stores r a l s (s.putBytes r a l) :=
  ⟨fun _ _ hj hk => State.read_putBytes_same h r a l hl hj hk, fun _ hk => State.read_putBytes_other h r a l hk⟩

/-- Which byte of the IRAM is guaranteed after bytes are stored one after another (R112). -/
theorem State.guarantees_putBytes {s : State} (h : Memory.wf s.iramKept = true) (r : Region) (a : Word) (l : List Byte)
    (c : Word) : (s.putBytes r a l).guarantees .iram c 1 =
      if r = .iram ∧ ∃ j, j < l.length ∧ (a + BitVec.ofNat 32 j).toNat % 4096 = c.toNat % 4096 then refreshes s.mcr
      else s.guarantees .iram c 1 := by
  induction l generalizing s a with
  | nil => simp [State.putBytes]
  | cons b rest ih =>
    rw [State.putBytes, ih (State.wf_iramKept_putByte h r a b), State.guarantees_putByte h, State.putByte_mcr]
    have hs : (r = .iram ∧ ∃ j, j < (b :: rest).length ∧ (a + BitVec.ofNat 32 j).toNat % 4096 = c.toNat % 4096) ↔
        (r = .iram ∧ ∃ j, j < rest.length ∧ (a + 1#32 + BitVec.ofNat 32 j).toNat % 4096 = c.toNat % 4096) ∨
          (r = .iram ∧ a.toNat % 4096 = c.toNat % 4096) := by
      constructor
      · rintro ⟨hr, j, hj, he⟩
        cases j with
        | zero => exact .inr ⟨hr, by simpa using he⟩
        | succ j => exact .inl ⟨hr, j, by simpa using hj, by rw [add_succ]; exact he⟩
      · rintro (⟨hr, j, hj, he⟩ | ⟨hr, he⟩)
        · exact ⟨hr, j + 1, by simpa using hj, by rw [← add_succ]; exact he⟩
        · exact ⟨hr, 0, by simp, by simpa using he⟩
    by_cases h1 : r = .iram ∧ ∃ j, j < rest.length ∧ (a + 1#32 + BitVec.ofNat 32 j).toNat % 4096 = c.toNat % 4096
    · rw [if_pos h1, if_pos (hs.mpr (.inl h1))]
    · rw [if_neg h1]
      by_cases h2 : r = .iram ∧ a.toNat % 4096 = c.toNat % 4096
      · rw [if_pos h2, if_pos (hs.mpr (.inr h2))]
      · rw [if_neg h2, if_neg (fun hc => (hs.mp hc).elim h1 h2)]

/-- Bytes after bytes. -/
theorem State.putBytes_append (s : State) (r : Region) (a : Word) (l m : List Byte) :
    s.putBytes r a (l ++ m) = (s.putBytes r a l).putBytes r (a + BitVec.ofNat 32 l.length) m := by
  induction l generalizing s a with
  | nil => simp [State.putBytes]
  | cons b rest ih => rw [List.cons_append, State.putBytes, ih, State.putBytes, add_succ, List.length_cons]

/-! ### The processor's stores as bytes -/

/-- A halfword store, byte by byte (R103, R104). -/
theorem State.writeHalf_putBytes (s : State) (r : Region) (a : Word) (v : Half) :
    s.writeHalf r a v = (s.noteStale r a).putBytes r (alignHalf a) [v.extractLsb' 8 8, v.extractLsb' 0 8] := rfl

/-- A word store, byte by byte (R103, R104). -/
theorem State.writeWord_putBytes (s : State) (r : Region) (a v : Word) :
    s.writeWord r a v =
      ((s.noteStale r (alignWord a)).noteStale r (alignWord a + 2#32)).putBytes r (alignWord a) (wordBytes v) := by
  have h2 : alignWord a + 1#32 + 1#32 = alignWord a + 2#32 := by rw [BitVec.add_assoc]; rfl
  have h3 : alignWord a + 2#32 + 1#32 = alignWord a + 3#32 := by rw [BitVec.add_assoc]; rfl
  simp only [wordBytes, State.putBytes, h2, h3]
  rfl

/-- What memory holds does not depend on what was noted for the fetch. -/
theorem Stores.congr {r : Region} {a : Word} {l : List Byte} {s s' t t' : State} (h : Stores r a l s t) (hs : s'.mem = s.mem)
    (hp : s'.platform = s.platform) (ht : t'.mem = t.mem) : Stores r a l s' t' :=
  ⟨fun j k hj hk => by rw [ht]; exact h.stored j k hj (by rw [← cell_congr hp]; exact hk),
    fun k hk => by rw [ht, hs]; exact h.other k fun j hj => by rw [← cell_congr hp]; exact hk j hj⟩

/-- What a word store does. -/
theorem stores_writeWord {s : State} (h : Memory.wf s.mem = true) (r : Region) (a v : Word) :
    Stores r (alignWord a) (wordBytes v) s (s.writeWord r a v) := by
  rw [State.writeWord_putBytes]
  exact (stores_putBytes (by simpa using h) r _ _ (by simp [wordBytes])).congr (by simp) (by simp) rfl

/-- What the store of a data type does (R234). -/
theorem stores_storeData {s : State} (h : Memory.wf s.mem = true) (ty : DataType) (r : Region) (a v : Word) :
    Stores r (dataAddress ty a) (dataBytes ty v) s (s.storeData ty r a v) := by
  have hb : Stores r a [v.extractLsb' 0 8] s (s.writeByte r a (v.extractLsb' 0 8)) :=
    (stores_putBytes (s := s.noteStale r a) (by simpa using h) r a _ (by simp)).congr (by simp) (by simp) rfl
  have hh : Stores r (alignHalf a) [v.extractLsb' 8 8, v.extractLsb' 0 8] s (s.writeHalf r a (v.extractLsb' 0 16)) := by
    have e1 : (v.extractLsb' 0 16).extractLsb' 8 8 = v.extractLsb' 8 8 := by
      rw [BitVec.extractLsb'_extractLsb'_of_le (by omega)]
    have e2 : (v.extractLsb' 0 16).extractLsb' 0 8 = v.extractLsb' 0 8 := by
      rw [BitVec.extractLsb'_extractLsb'_of_le (by omega)]
    rw [State.writeHalf_putBytes, e1, e2]
    exact (stores_putBytes (s := s.noteStale r a) (by simpa using h) r _ _ (by simp)).congr (by simp) (by simp) rfl
  cases ty with
  | bs => exact hb
  | bu => exact hb
  | hu => exact hh
  | hs => exact hh
  | w => exact stores_writeWord h r a v

/-! ### What another bus master writes -/

/-- What another bus master writes keeps the canonical form; its bytes depend on memory, the parts fitted and who holds the bus
alone (R123, R165). -/
theorem dma_memory {s t : State} (w : List (Word × Byte)) (hm : t.mem = s.mem) (hp : t.platform = s.platform)
    (ha : t.act = s.act) :
    (t.dma w).mem = (s.dma w).mem ∧ (Memory.wf s.mem = true → Memory.wf (s.dma w).mem = true) := by
  have h : ∀ (l : List (Word × Byte)) (s t : State), t.mem = s.mem → t.platform = s.platform →
      (l.foldl (fun t e => t.writeByte .external e.1 e.2) t).mem = (l.foldl (fun t e => t.writeByte .external e.1 e.2) s).mem ∧
        (Memory.wf s.mem = true → Memory.wf (l.foldl (fun t e => t.writeByte .external e.1 e.2) s).mem = true) := by
    intro l
    induction l with
    | nil => exact fun s t hm _ => ⟨hm, id⟩
    | cons e l ih =>
      intro s t hm hp
      have hw : (t.writeByte .external e.1 e.2).mem = (s.writeByte .external e.1 e.2).mem := by
        unfold State.writeByte
        rw [State.putByte_mem, State.putByte_mem, State.noteStale_mem, State.noteStale_mem, hm,
          cell_congr (s := s) ((State.noteStale_platform ..).trans hp), cell_congr (s := s) (State.noteStale_platform ..)]
      have hq : (t.writeByte .external e.1 e.2).platform = (s.writeByte .external e.1 e.2).platform :=
        (State.writeByte_platform ..).trans (hp.trans (State.writeByte_platform ..).symm)
      obtain ⟨h1, h2⟩ := ih _ _ hw hq
      exact ⟨h1, fun hs => h2 (State.wf_writeByte hs ..)⟩
  unfold State.dma
  rw [ha]
  split
  · exact ⟨hm, id⟩
  · exact h w s t hm hp

/-! ### A store changes memory alone -/

/-- Only memory, and what the fetch may still hold of it, differ. -/
def MemFrame (s t : State) : Prop := t = { s with mem := t.mem, iramKept := t.iramKept, stale := t.stale }

/-- What is kept by two stores. -/
theorem MemFrame.trans {s t u : State} (h1 : MemFrame s t) (h2 : MemFrame t u) : MemFrame s u := by
  unfold MemFrame at *
  exact h2.trans (by rw [h1])

/-- A byte stored. -/
theorem memFrame_putByte (s : State) (r : Region) (a : Word) (v : Byte) : MemFrame s (s.putByte r a v) := by
  unfold MemFrame State.putByte
  split <;> rfl

/-- A halfword noted for the fetch. -/
theorem memFrame_noteStale (s : State) (r : Region) (a : Word) : MemFrame s (s.noteStale r a) := by
  unfold MemFrame State.noteStale
  split <;> rfl

/-- A byte store. -/
theorem memFrame_writeByte (s : State) (r : Region) (a : Word) (v : Byte) : MemFrame s (s.writeByte r a v) :=
  (memFrame_noteStale s r a).trans (memFrame_putByte _ r a v)

/-- A halfword store. -/
theorem memFrame_writeHalf (s : State) (r : Region) (a : Word) (v : Half) : MemFrame s (s.writeHalf r a v) :=
  ((memFrame_noteStale s r a).trans (memFrame_putByte _ r _ _)).trans (memFrame_putByte _ r _ _)

/-- A word store. -/
theorem memFrame_writeWord (s : State) (r : Region) (a v : Word) : MemFrame s (s.writeWord r a v) :=
  (((((memFrame_noteStale s r _).trans (memFrame_noteStale _ r _)).trans (memFrame_putByte _ r _ _)).trans
    (memFrame_putByte _ r _ _)).trans (memFrame_putByte _ r _ _)).trans (memFrame_putByte _ r _ _)

/-- What another bus master wrote between two words. -/
theorem memFrame_interlude (s : State) : MemFrame s s.interlude := by
  unfold MemFrame State.interlude
  rw [State.dma_frame]

/-- The store of a data type. -/
theorem memFrame_storeData (s : State) (ty : DataType) (r : Region) (a v : Word) : MemFrame s (s.storeData ty r a v) := by
  cases ty
  · exact memFrame_writeByte ..
  · exact memFrame_writeByte ..
  · exact memFrame_writeHalf ..
  · exact memFrame_writeHalf ..
  · exact memFrame_writeWord ..

end Sys2Proof.Machine
end

