-- ==== Sys2Proof/Laws/Flags.lean ====
section
/-! SUPPORT. What a replaced field of the status register leaves and gives (spec/10_state.md R26 to R43). -/

namespace Sys2Proof.Machine

/-- Bit `i` after a field was replaced: the field's own bit inside it, the old bit outside. -/
theorem getLsbD_setField (w : Word) (lo n : Nat) (v : BitVec n) (i : Nat) :
    (setField w lo n v).getLsbD i =
      if lo ≤ i ∧ i < lo + n ∧ i < 32 then v.getLsbD (i - lo) else w.getLsbD i := by
  unfold setField
  by_cases h32 : i < 32
  · by_cases hlo : lo ≤ i
    · by_cases hn : i < lo + n
      · have h1 : i - lo < n := by omega
        simp [h32, hlo, hn, h1, Nat.not_lt.mpr hlo]
      · have h1 : ¬ (i - lo < n) := by omega
        simp [h32, hlo, hn, h1, Nat.not_lt.mpr hlo, BitVec.getLsbD_of_ge v (i - lo) (by omega)]
    · simp [h32, hlo, Nat.lt_of_not_le hlo]
  · have : w.getLsbD i = false := BitVec.getLsbD_of_ge w i (by omega)
    simp [h32, this]

/-- Bit `j` after bit `i` was replaced. -/
theorem getLsbD_setBit (w : Word) (i : Nat) (b : Bool) (j : Nat) :
    (setBit w i b).getLsbD j = if i = j ∧ j < 32 then b else w.getLsbD j := by
  unfold setBit
  rw [getLsbD_setField]
  by_cases h : i = j
  · subst h
    by_cases h32 : i < 32
    · simp [h32, bit]; cases b <;> rfl
    · simp [h32]
  · have : ¬ (i ≤ j ∧ j < i + 1 ∧ j < 32) := by omega
    rw [if_neg this, if_neg (by omega)]

/-- A replaced field reads as the value it was given. -/
theorem extractLsb'_setField_same (w : Word) (lo n : Nat) (v : BitVec n) (h : lo + n ≤ 32) :
    (setField w lo n v).extractLsb' lo n = v := by
  apply BitVec.eq_of_getLsbD_eq
  intro i hi
  rw [BitVec.getLsbD_extractLsb', getLsbD_setField]
  have : lo ≤ lo + i ∧ lo + i < lo + n ∧ lo + i < 32 := by omega
  simp [this, hi]

/-- A field apart from a replaced one is unchanged. -/
theorem extractLsb'_setField_other (w : Word) (lo n : Nat) (v : BitVec n) (a m : Nat) (h : a + m ≤ lo ∨ lo + n ≤ a) :
    (setField w lo n v).extractLsb' a m = w.extractLsb' a m := by
  apply BitVec.eq_of_getLsbD_eq
  intro i hi
  rw [BitVec.getLsbD_extractLsb', BitVec.getLsbD_extractLsb', getLsbD_setField]
  have : ¬ (lo ≤ a + i ∧ a + i < lo + n ∧ a + i < 32) := by omega
  simp [this]

/-- Bit `j` after an optional update of bit `i`. -/
theorem getLsbD_updateBit (w : Word) (i : Nat) (b : Option Bool) (j : Nat) :
    (updateBit w i b).getLsbD j = if i = j ∧ j < 32 then b.getD (w.getLsbD j) else w.getLsbD j := by
  cases b with
  | none => simp [updateBit]
  | some b => simp [updateBit, getLsbD_setBit]

/-- The four condition flags after an update, and every other bit of the SR. -/
theorem getLsbD_applyFlags (f : FlagUpdate) (sr : Word) (j : Nat) :
    (applyFlags f sr).getLsbD j =
      if j = 0 then f.c.getD (sr.getLsbD 0) else if j = 1 then f.z.getD (sr.getLsbD 1)
      else if j = 2 then f.n.getD (sr.getLsbD 2) else if j = 3 then f.v.getD (sr.getLsbD 3) else sr.getLsbD j := by
  unfold applyFlags
  rw [getLsbD_updateBit, getLsbD_updateBit, getLsbD_updateBit, getLsbD_updateBit]
  by_cases h0 : j = 0
  · subst h0; simp
  by_cases h1 : j = 1
  · subst h1; simp
  by_cases h2 : j = 2
  · subst h2; simp
  by_cases h3 : j = 3
  · subst h3; simp
  rw [if_neg (by omega), if_neg (by omega), if_neg (by omega), if_neg (by omega), if_neg h0, if_neg h1, if_neg h2,
    if_neg h3]

/-! Each field of the SR after each replacement: one lemma per field per update. -/

@[simp] theorem srC_setM (sr : Word) (v : Bool) : srC (setM sr v) = srC sr := by
  rw [srC, setM, getLsbD_setBit, if_neg (by decide)]; rfl

@[simp] theorem srZ_setM (sr : Word) (v : Bool) : srZ (setM sr v) = srZ sr := by
  rw [srZ, setM, getLsbD_setBit, if_neg (by decide)]; rfl

@[simp] theorem srN_setM (sr : Word) (v : Bool) : srN (setM sr v) = srN sr := by
  rw [srN, setM, getLsbD_setBit, if_neg (by decide)]; rfl

@[simp] theorem srV_setM (sr : Word) (v : Bool) : srV (setM sr v) = srV sr := by
  rw [srV, setM, getLsbD_setBit, if_neg (by decide)]; rfl

@[simp] theorem srM_setM (sr : Word) (v : Bool) : srM (setM sr v) = v := by
  rw [srM, setM, getLsbD_setBit, if_pos (by decide)]

@[simp] theorem srH_setM (sr : Word) (v : Bool) : srH (setM sr v) = srH sr := by
  rw [srH, setM, getLsbD_setBit, if_neg (by decide)]; rfl

@[simp] theorem srI_setM (sr : Word) (v : Bool) : srI (setM sr v) = srI sr := by
  rw [srI, setM, getLsbD_setBit, if_neg (by decide)]; rfl

@[simp] theorem srL_setM (sr : Word) (v : Bool) : srL (setM sr v) = srL sr := by
  rw [srL, setM, getLsbD_setBit, if_neg (by decide)]; rfl

@[simp] theorem srT_setM (sr : Word) (v : Bool) : srT (setM sr v) = srT sr := by
  rw [srT, setM, getLsbD_setBit, if_neg (by decide)]; rfl

@[simp] theorem srP_setM (sr : Word) (v : Bool) : srP (setM sr v) = srP sr := by
  rw [srP, setM, getLsbD_setBit, if_neg (by decide)]; rfl

@[simp] theorem srS_setM (sr : Word) (v : Bool) : srS (setM sr v) = srS sr := by
  rw [srS, setM, getLsbD_setBit, if_neg (by decide)]; rfl

@[simp] theorem srILC_setM (sr : Word) (v : Bool) : srILC (setM sr v) = srILC sr :=
  extractLsb'_setField_other _ _ _ _ _ _ (by omega)

@[simp] theorem srFL_setM (sr : Word) (v : Bool) : srFL (setM sr v) = srFL sr :=
  extractLsb'_setField_other _ _ _ _ _ _ (by omega)

@[simp] theorem srFP_setM (sr : Word) (v : Bool) : srFP (setM sr v) = srFP sr :=
  extractLsb'_setField_other _ _ _ _ _ _ (by omega)

@[simp] theorem srC_setH (sr : Word) (v : Bool) : srC (setH sr v) = srC sr := by
  rw [srC, setH, getLsbD_setBit, if_neg (by decide)]; rfl

@[simp] theorem srZ_setH (sr : Word) (v : Bool) : srZ (setH sr v) = srZ sr := by
  rw [srZ, setH, getLsbD_setBit, if_neg (by decide)]; rfl

@[simp] theorem srN_setH (sr : Word) (v : Bool) : srN (setH sr v) = srN sr := by
  rw [srN, setH, getLsbD_setBit, if_neg (by decide)]; rfl

@[simp] theorem srV_setH (sr : Word) (v : Bool) : srV (setH sr v) = srV sr := by
  rw [srV, setH, getLsbD_setBit, if_neg (by decide)]; rfl

@[simp] theorem srM_setH (sr : Word) (v : Bool) : srM (setH sr v) = srM sr := by
  rw [srM, setH, getLsbD_setBit, if_neg (by decide)]; rfl

@[simp] theorem srH_setH (sr : Word) (v : Bool) : srH (setH sr v) = v := by
  rw [srH, setH, getLsbD_setBit, if_pos (by decide)]

@[simp] theorem srI_setH (sr : Word) (v : Bool) : srI (setH sr v) = srI sr := by
  rw [srI, setH, getLsbD_setBit, if_neg (by decide)]; rfl

@[simp] theorem srL_setH (sr : Word) (v : Bool) : srL (setH sr v) = srL sr := by
  rw [srL, setH, getLsbD_setBit, if_neg (by decide)]; rfl

@[simp] theorem srT_setH (sr : Word) (v : Bool) : srT (setH sr v) = srT sr := by
  rw [srT, setH, getLsbD_setBit, if_neg (by decide)]; rfl

@[simp] theorem srP_setH (sr : Word) (v : Bool) : srP (setH sr v) = srP sr := by
  rw [srP, setH, getLsbD_setBit, if_neg (by decide)]; rfl

@[simp] theorem srS_setH (sr : Word) (v : Bool) : srS (setH sr v) = srS sr := by
  rw [srS, setH, getLsbD_setBit, if_neg (by decide)]; rfl

@[simp] theorem srILC_setH (sr : Word) (v : Bool) : srILC (setH sr v) = srILC sr :=
  extractLsb'_setField_other _ _ _ _ _ _ (by omega)

@[simp] theorem srFL_setH (sr : Word) (v : Bool) : srFL (setH sr v) = srFL sr :=
  extractLsb'_setField_other _ _ _ _ _ _ (by omega)

@[simp] theorem srFP_setH (sr : Word) (v : Bool) : srFP (setH sr v) = srFP sr :=
  extractLsb'_setField_other _ _ _ _ _ _ (by omega)

@[simp] theorem srC_setI (sr : Word) (v : Bool) : srC (setI sr v) = srC sr := by
  rw [srC, setI, getLsbD_setBit, if_neg (by decide)]; rfl

@[simp] theorem srZ_setI (sr : Word) (v : Bool) : srZ (setI sr v) = srZ sr := by
  rw [srZ, setI, getLsbD_setBit, if_neg (by decide)]; rfl

@[simp] theorem srN_setI (sr : Word) (v : Bool) : srN (setI sr v) = srN sr := by
  rw [srN, setI, getLsbD_setBit, if_neg (by decide)]; rfl

@[simp] theorem srV_setI (sr : Word) (v : Bool) : srV (setI sr v) = srV sr := by
  rw [srV, setI, getLsbD_setBit, if_neg (by decide)]; rfl

@[simp] theorem srM_setI (sr : Word) (v : Bool) : srM (setI sr v) = srM sr := by
  rw [srM, setI, getLsbD_setBit, if_neg (by decide)]; rfl

@[simp] theorem srH_setI (sr : Word) (v : Bool) : srH (setI sr v) = srH sr := by
  rw [srH, setI, getLsbD_setBit, if_neg (by decide)]; rfl

@[simp] theorem srI_setI (sr : Word) (v : Bool) : srI (setI sr v) = v := by
  rw [srI, setI, getLsbD_setBit, if_pos (by decide)]

@[simp] theorem srL_setI (sr : Word) (v : Bool) : srL (setI sr v) = srL sr := by
  rw [srL, setI, getLsbD_setBit, if_neg (by decide)]; rfl

@[simp] theorem srT_setI (sr : Word) (v : Bool) : srT (setI sr v) = srT sr := by
  rw [srT, setI, getLsbD_setBit, if_neg (by decide)]; rfl

@[simp] theorem srP_setI (sr : Word) (v : Bool) : srP (setI sr v) = srP sr := by
  rw [srP, setI, getLsbD_setBit, if_neg (by decide)]; rfl

@[simp] theorem srS_setI (sr : Word) (v : Bool) : srS (setI sr v) = srS sr := by
  rw [srS, setI, getLsbD_setBit, if_neg (by decide)]; rfl

@[simp] theorem srILC_setI (sr : Word) (v : Bool) : srILC (setI sr v) = srILC sr :=
  extractLsb'_setField_other _ _ _ _ _ _ (by omega)

@[simp] theorem srFL_setI (sr : Word) (v : Bool) : srFL (setI sr v) = srFL sr :=
  extractLsb'_setField_other _ _ _ _ _ _ (by omega)

@[simp] theorem srFP_setI (sr : Word) (v : Bool) : srFP (setI sr v) = srFP sr :=
  extractLsb'_setField_other _ _ _ _ _ _ (by omega)

@[simp] theorem srC_setL (sr : Word) (v : Bool) : srC (setL sr v) = srC sr := by
  rw [srC, setL, getLsbD_setBit, if_neg (by decide)]; rfl

@[simp] theorem srZ_setL (sr : Word) (v : Bool) : srZ (setL sr v) = srZ sr := by
  rw [srZ, setL, getLsbD_setBit, if_neg (by decide)]; rfl

@[simp] theorem srN_setL (sr : Word) (v : Bool) : srN (setL sr v) = srN sr := by
  rw [srN, setL, getLsbD_setBit, if_neg (by decide)]; rfl

@[simp] theorem srV_setL (sr : Word) (v : Bool) : srV (setL sr v) = srV sr := by
  rw [srV, setL, getLsbD_setBit, if_neg (by decide)]; rfl

@[simp] theorem srM_setL (sr : Word) (v : Bool) : srM (setL sr v) = srM sr := by
  rw [srM, setL, getLsbD_setBit, if_neg (by decide)]; rfl

@[simp] theorem srH_setL (sr : Word) (v : Bool) : srH (setL sr v) = srH sr := by
  rw [srH, setL, getLsbD_setBit, if_neg (by decide)]; rfl

@[simp] theorem srI_setL (sr : Word) (v : Bool) : srI (setL sr v) = srI sr := by
  rw [srI, setL, getLsbD_setBit, if_neg (by decide)]; rfl

@[simp] theorem srL_setL (sr : Word) (v : Bool) : srL (setL sr v) = v := by
  rw [srL, setL, getLsbD_setBit, if_pos (by decide)]

@[simp] theorem srT_setL (sr : Word) (v : Bool) : srT (setL sr v) = srT sr := by
  rw [srT, setL, getLsbD_setBit, if_neg (by decide)]; rfl

@[simp] theorem srP_setL (sr : Word) (v : Bool) : srP (setL sr v) = srP sr := by
  rw [srP, setL, getLsbD_setBit, if_neg (by decide)]; rfl

@[simp] theorem srS_setL (sr : Word) (v : Bool) : srS (setL sr v) = srS sr := by
  rw [srS, setL, getLsbD_setBit, if_neg (by decide)]; rfl

@[simp] theorem srILC_setL (sr : Word) (v : Bool) : srILC (setL sr v) = srILC sr :=
  extractLsb'_setField_other _ _ _ _ _ _ (by omega)

@[simp] theorem srFL_setL (sr : Word) (v : Bool) : srFL (setL sr v) = srFL sr :=
  extractLsb'_setField_other _ _ _ _ _ _ (by omega)

@[simp] theorem srFP_setL (sr : Word) (v : Bool) : srFP (setL sr v) = srFP sr :=
  extractLsb'_setField_other _ _ _ _ _ _ (by omega)

@[simp] theorem srC_setT (sr : Word) (v : Bool) : srC (setT sr v) = srC sr := by
  rw [srC, setT, getLsbD_setBit, if_neg (by decide)]; rfl

@[simp] theorem srZ_setT (sr : Word) (v : Bool) : srZ (setT sr v) = srZ sr := by
  rw [srZ, setT, getLsbD_setBit, if_neg (by decide)]; rfl

@[simp] theorem srN_setT (sr : Word) (v : Bool) : srN (setT sr v) = srN sr := by
  rw [srN, setT, getLsbD_setBit, if_neg (by decide)]; rfl

@[simp] theorem srV_setT (sr : Word) (v : Bool) : srV (setT sr v) = srV sr := by
  rw [srV, setT, getLsbD_setBit, if_neg (by decide)]; rfl

@[simp] theorem srM_setT (sr : Word) (v : Bool) : srM (setT sr v) = srM sr := by
  rw [srM, setT, getLsbD_setBit, if_neg (by decide)]; rfl

@[simp] theorem srH_setT (sr : Word) (v : Bool) : srH (setT sr v) = srH sr := by
  rw [srH, setT, getLsbD_setBit, if_neg (by decide)]; rfl

@[simp] theorem srI_setT (sr : Word) (v : Bool) : srI (setT sr v) = srI sr := by
  rw [srI, setT, getLsbD_setBit, if_neg (by decide)]; rfl

@[simp] theorem srL_setT (sr : Word) (v : Bool) : srL (setT sr v) = srL sr := by
  rw [srL, setT, getLsbD_setBit, if_neg (by decide)]; rfl

@[simp] theorem srT_setT (sr : Word) (v : Bool) : srT (setT sr v) = v := by
  rw [srT, setT, getLsbD_setBit, if_pos (by decide)]

@[simp] theorem srP_setT (sr : Word) (v : Bool) : srP (setT sr v) = srP sr := by
  rw [srP, setT, getLsbD_setBit, if_neg (by decide)]; rfl

@[simp] theorem srS_setT (sr : Word) (v : Bool) : srS (setT sr v) = srS sr := by
  rw [srS, setT, getLsbD_setBit, if_neg (by decide)]; rfl

@[simp] theorem srILC_setT (sr : Word) (v : Bool) : srILC (setT sr v) = srILC sr :=
  extractLsb'_setField_other _ _ _ _ _ _ (by omega)

@[simp] theorem srFL_setT (sr : Word) (v : Bool) : srFL (setT sr v) = srFL sr :=
  extractLsb'_setField_other _ _ _ _ _ _ (by omega)

@[simp] theorem srFP_setT (sr : Word) (v : Bool) : srFP (setT sr v) = srFP sr :=
  extractLsb'_setField_other _ _ _ _ _ _ (by omega)

@[simp] theorem srC_setP (sr : Word) (v : Bool) : srC (setP sr v) = srC sr := by
  rw [srC, setP, getLsbD_setBit, if_neg (by decide)]; rfl

@[simp] theorem srZ_setP (sr : Word) (v : Bool) : srZ (setP sr v) = srZ sr := by
  rw [srZ, setP, getLsbD_setBit, if_neg (by decide)]; rfl

@[simp] theorem srN_setP (sr : Word) (v : Bool) : srN (setP sr v) = srN sr := by
  rw [srN, setP, getLsbD_setBit, if_neg (by decide)]; rfl

@[simp] theorem srV_setP (sr : Word) (v : Bool) : srV (setP sr v) = srV sr := by
  rw [srV, setP, getLsbD_setBit, if_neg (by decide)]; rfl

@[simp] theorem srM_setP (sr : Word) (v : Bool) : srM (setP sr v) = srM sr := by
  rw [srM, setP, getLsbD_setBit, if_neg (by decide)]; rfl

@[simp] theorem srH_setP (sr : Word) (v : Bool) : srH (setP sr v) = srH sr := by
  rw [srH, setP, getLsbD_setBit, if_neg (by decide)]; rfl

@[simp] theorem srI_setP (sr : Word) (v : Bool) : srI (setP sr v) = srI sr := by
  rw [srI, setP, getLsbD_setBit, if_neg (by decide)]; rfl

@[simp] theorem srL_setP (sr : Word) (v : Bool) : srL (setP sr v) = srL sr := by
  rw [srL, setP, getLsbD_setBit, if_neg (by decide)]; rfl

@[simp] theorem srT_setP (sr : Word) (v : Bool) : srT (setP sr v) = srT sr := by
  rw [srT, setP, getLsbD_setBit, if_neg (by decide)]; rfl

@[simp] theorem srP_setP (sr : Word) (v : Bool) : srP (setP sr v) = v := by
  rw [srP, setP, getLsbD_setBit, if_pos (by decide)]

@[simp] theorem srS_setP (sr : Word) (v : Bool) : srS (setP sr v) = srS sr := by
  rw [srS, setP, getLsbD_setBit, if_neg (by decide)]; rfl

@[simp] theorem srILC_setP (sr : Word) (v : Bool) : srILC (setP sr v) = srILC sr :=
  extractLsb'_setField_other _ _ _ _ _ _ (by omega)

@[simp] theorem srFL_setP (sr : Word) (v : Bool) : srFL (setP sr v) = srFL sr :=
  extractLsb'_setField_other _ _ _ _ _ _ (by omega)

@[simp] theorem srFP_setP (sr : Word) (v : Bool) : srFP (setP sr v) = srFP sr :=
  extractLsb'_setField_other _ _ _ _ _ _ (by omega)

@[simp] theorem srC_setS (sr : Word) (v : Bool) : srC (setS sr v) = srC sr := by
  rw [srC, setS, getLsbD_setBit, if_neg (by decide)]; rfl

@[simp] theorem srZ_setS (sr : Word) (v : Bool) : srZ (setS sr v) = srZ sr := by
  rw [srZ, setS, getLsbD_setBit, if_neg (by decide)]; rfl

@[simp] theorem srN_setS (sr : Word) (v : Bool) : srN (setS sr v) = srN sr := by
  rw [srN, setS, getLsbD_setBit, if_neg (by decide)]; rfl

@[simp] theorem srV_setS (sr : Word) (v : Bool) : srV (setS sr v) = srV sr := by
  rw [srV, setS, getLsbD_setBit, if_neg (by decide)]; rfl

@[simp] theorem srM_setS (sr : Word) (v : Bool) : srM (setS sr v) = srM sr := by
  rw [srM, setS, getLsbD_setBit, if_neg (by decide)]; rfl

@[simp] theorem srH_setS (sr : Word) (v : Bool) : srH (setS sr v) = srH sr := by
  rw [srH, setS, getLsbD_setBit, if_neg (by decide)]; rfl

@[simp] theorem srI_setS (sr : Word) (v : Bool) : srI (setS sr v) = srI sr := by
  rw [srI, setS, getLsbD_setBit, if_neg (by decide)]; rfl

@[simp] theorem srL_setS (sr : Word) (v : Bool) : srL (setS sr v) = srL sr := by
  rw [srL, setS, getLsbD_setBit, if_neg (by decide)]; rfl

@[simp] theorem srT_setS (sr : Word) (v : Bool) : srT (setS sr v) = srT sr := by
  rw [srT, setS, getLsbD_setBit, if_neg (by decide)]; rfl

@[simp] theorem srP_setS (sr : Word) (v : Bool) : srP (setS sr v) = srP sr := by
  rw [srP, setS, getLsbD_setBit, if_neg (by decide)]; rfl

@[simp] theorem srS_setS (sr : Word) (v : Bool) : srS (setS sr v) = v := by
  rw [srS, setS, getLsbD_setBit, if_pos (by decide)]

@[simp] theorem srILC_setS (sr : Word) (v : Bool) : srILC (setS sr v) = srILC sr :=
  extractLsb'_setField_other _ _ _ _ _ _ (by omega)

@[simp] theorem srFL_setS (sr : Word) (v : Bool) : srFL (setS sr v) = srFL sr :=
  extractLsb'_setField_other _ _ _ _ _ _ (by omega)

@[simp] theorem srFP_setS (sr : Word) (v : Bool) : srFP (setS sr v) = srFP sr :=
  extractLsb'_setField_other _ _ _ _ _ _ (by omega)

@[simp] theorem srC_setILC (sr : Word) (v : BitVec 2) : srC (setILC sr v) = srC sr := by
  rw [srC, setILC, getLsbD_setField, if_neg (by decide)]; rfl

@[simp] theorem srZ_setILC (sr : Word) (v : BitVec 2) : srZ (setILC sr v) = srZ sr := by
  rw [srZ, setILC, getLsbD_setField, if_neg (by decide)]; rfl

@[simp] theorem srN_setILC (sr : Word) (v : BitVec 2) : srN (setILC sr v) = srN sr := by
  rw [srN, setILC, getLsbD_setField, if_neg (by decide)]; rfl

@[simp] theorem srV_setILC (sr : Word) (v : BitVec 2) : srV (setILC sr v) = srV sr := by
  rw [srV, setILC, getLsbD_setField, if_neg (by decide)]; rfl

@[simp] theorem srM_setILC (sr : Word) (v : BitVec 2) : srM (setILC sr v) = srM sr := by
  rw [srM, setILC, getLsbD_setField, if_neg (by decide)]; rfl

@[simp] theorem srH_setILC (sr : Word) (v : BitVec 2) : srH (setILC sr v) = srH sr := by
  rw [srH, setILC, getLsbD_setField, if_neg (by decide)]; rfl

@[simp] theorem srI_setILC (sr : Word) (v : BitVec 2) : srI (setILC sr v) = srI sr := by
  rw [srI, setILC, getLsbD_setField, if_neg (by decide)]; rfl

@[simp] theorem srL_setILC (sr : Word) (v : BitVec 2) : srL (setILC sr v) = srL sr := by
  rw [srL, setILC, getLsbD_setField, if_neg (by decide)]; rfl

@[simp] theorem srT_setILC (sr : Word) (v : BitVec 2) : srT (setILC sr v) = srT sr := by
  rw [srT, setILC, getLsbD_setField, if_neg (by decide)]; rfl

@[simp] theorem srP_setILC (sr : Word) (v : BitVec 2) : srP (setILC sr v) = srP sr := by
  rw [srP, setILC, getLsbD_setField, if_neg (by decide)]; rfl

@[simp] theorem srS_setILC (sr : Word) (v : BitVec 2) : srS (setILC sr v) = srS sr := by
  rw [srS, setILC, getLsbD_setField, if_neg (by decide)]; rfl

@[simp] theorem srILC_setILC (sr : Word) (v : BitVec 2) : srILC (setILC sr v) = v :=
  extractLsb'_setField_same _ _ _ _ (by omega)

@[simp] theorem srFL_setILC (sr : Word) (v : BitVec 2) : srFL (setILC sr v) = srFL sr :=
  extractLsb'_setField_other _ _ _ _ _ _ (by omega)

@[simp] theorem srFP_setILC (sr : Word) (v : BitVec 2) : srFP (setILC sr v) = srFP sr :=
  extractLsb'_setField_other _ _ _ _ _ _ (by omega)

@[simp] theorem srC_setFL (sr : Word) (v : BitVec 4) : srC (setFL sr v) = srC sr := by
  rw [srC, setFL, getLsbD_setField, if_neg (by decide)]; rfl

@[simp] theorem srZ_setFL (sr : Word) (v : BitVec 4) : srZ (setFL sr v) = srZ sr := by
  rw [srZ, setFL, getLsbD_setField, if_neg (by decide)]; rfl

@[simp] theorem srN_setFL (sr : Word) (v : BitVec 4) : srN (setFL sr v) = srN sr := by
  rw [srN, setFL, getLsbD_setField, if_neg (by decide)]; rfl

@[simp] theorem srV_setFL (sr : Word) (v : BitVec 4) : srV (setFL sr v) = srV sr := by
  rw [srV, setFL, getLsbD_setField, if_neg (by decide)]; rfl

@[simp] theorem srM_setFL (sr : Word) (v : BitVec 4) : srM (setFL sr v) = srM sr := by
  rw [srM, setFL, getLsbD_setField, if_neg (by decide)]; rfl

@[simp] theorem srH_setFL (sr : Word) (v : BitVec 4) : srH (setFL sr v) = srH sr := by
  rw [srH, setFL, getLsbD_setField, if_neg (by decide)]; rfl

@[simp] theorem srI_setFL (sr : Word) (v : BitVec 4) : srI (setFL sr v) = srI sr := by
  rw [srI, setFL, getLsbD_setField, if_neg (by decide)]; rfl

@[simp] theorem srL_setFL (sr : Word) (v : BitVec 4) : srL (setFL sr v) = srL sr := by
  rw [srL, setFL, getLsbD_setField, if_neg (by decide)]; rfl

@[simp] theorem srT_setFL (sr : Word) (v : BitVec 4) : srT (setFL sr v) = srT sr := by
  rw [srT, setFL, getLsbD_setField, if_neg (by decide)]; rfl

@[simp] theorem srP_setFL (sr : Word) (v : BitVec 4) : srP (setFL sr v) = srP sr := by
  rw [srP, setFL, getLsbD_setField, if_neg (by decide)]; rfl

@[simp] theorem srS_setFL (sr : Word) (v : BitVec 4) : srS (setFL sr v) = srS sr := by
  rw [srS, setFL, getLsbD_setField, if_neg (by decide)]; rfl

@[simp] theorem srILC_setFL (sr : Word) (v : BitVec 4) : srILC (setFL sr v) = srILC sr :=
  extractLsb'_setField_other _ _ _ _ _ _ (by omega)

@[simp] theorem srFL_setFL (sr : Word) (v : BitVec 4) : srFL (setFL sr v) = v :=
  extractLsb'_setField_same _ _ _ _ (by omega)

@[simp] theorem srFP_setFL (sr : Word) (v : BitVec 4) : srFP (setFL sr v) = srFP sr :=
  extractLsb'_setField_other _ _ _ _ _ _ (by omega)

@[simp] theorem srC_setFP (sr : Word) (v : BitVec 7) : srC (setFP sr v) = srC sr := by
  rw [srC, setFP, getLsbD_setField, if_neg (by decide)]; rfl

@[simp] theorem srZ_setFP (sr : Word) (v : BitVec 7) : srZ (setFP sr v) = srZ sr := by
  rw [srZ, setFP, getLsbD_setField, if_neg (by decide)]; rfl

@[simp] theorem srN_setFP (sr : Word) (v : BitVec 7) : srN (setFP sr v) = srN sr := by
  rw [srN, setFP, getLsbD_setField, if_neg (by decide)]; rfl

@[simp] theorem srV_setFP (sr : Word) (v : BitVec 7) : srV (setFP sr v) = srV sr := by
  rw [srV, setFP, getLsbD_setField, if_neg (by decide)]; rfl

@[simp] theorem srM_setFP (sr : Word) (v : BitVec 7) : srM (setFP sr v) = srM sr := by
  rw [srM, setFP, getLsbD_setField, if_neg (by decide)]; rfl

@[simp] theorem srH_setFP (sr : Word) (v : BitVec 7) : srH (setFP sr v) = srH sr := by
  rw [srH, setFP, getLsbD_setField, if_neg (by decide)]; rfl

@[simp] theorem srI_setFP (sr : Word) (v : BitVec 7) : srI (setFP sr v) = srI sr := by
  rw [srI, setFP, getLsbD_setField, if_neg (by decide)]; rfl

@[simp] theorem srL_setFP (sr : Word) (v : BitVec 7) : srL (setFP sr v) = srL sr := by
  rw [srL, setFP, getLsbD_setField, if_neg (by decide)]; rfl

@[simp] theorem srT_setFP (sr : Word) (v : BitVec 7) : srT (setFP sr v) = srT sr := by
  rw [srT, setFP, getLsbD_setField, if_neg (by decide)]; rfl

@[simp] theorem srP_setFP (sr : Word) (v : BitVec 7) : srP (setFP sr v) = srP sr := by
  rw [srP, setFP, getLsbD_setField, if_neg (by decide)]; rfl

@[simp] theorem srS_setFP (sr : Word) (v : BitVec 7) : srS (setFP sr v) = srS sr := by
  rw [srS, setFP, getLsbD_setField, if_neg (by decide)]; rfl

@[simp] theorem srILC_setFP (sr : Word) (v : BitVec 7) : srILC (setFP sr v) = srILC sr :=
  extractLsb'_setField_other _ _ _ _ _ _ (by omega)

@[simp] theorem srFL_setFP (sr : Word) (v : BitVec 7) : srFL (setFP sr v) = srFL sr :=
  extractLsb'_setField_other _ _ _ _ _ _ (by omega)

@[simp] theorem srFP_setFP (sr : Word) (v : BitVec 7) : srFP (setFP sr v) = v :=
  extractLsb'_setField_same _ _ _ _ (by omega)

@[simp] theorem srC_applyFlags (f : FlagUpdate) (sr : Word) : srC (applyFlags f sr) = f.c.getD (srC sr) := by
  rw [srC, getLsbD_applyFlags]; rfl

@[simp] theorem srZ_applyFlags (f : FlagUpdate) (sr : Word) : srZ (applyFlags f sr) = f.z.getD (srZ sr) := by
  rw [srZ, getLsbD_applyFlags]; rfl

@[simp] theorem srN_applyFlags (f : FlagUpdate) (sr : Word) : srN (applyFlags f sr) = f.n.getD (srN sr) := by
  rw [srN, getLsbD_applyFlags]; rfl

@[simp] theorem srV_applyFlags (f : FlagUpdate) (sr : Word) : srV (applyFlags f sr) = f.v.getD (srV sr) := by
  rw [srV, getLsbD_applyFlags]; rfl

@[simp] theorem srM_applyFlags (f : FlagUpdate) (sr : Word) : srM (applyFlags f sr) = srM sr := by
  rw [srM, getLsbD_applyFlags]; rfl

@[simp] theorem srH_applyFlags (f : FlagUpdate) (sr : Word) : srH (applyFlags f sr) = srH sr := by
  rw [srH, getLsbD_applyFlags]; rfl

@[simp] theorem srI_applyFlags (f : FlagUpdate) (sr : Word) : srI (applyFlags f sr) = srI sr := by
  rw [srI, getLsbD_applyFlags]; rfl

@[simp] theorem srL_applyFlags (f : FlagUpdate) (sr : Word) : srL (applyFlags f sr) = srL sr := by
  rw [srL, getLsbD_applyFlags]; rfl

@[simp] theorem srT_applyFlags (f : FlagUpdate) (sr : Word) : srT (applyFlags f sr) = srT sr := by
  rw [srT, getLsbD_applyFlags]; rfl

@[simp] theorem srP_applyFlags (f : FlagUpdate) (sr : Word) : srP (applyFlags f sr) = srP sr := by
  rw [srP, getLsbD_applyFlags]; rfl

@[simp] theorem srS_applyFlags (f : FlagUpdate) (sr : Word) : srS (applyFlags f sr) = srS sr := by
  rw [srS, getLsbD_applyFlags]; rfl

@[simp] theorem srILC_applyFlags (f : FlagUpdate) (sr : Word) : srILC (applyFlags f sr) = srILC sr := by
  apply BitVec.eq_of_getLsbD_eq
  intro i hi
  rw [srILC, srILC, BitVec.getLsbD_extractLsb', BitVec.getLsbD_extractLsb', getLsbD_applyFlags]
  rw [if_neg (by omega), if_neg (by omega), if_neg (by omega), if_neg (by omega)]

@[simp] theorem srFL_applyFlags (f : FlagUpdate) (sr : Word) : srFL (applyFlags f sr) = srFL sr := by
  apply BitVec.eq_of_getLsbD_eq
  intro i hi
  rw [srFL, srFL, BitVec.getLsbD_extractLsb', BitVec.getLsbD_extractLsb', getLsbD_applyFlags]
  rw [if_neg (by omega), if_neg (by omega), if_neg (by omega), if_neg (by omega)]

@[simp] theorem srFP_applyFlags (f : FlagUpdate) (sr : Word) : srFP (applyFlags f sr) = srFP sr := by
  apply BitVec.eq_of_getLsbD_eq
  intro i hi
  rw [srFP, srFP, BitVec.getLsbD_extractLsb', BitVec.getLsbD_extractLsb', getLsbD_applyFlags]
  rw [if_neg (by omega), if_neg (by omega), if_neg (by omega), if_neg (by omega)]

/-- No flag written: the SR is unchanged. -/
@[simp] theorem applyFlags_noFlags (sr : Word) : applyFlags noFlags sr = sr := rfl

/-- FL' depends on FL alone. -/
theorem frameLength_congr {a b : Word} (h : srFL a = srFL b) : frameLength a = frameLength b := by
  simp [frameLength, h]

/-- Clearing a bit that is clear. -/
theorem setBit_self (w : Word) (i : Nat) : setBit w i (w.getLsbD i) = w := by
  apply BitVec.eq_of_getLsbD_eq
  intro j hj
  rw [getLsbD_setBit]
  split
  · rename_i h; rw [h.1]
  · rfl

/-- "H is cleared" has no effect on an SR with H = 0. -/
theorem setH_of_not_srH {sr : Word} (h : srH sr = false) : setH sr false = sr := by
  have := setBit_self sr 5
  rw [show sr.getLsbD 5 = false from h] at this
  exact this

end Sys2Proof.Machine
end

