-- ==== Sys2Proof/Laws/Ops.lean ====
section
/-! SUPPORT. For each shared operation, one lemma that says what it can do: callers cite it and do not unfold it. -/

namespace Sys2Proof.Machine

/-! ### Reading back a register -/

/-- A place other than the PC and the SR reads what was put there. -/
theorem held_put_same (s : State) (p : Place) (v : Word) (hpc : p ≠ .pc) (hsr : p ≠ .sr) : (s.put p v).held p = v := by
  cases p with
  | pc => exact absurd rfl hpc
  | sr => exact absurd rfl hsr
  | fer => rfl
  | gpr i => simp [State.put, State.held]
  | loc i => simp [State.put, State.held, State.setLocal, State.getLocal]

/-- Another place is unchanged. -/
theorem held_put_other (s : State) (p q : Place) (v : Word) (h : q ≠ p) : (s.put p v).held q = s.held q := by
  cases p <;> cases q <;> first
    | exact absurd rfl h
    | rfl
    | skip
  · rename_i i j
    have : i.val ≠ j.val := fun hc => h (by rw [Fin.ext hc])
    simp [State.put, State.held, this]
  · rename_i i j
    have hne : i.toNat ≠ j.toNat := fun hc => h (by rw [BitVec.eq_of_toNat_eq hc])
    simp [State.put, State.held, State.setLocal, State.getLocal, hne]

/-- The registers an update other than of `written` keeps: from equal register files. -/
theorem registersKept_of_eq {s t : State} (written : List Place) (h1 : t.fer = s.fer) (h2 : t.gpr = s.gpr)
    (h3 : t.locals = s.locals) : RegistersKept written s t := by
  intro p hpc hsr _
  cases p with
  | pc => exact absurd rfl hpc
  | sr => exact absurd rfl hsr
  | fer => exact h1
  | gpr i => simp only [State.held, h2]
  | loc i => simp only [State.held, State.getLocal, h3]

/-- Equal register files hold equal contents. -/
theorem held_eq_of_eq {s t : State} {p : Place} (hpc : p ≠ .pc) (hsr : p ≠ .sr) (h1 : t.fer = s.fer) (h2 : t.gpr = s.gpr)
    (h3 : t.locals = s.locals) : t.held p = s.held p :=
  registersKept_of_eq [] h1 h2 h3 p hpc hsr List.not_mem_nil

/-- The pc place is denoted by code 0 of the global bank alone. -/
theorem place_eq_pc {r : Reg} {s : State} : place r s = .pc ↔ r.isPC = true := by
  cases r with
  | loc c => simp [place, Reg.isPC]
  | glob c =>
    simp only [place, globalPlace, Reg.isPC, beq_iff_eq, Reg.glob.injEq]
    split
    · simp [*]
    · split
      · simp [*]
      · split <;> simp [*]

/-- The sr place is denoted by code 1 of the global bank alone. -/
theorem place_eq_sr {r : Reg} {s : State} : place r s = .sr ↔ r.isSR = true := by
  cases r with
  | loc c => simp [place, Reg.isSR]
  | glob c =>
    simp only [place, globalPlace, Reg.isSR, beq_iff_eq, Reg.glob.injEq]
    split
    · rename_i h; simp [h]
    · split
      · simp [*]
      · split <;> simp [*]

/-! ### The status register -/

/-- A bit of the SR after a result was placed in it. -/
theorem getLsbD_placeSR (sr v : Word) (b : Bool) (j : Nat) :
    (placeSR sr v b).getLsbD j =
      if j = 6 then v.getLsbD 6 && b else if j < 16 then v.getLsbD j else sr.getLsbD j := by
  unfold placeSR
  rw [getLsbD_setBit, getLsbD_setField]
  by_cases h6 : j = 6
  · subst h6; simp
  · rw [if_neg (by omega), if_neg h6]
    by_cases h16 : j < 16
    · rw [if_pos (by omega), if_pos h16, BitVec.getLsbD_extractLsb']
      simp [h16]
    · rw [if_neg (by omega), if_neg h16]

/-- A bit of the SR after an instruction's end. -/
theorem getLsbD_settle_sr (s : State) (len j : Nat) (hj : j ≠ 17) (h : j < 19 ∨ 21 ≤ j) :
    (s.settle len).sr.getLsbD j = s.sr.getLsbD j := by
  unfold State.settle
  split
  · show (setP (setILC s.sr _) true).getLsbD j = _
    rw [setP, getLsbD_setBit, if_neg (by omega), setILC, getLsbD_setField, if_neg (by omega)]
  · show (setP (setILC s.sr _) true).getLsbD j = _
    rw [setP, getLsbD_setBit, if_neg (by omega), setILC, getLsbD_setField, if_neg (by omega)]

/-- P is set at an instruction's end (R39). -/
theorem srP_settle (s : State) (len : Nat) : srP (s.settle len).sr = true := by
  unfold State.settle
  split
  · exact srP_setP ..
  · exact srP_setP ..

/-- The ILC at an instruction's end (R41). -/
theorem srILC_settle (s : State) (len : Nat) (h : s.delayPending = false) :
    srILC (s.settle len).sr = BitVec.ofNat 2 len := by
  unfold State.settle
  rw [h]
  exact (srILC_setP ..).trans (srILC_setILC ..)

/-- Clearing H changes bit 5 alone. -/
theorem getLsbD_setH (sr : Word) (b : Bool) (j : Nat) (h : j ≠ 5) : (setH sr b).getLsbD j = sr.getLsbD j := by
  rw [setH, getLsbD_setBit, if_neg (by omega)]

/-! ### The checks -/

/-- Where the registers may be named, the window check lets the instruction run. -/
theorem windowGuard_none {len : Nat} {dst : Option Reg} {srcs : List Reg} {s : State}
    (h : Usable (dst.toList ++ srcs) s) : windowGuard len dst srcs s = none := by
  unfold windowGuard
  by_cases hw : s.window = true
  · have h1 : dst.any regIsGlobal = false := by
      cases dst with
      | none => rfl
      | some r => exact h hw r (by simp)
    have h2 : srcs.any regIsGlobal = false := by
      rw [List.any_eq_false]
      intro r hr
      rw [h hw r (by simp [hr])]
      simp
    simp [hw, h1, h2]
  · simp [hw]

/-- A register that is not the PC passes its check. -/
theorem pcGuard_none {r : Reg} (h : r.isPC = false) : pcGuard r = none := by
  simp [pcGuard, h]

/-! ### The end of an instruction -/

/-- The special registers are kept by whatever leaves their fields alone. -/
theorem SpecialKept.of_eq {s t : State}
    (h : t = { s with
      pc := t.pc, sr := t.sr, fer := t.fer, gpr := t.gpr, locals := t.locals, mem := t.mem, iramKept := t.iramKept,
      iramRelied := t.iramRelied, stale := t.stale, lookBack := t.lookBack, lookAhead := t.lookAhead, busLock := t.busLock,
      delayPending := t.delayPending, delayAddr := t.delayAddr, slotAhead := t.slotAhead,
      afterDelayedBranch := t.afterDelayedBranch, callLockout := t.callLockout, ioTrace := t.ioTrace, fresh := t.fresh })
    (hb : t.busLock = s.busLock ∨ s.fcr.getLsbD 17 = false ∧ t.busLock = true)
    (hr : t.iramRelied = s.iramRelied ∨ t.iramRelied = true) : SpecialKept s t := by
  constructor
  case busLock => exact hb
  case relied => exact hr
  all_goals rw [h]

/-- A state that keeps everything but the registers of `written`, the PC, the SR, the cache and the bookkeeping. -/
theorem frame_of_eq {written : List Place} {s t : State} (hr : RegistersKept written s t)
    (h : t = { s with
      pc := t.pc, sr := t.sr, fer := t.fer, gpr := t.gpr, locals := t.locals, stale := t.stale,
      lookBack := t.lookBack, lookAhead := t.lookAhead, delayPending := t.delayPending, delayAddr := t.delayAddr,
      slotAhead := t.slotAhead, afterDelayedBranch := t.afterDelayedBranch,
      callLockout := t.callLockout, fresh := t.fresh }) : Frame written s t where
  registers := hr
  special := by
    rw [h]
    exact .of_eq rfl (.inl rfl) (.inl rfl)
  memory := fun k => by rw [h]
  guaranteed := by rw [h]
  io := by rw [h]

/-- The claim that an update of the flags makes. -/
def FlagUpdate.claim (f : FlagUpdate) (s : State) : FlagClaim :=
  { c := some (f.c.getD (srC s.sr)), z := some (f.z.getD (srZ s.sr)), n := some (f.n.getD (srN s.sr)),
    v := some (f.v.getD (srV s.sr)) }

/-- What is kept twice is kept. -/
theorem SpecialKept.trans {s t u : State} (h1 : SpecialKept s t) (h2 : SpecialKept t u) : SpecialKept s u := by
  constructor
  case busLock =>
    rcases h2.busLock with h | ⟨h, h'⟩
    · exact h1.busLock.imp h.trans fun x => ⟨x.1, h.trans x.2⟩
    · exact .inr ⟨by rw [← h1.fcr]; exact h, h'⟩
  case relied =>
    rcases h2.relied with h | h
    · exact h1.relied.imp h.trans h.trans
    · exact .inr h
  all_goals cases h1; cases h2; simp only [*]

/-- Frames compose. -/
theorem Frame.trans {w1 w2 : List Place} {s t u : State} (h1 : Frame w1 s t) (h2 : Frame w2 t u)
    (hw : ∀ p ∈ w1, p ∈ w2) : Frame w2 s u where
  registers := fun p a b c => (h2.registers p a b c).trans (h1.registers p a b (fun hm => c (hw p hm)))
  special := h1.special.trans h2.special
  memory := fun k => (h2.memory k).trans (h1.memory k)
  guaranteed := h2.guaranteed.trans h1.guaranteed
  io := h2.io.trans h1.io

/-- A frame may name more registers. -/
theorem Frame.mono {w1 w2 : List Place} {s t : State} (h : Frame w1 s t) (hw : ∀ p ∈ w1, p ∈ w2) : Frame w2 s t :=
  ⟨fun p a b c => h.registers p a b (fun hm => c (hw p hm)), h.special, h.memory, h.guaranteed, h.io⟩

/-- The end of an instruction keeps all but the PC, the SR and the bookkeeping. -/
theorem frame_settle (s : State) (len : Nat) : Frame [] s (s.settle len).bump := by
  exact ⟨registersKept_of_eq _ (by simp) (by simp) (by simp), by constructor <;> simp, fun k => by simp, by simp, by simp⟩

/-- The start of an instruction keeps all but the SR and the bookkeeping. -/
theorem frame_opened (s : State) : Frame [] s s.opened :=
  frame_of_eq (registersKept_of_eq _ rfl rfl rfl) rfl

/-- The bus lock after an access (R165). -/
theorem noteAccess_busLock (s : State) (r : Region) :
    (s.noteAccess r).busLock = (s.busLock || (decide (r = .external) && !s.fcr.getLsbD 17)) := by
  cases r <;> rfl

/-- A bus lock that only starts, and only while FCR(17) = 0 (R165). -/
theorem lock_starts {b c f : Bool} : (b || (c && !f)) = b ∨ f = false ∧ (b || (c && !f)) = true := by
  cases b <;> cases c <;> cases f <;> decide

/-- An access keeps all but the bus lock (R165). -/
theorem frame_noteAccess (s : State) (r : Region) : Frame [] s (s.noteAccess r) :=
  ⟨registersKept_of_eq _ rfl rfl rfl, .of_eq rfl lock_starts (.inl rfl), fun _ => rfl, rfl, rfl⟩

/-- A read keeps all but the bus lock and the note of what the program relies on (R112, R165). -/
theorem frame_noteRead (s : State) (r : Region) (a : Word) (n : Nat) : Frame [] s (s.noteRead r a n) :=
  ⟨registersKept_of_eq _ rfl rfl rfl, .of_eq rfl lock_starts (by
    show (s.iramRelied || _) = _ ∨ (s.iramRelied || _) = true
    cases s.iramRelied <;> cases (!s.guarantees r a n) <;> simp), fun _ => rfl, rfl, rfl⟩

/-- A flush keeps all but the cache and the bus lock (R130). -/
theorem frame_flush (s : State) (target : Word) : Frame [] s (s.flush target) :=
  (frame_of_eq (s := s) (t := { s with stale := [], lookBack := alignWord target, lookAhead := alignWord target })
    (registersKept_of_eq [] rfl rfl rfl) rfl).trans (frame_noteAccess _ _) (by simp)

/-- What a flush leaves (R130). -/
theorem flushed_flush (s : State) (target : Word) : Flushed target s (s.flush target) :=
  ⟨rfl, rfl, rfl, noteAccess_busLock _ _⟩

/-- What the prefetch through the word `top` leaves (R127, R128, R165). -/
theorem cacheReaches_cachedTo (s : State) (top : Word) : CacheReaches top s (s.cachedTo top) := by
  refine ⟨rfl, rfl, rfl, ?_⟩
  rw [State.cachedTo_busLock, State.fetchLock]
  congr 1
  rw [Bool.and_assoc]
  congr 1
  simp only [bne, Bool.decide_and, Bool.decide_or, decide_not, ne_eq]
  congr 1

/-- The prefetch keeps all but the counters and the bus lock (R128, R165). -/
theorem frame_cachedTo (s : State) (top : Word) : Frame [] s (s.cachedTo top) := by
  refine ⟨registersKept_of_eq _ rfl rfl rfl, .of_eq rfl ?_ (.inl rfl), fun _ => rfl, rfl, rfl⟩
  rw [(cacheReaches_cachedTo s top).lock, Bool.and_comm]
  exact lock_starts

/-- A result placed keeps all but its place, the PC and the SR. -/
theorem frame_put (s : State) (p : Place) (v : Word) : Frame [p] s (s.put p v) := by
  exact ⟨fun q _ _ hq => held_put_other s p q v (by simpa using hq), by constructor <;> simp, fun k => by simp, by simp, by simp⟩

/-- The flags updated keep all but the SR. -/
theorem frame_withFlags (s : State) (f : FlagUpdate) : Frame [] s (s.withFlags f) :=
  frame_of_eq (registersKept_of_eq _ rfl rfl rfl) rfl

/-- How an instruction that retires continues. -/
theorem continues_retire {s t : State} {len : Nat} (hpc : t.pc = s.pc) (hd : t.delayPending = s.delayPending)
    (ha : t.afterDelayedBranch = false) (hc : t.callLockout = false) : Continues len s (t.settle len).bump where
  pc := by
    show (t.settle len).pc = _
    rw [State.settle_pc, State.pcSeen, State.pcSeen, hpc, hd]
  delay := State.settle_delayPending ..
  lockouts := ⟨by simpa using ha, by simpa using hc⟩
  trace := srP_settle ..
  ilc := fun h => srILC_settle _ _ (hd.trans h)

/-- `locksInUser` is the SR's being written with L set by a user program. -/
theorem locksInUser_placed (rd : Reg) (v : Word) (f : FlagUpdate) (s : State) (hp : rd.isPC = false) :
    locksInUser s.opened.sr ((s.opened.withFlags f).put (place rd s) v).sr = SetsL rd v s := by
  by_cases hsr : rd.isSR = true
  · rw [place_eq_sr.mpr hsr, SetsL, hsr]
    show locksInUser (setH s.sr false) (placeSR (applyFlags f (setH s.sr false)) v _) = _
    rw [locksInUser, srS_setH, srL_setH, srL, srL, getLsbD_placeSR]
    simp
  · have hpc : place rd s ≠ .pc := fun h => by rw [place_eq_pc.mp h] at hp; exact absurd hp (by simp)
    have hs : place rd s ≠ .sr := fun h => hsr (place_eq_sr.mp h)
    have : ((s.opened.withFlags f).put (place rd s) v).sr = applyFlags f (setH s.sr false) := by
      cases hpl : place rd s with
      | pc => exact absurd hpl hpc
      | sr => exact absurd hpl hs
      | fer => rfl
      | gpr i => rfl
      | loc i => rfl
    rw [this, locksInUser, SetsL, State.opened_sr]
    simp [hsr]

/-- Two SRs that agree on every bit but P and the ILC. -/
def SameButEnd (a b : Word) : Prop := ∀ j, j ≠ 17 → j < 19 ∨ 21 ≤ j → a.getLsbD j = b.getLsbD j

/-- What a register's write leaves is not changed by the end of the instruction. -/
theorem Placed.congr {rd : Reg} {v : Word} {f : FlagClaim} {s u t : State} (h : Placed rd v f s u) (h1 : t.fer = u.fer)
    (h2 : t.gpr = u.gpr) (h3 : t.locals = u.locals) (hs : SameButEnd t.sr u.sr) (hp : rd.isPC = false) :
    Placed rd v f s t where
  register := fun hsr => by
    obtain ⟨a1, ⟨a2, a3, a4, a5⟩, a6, a7, a8, a9, a10⟩ := h.register hsr
    have hpc : place rd s ≠ .pc := fun h => by rw [place_eq_pc.mp h] at hp; exact absurd hp (by simp)
    have hsp : place rd s ≠ .sr := fun h => by rw [place_eq_sr.mp h] at hsr; exact absurd hsr (by simp)
    refine ⟨(held_eq_of_eq hpc hsp h1 h2 h3).trans a1, ⟨?_, ?_, ?_, ?_⟩, ?_, ?_, ?_, ?_, ?_⟩
    · exact fun b hb => (hs 0 (by omega) (by omega)).trans (a2 b hb)
    · exact fun b hb => (hs 1 (by omega) (by omega)).trans (a3 b hb)
    · exact fun b hb => (hs 2 (by omega) (by omega)).trans (a4 b hb)
    · exact fun b hb => (hs 3 (by omega) (by omega)).trans (a5 b hb)
    · exact (hs 5 (by omega) (by omega)).trans a6
    · exact (hs 4 (by omega) (by omega)).trans a7
    · exact fun i x y => (hs i (by omega) (by omega)).trans (a8 i x y)
    · exact (hs 18 (by omega) (by omega)).trans a9
    · exact fun i x y => (hs i (by omega) (by omega)).trans (a10 i x y)
  status := fun hsr => by
    obtain ⟨a1, a2, a3, a4, a5⟩ := h.status hsr
    refine ⟨?_, ?_, ?_, ?_, ?_⟩
    · exact fun i x y => (hs i (by omega) (by omega)).trans (a1 i x y)
    · exact fun i x y => (hs i (by omega) (by omega)).trans (a2 i x y)
    · exact (hs 16 (by omega) (by omega)).trans a3
    · exact (hs 18 (by omega) (by omega)).trans a4
    · exact fun i x y => (hs i (by omega) (by omega)).trans (a5 i x y)

/-- The SR at the end of an instruction. -/
theorem sameButEnd_settle (s : State) (len : Nat) : SameButEnd (s.settle len).sr s.sr :=
  fun j h1 h2 => getLsbD_settle_sr s len j h1 h2

/-- The SR that an error exception saves. -/
theorem sameButEnd_settleError (s : State) (len : Nat) : SameButEnd (s.settleError len).sr s.sr := by
  intro j h1 h2
  unfold State.settleError
  split
  · show (setP s.sr true).getLsbD j = _
    rw [setP, getLsbD_setBit, if_neg (by omega)]
  · show (setP (setILC s.sr _) true).getLsbD j = _
    rw [setP, getLsbD_setBit, if_neg (by omega), setILC, getLsbD_setField, if_neg (by omega)]

/-- What the write of a result and of the flags leaves, before the instruction's end. -/
theorem placed_put (rd : Reg) (v : Word) (f : FlagUpdate) (s : State) (hp : rd.isPC = false) :
    Placed rd v (f.claim s) s ((s.opened.withFlags f).put (place rd s) v) where
  register := fun hsr => by
    have hpc : place rd s ≠ .pc := fun h => by rw [place_eq_pc.mp h] at hp; exact absurd hp (by simp)
    have hs : place rd s ≠ .sr := fun h => by rw [place_eq_sr.mp h] at hsr; exact absurd hsr (by simp)
    have hsreq : ((s.opened.withFlags f).put (place rd s) v).sr = applyFlags f (setH s.sr false) := by
      cases hpl : place rd s with
      | pc => exact absurd hpl hpc
      | sr => exact absurd hpl hs
      | fer => rfl
      | gpr i => rfl
      | loc i => rfl
    rw [hsreq]
    have hhigh : ∀ j, 4 ≤ j → j ≠ 5 → (applyFlags f (setH s.sr false)).getLsbD j = s.sr.getLsbD j := by
      intro j h4 h5
      rw [getLsbD_applyFlags, if_neg (by omega), if_neg (by omega), if_neg (by omega), if_neg (by omega),
        getLsbD_setH _ _ _ h5]
    refine ⟨held_put_same _ _ _ hpc hs, ⟨?_, ?_, ?_, ?_⟩, ?_, hhigh 4 (by omega) (by omega), ?_,
      hhigh 18 (by omega) (by omega), ?_⟩
    · rintro b ⟨⟩
      exact (srC_applyFlags f _).trans (by rw [srC_setH])
    · rintro b ⟨⟩
      exact (srZ_applyFlags f _).trans (by rw [srZ_setH])
    · rintro b ⟨⟩
      exact (srN_applyFlags f _).trans (by rw [srN_setH])
    · rintro b ⟨⟩
      exact (srV_applyFlags f _).trans (by rw [srV_setH])
    · rw [srH_applyFlags, srH_setH]
    · exact fun i h1 h2 => hhigh i (by omega) (by omega)
    · exact fun i h1 h2 => hhigh i (by omega) (by omega)
  status := fun hsr => by
    rw [place_eq_sr.mpr hsr]
    have hbit : ∀ j, j ≠ 6 → (placeSR (applyFlags f (setH s.sr false)) v ((s.opened.withFlags f).freeBit .srBit6)).getLsbD j =
        if j < 16 then v.getLsbD j else s.sr.getLsbD j := by
      intro j h6
      rw [getLsbD_placeSR, if_neg h6]
      split
      · rfl
      · rw [getLsbD_applyFlags, if_neg (by omega), if_neg (by omega), if_neg (by omega), if_neg (by omega),
          getLsbD_setH _ _ _ (by omega)]
    refine ⟨?_, ?_, ?_, ?_, ?_⟩
    · exact fun i h1 h2 => (hbit i (by omega)).trans (if_pos (by omega))
    · exact fun i h1 h2 => (hbit i (by omega)).trans (if_pos (by omega))
    · exact (hbit 16 (by omega)).trans (if_neg (by omega))
    · exact (hbit 18 (by omega)).trans (if_neg (by omega))
    · exact fun i h1 h2 => (hbit i (by omega)).trans (if_neg (by omega))

/-- The frame of a result and flags written. -/
theorem frame_finish (p : Place) (v : Word) (f : FlagUpdate) (s : State) :
    Frame [p] s ((s.opened.withFlags f).put p v) :=
  (((frame_opened s).trans (frame_withFlags _ f) (by simp)).trans (frame_put _ p v) (by simp))

/-- A result placed elsewhere leaves the PC. -/
theorem put_pc (s : State) (p : Place) (v : Word) (hp : p ≠ .pc) : (s.put p v).pc = s.pc := by
  cases p with
  | pc => exact absurd rfl hp
  | sr => rfl
  | fer => rfl
  | gpr i => rfl
  | loc i => rfl

/-- What `finish` leaves when nothing traps: the result in its register, the flags, the frame, and control going on. -/
theorem finish_next {len : Nat} {rd : Reg} {v : Word} {f : FlagUpdate} {s : State} (hp : rd.isPC = false)
    (hl : SetsL rd v s = false) :
    ∃ t, finish len (place rd s) v f false s.opened = .next t ∧ Placed rd v (f.claim s) s t ∧ Continues len s t ∧
      Frame [place rd s] s t := by
  refine ⟨(((s.opened.withFlags f).put (place rd s) v).settle len).bump, ?_, ?_, ?_, ?_⟩
  · unfold finish
    simp only [Bool.false_or]
    rw [locksInUser_placed rd v f s hp, hl]
    rfl
  · exact (placed_put rd v f s hp).congr (by simp) (by simp) (by simp) (sameButEnd_settle _ len) hp
  · refine continues_retire ?_ (by simp) (by simp) (by simp)
    rw [put_pc _ _ _ (fun h => by rw [place_eq_pc.mp h] at hp; exact absurd hp (by simp))]
    rfl
  · exact (frame_finish (place rd s) v f s).trans ((frame_settle _ len).mono (by simp)) (by simp)

/-! ### Taking an exception -/

/-- What `takeException` does where the entry table is mapped: the two saved words, the new frame, the modes (R534). -/
theorem entered_spec (irq : Bool) (entry : Word) (s : State) : Entered irq entry s (s.entered irq entry).bump := by
  have hne : localIndex s.sr (frameLength s.sr) ≠ localIndex s.sr (frameLength s.sr + 1) := by
    intro h
    have := congrArg BitVec.toNat h
    simp only [localIndex, BitVec.toNat_ofNat] at this
    omega
  have hsr1 : ∀ c v, (s.setLr c v).sr = s.sr := fun _ _ => rfl
  have hreg : ∀ c v w, ((s.setLr c v).setLr (c + 1) w).locals =
      (s.locals.set (localIndex s.sr c).toNat v).set (localIndex s.sr (c + 1)).toNat w := fun _ _ _ => rfl
  have hsr : ∀ j, j ≠ 4 → j ≠ 5 → j ≠ 7 → j ≠ 15 → j ≠ 16 → j ≠ 18 → j < 19 →
      (s.entered irq entry).bump.sr.getLsbD j = s.sr.getLsbD j := by
    intro j h4 h5 h7 h15 h16 h18 h19
    simp only [State.entered, State.bump, State.flush_sr]
    rw [getLsbD_setH _ _ _ h5, setILC, getLsbD_setField, if_neg (by omega)]
    cases irq <;>
      simp only [Bool.false_eq_true, if_false, if_true, setI, setL, setT, setM, setS, setFL, setFP, getLsbD_setBit,
        getLsbD_setField] <;>
      repeat rw [if_neg (by omega)]
  constructor
  · rfl
  · have hi : (localIndex s.sr (frameLength s.sr + 1)).toNat ≠ (localIndex s.sr (frameLength s.sr)).toNat :=
      fun hc => hne (BitVec.eq_of_toNat_eq hc).symm
    simp [State.held, State.getLocal, State.entered, State.setLr, State.setLocal, savedPC, hi]
  · simp [State.held, State.getLocal, State.entered, State.setLr, State.setLocal]
  · cases irq <;> simp [State.entered, State.bump]
  · cases irq <;> simp [State.entered, State.bump]
  · cases irq <;> simp [State.entered, State.bump]
  · cases irq <;> simp [State.entered, State.bump]
  · refine ⟨?_, hsr 6 (by omega) (by omega) (by omega) (by omega) (by omega) (by omega) (by omega), ?_,
      hsr 17 (by omega) (by omega) (by omega) (by omega) (by omega) (by omega) (by omega)⟩
    · exact fun i h1 h2 => hsr i (by omega) (by omega) (by omega) (by omega) (by omega) (by omega) (by omega)
    · exact fun i h1 h2 => hsr i (by omega) (by omega) (by omega) (by omega) (by omega) (by omega) (by omega)
  · exact ⟨rfl, rfl, rfl⟩
  · exact ⟨rfl, rfl, rfl, noteAccess_busLock _ _⟩
  · refine Frame.trans (w1 := [.loc (localIndex s.sr (frameLength s.sr)), .loc (localIndex s.sr (frameLength s.sr + 1))])
      (t := { s.entered irq entry with busLock := s.busLock }) ?_
      ⟨registersKept_of_eq _ rfl rfl rfl, .of_eq rfl lock_starts (.inl rfl), fun _ => rfl, rfl, rfl⟩ (by simp)
    refine frame_of_eq ?_ rfl
    intro p hpc hs hp
    simp only [List.mem_cons, List.not_mem_nil, or_false, not_or] at hp
    cases p with
    | pc => exact absurd rfl hpc
    | sr => exact absurd rfl hs
    | fer => rfl
    | gpr i => rfl
    | loc i =>
      have h1 : (localIndex s.sr (frameLength s.sr)).toNat ≠ i.toNat :=
        fun hc => hp.1 (by rw [BitVec.eq_of_toNat_eq hc])
      have h2 : (localIndex s.sr (frameLength s.sr + 1)).toNat ≠ i.toNat :=
        fun hc => hp.2 (by rw [BitVec.eq_of_toNat_eq hc])
      simp [State.held, State.getLocal, State.entered, State.setLr, State.setLocal, h1, h2]

/-- `takeException` at a mapped entry. -/
theorem takeException_next {k : Nat} {irq : Bool} {s : State} {entry : Word} (h : trapEntry s.mcr k = some entry) :
    ∃ t, takeException k irq s = .next t ∧ Entered irq entry s t :=
  ⟨_, by rw [takeException, h], entered_spec irq entry s⟩

/-- An error exception of an ordinary instruction that left `u`: the next instruction's address and the instruction's length are
saved (R533). -/
theorem raiseError_next {len : Nat} {u : State} {entry : Word} (h : trapEntry u.mcr 60 = some entry) :
    ∃ t, raiseError len u = .next t ∧ Entered false entry (u.settleError len) t :=
  takeException_next (by rw [State.settleError_mcr]; exact h)

end Sys2Proof.Machine
end

