-- ==== Sys2Proof/Laws/Shapes.lean ====
section
/-! SUPPORT. For each shape of instruction, one lemma that says what it can do: the per-instruction claims are instances. -/

namespace Sys2Proof.Machine

/-! ### Operands before and after the start of an instruction -/

/-- Clearing H moves no local register. -/
@[simp] theorem localIndex_setH (sr : Word) (b : Bool) (c : Nat) : localIndex (setH sr b) c = localIndex sr c := by
  simp [localIndex]

@[simp] theorem place_opened (r : Reg) (s : State) : place r s.opened = place r s := by
  cases r <;> simp [place]

@[simp] theorem nextPlace_opened (r : Reg) (s : State) : nextPlace r s.opened = nextPlace r s := by
  cases r <;> simp [nextPlace]

@[simp] theorem pcSeen_opened (s : State) (len : Nat) : s.opened.pcSeen len = s.pcSeen len := rfl

@[simp] theorem lr_opened (s : State) (c : Nat) : s.opened.lr c = s.lr c := by
  simp [State.lr, State.getLocal]

/-- A place other than the SR reads the same after the start of the instruction. -/
theorem get_opened (s : State) (len : Nat) {p : Place} (h : p ≠ .sr) : s.opened.get len p = s.get len p := by
  cases p with
  | sr => exact absurd rfl h
  | pc => rfl
  | fer => rfl
  | gpr i => rfl
  | loc i => rfl

/-- A usable SR is read with the H window closed, so that clearing H changes nothing. -/
theorem source_opened {r : Reg} {regs : List Reg} {s : State} (len : Nat) (hu : Usable regs s) (hr : r ∈ regs) :
    source len r s.opened = source len r s := by
  unfold source
  rw [place_opened]
  by_cases h : place r s = .sr
  · rw [h]
    show setH s.sr false = s.sr
    refine setH_of_not_srH ?_
    by_cases hw : s.window = true
    · have h1 := hu hw r hr
      have h2 := place_eq_sr.mp h
      cases r with
      | loc c => simp [Reg.isSR] at h2
      | glob c => simp [regIsGlobal] at h1
    · simpa [State.window] using hw
  · exact get_opened s len h

/-- The C that stands for the SR as an operand. -/
theorem sourceOrCarry_opened {r : Reg} {regs : List Reg} {s : State} (len : Nat) (hu : Usable regs s) (hr : r ∈ regs) :
    sourceOrCarry len r s.opened = sourceOrCarry len r s := by
  unfold sourceOrCarry
  split
  · rw [State.opened_sr, srC_setH]
  · exact source_opened len hu hr

/-! ### Flags -/

/-- One claim follows from another. -/
def FlagClaim.Follows (f g : FlagClaim) : Prop := ∀ sr, g.meets sr → f.meets sr

theorem FlagClaim.follows_refl (f : FlagClaim) : f.Follows f := fun _ h => h

/-- A claim that says less of each flag. -/
theorem FlagClaim.follows_of {f g : FlagClaim} (hc : f.c = none ∨ f.c = g.c) (hz : f.z = none ∨ f.z = g.z)
    (hn : f.n = none ∨ f.n = g.n) (hv : f.v = none ∨ f.v = g.v) : f.Follows g := by
  intro sr ⟨h1, h2, h3, h4⟩
  refine ⟨?_, ?_, ?_, ?_⟩ <;> intro b hb
  · rcases hc with h | h <;> rw [h] at hb
    · exact absurd hb (by simp)
    · exact h1 b hb
  · rcases hz with h | h <;> rw [h] at hb
    · exact absurd hb (by simp)
    · exact h2 b hb
  · rcases hn with h | h <;> rw [h] at hb
    · exact absurd hb (by simp)
    · exact h3 b hb
  · rcases hv with h | h <;> rw [h] at hb
    · exact absurd hb (by simp)
    · exact h4 b hb

theorem Placed.weaken {rd : Reg} {v : Word} {f g : FlagClaim} {s t : State} (h : Placed rd v g s t) (hf : f.Follows g) :
    Placed rd v f s t :=
  ⟨fun hr => ⟨(h.register hr).1, hf _ (h.register hr).2.1, (h.register hr).2.2⟩, h.status⟩

/-! ### Errors -/

/-- An error exception after an instruction that left `u`. -/
theorem takesError {i : Instr} {s u : State} {len : Nat} (hlen : i.length = len) (hpc : u.pc = s.pc)
    (hd : u.delayPending = s.delayPending) (ha : u.delayAddr = s.delayAddr) (hm : u.mcr = s.mcr)
    (hi : srILC u.sr = srILC s.sr) : TakesError i s (u.settleError len) (raiseError len u) := by
  constructor
  · subst hlen
    constructor
    · unfold State.settleError
      rw [hd]
      split
      · exact ha
      · show u.pc + _ = _
        rw [hpc]
    · unfold State.settleError
      rw [hd]
      split
      · exact (srILC_setP ..).trans hi
      · exact (srILC_setP ..).trans (srILC_setILC ..)
    · unfold State.settleError
      split
      · exact srP_setP ..
      · exact srP_setP ..
  · intro entry h
    exact raiseError_next (by rw [hm]; exact h)

/-- The end of an errant instruction keeps all but the PC, the SR and the bookkeeping. -/
theorem frame_settleError (s : State) (len : Nat) : Frame [] s (s.settleError len) := by
  exact ⟨registersKept_of_eq _ (by simp) (by simp) (by simp), by constructor <;> simp, fun k => by simp, by simp, by simp⟩

/-- The ILC is not one of the bits a result or a flag is placed in. -/
theorem srILC_put (s : State) (p : Place) (v : Word) : srILC (s.put p v).sr = srILC s.sr := by
  cases p with
  | sr =>
    show (placeSR s.sr v _).extractLsb' 19 2 = s.sr.extractLsb' 19 2
    apply BitVec.eq_of_getLsbD_eq
    intro j hj
    rw [BitVec.getLsbD_extractLsb', BitVec.getLsbD_extractLsb', getLsbD_placeSR, if_neg (by omega), if_neg (by omega)]
  | pc => rfl
  | fer => rfl
  | gpr i => rfl
  | loc i => rfl

/-! ### Register instructions -/

/-- `finish`, whatever it ends in: the result is in its register, then control goes on or the error exception is taken. -/
theorem finish_yields {i : Instr} {len : Nat} {rd : Reg} {v : Word} {f : FlagUpdate} {trap : Bool} {g : FlagClaim} {s : State}
    (hi : exec i s = finish len (place rd s) v f trap s.opened) (hlen : i.length = len) (hp : rd.isPC = false)
    (hg : g.Follows (f.claim s)) : Yields i rd v g trap s := by
  have hne : place rd s ≠ .pc := fun h => by rw [place_eq_pc.mp h] at hp; exact absurd hp (by simp)
  constructor
  · intro h
    rw [Bool.or_eq_false_iff] at h
    obtain ⟨t, h1, h2, h3, h4⟩ := finish_next (len := len) (f := f) hp h.2
    exact ⟨t, by rw [hi, h.1]; exact h1, h2.weaken hg, hlen ▸ h3, h4⟩
  · intro h
    refine ⟨((s.opened.withFlags f).put (place rd s) v).settleError len, ?_, ?_, ?_⟩
    · exact ((placed_put rd v f s hp).congr (by simp) (by simp) (by simp) (sameButEnd_settleError _ len) hp).weaken hg
    · exact (frame_finish (place rd s) v f s).trans ((frame_settleError _ len).mono (by simp)) (by simp)
    · have hex : exec i s = raiseError len ((s.opened.withFlags f).put (place rd s) v) := by
        rw [hi]
        unfold finish
        dsimp only
        rw [locksInUser_placed rd v f s hp, h]
        rfl
      rw [hex]
      exact takesError hlen (put_pc _ _ _ hne) (by simp) (by simp) (by simp)
        ((srILC_put ..).trans ((srILC_applyFlags ..).trans (srILC_setH ..)))

/-- A register instruction. -/
theorem registerOp_yields {i : Instr} {len : Nat} {rd : Reg} {srcs : List Reg} {compute : State → Computed} {g : FlagClaim}
    {s : State} {r : Computed} (hi : exec i s = registerOp len rd srcs compute s) (hlen : i.length = len)
    (hp : rd.isPC = false) (hu : Usable (rd :: srcs) s) (hr : compute s.opened = r) (hg : g.Follows (r.flags.claim s)) :
    Yields i rd r.value g r.trap s := by
  refine finish_yields ?_ hlen hp hg
  rw [hi, ← hr]
  unfold registerOp
  rw [windowGuard_none (dst := some rd) hu, pcGuard_none hp]
  rfl

/-- A register instruction that may denote the PC, where it does not. -/
theorem branchableOp_yields {i : Instr} {len : Nat} {rd : Reg} {srcs : List Reg} {compute : State → Computed} {g : FlagClaim}
    {s : State} {r : Computed} (hi : exec i s = branchableOp len rd srcs compute s) (hlen : i.length = len)
    (hp : rd.isPC = false) (hu : Usable (rd :: srcs) s) (hr : compute s.opened = r) (hg : g.Follows (r.flags.claim s)) :
    Yields i rd r.value g false s := by
  refine finish_yields (f := r.flags) ?_ hlen hp hg
  have hne : place rd s ≠ .pc := fun h => by rw [place_eq_pc.mp h] at hp; exact absurd hp (by simp)
  rw [hi, ← hr]
  unfold branchableOp
  rw [windowGuard_none (dst := some rd) hu, hp]
  show finishBranch len (place rd s) _ _ s.opened = _
  unfold finishBranch
  split
  · rename_i h; exact absurd h hne
  · rfl

/-- The next place of a register other than the PC and G15 is no PC and no SR. -/
theorem nextPlace_ne {rd : Reg} {s : State} {q : Place} (hp : rd.isPC = false) (hq : nextPlace rd s = some q) :
    q ≠ .pc ∧ q ≠ .sr ∧ q ≠ place rd s := by
  cases rd with
  | loc c =>
    simp only [nextPlace, Option.some.injEq] at hq
    subst hq
    refine ⟨by simp, by simp, ?_⟩
    simp only [place, ne_eq, Place.loc.injEq]
    intro h
    have := congrArg BitVec.toNat h
    simp only [localIndex, BitVec.toNat_ofNat] at this
    omega
  | glob c =>
    have hc : c ≠ 0#4 := by simpa [Reg.isPC] using hp
    simp only [nextPlace] at hq
    split at hq
    · exact absurd hq (by simp)
    · rename_i h15
      obtain rfl := Option.some.inj hq
      have hall : ∀ c : BitVec 4, c ≠ 0#4 → c ≠ 15#4 →
          globalPlace (c + 1#4) ≠ .pc ∧ globalPlace (c + 1#4) ≠ .sr ∧ globalPlace (c + 1#4) ≠ globalPlace c := by
        decide
      exact hall c hc h15

/-- `finishPair`, whatever it ends in. -/
theorem finishPair_yields {i : Instr} {rd : Reg} {q : Place} {v w : Word} {f : FlagUpdate} {trap : Bool} {g : FlagClaim}
    {s : State} (hi : exec i s = finishPair 1 (place rd s) q v w f trap s.opened) (hlen : i.length = 1)
    (hp : rd.isPC = false) (hq : nextPlace rd s = some q) (hg : g.Follows (f.claim s)) : YieldsPair i rd q v w g trap s := by
  obtain ⟨q1, q2, q3⟩ := nextPlace_ne hp hq
  have hne : place rd s ≠ .pc := fun h => by rw [place_eq_pc.mp h] at hp; exact absurd hp (by simp)
  have hsr : ((((s.opened.withFlags f).put (place rd s) v).put q w)).sr = ((s.opened.withFlags f).put (place rd s) v).sr := by
    cases q with
    | pc => exact absurd rfl q1
    | sr => exact absurd rfl q2
    | fer => rfl
    | gpr i => rfl
    | loc i => rfl
  have hpl : Placed rd v (f.claim s) s (((s.opened.withFlags f).put (place rd s) v).put q w) := by
    have h := placed_put rd v f s hp
    constructor
    · intro hr
      rw [hsr, held_put_other _ _ _ _ (Ne.symm q3)]
      exact h.register hr
    · intro hr
      rw [hsr]
      exact h.status hr
  have hfr : Frame [place rd s, q] s (((s.opened.withFlags f).put (place rd s) v).put q w) :=
    ((frame_finish (place rd s) v f s).trans ((frame_put _ q w).mono (w2 := [place rd s, q]) (by simp)) (by simp))
  have hl : locksInUser s.opened.sr (((s.opened.withFlags f).put (place rd s) v).put q w).sr = SetsL rd v s := by
    rw [hsr, locksInUser_placed rd v f s hp]
  constructor
  · intro h
    rw [Bool.or_eq_false_iff] at h
    refine ⟨((((s.opened.withFlags f).put (place rd s) v).put q w).settle 1).bump, ?_, ?_, ?_, ?_, ?_⟩
    · rw [hi]
      unfold finishPair
      simp only
      rw [hl, h.1, h.2]
      rfl
    · refine (hpl.congr (t := State.bump _) ?_ ?_ ?_ (sameButEnd_settle _ 1) hp).weaken hg <;> simp
    · rw [held_eq_of_eq (s := ((s.opened.withFlags f).put (place rd s) v).put q w) q1 q2 (by simp) (by simp) (by simp)]
      exact held_put_same _ _ _ q1 q2
    · rw [hlen]
      refine continues_retire ?_ (by simp) (by simp) (by simp)
      rw [put_pc _ _ _ q1, put_pc _ _ _ hne]
      rfl
    · exact hfr.trans ((frame_settle _ 1).mono (by simp)) (by simp)
  · intro h
    refine ⟨(((s.opened.withFlags f).put (place rd s) v).put q w).settleError 1, ?_, ?_, ?_, ?_⟩
    · exact (hpl.congr (by simp) (by simp) (by simp) (sameButEnd_settleError _ 1) hp).weaken hg
    · rw [held_eq_of_eq (s := ((s.opened.withFlags f).put (place rd s) v).put q w) q1 q2 (by simp) (by simp) (by simp)]
      exact held_put_same _ _ _ q1 q2
    · exact hfr.trans ((frame_settleError _ 1).mono (by simp)) (by simp)
    · have hex : exec i s = raiseError 1 (((s.opened.withFlags f).put (place rd s) v).put q w) := by
        rw [hi]
        unfold finishPair
        simp only
        rw [hl, h]
        rfl
      rw [hex]
      refine takesError hlen ?_ (by simp) (by simp) (by simp) ?_
      · rw [put_pc _ _ _ q1, put_pc _ _ _ hne]; rfl
      · exact (srILC_put ..).trans ((srILC_put ..).trans ((srILC_applyFlags ..).trans (srILC_setH ..)))

/-- An instruction with a result pair. -/
theorem pairOp_yields {i : Instr} {rd : Reg} {q : Place} {srcs : List Reg} {compute : State → Place → ComputedPair}
    {g : FlagClaim} {s : State} {r : ComputedPair} (hi : exec i s = pairOp rd srcs compute s) (hlen : i.length = 1)
    (hp : rd.isPC = false) (hu : Usable (rd :: srcs) s) (hq : nextPlace rd s = some q) (hr : compute s.opened q = r)
    (hg : g.Follows (r.flags.claim s)) : YieldsPair i rd q r.high r.low g r.trap s := by
  refine finishPair_yields ?_ hlen hp hq hg
  rw [hi, ← hr]
  unfold pairOp
  rw [windowGuard_none (dst := some rd) hu, pcGuard_none hp]
  show (match nextPlace rd s with | none => _ | some q => _) = _
  rw [hq]

/-! ### Instructions that write no register -/

/-- The flags an instruction writes, and nothing else. -/
theorem onlyFlags_withFlags (s : State) (f : FlagUpdate) : OnlyFlags (f.claim s) s (s.opened.withFlags f) := by
  have hhigh : ∀ j, 4 ≤ j → j ≠ 5 → (applyFlags f (setH s.sr false)).getLsbD j = s.sr.getLsbD j := by
    intro j h4 h5
    rw [getLsbD_applyFlags, if_neg (by omega), if_neg (by omega), if_neg (by omega), if_neg (by omega),
      getLsbD_setH _ _ _ h5]
  refine ⟨⟨?_, ?_, ?_, ?_⟩, ?_, ⟨hhigh 4 (by omega) (by omega), ?_, hhigh 18 (by omega) (by omega), ?_⟩, ?_⟩
  · rintro b ⟨⟩
    exact (srC_applyFlags f _).trans (by rw [State.opened_sr, srC_setH])
  · rintro b ⟨⟩
    exact (srZ_applyFlags f _).trans (by rw [State.opened_sr, srZ_setH])
  · rintro b ⟨⟩
    exact (srN_applyFlags f _).trans (by rw [State.opened_sr, srN_setH])
  · rintro b ⟨⟩
    exact (srV_applyFlags f _).trans (by rw [State.opened_sr, srV_setH])
  · show srH (applyFlags f (setH s.sr false)) = false
    rw [srH_applyFlags, srH_setH]
  · exact fun i h1 h2 => hhigh i (by omega) (by omega)
  · exact fun i h1 h2 => hhigh i (by omega) (by omega)
  · exact (frame_opened s).trans (frame_withFlags _ f) (by simp)

/-- The end of the instruction keeps what was claimed of the flags. -/
theorem OnlyFlags.congr {f g : FlagClaim} {s u t : State} (h : OnlyFlags g s u) (hs : SameButEnd t.sr u.sr) (ht : Frame [] u t)
    (hf : f.Follows g) : OnlyFlags f s t := by
  obtain ⟨⟨a2, a3, a4, a5⟩, a6, ⟨a7, a8, a9, a10⟩, a11⟩ := h
  refine ⟨hf _ ⟨?_, ?_, ?_, ?_⟩, ?_, ⟨?_, ?_, ?_, ?_⟩, a11.trans ht (by simp)⟩
  · exact fun b hb => (hs 0 (by omega) (by omega)).trans (a2 b hb)
  · exact fun b hb => (hs 1 (by omega) (by omega)).trans (a3 b hb)
  · exact fun b hb => (hs 2 (by omega) (by omega)).trans (a4 b hb)
  · exact fun b hb => (hs 3 (by omega) (by omega)).trans (a5 b hb)
  · exact (hs 5 (by omega) (by omega)).trans a6
  · exact (hs 4 (by omega) (by omega)).trans a7
  · exact fun i x y => (hs i (by omega) (by omega)).trans (a8 i x y)
  · exact (hs 18 (by omega) (by omega)).trans a9
  · exact fun i x y => (hs i (by omega) (by omega)).trans (a10 i x y)

/-- A retirement after flags alone were written. -/
theorem passes_retire {i : Instr} {len : Nat} {f : FlagUpdate} {g : FlagClaim} {s : State}
    (hi : exec i s = retire len (s.opened.withFlags f)) (hlen : i.length = len) (hg : g.Follows (f.claim s)) :
    Passes i g s := by
  refine ⟨_, hi, (onlyFlags_withFlags s f).congr (sameButEnd_settle _ len) (frame_settle _ len) hg, ?_⟩
  rw [hlen]
  exact continues_retire rfl rfl rfl rfl

/-- An instruction that tests. -/
theorem testOp_tests {i : Instr} {len : Nat} {srcs : List Reg} {compute : State → FlagUpdate × Bool} {g : FlagClaim} {s : State}
    {r : FlagUpdate × Bool} (hi : exec i s = testOp len srcs compute s) (hlen : i.length = len) (hu : Usable srcs s)
    (hr : compute s.opened = r) (hg : g.Follows (r.1.claim s)) : Tests i g r.2 s := by
  have hex : exec i s = if r.2 then raiseError len (s.opened.withFlags r.1) else retire len (s.opened.withFlags r.1) := by
    rw [hi, ← hr]
    unfold testOp
    rw [windowGuard_none (dst := none) hu]
    rfl
  constructor
  · intro h
    exact passes_retire (by rw [hex, h]; rfl) hlen hg
  · intro h
    refine ⟨(s.opened.withFlags r.1).settleError len, ?_, ?_⟩
    · exact (onlyFlags_withFlags s r.1).congr (sameButEnd_settleError _ len) (frame_settleError _ len) hg
    · rw [hex, h]
      exact takesError hlen rfl rfl rfl rfl ((srILC_applyFlags ..).trans (srILC_setH ..))

/-! ### The same, with the parts of the result given one by one -/

/-- A register instruction, by its value, its trap and its flags. -/
theorem registerOp_results {i : Instr} {len : Nat} {rd : Reg} {srcs : List Reg} {compute : State → Computed} {g : FlagClaim}
    {s : State} {v : Word} {trap : Bool} (hi : exec i s = registerOp len rd srcs compute s) (hlen : i.length = len)
    (hp : rd.isPC = false) (hu : Usable (rd :: srcs) s) (hv : (compute s.opened).value = v)
    (ht : (compute s.opened).trap = trap) (hg : g.Follows ((compute s.opened).flags.claim s)) : Yields i rd v g trap s := by
  subst hv ht
  exact registerOp_yields hi hlen hp hu rfl hg

/-- A register instruction that may denote the PC, by its value and its flags. -/
theorem branchableOp_results {i : Instr} {len : Nat} {rd : Reg} {srcs : List Reg} {compute : State → Computed}
    {g : FlagClaim} {s : State} {v : Word} (hi : exec i s = branchableOp len rd srcs compute s) (hlen : i.length = len)
    (hp : rd.isPC = false) (hu : Usable (rd :: srcs) s) (hv : (compute s.opened).value = v)
    (hg : g.Follows ((compute s.opened).flags.claim s)) : Yields i rd v g false s := by
  subst hv
  exact branchableOp_yields hi hlen hp hu rfl hg

/-- An instruction with a result pair, by its values, its trap and its flags. -/
theorem pairOp_results {i : Instr} {rd : Reg} {q : Place} {srcs : List Reg} {compute : State → Place → ComputedPair}
    {g : FlagClaim} {s : State} {v w : Word} {trap : Bool} (hi : exec i s = pairOp rd srcs compute s) (hlen : i.length = 1)
    (hp : rd.isPC = false) (hu : Usable (rd :: srcs) s) (hq : nextPlace rd s = some q) (hv : (compute s.opened q).high = v)
    (hw : (compute s.opened q).low = w) (ht : (compute s.opened q).trap = trap)
    (hg : g.Follows ((compute s.opened q).flags.claim s)) : YieldsPair i rd q v w g trap s := by
  subst hv hw ht
  exact pairOp_yields hi hlen hp hu hq rfl hg

/-- An instruction that tests, by its trap and its flags. -/
theorem testOp_results {i : Instr} {len : Nat} {srcs : List Reg} {compute : State → FlagUpdate × Bool} {g : FlagClaim}
    {s : State} {trap : Bool} (hi : exec i s = testOp len srcs compute s) (hlen : i.length = len) (hu : Usable srcs s)
    (ht : (compute s.opened).2 = trap) (hg : g.Follows ((compute s.opened).1.claim s)) : Tests i g trap s := by
  subst ht
  exact testOp_tests hi hlen hu rfl hg

/-- Local registers may always be named. -/
theorem usable_locals {regs : List Reg} {s : State} (h : ∀ r ∈ regs, regIsGlobal r = false) : Usable regs s := fun _ => h

/-- Fewer registers. -/
theorem Usable.mono {regs fewer : List Reg} {s : State} (h : Usable regs s) (hsub : ∀ r ∈ fewer, r ∈ regs) : Usable fewer s :=
  fun hw r hr => h hw r (hsub r hr)

/-- With the H window closed every register may be named. -/
theorem usable_closed {regs : List Reg} {s : State} (h : s.window = false) : Usable regs s :=
  fun hw => absurd hw (by simp [h])

end Sys2Proof.Machine
end

