-- ==== Sys2Proof/Laws/Accesses.lean ====
section
/-! SUPPORT. What the shapes of loads, stores and I/O accesses can do: one lemma for each shape. -/

namespace Sys2Proof.Machine

/-! ### Address registers -/

/-- A register that a load may name: not the PC, the SR, G14 or G15 (R236). -/
def Loadable (rs : Reg) : Prop := ∀ c, rs = .glob c → 2 ≤ c.toNat ∧ c.toNat ≤ 13

/-- A register that a double-word load may name (R236). -/
def LoadablePair (rs : Reg) : Prop := ∀ c, rs = .glob c → 2 ≤ c.toNat ∧ c.toNat ≤ 12

/-- The address register updated is neither the PC nor the SR. -/
def Access.Plain (a : Access) : Prop := ∀ p w, a.update = some (p, w) → p ≠ .pc ∧ p ≠ .sr

/-- A loadable register is neither the PC nor the SR. -/
theorem Loadable.place_ne {rs : Reg} (h : Loadable rs) (s : State) : place rs s ≠ .pc ∧ place rs s ≠ .sr := by
  constructor
  · intro hc
    have := place_eq_pc.mp hc
    cases rs with
    | loc c => simp [Reg.isPC] at this
    | glob c =>
      have hc0 : c = 0#4 := by simpa [Reg.isPC] using this
      have := (h c rfl).1
      rw [hc0] at this
      simp at this
  · intro hc
    have := place_eq_sr.mp hc
    cases rs with
    | loc c => simp [Reg.isSR] at this
    | glob c =>
      have hc0 : c = 1#4 := by simpa [Reg.isSR] using this
      have := (h c rfl).1
      rw [hc0] at this
      simp at this

/-- A loadable register passes its check. -/
theorem loadGuard_none {rs : Reg} (h : Loadable rs) : loadGuard false rs = none := by
  cases rs with
  | loc c => rfl
  | glob c =>
    obtain ⟨h1, h2⟩ := h c rfl
    unfold loadGuard
    simp only
    rw [if_neg]
    rintro (rfl | rfl | rfl | rfl | h) <;> simp at *

/-- A register whose pair is loadable passes its check. -/
theorem loadGuard_pair {rs : Reg} (h : LoadablePair rs) : loadGuard true rs = none := by
  cases rs with
  | loc c => rfl
  | glob c =>
    obtain ⟨h1, h2⟩ := h c rfl
    unfold loadGuard
    simp only
    rw [if_neg]
    rintro (rfl | rfl | rfl | rfl | ⟨_, rfl⟩) <;> simp at *

theorem LoadablePair.loadable {rs : Reg} (h : LoadablePair rs) : Loadable rs :=
  fun c hc => ⟨(h c hc).1, Nat.le_trans (h c hc).2 (by omega)⟩

/-- A register other than the PC and the SR may be updated by an address mode. -/
theorem addressGuard_none {rd : Reg} (hp : rd.isPC = false) (hs : rd.isSR = false) : addressGuard rd = none := by
  simp [addressGuard, hp, hs]

/-- The place of a register other than the PC and the SR. -/
theorem place_plain {rd : Reg} (s : State) (hp : rd.isPC = false) (hs : rd.isSR = false) :
    place rd s ≠ .pc ∧ place rd s ≠ .sr :=
  ⟨fun h => by rw [place_eq_pc.mp h] at hp; exact absurd hp (by simp),
    fun h => by rw [place_eq_sr.mp h] at hs; exact absurd hs (by simp)⟩

/-! ### The update of the address register -/

/-- A result placed elsewhere leaves the SR. -/
theorem put_sr (s : State) (p : Place) (v : Word) (hp : p ≠ .sr) : (s.put p v).sr = s.sr := by
  cases p with
  | sr => exact absurd rfl hp
  | pc => rfl
  | fer => rfl
  | gpr i => rfl
  | loc i => rfl

theorem updateAddress_pc {a : Access} (h : a.Plain) (s : State) : (s.updateAddress a).pc = s.pc := by
  unfold State.updateAddress
  cases hu : a.update with
  | none => rfl
  | some x => exact put_pc _ _ _ (h x.1 x.2 hu).1

theorem updateAddress_sr {a : Access} (h : a.Plain) (s : State) : (s.updateAddress a).sr = s.sr := by
  unfold State.updateAddress
  cases hu : a.update with
  | none => rfl
  | some x => exact put_sr _ _ _ (h x.1 x.2 hu).2

/-- The update keeps all but its register. -/
theorem frame_updateAddress (s : State) (a : Access) : Frame (updatedPlaces a.update) s (s.updateAddress a) := by
  unfold State.updateAddress updatedPlaces
  cases hu : a.update with
  | none => exact frame_of_eq (registersKept_of_eq _ rfl rfl rfl) rfl
  | some x => exact frame_put s x.1 x.2

/-- The updated register holds the new address. -/
theorem held_updateAddress {a : Access} (h : a.Plain) (s : State) {p : Place} {w : Word} (hu : a.update = some (p, w)) :
    (s.updateAddress a).held p = w := by
  unfold State.updateAddress
  rw [hu]
  exact held_put_same s p w (h p w hu).1 (h p w hu).2

/-- The flags and the rest of the SR after a memory instruction. -/
theorem addressDone {update : Option (Place × Word)} {loaded : List Place} {s t : State}
    (hs : SameButEnd t.sr (setH s.sr false)) (hu : ∀ p w, update = some (p, w) → p ∉ loaded → t.held p = w) :
    AddressDone update loaded s t := by
  have hb : ∀ j, j ≠ 5 → j ≠ 17 → j < 19 ∨ 21 ≤ j → t.sr.getLsbD j = s.sr.getLsbD j := fun j h5 h17 h =>
    (hs j h17 h).trans (getLsbD_setH _ _ _ h5)
  refine ⟨⟨?_, ?_, ?_, ?_⟩, ⟨?_, hb 4 (by omega) (by omega) (by omega), ?_, hb 18 (by omega) (by omega) (by omega), ?_⟩, hu⟩
  · rintro b ⟨⟩; exact hb 0 (by omega) (by omega) (by omega)
  · rintro b ⟨⟩; exact hb 1 (by omega) (by omega) (by omega)
  · rintro b ⟨⟩; exact hb 2 (by omega) (by omega) (by omega)
  · rintro b ⟨⟩; exact hb 3 (by omega) (by omega) (by omega)
  · exact (hs 5 (by omega) (by omega)).trans (srH_setH s.sr false)
  · exact fun i h1 h2 => hb i (by omega) (by omega) (by omega)
  · exact fun i h1 h2 => hb i (by omega) (by omega) (by omega)

/-! ### Reading memory -/

theorem readByte_congr {s t : State} (hm : t.mem = s.mem) (hp : t.platform = s.platform) (hf : t.fresh = s.fresh) (r : Region)
    (a : Word) : t.readByte r a = s.readByte r a := by
  unfold State.readByte
  rw [hm, hf, cell_congr hp]

theorem readHalf_congr {s t : State} (hm : t.mem = s.mem) (hp : t.platform = s.platform) (hf : t.fresh = s.fresh) (r : Region)
    (a : Word) : t.readHalf r a = s.readHalf r a := by
  unfold State.readHalf
  simp only [readByte_congr hm hp hf]

theorem readWord_congr {s t : State} (hm : t.mem = s.mem) (hp : t.platform = s.platform) (hf : t.fresh = s.fresh) (r : Region)
    (a : Word) : t.readWord r a = s.readWord r a := by
  unfold State.readWord
  simp only [readByte_congr hm hp hf]

theorem loadValue_congr {s t : State} (hm : t.mem = s.mem) (hp : t.platform = s.platform) (hf : t.fresh = s.fresh)
    (ty : DataType) (r : Region) (a : Word) : t.loadValue ty r a = s.loadValue ty r a := by
  cases ty <;> simp only [State.loadValue, readByte_congr hm hp hf, readHalf_congr hm hp hf, readWord_congr hm hp hf]

/-- Only the bus lock and the note of what the program relies on differ, and they only start (R112, R165). -/
structure BusFrame (s t : State) : Prop where
  eq : t = { s with busLock := t.busLock, iramRelied := t.iramRelied }
  frame : Frame [] s t

/-- An access. -/
theorem busFrame_noteAccess (s : State) (r : Region) : BusFrame s (s.noteAccess r) := ⟨rfl, frame_noteAccess s r⟩

/-- A read. -/
theorem busFrame_noteLoad (s : State) (ty : DataType) (r : Region) (a : Word) : BusFrame s (s.noteLoad ty r a) := by
  cases ty <;> exact ⟨rfl, frame_noteRead s r _ _⟩

/-- What happens twice on the bus. -/
theorem BusFrame.trans {s t u : State} (h1 : BusFrame s t) (h2 : BusFrame t u) : BusFrame s u :=
  ⟨h2.eq.trans (by rw [h1.eq]), h1.frame.trans h2.frame (by simp)⟩

/-- A stack read. -/
theorem busFrame_noteStackRead (s : State) (a : Word) : BusFrame s (s.noteStackRead a) := by
  unfold State.noteStackRead
  split
  · exact busFrame_noteLoad s .w _ _
  · exact ⟨rfl, frame_of_eq (registersKept_of_eq _ rfl rfl rfl) rfl⟩

/-! ### Loads -/

/-- One register loaded, after the address register's update. -/
theorem loads_retire {i : Instr} {len : Nat} {rs : Reg} {v : Word} {a : Access} {s u : State}
    (hi : exec i s = retire len (u.put (place rs s) v)) (hlen : i.length = len) (hb : BusFrame (s.opened.updateAddress a) u)
    (hp : place rs s ≠ .pc) (hs : place rs s ≠ .sr) (ha : a.Plain) : LoadsWord i rs v a.update s := by
  have hsr : (u.put (place rs s) v).sr = setH s.sr false := by
    rw [put_sr _ _ _ hs, hb.eq]; exact updateAddress_sr ha _
  refine ⟨_, hi, ?_, addressDone (by rw [← hsr]; exact sameButEnd_settle _ len) ?_, ?_, ?_⟩
  · rw [held_eq_of_eq (s := u.put (place rs s) v) hp hs (by simp) (by simp) (by simp)]
    exact held_put_same _ _ _ hp hs
  · intro p w hu hn
    obtain ⟨h1, h2⟩ := ha p w hu
    rw [held_eq_of_eq (s := u.put (place rs s) v) h1 h2 (by simp) (by simp) (by simp),
      held_put_other _ _ _ _ (by simpa using hn), hb.frame.registers p h1 h2 (by simp)]
    exact held_updateAddress ha _ hu
  · rw [hlen]
    exact continues_retire (by rw [put_pc _ _ _ hp, hb.eq]; exact updateAddress_pc ha _) (by rw [hb.eq]; simp)
      (by rw [hb.eq]; simp) (by rw [hb.eq]; simp)
  · exact ((((frame_opened s).trans (frame_updateAddress _ a) (by simp)).trans (hb.frame.mono (by simp)) (fun _ h => h)).trans
      ((frame_put _ (place rs s) v).mono (w2 := place rs s :: updatedPlaces a.update) (by simp))
      (fun _ h => List.mem_cons_of_mem _ h)).trans ((frame_settle _ len).mono (by simp)) (fun _ h => h)

/-- A load. -/
theorem loadOp_loads {i : Instr} {len : Nat} {ty : DataType} {fields : List Reg} {rs : Reg} {check : Option Result}
    {access : State → Access} {s : State} {a : Access} {v : Word} (hi : exec i s = loadOp len ty fields rs check access s)
    (hlen : i.length = len) (hu : Usable (rs :: fields) s) (hc : check = none) (hr : Loadable rs)
    (ha : access s.opened = a) (hpl : a.Plain) (hn : a.null = false) (hv : s.loadValue ty a.region a.addr = v) :
    LoadsWord i rs v a.update s := by
  obtain ⟨h1, h2⟩ := hr.place_ne s
  refine loads_retire (len := len) ?_ hlen (busFrame_noteLoad _ ty a.region a.addr) h1 h2 hpl
  rw [hi]
  unfold loadOp
  rw [windowGuard_none (dst := none) hu, hc, loadGuard_none hr, ha]
  simp only [guarded, andThen, hn, Bool.false_eq_true, if_false]
  rw [loadValue_congr (s := s) (by simp) (by simp) (by simp), hv]

/-- The accesses of a double-word load at `a`, with what another bus master wrote between them: `u` is the state after them,
`m` what the claim names (R109). -/
theorem interlude_noteLoads {s x : State} (r : Region) (a b : Word) (hm : x.mem = s.mem) (hp : x.platform = s.platform)
    (hi : x.pins = s.pins) (hf : x.fcr = s.fcr) (hl : x.busLock = s.busLock) (hw : x.between = s.between)
    (hr : x.iramRelied = s.iramRelied) :
    let m := (s.noteAccess r).interlude
    let u := (x.noteLoad .w r a).interlude
    u.mem = m.mem ∧ (u.noteLoad .w r b).busLock = m.busLock ∧
      ((u.noteLoad .w r b).iramRelied = m.iramRelied ∨ (u.noteLoad .w r b).iramRelied = true) := by
  have hb : (x.noteLoad .w r a).busLock = (s.noteAccess r).busLock := by
    show (x.busLock || (r == .external && !x.fcr.getLsbD 17)) = (s.busLock || (r == .external && !s.fcr.getLsbD 17))
    rw [hl, hf]
  have hact : (x.noteLoad .w r a).act = (s.noteAccess r).act := by
    unfold State.act
    rw [hb]
    show (!x.pins.grant || _) = (!s.pins.grant || _)
    rw [hi]
  refine ⟨?_, ?_, ?_⟩
  · unfold State.interlude
    rw [show (x.noteLoad .w r a).between = (s.noteAccess r).between from hw]
    exact (dma_memory (s := s.noteAccess r) (t := x.noteLoad .w r a) _ hm hp hact).1
  · show ((x.noteLoad .w r a).interlude.busLock || (r == .external && !(x.noteLoad .w r a).interlude.fcr.getLsbD 17)) = _
    rw [State.interlude_busLock, State.interlude_busLock, State.interlude_fcr, hb]
    show ((s.busLock || (r == .external && !s.fcr.getLsbD 17)) || (r == .external && !x.fcr.getLsbD 17)) = _
    rw [hf, Bool.or_assoc, Bool.or_self]
    rfl
  · show ((x.noteLoad .w r a).interlude.iramRelied || _) = _ ∨ ((x.noteLoad .w r a).interlude.iramRelied || _) = true
    rw [State.interlude_iramRelied, State.interlude_iramRelied]
    show ((x.iramRelied || _) || _) = s.iramRelied ∨ ((x.iramRelied || _) || _) = true
    rw [hr]
    generalize (!x.guarantees r (alignWord a) 4) = p
    generalize (!(x.noteLoad .w r a).interlude.guarantees r (alignWord b) 4) = q
    cases s.iramRelied <;> cases p <;> cases q <;> simp

/-- A double-word load. -/
theorem loadDoubleOp_loads {i : Instr} {len : Nat} {fields : List Reg} {rs : Reg} {check : Option Result}
    {access : State → Access} {s : State} {a : Access} {q : Place}
    (hi : exec i s = loadDoubleOp len fields rs check access s) (hlen : i.length = len) (hu : Usable (rs :: fields) s)
    (hc : check = none) (hr : LoadablePair rs) (hq : nextPlace rs s = some q) (ha : access s.opened = a) (hpl : a.Plain)
    (hn : a.null = false) : LoadsPair i rs q a.region a.addr a.update s := by
  unfold loadDoubleOp at hi
  rw [windowGuard_none (dst := none) hu, hc, loadGuard_pair hr, ha, hq] at hi
  simp only [guarded, andThen, hn, Bool.false_eq_true, if_false] at hi
  obtain ⟨hmem, hlock, hrel⟩ := interlude_noteLoads (s := s) (x := s.opened.updateAddress a) a.region a.addr (a.addr + 4#32)
    (by simp) (by simp) (by simp) (by simp) (by simp) (by simp) (by simp)
  have hx : (s.opened.updateAddress a).readWord a.region a.addr = s.readWord a.region a.addr :=
    readWord_congr (by simp) (by simp) (by simp) ..
  have hy : ((s.opened.updateAddress a).noteLoad .w a.region a.addr).interlude.readWord a.region (a.addr + 4#32) =
      (s.noteAccess a.region).interlude.readWord a.region (a.addr + 4#32) :=
    readWord_congr hmem (by simp) (by simp) ..
  rw [hx, hy] at hi
  generalize hv : s.readWord a.region a.addr = v at hi
  generalize hw : (s.noteAccess a.region).interlude.readWord a.region (a.addr + 4#32) = w at hi
  generalize hz : ((s.opened.updateAddress a).noteLoad .w a.region a.addr).interlude = z at hi hmem hlock hrel
  have hregs : z.fer = (s.opened.updateAddress a).fer ∧ z.gpr = (s.opened.updateAddress a).gpr ∧
      z.locals = (s.opened.updateAddress a).locals ∧ z.pc = (s.opened.updateAddress a).pc ∧
      z.sr = (s.opened.updateAddress a).sr := by
    rw [← hz]
    simp
  obtain ⟨hp, hs⟩ := hr.loadable.place_ne s
  have hpc : rs.isPC = false := by
    cases h : rs.isPC with
    | false => rfl
    | true => exact absurd (place_eq_pc.mpr h) hp
  obtain ⟨q1, q2, q3⟩ := nextPlace_ne hpc hq
  generalize hU : z.noteLoad .w a.region (a.addr + 4#32) = u at hi hlock hrel
  have hu2 : u.fer = z.fer ∧ u.gpr = z.gpr ∧ u.locals = z.locals ∧ u.pc = z.pc ∧ u.sr = z.sr ∧ u.mem = z.mem := by
    rw [← hU]
    exact ⟨rfl, rfl, rfl, rfl, rfl, rfl⟩
  have hsr : ((u.put (place rs s) v).put q w).sr = setH s.sr false := by
    rw [put_sr _ _ _ q2, put_sr _ _ _ hs, hu2.2.2.2.2.1, hregs.2.2.2.2]
    exact updateAddress_sr hpl _
  have hh : ∀ {p : Place}, p ≠ .pc → p ≠ .sr →
      (((u.put (place rs s) v).put q w).settle len).bump.held p = ((u.put (place rs s) v).put q w).held p := fun h1 h2 =>
    held_eq_of_eq h1 h2 (by simp) (by simp) (by simp)
  have hheld : ∀ {p : Place}, p ≠ .pc → p ≠ .sr → u.held p = (s.opened.updateAddress a).held p := fun h1 h2 =>
    held_eq_of_eq h1 h2 (hu2.1.trans hregs.1) (hu2.2.1.trans hregs.2.1) (hu2.2.2.1.trans hregs.2.2.1)
  refine ⟨_, hi, ?_, ?_, addressDone (by rw [← hsr]; exact sameButEnd_settle _ len) ?_, ?_, ⟨?_, ?_, ?_, ?_, ?_⟩⟩
  · rw [hh hp hs, held_put_other _ _ _ _ (Ne.symm q3), hv]
    exact held_put_same _ _ _ hp hs
  · rw [hh q1 q2, hw]
    exact held_put_same _ _ _ q1 q2
  · intro p x hu hn
    obtain ⟨h1, h2⟩ := hpl p x hu
    simp only [List.mem_cons, List.not_mem_nil, or_false, not_or] at hn
    rw [hh h1 h2, held_put_other _ _ _ _ hn.2, held_put_other _ _ _ _ hn.1, hheld h1 h2]
    exact held_updateAddress hpl _ hu
  · rw [hlen]
    refine continues_retire ?_ ?_ ?_ ?_
    · rw [put_pc _ _ _ q1, put_pc _ _ _ hp, hu2.2.2.2.1, hregs.2.2.2.1]
      exact updateAddress_pc hpl _
    all_goals rw [← hU, ← hz]; simp
  · intro p h1 h2 h3
    simp only [List.mem_cons, not_or] at h3
    rw [hh h1 h2, held_put_other _ _ _ _ h3.2.1, held_put_other _ _ _ _ h3.1, hheld h1 h2]
    exact (((frame_opened s).trans (frame_updateAddress _ a) (by simp)).registers p h1 h2 h3.2.2).trans
      (held_eq_of_eq h1 h2 (by simp) (by simp) (by simp))
  · constructor
    case busLock => exact .inl (by simpa using hlock)
    case relied => exact by simpa using hrel
    all_goals rw [← hU, ← hz]; simp
  · intro k
    simp only [State.bump_mem, State.settle_mem, State.put_mem]
    rw [hu2.2.2.2.2.2, hmem]
  · rw [← hU, ← hz]
    simp
  · rw [← hU, ← hz]
    simp

/-! ### Stores -/

/-- Memory apart, what a store leaves is the updated address register. -/
theorem store_frame {a : Access} {s v u : State} (hb : BusFrame (s.opened.updateAddress a) v) (hmf : MemFrame v u) :
    u = { s.opened.updateAddress a with
      mem := u.mem, iramKept := u.iramKept, stale := u.stale, busLock := u.busLock, iramRelied := u.iramRelied } := by
  have h1 := hmf
  rw [MemFrame, hb.eq] at h1
  rw [h1]

/-- What a store keeps, at its end and where an error exception saves it. -/
theorem store_done {len : Nat} {a : Access} {s v u : State} (ha : a.Plain) (hb : BusFrame (s.opened.updateAddress a) v)
    (hmf : MemFrame v u) :
    StoreDone a.update s (u.settle len).bump ∧ Continues len s (u.settle len).bump ∧
      StoreDone a.update s (u.settleError len) := by
  have hframe := store_frame hb hmf
  have hsr : u.sr = setH s.sr false := by rw [hframe]; exact updateAddress_sr ha _
  have hkept : ∀ t : State, t.fer = u.fer → t.gpr = u.gpr → t.locals = u.locals →
      RegistersKept (updatedPlaces a.update) s t := by
    intro t h1 h2 h3 p hp hs hn
    rw [held_eq_of_eq hp hs h1 h2 h3]
    have hfr := ((frame_opened s).trans (frame_updateAddress _ a) (by simp)).registers p hp hs hn
    rw [← hfr, hframe]
    exact held_eq_of_eq hp hs rfl rfl rfl
  have hheld : ∀ t : State, t.fer = u.fer → t.gpr = u.gpr → t.locals = u.locals → ∀ p w, a.update = some (p, w) → p ∉ [] →
      t.held p = w := by
    intro t h1 h2 h3 p w hu _
    obtain ⟨x1, x2⟩ := ha p w hu
    rw [held_eq_of_eq x1 x2 h1 h2 h3, ← held_updateAddress ha s.opened hu, hframe]
    exact held_eq_of_eq x1 x2 rfl rfl rfl
  have hspec : SpecialKept s u := by
    refine (((frame_opened s).trans (frame_updateAddress _ a) (by simp)).special.trans hb.frame.special).trans ?_
    rw [hmf]
    constructor <;> simp
  refine ⟨⟨addressDone (by rw [← hsr]; exact sameButEnd_settle _ len) (hheld _ (by simp) (by simp) (by simp)),
    hkept _ (by simp) (by simp) (by simp), hspec.trans (frame_settle u len).special, by rw [hframe]; simp⟩, ?_,
    ⟨addressDone (by rw [← hsr]; exact sameButEnd_settleError _ len) (hheld _ (by simp) (by simp) (by simp)),
    hkept _ (by simp) (by simp) (by simp), hspec.trans (frame_settleError u len).special, by rw [hframe]; simp⟩⟩
  refine continues_retire ?_ ?_ ?_ ?_ <;> rw [hframe] <;> simp [updateAddress_pc ha]

/-- A store, once its memory effect is known: control goes on, or the error exception is taken. -/
theorem stores_retire {i : Instr} {len : Nat} {r : Region} {b : Word} {bytes : List Byte} {trap : Bool} {a : Access}
    {s v u : State} (hi : exec i s = if trap then raiseError len u else retire len u) (hlen : i.length = len) (ha : a.Plain)
    (hb : BusFrame (s.opened.updateAddress a) v) (hst : Stores r b bytes v u) (hmf : MemFrame v u) :
    StoresBytes i r b bytes a.update trap s := by
  have hst' : ∀ t, t.mem = u.mem → Stores r b bytes s t := fun t ht =>
    hst.congr (by rw [hb.eq]; simp) (by rw [hb.eq]; simp) ht
  obtain ⟨hd, hcont, he⟩ := store_done (len := len) ha hb hmf
  constructor
  · intro ht
    exact ⟨_, by rw [hi, ht]; rfl, hst' _ (by simp), hd, by rw [hlen]; exact hcont⟩
  · intro ht
    refine ⟨u.settleError len, hst' _ (by simp), he, ?_⟩
    have hframe := store_frame hb hmf
    rw [hi, ht]
    refine takesError hlen ?_ ?_ ?_ ?_ ?_
    · rw [hframe]; exact updateAddress_pc ha _
    · rw [hframe]; simp
    · rw [hframe]; simp
    · rw [hframe]; simp
    · rw [show u.sr = setH s.sr false by rw [hframe]; exact updateAddress_sr ha _, srILC_setH]

/-- A store. -/
theorem storeOp_stores {i : Instr} {len : Nat} {ty : DataType} {fields : List Reg} {rs : Reg} {check : Option Result}
    {access : State → Access} {s : State} {a : Access} {v : Word} {trap : Bool}
    (hi : exec i s = storeOp len ty fields rs check access s) (hlen : i.length = len) (hwf : Memory.wf s.mem = true)
    (hu : Usable (rs :: fields) s) (hc : check = none) (ha : access s.opened = a) (hpl : a.Plain) (hn : a.null = false)
    (hv : storeValue len rs s = v) (ht : storeTraps ty v = trap) :
    StoresBytes i a.region (dataAddress ty a.addr) (dataBytes ty v) a.update trap s := by
  have hv' : storeValue len rs s.opened = v := by
    rw [← hv]
    unfold storeValue
    rw [source_opened len hu (by simp)]
  refine stores_retire (len := len) (u := ((s.opened.updateAddress a).noteAccess a.region).storeData ty a.region a.addr v) ?_
    hlen hpl (busFrame_noteAccess _ a.region) (stores_storeData (by simpa using hwf) ..) (memFrame_storeData ..)
  rw [hi]
  unfold storeOp
  rw [windowGuard_none (dst := none) hu, hc, ha, hv']
  simp only [guarded, andThen, hn, Bool.false_eq_true, if_false, ht]

/-- A double-word store. -/
theorem storeDoubleOp_stores {i : Instr} {len : Nat} {fields : List Reg} {rs : Reg} {check : Option Result}
    {access : State → Access} {s : State} {a : Access} {v w : Word}
    (hi : exec i s = storeDoubleOp len fields rs check access s) (hlen : i.length = len) (hwf : Memory.wf s.mem = true)
    (hu : Usable (rs :: fields) s) (hc : check = none) (ha : access s.opened = a) (hpl : a.Plain) (hn : a.null = false)
    (hv : storeValue len rs s = v) (hw : storeFollower len rs s (s.opened.updateAddress a) = some w) :
    StoresPair i a.region a.addr v w a.update s := by
  have hv' : storeValue len rs s.opened = v := by
    rw [← hv]
    unfold storeValue
    rw [source_opened len hu (by simp)]
  unfold storeDoubleOp at hi
  rw [windowGuard_none (dst := none) hu, hc] at hi
  simp only [guarded, andThen, ha, hv', hw, hn, Bool.false_eq_true, if_false] at hi
  generalize hx : (s.opened.updateAddress a).noteAccess a.region = x at hi
  have hbus : BusFrame (s.opened.updateAddress a) x := hx ▸ busFrame_noteAccess _ a.region
  have hxm : x.mem = s.mem := by rw [hbus.eq]; simp
  have hxp : x.platform = s.platform := by rw [hbus.eq]; simp
  have h1 := stores_writeWord (s := x) (by rw [hxm]; exact hwf) a.region a.addr v
  have hwf1 := State.wf_writeWord (s := x) (by rw [hxm]; exact hwf) a.region a.addr v
  let m : State := { s.noteAccess a.region with
    mem := (x.writeWord a.region a.addr v).mem
    iramKept := (x.writeWord a.region a.addr v).iramKept
    stale := (x.writeWord a.region a.addr v).stale }
  have hact : (x.writeWord a.region a.addr v).act = m.act := by
    unfold State.act
    rw [State.writeWord_pins, State.writeWord_busLock, ← hx]
    show (!(s.opened.updateAddress a).pins.grant || ((s.opened.updateAddress a).busLock ||
      (a.region == .external && !(s.opened.updateAddress a).fcr.getLsbD 17))) = (!s.pins.grant || (s.busLock || _))
    simp
  have hbet : (x.writeWord a.region a.addr v).between = m.between := by
    rw [State.writeWord_between, ← hx]
    show (s.opened.updateAddress a).between = s.between
    simp
  have hplat : (x.writeWord a.region a.addr v).platform = m.platform := (State.writeWord_platform ..).trans hxp
  obtain ⟨hmem, hwf2⟩ := dma_memory (s := m) (t := x.writeWord a.region a.addr v) m.between rfl hplat hact
  have hmem' : (x.writeWord a.region a.addr v).interlude.mem = m.interlude.mem := by
    unfold State.interlude
    rw [hbet]
    exact hmem
  have h2 := stores_writeWord (s := (x.writeWord a.region a.addr v).interlude) (by rw [hmem']; exact hwf2 hwf1) a.region
    (a.addr + 4#32) w
  obtain ⟨hd, hcont, _⟩ := store_done (len := len) hpl hbus ((memFrame_writeWord x a.region a.addr v).trans
    ((memFrame_interlude _).trans (memFrame_writeWord _ a.region (a.addr + 4#32) w)))
  exact ⟨m, _, rfl, h1.congr hxm.symm hxp.symm rfl,
    h2.congr hmem'.symm (by rw [State.interlude_platform, State.interlude_platform, hplat]) (by simp), hi, hd, by rw [hlen]; exact hcont⟩

/-! ### Pointer Error -/

/-- A zero address register. -/
theorem pointer_fails {i : Instr} {len : Nat} {a : Access} {s : State}
    (hi : exec i s = raiseError len (s.opened.updateAddress a)) (hlen : i.length = len) (ha : a.Plain) :
    PointerFails i a.update s := by
  have hsr : (s.opened.updateAddress a).sr = setH s.sr false := updateAddress_sr ha _
  refine ⟨(s.opened.updateAddress a).settleError len, addressDone (by rw [← hsr]; exact sameButEnd_settleError _ len) ?_, ?_, ?_⟩
  · intro p w hu _
    obtain ⟨h1, h2⟩ := ha p w hu
    rw [held_eq_of_eq (s := s.opened.updateAddress a) h1 h2 (by simp) (by simp) (by simp)]
    exact held_updateAddress ha _ hu
  · exact (((frame_opened s).trans (frame_updateAddress _ a) (by simp))).trans ((frame_settleError _ len).mono (by simp))
      (fun _ h => h)
  · rw [hi]
    exact takesError hlen (updateAddress_pc ha _) (by simp) (by simp) (by simp) (by rw [hsr, srILC_setH])

/-! ### I/O -/

/-- What an I/O access leaves: registers loaded, the accesses made, everything else unchanged, and control going on. -/
structure IoDone (regs : List Place) (trace : List IoEvent) (len : Nat) (s t : State) : Prop where
  trace : t.ioTrace = trace ++ s.ioTrace
  flags : s.sameFlags.meets t.sr
  status : srH t.sr = false ∧ StatusKept s.sr t.sr
  registers : RegistersKept regs s t
  special : SpecialKept s t
  memory : MemoryKept s t
  continues : Continues len s t

/-- An I/O read keeps the special registers. -/
theorem special_noteIoRead (s : State) (a : Word) : SpecialKept s (s.noteIoRead a) := .of_eq rfl lock_starts (.inl rfl)

/-- An I/O write keeps the special registers. -/
theorem special_ioWrite (s : State) (a v : Word) : SpecialKept s (s.ioWrite a v) := .of_eq rfl lock_starts (.inl rfl)

/-- An I/O access that retires in `u`. -/
theorem ioDone {regs : List Place} {trace : List IoEvent} {len : Nat} {s u : State} (htr : u.ioTrace = trace ++ s.ioTrace)
    (hsr : u.sr = setH s.sr false) (hreg : RegistersKept regs s u) (hsp : SpecialKept s u) (hm : u.mem = s.mem)
    (hpc : u.pc = s.pc) (hd : u.delayPending = s.delayPending) (ha : u.afterDelayedBranch = false)
    (hc : u.callLockout = false) : IoDone regs trace len s (u.settle len).bump := by
  have hb := addressDone (update := none) (loaded := []) (s := s) (t := (u.settle len).bump)
    (by rw [← hsr]; exact sameButEnd_settle _ len) (by simp)
  refine ⟨by simpa using htr, hb.flags, hb.status, ?_, hsp.trans (frame_settle u len).special, fun k => by simp [hm],
    continues_retire hpc hd ha hc⟩
  intro p h1 h2 h3
  rw [held_eq_of_eq (s := u) h1 h2 (by simp) (by simp) (by simp)]
  exact hreg p h1 h2 h3

/-! ### The shapes at a zero address register -/

/-- A load. -/
theorem loadOp_fails {i : Instr} {len : Nat} {ty : DataType} {fields : List Reg} {rs : Reg} {check : Option Result}
    {access : State → Access} {s : State} {a : Access} (hi : exec i s = loadOp len ty fields rs check access s)
    (hlen : i.length = len) (hu : Usable (rs :: fields) s) (hc : check = none) (hr : Loadable rs)
    (ha : access s.opened = a) (hpl : a.Plain) (hn : a.null = true) : PointerFails i a.update s := by
  refine pointer_fails (len := len) ?_ hlen hpl
  rw [hi]
  unfold loadOp
  rw [windowGuard_none (dst := none) hu, hc, loadGuard_none hr, ha]
  simp only [guarded, andThen, hn, if_true]

/-- A double-word load. -/
theorem loadDoubleOp_fails {i : Instr} {len : Nat} {fields : List Reg} {rs : Reg} {check : Option Result}
    {access : State → Access} {s : State} {a : Access} {q : Place}
    (hi : exec i s = loadDoubleOp len fields rs check access s) (hlen : i.length = len) (hu : Usable (rs :: fields) s)
    (hc : check = none) (hr : LoadablePair rs) (hq : nextPlace rs s = some q) (ha : access s.opened = a) (hpl : a.Plain)
    (hn : a.null = true) : PointerFails i a.update s := by
  refine pointer_fails (len := len) ?_ hlen hpl
  rw [hi]
  unfold loadDoubleOp
  rw [windowGuard_none (dst := none) hu, hc, loadGuard_pair hr, ha, hq]
  simp only [guarded, andThen, hn, if_true]

/-- A store. -/
theorem storeOp_fails {i : Instr} {len : Nat} {ty : DataType} {fields : List Reg} {rs : Reg} {check : Option Result}
    {access : State → Access} {s : State} {a : Access} (hi : exec i s = storeOp len ty fields rs check access s)
    (hlen : i.length = len) (hu : Usable (rs :: fields) s) (hc : check = none) (ha : access s.opened = a) (hpl : a.Plain)
    (hn : a.null = true) : PointerFails i a.update s := by
  refine pointer_fails (len := len) ?_ hlen hpl
  rw [hi]
  unfold storeOp
  rw [windowGuard_none (dst := none) hu, hc, ha]
  simp only [guarded, andThen, hn, if_true]

/-- A double-word store. -/
theorem storeDoubleOp_fails {i : Instr} {len : Nat} {fields : List Reg} {rs : Reg} {check : Option Result}
    {access : State → Access} {s : State} {a : Access} {w : Word}
    (hi : exec i s = storeDoubleOp len fields rs check access s) (hlen : i.length = len) (hu : Usable (rs :: fields) s)
    (hc : check = none) (ha : access s.opened = a) (hpl : a.Plain) (hn : a.null = true)
    (hw : storeFollower len rs s (s.opened.updateAddress a) = some w) : PointerFails i a.update s := by
  refine pointer_fails (len := len) ?_ hlen hpl
  rw [hi]
  unfold storeDoubleOp
  rw [windowGuard_none (dst := none) hu, hc]
  simp only [guarded, andThen, ha, hw, hn, if_true]

/-- A register follows Rs, so that a double-word store has a low-order word. -/
theorem storeFollower_some {len : Nat} {rs : Reg} {q : Place} {s t : State} (hq : nextPlace rs s = some q) :
    storeFollower len rs s t = some (if rs.isSR then 0#32 else t.get len q) := by
  unfold storeFollower
  rw [hq]
  split <;> rfl

/-! ### The shapes of I/O accesses -/

/-- An I/O access without an address update at a zero address register. -/
theorem io_fails {i : Instr} {len : Nat} {s : State} (hi : exec i s = raiseError len s.opened) (hlen : i.length = len) :
    PointerFails i none s :=
  pointer_fails (a := { addr := 0#32, region := .external, null := true }) hi hlen (fun _ _ h => absurd h (by simp))

/-- An I/O load. -/
theorem ioLoadOp_done {i : Instr} {len : Nat} {fields : List Reg} {rs : Reg} {access : State → Access} {s : State}
    {a : Access} (hi : exec i s = ioLoadOp len fields rs access s) (hu : Usable (rs :: fields) s) (hr : Loadable rs)
    (ha : access s.opened = a) (hn : a.null = false) :
    ∃ t, exec i s = .next t ∧ IoDone [place rs s] [.read (alignWord a.addr)] len s t ∧
      t.held (place rs s) = s.ioReadValue a.addr := by
  obtain ⟨hp, hs⟩ := hr.place_ne s
  refine ⟨(((s.opened.noteIoRead a.addr).put (place rs s) (s.opened.ioReadValue a.addr)).settle len).bump, ?_, ?_, ?_⟩
  · rw [hi]
    unfold ioLoadOp
    rw [windowGuard_none (dst := none) hu, loadGuard_none hr]
    simp only [guarded, andThen, ha, hn, Bool.false_eq_true, if_false]
    rfl
  · refine ioDone (by simp [State.noteIoRead, State.noteAccess]) (by rw [put_sr _ _ _ hs]; simp) ?_
      (((frame_opened s).special.trans (special_noteIoRead _ _)).trans (frame_put ..).special) (by simp)
      (by rw [put_pc _ _ _ hp]; simp) (by simp) (by simp) (by simp)
    intro p h1 h2 h3
    rw [held_put_other _ _ _ _ (by simpa using h3)]
    exact held_eq_of_eq h1 h2 (by simp) (by simp) (by simp)
  · rw [held_eq_of_eq (s := (s.opened.noteIoRead a.addr).put (place rs s) (s.opened.ioReadValue a.addr)) hp hs (by simp)
      (by simp) (by simp), held_put_same _ _ _ hp hs]
    rfl

/-- An I/O load of two words. -/
theorem ioLoadDoubleOp_done {i : Instr} {len : Nat} {fields : List Reg} {rs : Reg} {access : State → Access} {s : State}
    {a : Access} {q : Place} (hi : exec i s = ioLoadDoubleOp len fields rs access s) (hu : Usable (rs :: fields) s)
    (hr : LoadablePair rs) (hq : nextPlace rs s = some q) (ha : access s.opened = a) (hn : a.null = false) :
    ∃ t, exec i s = .next t ∧
      IoDone [place rs s, q] [.read (alignWord (a.addr + 4#32)), .read (alignWord a.addr)] len s t ∧
      t.held (place rs s) = s.ioReadValue a.addr ∧ t.held q = (s.noteIoRead a.addr).ioReadValue (a.addr + 4#32) := by
  obtain ⟨hp, hs⟩ := hr.loadable.place_ne s
  have hpc : rs.isPC = false := by
    cases h : rs.isPC with
    | false => rfl
    | true => exact absurd (place_eq_pc.mpr h) hp
  obtain ⟨q1, q2, q3⟩ := nextPlace_ne hpc hq
  refine ⟨((((((s.opened.noteIoRead a.addr).noteIoRead (a.addr + 4#32)).put (place rs s) (s.opened.ioReadValue a.addr)).put q
    ((s.opened.noteIoRead a.addr).ioReadValue (a.addr + 4#32)))).settle len).bump, ?_, ?_, ?_, ?_⟩
  · rw [hi]
    unfold ioLoadDoubleOp
    rw [windowGuard_none (dst := none) hu, loadGuard_pair hr, hq]
    simp only [guarded, andThen, ha, hn, Bool.false_eq_true, if_false]
    rfl
  · refine ioDone (by simp [State.noteIoRead, State.noteAccess]) (by rw [put_sr _ _ _ q2, put_sr _ _ _ hs]; simp) ?_
      (((((frame_opened s).special.trans (special_noteIoRead _ _)).trans (special_noteIoRead _ _)).trans
        (frame_put ..).special).trans (frame_put ..).special) (by simp)
      (by rw [put_pc _ _ _ q1, put_pc _ _ _ hp]; simp) (by simp) (by simp) (by simp)
    intro p h1 h2 h3
    simp only [List.mem_cons, List.not_mem_nil, or_false, not_or] at h3
    rw [held_put_other _ _ _ _ h3.2, held_put_other _ _ _ _ h3.1]
    exact held_eq_of_eq h1 h2 (by simp) (by simp) (by simp)
  · rw [held_eq_of_eq hp hs (State.bump_fer ..) (State.bump_gpr ..) (State.bump_locals ..),
      held_eq_of_eq hp hs (State.settle_fer ..) (State.settle_gpr ..) (State.settle_locals ..),
      held_put_other _ _ _ _ (Ne.symm q3), held_put_same _ _ _ hp hs]
    rfl
  · rw [held_eq_of_eq q1 q2 (State.bump_fer ..) (State.bump_gpr ..) (State.bump_locals ..),
      held_eq_of_eq q1 q2 (State.settle_fer ..) (State.settle_gpr ..) (State.settle_locals ..), held_put_same _ _ _ q1 q2]
    rfl

/-- An I/O store. -/
theorem ioStoreOp_done {i : Instr} {len : Nat} {fields : List Reg} {rs : Reg} {access : State → Access} {s : State}
    {a : Access} (hi : exec i s = ioStoreOp len fields rs access s) (hu : Usable (rs :: fields) s) (ha : access s.opened = a)
    (hn : a.null = false) :
    ∃ t, exec i s = .next t ∧ IoDone [] [.write (alignWord a.addr) (storeValue len rs s)] len s t := by
  have hv : storeValue len rs s.opened = storeValue len rs s := by
    unfold storeValue
    rw [source_opened len hu (by simp)]
  refine ⟨((s.opened.ioWrite a.addr (storeValue len rs s)).settle len).bump, ?_, ?_⟩
  · rw [hi]
    unfold ioStoreOp
    rw [windowGuard_none (dst := none) hu]
    simp only [guarded, ha, hv, hn, Bool.false_eq_true, if_false]
    rfl
  · exact ioDone (by simp [State.ioWrite, State.noteAccess]) rfl (registersKept_of_eq _ (by simp) (by simp) (by simp))
      ((frame_opened s).special.trans (special_ioWrite ..)) rfl rfl rfl rfl rfl

/-- An I/O store of two words. -/
theorem ioStoreDoubleOp_done {i : Instr} {len : Nat} {fields : List Reg} {rs : Reg} {access : State → Access} {s : State}
    {a : Access} {w : Word} (hi : exec i s = ioStoreDoubleOp len fields rs access s) (hu : Usable (rs :: fields) s)
    (hw : storeFollower len rs s s.opened = some w) (ha : access s.opened = a) (hn : a.null = false) :
    ∃ t, exec i s = .next t ∧
      IoDone [] [.write (alignWord (a.addr + 4#32)) w, .write (alignWord a.addr) (storeValue len rs s)] len s t := by
  have hv : storeValue len rs s.opened = storeValue len rs s := by
    unfold storeValue
    rw [source_opened len hu (by simp)]
  refine ⟨(((s.opened.ioWrite a.addr (storeValue len rs s)).ioWrite (a.addr + 4#32) w).settle len).bump, ?_, ?_⟩
  · rw [hi]
    unfold ioStoreDoubleOp
    rw [windowGuard_none (dst := none) hu]
    simp only [guarded, hw, ha, hv, hn, Bool.false_eq_true, if_false]
    rfl
  · exact ioDone (by simp [State.ioWrite, State.noteAccess]) rfl (registersKept_of_eq _ (by simp) (by simp) (by simp))
      (((frame_opened s).special.trans (special_ioWrite ..)).trans (special_ioWrite ..)) rfl rfl rfl rfl rfl

end Sys2Proof.Machine
end

