-- ==== Sys2Proof/Laws/Devices.lean ====
section
/-! SUPPORT. What a read of a high global register gives, and what the evaluation of the IO3 modes leaves: one lemma for each. -/

namespace Sys2Proof.Machine

/-- The bits of the ISR (R57). -/
theorem isr_bits (e q a b c : Bool) (i : BitVec 4) :
    let w : Word := 0#23 ++ bit e ++ bit q ++ bit a ++ bit b ++ bit c ++ i
    w.extractLsb' 9 23 = 0#23 ∧ w.getLsbD 8 = e ∧ w.getLsbD 7 = q ∧ w.extractLsb' 0 4 = i ∧ w.getLsbD 6 = a ∧
      w.getLsbD 5 = b ∧ w.getLsbD 4 = c := by
  cases e <;> cases q <;> cases a <;> cases b <;> cases c <;> (revert i; decide)

/-- The low halfword of two put together. -/
theorem low_of_append (a b : BitVec 16) : (a ++ b : Word).extractLsb' 0 16 = b := by
  apply BitVec.eq_of_getLsbD_eq
  intro i hi
  rw [BitVec.getLsbD_extractLsb', BitVec.getLsbD_append]
  simp [hi]

/-- What a read in the H window gives (R20, R56, R57). -/
theorem readsHigh_readHigh (c : BitVec 4) (s : State) : ReadsHigh c (s.readHigh (highOf c)) s := by
  obtain ⟨h1, h2, h3, h4, h5, h6, h7⟩ := isr_bits s.eventFlag s.equalFlag s.pinIO3 s.pinIO2 s.pinIO1 s.pins.int
  have hw : s.readWcr.extractLsb' 0 16 = s.wcr.extractLsb' 0 16 ∧ (s.wcrUpperOpen = false → s.readWcr = s.wcr) := by
    unfold State.readWcr
    cases s.wcrUpperOpen
    · exact ⟨rfl, fun _ => rfl⟩
    · exact ⟨low_of_append .., fun h => absurd h (by decide)⟩
  constructor <;> rintro rfl <;> try rfl
  · exact hw
  · exact h1
  · exact ⟨h2, h3⟩
  · exact h4
  · exact h7.trans (by simp only [State.pinIO1])
  · exact ⟨fun h => h6.trans (by simp only [State.pinIO2, h, if_true]),
      fun h h' => h6.trans (by simp only [State.pinIO2, h, h', Bool.false_eq_true, if_false, if_true])⟩
  · exact ⟨fun h => h5.trans (by simp only [State.pinIO3, h, if_true]),
      fun h h' => h5.trans (by simp only [State.pinIO3, io3Mode, h, h', Bool.false_eq_true, if_false, if_true]),
      fun h h' h'' => h5.trans (by simp only [State.pinIO3, io3Mode, h, h', h'', Bool.false_eq_true, if_false, if_true])⟩

/-- The low halfword, two ways. -/
theorem low_halfword (v : Word) : (v.extractLsb' 0 16).setWidth 32 = v &&& 0xFFFF#32 := by
  apply BitVec.eq_of_getLsbD_eq
  intro i hi
  have : (0xFFFF#32).getLsbD i = decide (i < 16) := by
    have : ∀ j : Fin 32, (0xFFFF#32).getLsbD j.val = decide (j.val < 16) := by decide
    exact this ⟨i, hi⟩
  rw [BitVec.getLsbD_and, this]
  by_cases h : i < 16 <;> simp [h, hi]

/-- It says nothing but of WCR, the flags, the toggle latch, the Reset request and the pins. -/
theorem Compares.congr {fcr wcr tr : Word} {o e ev tg b : Bool} {s s' t t' : State}
    (h : Compares fcr wcr tr o e ev tg b s t) (hs : s'.resetRequest = s.resetRequest) (h1 : t'.eventFlag = t.eventFlag)
    (h2 : t'.wcr = t.wcr) (h7 : t'.wcrUpperOpen = t.wcrUpperOpen) (h3 : t'.equalFlag = t.equalFlag) (h4 : t'.io3Toggle = t.io3Toggle)
    (h5 : t'.resetRequest = t.resetRequest) (h6 : t'.pins = t.pins) : Compares fcr wcr tr o e ev tg b s' t' := by
  obtain ⟨a1, a2, a6, a3, a4, a5⟩ := h
  constructor
  · rw [h1, h6]
    exact a1
  · rw [h1, h2]
    exact a2
  · rw [h1, h7]
    exact a6
  · rw [h1, h3]
    exact a3
  · rw [h4]
    exact a4
  · rw [h5, hs]
    exact a5

/-- What the evaluation of the IO3 modes leaves (R564 to R568). -/
theorem compares_evalIO3 (s : State) (became : Bool) :
    Compares s.fcr s.wcr s.tr s.wcrUpperOpen s.equalFlag s.eventFlag s.io3Toggle became s (s.evalIO3 became) := by
  have hlow := low_halfword s.tr
  have hm : s.fcr.extractLsb' 12 2 = 0#2 ∨ s.fcr.extractLsb' 12 2 = 1#2 ∨ s.fcr.extractLsb' 12 2 = 2#2 ∨
      s.fcr.extractLsb' 12 2 = 3#2 := by
    generalize s.fcr.extractLsb' 12 2 = m
    revert m
    decide
  have he : decide (s.wcr.extractLsb' 0 16 = s.tr.extractLsb' 0 16) = s.wcrEqualsTr := rfl
  rcases hm with h | h | h | h
  · unfold State.evalIO3 io3Mode
    rw [h]
    cases hw : s.wcrEqualsTr <;> constructor <;> simp [h, he, hw]
  · unfold State.evalIO3 io3Mode
    rw [h]
    cases hd : s.fcr.getLsbD 10
    · cases hw : s.wcrEqualsTr <;> constructor <;> simp [-BitVec.getLsbD_eq_getElem, h, he, hd, hw, State.io3TimingOutput]
    · have hpin : s.pinIO3 = s.pins.io.getLsbD 2 := by rw [State.pinIO3, if_pos hd]
      cases hv : s.eventFlag <;> cases hl : s.pins.io.getLsbD 2 == s.fcr.getLsbD 9 <;> cases hw : s.wcrEqualsTr <;>
        constructor <;>
        simp [h, he, hd, hv, hpin, hlow, State.io3TimingInput, State.wcrEqualsTr] <;> simp_all [State.wcrEqualsTr]
  · unfold State.evalIO3 io3Mode
    rw [h]
    cases hw : s.wcrEqualsTr <;> constructor <;> simp [h, he, hw]
  · unfold State.evalIO3 io3Mode
    rw [h]
    constructor <;> simp [h]
end Sys2Proof.Machine
end

