-- ==== Sys2Proof/Laws/PerInstr.lean ====
section
/-! SUPPORT. Statements about every instruction, one lemma for each constructor. -/

namespace Sys2Proof.Laws

/-- The encoding of an instruction is as long as the instruction. -/
def EncodeLength.Statement : Instr → Prop := fun i => (encode i).length = i.length

theorem EncodeLength.chk (rd : Reg) (rs : Reg) : EncodeLength.Statement (.chk rd rs) := rfl
theorem EncodeLength.chkz (rd : Reg) : EncodeLength.Statement (.chkz rd) := rfl
theorem EncodeLength.nop : EncodeLength.Statement (.nop) := rfl
theorem EncodeLength.movd (rd : Reg) (rs : Reg) : EncodeLength.Statement (.movd rd rs) := rfl
theorem EncodeLength.ret (rs : Reg) : EncodeLength.Statement (.ret rs) := rfl
theorem EncodeLength.divu (rd : Reg) (rs : Reg) : EncodeLength.Statement (.divu rd rs) := rfl
theorem EncodeLength.divs (rd : Reg) (rs : Reg) : EncodeLength.Statement (.divs rd rs) := rfl
theorem EncodeLength.xm1 (rd : Reg) (rs : Reg) (lim : Lim) : EncodeLength.Statement (.xm1 rd rs lim) := by cases lim <;> rfl
theorem EncodeLength.xm2 (rd : Reg) (rs : Reg) (lim : Lim) : EncodeLength.Statement (.xm2 rd rs lim) := by cases lim <;> rfl
theorem EncodeLength.xm4 (rd : Reg) (rs : Reg) (lim : Lim) : EncodeLength.Statement (.xm4 rd rs lim) := by cases lim <;> rfl
theorem EncodeLength.xm8 (rd : Reg) (rs : Reg) (lim : Lim) : EncodeLength.Statement (.xm8 rd rs lim) := by cases lim <;> rfl
theorem EncodeLength.xx1 (rd : Reg) (rs : Reg) (lim : Lim) : EncodeLength.Statement (.xx1 rd rs lim) := by cases lim <;> rfl
theorem EncodeLength.xx2 (rd : Reg) (rs : Reg) (lim : Lim) : EncodeLength.Statement (.xx2 rd rs lim) := by cases lim <;> rfl
theorem EncodeLength.xx4 (rd : Reg) (rs : Reg) (lim : Lim) : EncodeLength.Statement (.xx4 rd rs lim) := by cases lim <;> rfl
theorem EncodeLength.xx8 (rd : Reg) (rs : Reg) (lim : Lim) : EncodeLength.Statement (.xx8 rd rs lim) := by cases lim <;> rfl
theorem EncodeLength.mask (rd : Reg) (rs : Reg) (c : Const) : EncodeLength.Statement (.mask rd rs c) := by cases c <;> rfl
theorem EncodeLength.sum (rd : Reg) (rs : Reg) (c : Const) : EncodeLength.Statement (.sum rd rs c) := by cases c <;> rfl
theorem EncodeLength.sums (rd : Reg) (rs : Reg) (c : Const) : EncodeLength.Statement (.sums rd rs c) := by cases c <;> rfl
theorem EncodeLength.cmp (rd : Reg) (rs : Reg) : EncodeLength.Statement (.cmp rd rs) := rfl
theorem EncodeLength.mov (rd : Reg) (rs : Reg) : EncodeLength.Statement (.mov rd rs) := rfl
theorem EncodeLength.add (rd : Reg) (rs : Reg) : EncodeLength.Statement (.add rd rs) := rfl
theorem EncodeLength.adds (rd : Reg) (rs : Reg) : EncodeLength.Statement (.adds rd rs) := rfl
theorem EncodeLength.cmpb (rd : Reg) (rs : Reg) : EncodeLength.Statement (.cmpb rd rs) := rfl
theorem EncodeLength.andn (rd : Reg) (rs : Reg) : EncodeLength.Statement (.andn rd rs) := rfl
theorem EncodeLength.or (rd : Reg) (rs : Reg) : EncodeLength.Statement (.or rd rs) := rfl
theorem EncodeLength.xor (rd : Reg) (rs : Reg) : EncodeLength.Statement (.xor rd rs) := rfl
theorem EncodeLength.subc (rd : Reg) (rs : Reg) : EncodeLength.Statement (.subc rd rs) := rfl
theorem EncodeLength.not (rd : Reg) (rs : Reg) : EncodeLength.Statement (.not rd rs) := rfl
theorem EncodeLength.sub (rd : Reg) (rs : Reg) : EncodeLength.Statement (.sub rd rs) := rfl
theorem EncodeLength.subs (rd : Reg) (rs : Reg) : EncodeLength.Statement (.subs rd rs) := rfl
theorem EncodeLength.addc (rd : Reg) (rs : Reg) : EncodeLength.Statement (.addc rd rs) := rfl
theorem EncodeLength.and (rd : Reg) (rs : Reg) : EncodeLength.Statement (.and rd rs) := rfl
theorem EncodeLength.neg (rd : Reg) (rs : Reg) : EncodeLength.Statement (.neg rd rs) := rfl
theorem EncodeLength.negs (rd : Reg) (rs : Reg) : EncodeLength.Statement (.negs rd rs) := rfl
theorem EncodeLength.cmpi (rd : Reg) (imm : Imm) : EncodeLength.Statement (.cmpi rd imm) := by cases imm <;> rfl
theorem EncodeLength.movi (rd : Reg) (imm : Imm) : EncodeLength.Statement (.movi rd imm) := by cases imm <;> rfl
theorem EncodeLength.addi (rd : Reg) (imm : Imm) : EncodeLength.Statement (.addi rd imm) := by cases imm <;> rfl
theorem EncodeLength.addsi (rd : Reg) (imm : Imm) : EncodeLength.Statement (.addsi rd imm) := by cases imm <;> rfl
theorem EncodeLength.cmpbi (rd : Reg) (imm : Imm) : EncodeLength.Statement (.cmpbi rd imm) := by cases imm <;> rfl
theorem EncodeLength.andni (rd : Reg) (imm : Imm) : EncodeLength.Statement (.andni rd imm) := by cases imm <;> rfl
theorem EncodeLength.ori (rd : Reg) (imm : Imm) : EncodeLength.Statement (.ori rd imm) := by cases imm <;> rfl
theorem EncodeLength.xori (rd : Reg) (imm : Imm) : EncodeLength.Statement (.xori rd imm) := by cases imm <;> rfl
theorem EncodeLength.shrdi (ld : BitVec 4) (n : BitVec 5) : EncodeLength.Statement (.shrdi ld n) := rfl
theorem EncodeLength.shrd (ld : BitVec 4) (ls : BitVec 4) : EncodeLength.Statement (.shrd ld ls) := rfl
theorem EncodeLength.shr (ld : BitVec 4) (ls : BitVec 4) : EncodeLength.Statement (.shr ld ls) := rfl
theorem EncodeLength.sardi (ld : BitVec 4) (n : BitVec 5) : EncodeLength.Statement (.sardi ld n) := rfl
theorem EncodeLength.sard (ld : BitVec 4) (ls : BitVec 4) : EncodeLength.Statement (.sard ld ls) := rfl
theorem EncodeLength.sar (ld : BitVec 4) (ls : BitVec 4) : EncodeLength.Statement (.sar ld ls) := rfl
theorem EncodeLength.shldi (ld : BitVec 4) (n : BitVec 5) : EncodeLength.Statement (.shldi ld n) := rfl
theorem EncodeLength.shld (ld : BitVec 4) (ls : BitVec 4) : EncodeLength.Statement (.shld ld ls) := rfl
theorem EncodeLength.shl (ld : BitVec 4) (ls : BitVec 4) : EncodeLength.Statement (.shl ld ls) := rfl
theorem EncodeLength.testlz (ld : BitVec 4) (ls : BitVec 4) : EncodeLength.Statement (.testlz ld ls) := rfl
theorem EncodeLength.rol (ld : BitVec 4) (ls : BitVec 4) : EncodeLength.Statement (.rol ld ls) := rfl
theorem EncodeLength.ldbsD (rd : Reg) (rs : Reg) (dis : Dis) : EncodeLength.Statement (.ldbsD rd rs dis) := by cases dis <;> rfl
theorem EncodeLength.ldbuD (rd : Reg) (rs : Reg) (dis : Dis) : EncodeLength.Statement (.ldbuD rd rs dis) := by cases dis <;> rfl
theorem EncodeLength.ldhuD (rd : Reg) (rs : Reg) (dis : Dis) : EncodeLength.Statement (.ldhuD rd rs dis) := by cases dis <;> rfl
theorem EncodeLength.ldhsD (rd : Reg) (rs : Reg) (dis : Dis) : EncodeLength.Statement (.ldhsD rd rs dis) := by cases dis <;> rfl
theorem EncodeLength.ldwD (rd : Reg) (rs : Reg) (dis : Dis) : EncodeLength.Statement (.ldwD rd rs dis) := by cases dis <;> rfl
theorem EncodeLength.lddD (rd : Reg) (rs : Reg) (dis : Dis) : EncodeLength.Statement (.lddD rd rs dis) := by cases dis <;> rfl
theorem EncodeLength.ldbsA (rs : Reg) (dis : Dis) : EncodeLength.Statement (.ldbsA rs dis) := by cases dis <;> rfl
theorem EncodeLength.ldbuA (rs : Reg) (dis : Dis) : EncodeLength.Statement (.ldbuA rs dis) := by cases dis <;> rfl
theorem EncodeLength.ldhuA (rs : Reg) (dis : Dis) : EncodeLength.Statement (.ldhuA rs dis) := by cases dis <;> rfl
theorem EncodeLength.ldhsA (rs : Reg) (dis : Dis) : EncodeLength.Statement (.ldhsA rs dis) := by cases dis <;> rfl
theorem EncodeLength.ldwA (rs : Reg) (dis : Dis) : EncodeLength.Statement (.ldwA rs dis) := by cases dis <;> rfl
theorem EncodeLength.lddA (rs : Reg) (dis : Dis) : EncodeLength.Statement (.lddA rs dis) := by cases dis <;> rfl
theorem EncodeLength.ldwIOD (rd : Reg) (rs : Reg) (dis : Dis) : EncodeLength.Statement (.ldwIOD rd rs dis) := by cases dis <;> rfl
theorem EncodeLength.lddIOD (rd : Reg) (rs : Reg) (dis : Dis) : EncodeLength.Statement (.lddIOD rd rs dis) := by cases dis <;> rfl
theorem EncodeLength.ldwIOA (rs : Reg) (dis : Dis) : EncodeLength.Statement (.ldwIOA rs dis) := by cases dis <;> rfl
theorem EncodeLength.lddIOA (rs : Reg) (dis : Dis) : EncodeLength.Statement (.lddIOA rs dis) := by cases dis <;> rfl
theorem EncodeLength.ldbsN (rd : Reg) (rs : Reg) (dis : Dis) : EncodeLength.Statement (.ldbsN rd rs dis) := by cases dis <;> rfl
theorem EncodeLength.ldbuN (rd : Reg) (rs : Reg) (dis : Dis) : EncodeLength.Statement (.ldbuN rd rs dis) := by cases dis <;> rfl
theorem EncodeLength.ldhuN (rd : Reg) (rs : Reg) (dis : Dis) : EncodeLength.Statement (.ldhuN rd rs dis) := by cases dis <;> rfl
theorem EncodeLength.ldhsN (rd : Reg) (rs : Reg) (dis : Dis) : EncodeLength.Statement (.ldhsN rd rs dis) := by cases dis <;> rfl
theorem EncodeLength.ldwN (rd : Reg) (rs : Reg) (dis : Dis) : EncodeLength.Statement (.ldwN rd rs dis) := by cases dis <;> rfl
theorem EncodeLength.lddN (rd : Reg) (rs : Reg) (dis : Dis) : EncodeLength.Statement (.lddN rd rs dis) := by cases dis <;> rfl
theorem EncodeLength.ldwS (rd : Reg) (rs : Reg) (dis : Dis) : EncodeLength.Statement (.ldwS rd rs dis) := by cases dis <;> rfl
theorem EncodeLength.stbsD (rd : Reg) (rs : Reg) (dis : Dis) : EncodeLength.Statement (.stbsD rd rs dis) := by cases dis <;> rfl
theorem EncodeLength.stbuD (rd : Reg) (rs : Reg) (dis : Dis) : EncodeLength.Statement (.stbuD rd rs dis) := by cases dis <;> rfl
theorem EncodeLength.sthuD (rd : Reg) (rs : Reg) (dis : Dis) : EncodeLength.Statement (.sthuD rd rs dis) := by cases dis <;> rfl
theorem EncodeLength.sthsD (rd : Reg) (rs : Reg) (dis : Dis) : EncodeLength.Statement (.sthsD rd rs dis) := by cases dis <;> rfl
theorem EncodeLength.stwD (rd : Reg) (rs : Reg) (dis : Dis) : EncodeLength.Statement (.stwD rd rs dis) := by cases dis <;> rfl
theorem EncodeLength.stdD (rd : Reg) (rs : Reg) (dis : Dis) : EncodeLength.Statement (.stdD rd rs dis) := by cases dis <;> rfl
theorem EncodeLength.stbsA (rs : Reg) (dis : Dis) : EncodeLength.Statement (.stbsA rs dis) := by cases dis <;> rfl
theorem EncodeLength.stbuA (rs : Reg) (dis : Dis) : EncodeLength.Statement (.stbuA rs dis) := by cases dis <;> rfl
theorem EncodeLength.sthuA (rs : Reg) (dis : Dis) : EncodeLength.Statement (.sthuA rs dis) := by cases dis <;> rfl
theorem EncodeLength.sthsA (rs : Reg) (dis : Dis) : EncodeLength.Statement (.sthsA rs dis) := by cases dis <;> rfl
theorem EncodeLength.stwA (rs : Reg) (dis : Dis) : EncodeLength.Statement (.stwA rs dis) := by cases dis <;> rfl
theorem EncodeLength.stdA (rs : Reg) (dis : Dis) : EncodeLength.Statement (.stdA rs dis) := by cases dis <;> rfl
theorem EncodeLength.stwIOD (rd : Reg) (rs : Reg) (dis : Dis) : EncodeLength.Statement (.stwIOD rd rs dis) := by cases dis <;> rfl
theorem EncodeLength.stdIOD (rd : Reg) (rs : Reg) (dis : Dis) : EncodeLength.Statement (.stdIOD rd rs dis) := by cases dis <;> rfl
theorem EncodeLength.stwIOA (rs : Reg) (dis : Dis) : EncodeLength.Statement (.stwIOA rs dis) := by cases dis <;> rfl
theorem EncodeLength.stdIOA (rs : Reg) (dis : Dis) : EncodeLength.Statement (.stdIOA rs dis) := by cases dis <;> rfl
theorem EncodeLength.stbsN (rd : Reg) (rs : Reg) (dis : Dis) : EncodeLength.Statement (.stbsN rd rs dis) := by cases dis <;> rfl
theorem EncodeLength.stbuN (rd : Reg) (rs : Reg) (dis : Dis) : EncodeLength.Statement (.stbuN rd rs dis) := by cases dis <;> rfl
theorem EncodeLength.sthuN (rd : Reg) (rs : Reg) (dis : Dis) : EncodeLength.Statement (.sthuN rd rs dis) := by cases dis <;> rfl
theorem EncodeLength.sthsN (rd : Reg) (rs : Reg) (dis : Dis) : EncodeLength.Statement (.sthsN rd rs dis) := by cases dis <;> rfl
theorem EncodeLength.stwN (rd : Reg) (rs : Reg) (dis : Dis) : EncodeLength.Statement (.stwN rd rs dis) := by cases dis <;> rfl
theorem EncodeLength.stdN (rd : Reg) (rs : Reg) (dis : Dis) : EncodeLength.Statement (.stdN rd rs dis) := by cases dis <;> rfl
theorem EncodeLength.stwS (rd : Reg) (rs : Reg) (dis : Dis) : EncodeLength.Statement (.stwS rd rs dis) := by cases dis <;> rfl
theorem EncodeLength.shri (rd : Reg) (n : BitVec 5) : EncodeLength.Statement (.shri rd n) := rfl
theorem EncodeLength.sari (rd : Reg) (n : BitVec 5) : EncodeLength.Statement (.sari rd n) := rfl
theorem EncodeLength.shli (rd : Reg) (n : BitVec 5) : EncodeLength.Statement (.shli rd n) := rfl
theorem EncodeLength.mulu (rd : Reg) (rs : Reg) : EncodeLength.Statement (.mulu rd rs) := rfl
theorem EncodeLength.muls (rd : Reg) (rs : Reg) : EncodeLength.Statement (.muls rd rs) := rfl
theorem EncodeLength.setadr (rd : Reg) : EncodeLength.Statement (.setadr rd) := rfl
theorem EncodeLength.set1 (rd : Reg) : EncodeLength.Statement (.set1 rd) := rfl
theorem EncodeLength.set0 (rd : Reg) : EncodeLength.Statement (.set0 rd) := rfl
theorem EncodeLength.setle (rd : Reg) : EncodeLength.Statement (.setle rd) := rfl
theorem EncodeLength.setgt (rd : Reg) : EncodeLength.Statement (.setgt rd) := rfl
theorem EncodeLength.setlt (rd : Reg) : EncodeLength.Statement (.setlt rd) := rfl
theorem EncodeLength.setge (rd : Reg) : EncodeLength.Statement (.setge rd) := rfl
theorem EncodeLength.setse (rd : Reg) : EncodeLength.Statement (.setse rd) := rfl
theorem EncodeLength.setht (rd : Reg) : EncodeLength.Statement (.setht rd) := rfl
theorem EncodeLength.setst (rd : Reg) : EncodeLength.Statement (.setst rd) := rfl
theorem EncodeLength.sethe (rd : Reg) : EncodeLength.Statement (.sethe rd) := rfl
theorem EncodeLength.sete (rd : Reg) : EncodeLength.Statement (.sete rd) := rfl
theorem EncodeLength.setne (rd : Reg) : EncodeLength.Statement (.setne rd) := rfl
theorem EncodeLength.setv (rd : Reg) : EncodeLength.Statement (.setv rd) := rfl
theorem EncodeLength.setnv (rd : Reg) : EncodeLength.Statement (.setnv rd) := rfl
theorem EncodeLength.set1m (rd : Reg) : EncodeLength.Statement (.set1m rd) := rfl
theorem EncodeLength.setlem (rd : Reg) : EncodeLength.Statement (.setlem rd) := rfl
theorem EncodeLength.setgtm (rd : Reg) : EncodeLength.Statement (.setgtm rd) := rfl
theorem EncodeLength.setltm (rd : Reg) : EncodeLength.Statement (.setltm rd) := rfl
theorem EncodeLength.setgem (rd : Reg) : EncodeLength.Statement (.setgem rd) := rfl
theorem EncodeLength.setsem (rd : Reg) : EncodeLength.Statement (.setsem rd) := rfl
theorem EncodeLength.sethtm (rd : Reg) : EncodeLength.Statement (.sethtm rd) := rfl
theorem EncodeLength.setstm (rd : Reg) : EncodeLength.Statement (.setstm rd) := rfl
theorem EncodeLength.sethem (rd : Reg) : EncodeLength.Statement (.sethem rd) := rfl
theorem EncodeLength.setem (rd : Reg) : EncodeLength.Statement (.setem rd) := rfl
theorem EncodeLength.setnem (rd : Reg) : EncodeLength.Statement (.setnem rd) := rfl
theorem EncodeLength.setvm (rd : Reg) : EncodeLength.Statement (.setvm rd) := rfl
theorem EncodeLength.setnvm (rd : Reg) : EncodeLength.Statement (.setnvm rd) := rfl
theorem EncodeLength.fetch (half : BitVec 4) : EncodeLength.Statement (.fetch half) := rfl
theorem EncodeLength.mul (rd : Reg) (rs : Reg) : EncodeLength.Statement (.mul rd rs) := rfl
theorem EncodeLength.fadd (ld : BitVec 4) (ls : BitVec 4) : EncodeLength.Statement (.fadd ld ls) := rfl
theorem EncodeLength.faddd (ld : BitVec 4) (ls : BitVec 4) : EncodeLength.Statement (.faddd ld ls) := rfl
theorem EncodeLength.fsub (ld : BitVec 4) (ls : BitVec 4) : EncodeLength.Statement (.fsub ld ls) := rfl
theorem EncodeLength.fsubd (ld : BitVec 4) (ls : BitVec 4) : EncodeLength.Statement (.fsubd ld ls) := rfl
theorem EncodeLength.fmul (ld : BitVec 4) (ls : BitVec 4) : EncodeLength.Statement (.fmul ld ls) := rfl
theorem EncodeLength.fmuld (ld : BitVec 4) (ls : BitVec 4) : EncodeLength.Statement (.fmuld ld ls) := rfl
theorem EncodeLength.fdiv (ld : BitVec 4) (ls : BitVec 4) : EncodeLength.Statement (.fdiv ld ls) := rfl
theorem EncodeLength.fdivd (ld : BitVec 4) (ls : BitVec 4) : EncodeLength.Statement (.fdivd ld ls) := rfl
theorem EncodeLength.fcmp (ld : BitVec 4) (ls : BitVec 4) : EncodeLength.Statement (.fcmp ld ls) := rfl
theorem EncodeLength.fcmpd (ld : BitVec 4) (ls : BitVec 4) : EncodeLength.Statement (.fcmpd ld ls) := rfl
theorem EncodeLength.fcmpu (ld : BitVec 4) (ls : BitVec 4) : EncodeLength.Statement (.fcmpu ld ls) := rfl
theorem EncodeLength.fcmpud (ld : BitVec 4) (ls : BitVec 4) : EncodeLength.Statement (.fcmpud ld ls) := rfl
theorem EncodeLength.fcvt (ld : BitVec 4) (ls : BitVec 4) : EncodeLength.Statement (.fcvt ld ls) := rfl
theorem EncodeLength.fcvtd (ld : BitVec 4) (ls : BitVec 4) : EncodeLength.Statement (.fcvtd ld ls) := rfl
theorem EncodeLength.emul (ld : BitVec 4) (ls : BitVec 4) : EncodeLength.Statement (.emul ld ls) := rfl
theorem EncodeLength.emulu (ld : BitVec 4) (ls : BitVec 4) : EncodeLength.Statement (.emulu ld ls) := rfl
theorem EncodeLength.emuls (ld : BitVec 4) (ls : BitVec 4) : EncodeLength.Statement (.emuls ld ls) := rfl
theorem EncodeLength.emac (ld : BitVec 4) (ls : BitVec 4) : EncodeLength.Statement (.emac ld ls) := rfl
theorem EncodeLength.emacd (ld : BitVec 4) (ls : BitVec 4) : EncodeLength.Statement (.emacd ld ls) := rfl
theorem EncodeLength.emsub (ld : BitVec 4) (ls : BitVec 4) : EncodeLength.Statement (.emsub ld ls) := rfl
theorem EncodeLength.emsubd (ld : BitVec 4) (ls : BitVec 4) : EncodeLength.Statement (.emsubd ld ls) := rfl
theorem EncodeLength.ehmac (ld : BitVec 4) (ls : BitVec 4) : EncodeLength.Statement (.ehmac ld ls) := rfl
theorem EncodeLength.ehmacd (ld : BitVec 4) (ls : BitVec 4) : EncodeLength.Statement (.ehmacd ld ls) := rfl
theorem EncodeLength.ehcmuld (ld : BitVec 4) (ls : BitVec 4) : EncodeLength.Statement (.ehcmuld ld ls) := rfl
theorem EncodeLength.ehcmacd (ld : BitVec 4) (ls : BitVec 4) : EncodeLength.Statement (.ehcmacd ld ls) := rfl
theorem EncodeLength.ehcsumd (ld : BitVec 4) (ls : BitVec 4) : EncodeLength.Statement (.ehcsumd ld ls) := rfl
theorem EncodeLength.ehcfftd (ld : BitVec 4) (ls : BitVec 4) : EncodeLength.Statement (.ehcfftd ld ls) := rfl
theorem EncodeLength.softDo (ld : BitVec 4) (ls : BitVec 4) : EncodeLength.Statement (.softDo ld ls) := rfl
theorem EncodeLength.ldwR (ld : BitVec 4) (rs : Reg) : EncodeLength.Statement (.ldwR ld rs) := rfl
theorem EncodeLength.lddR (ld : BitVec 4) (rs : Reg) : EncodeLength.Statement (.lddR ld rs) := rfl
theorem EncodeLength.ldwP (ld : BitVec 4) (rs : Reg) : EncodeLength.Statement (.ldwP ld rs) := rfl
theorem EncodeLength.lddP (ld : BitVec 4) (rs : Reg) : EncodeLength.Statement (.lddP ld rs) := rfl
theorem EncodeLength.stwR (ld : BitVec 4) (rs : Reg) : EncodeLength.Statement (.stwR ld rs) := rfl
theorem EncodeLength.stdR (ld : BitVec 4) (rs : Reg) : EncodeLength.Statement (.stdR ld rs) := rfl
theorem EncodeLength.stwP (ld : BitVec 4) (rs : Reg) : EncodeLength.Statement (.stwP ld rs) := rfl
theorem EncodeLength.stdP (ld : BitVec 4) (rs : Reg) : EncodeLength.Statement (.stdP ld rs) := rfl
theorem EncodeLength.dbv (rel : Rel) : EncodeLength.Statement (.dbv rel) := by cases rel <;> rfl
theorem EncodeLength.dbnv (rel : Rel) : EncodeLength.Statement (.dbnv rel) := by cases rel <;> rfl
theorem EncodeLength.dbe (rel : Rel) : EncodeLength.Statement (.dbe rel) := by cases rel <;> rfl
theorem EncodeLength.dbne (rel : Rel) : EncodeLength.Statement (.dbne rel) := by cases rel <;> rfl
theorem EncodeLength.dbst (rel : Rel) : EncodeLength.Statement (.dbst rel) := by cases rel <;> rfl
theorem EncodeLength.dbhe (rel : Rel) : EncodeLength.Statement (.dbhe rel) := by cases rel <;> rfl
theorem EncodeLength.dbse (rel : Rel) : EncodeLength.Statement (.dbse rel) := by cases rel <;> rfl
theorem EncodeLength.dbht (rel : Rel) : EncodeLength.Statement (.dbht rel) := by cases rel <;> rfl
theorem EncodeLength.dblt (rel : Rel) : EncodeLength.Statement (.dblt rel) := by cases rel <;> rfl
theorem EncodeLength.dbge (rel : Rel) : EncodeLength.Statement (.dbge rel) := by cases rel <;> rfl
theorem EncodeLength.dble (rel : Rel) : EncodeLength.Statement (.dble rel) := by cases rel <;> rfl
theorem EncodeLength.dbgt (rel : Rel) : EncodeLength.Statement (.dbgt rel) := by cases rel <;> rfl
theorem EncodeLength.dbr (rel : Rel) : EncodeLength.Statement (.dbr rel) := by cases rel <;> rfl
theorem EncodeLength.frame (ld : BitVec 4) (ls : BitVec 4) : EncodeLength.Statement (.frame ld ls) := rfl
theorem EncodeLength.call (ld : BitVec 4) (rs : Reg) (c : Const) : EncodeLength.Statement (.call ld rs c) := by cases c <;> rfl
theorem EncodeLength.bv (rel : Rel) : EncodeLength.Statement (.bv rel) := by cases rel <;> rfl
theorem EncodeLength.bnv (rel : Rel) : EncodeLength.Statement (.bnv rel) := by cases rel <;> rfl
theorem EncodeLength.be (rel : Rel) : EncodeLength.Statement (.be rel) := by cases rel <;> rfl
theorem EncodeLength.bne (rel : Rel) : EncodeLength.Statement (.bne rel) := by cases rel <;> rfl
theorem EncodeLength.bst (rel : Rel) : EncodeLength.Statement (.bst rel) := by cases rel <;> rfl
theorem EncodeLength.bhe (rel : Rel) : EncodeLength.Statement (.bhe rel) := by cases rel <;> rfl
theorem EncodeLength.bse (rel : Rel) : EncodeLength.Statement (.bse rel) := by cases rel <;> rfl
theorem EncodeLength.bht (rel : Rel) : EncodeLength.Statement (.bht rel) := by cases rel <;> rfl
theorem EncodeLength.blt (rel : Rel) : EncodeLength.Statement (.blt rel) := by cases rel <;> rfl
theorem EncodeLength.bge (rel : Rel) : EncodeLength.Statement (.bge rel) := by cases rel <;> rfl
theorem EncodeLength.ble (rel : Rel) : EncodeLength.Statement (.ble rel) := by cases rel <;> rfl
theorem EncodeLength.bgt (rel : Rel) : EncodeLength.Statement (.bgt rel) := by cases rel <;> rfl
theorem EncodeLength.br (rel : Rel) : EncodeLength.Statement (.br rel) := by cases rel <;> rfl
theorem EncodeLength.traple (k : BitVec 6) : EncodeLength.Statement (.traple k) := rfl
theorem EncodeLength.trapgt (k : BitVec 6) : EncodeLength.Statement (.trapgt k) := rfl
theorem EncodeLength.traplt (k : BitVec 6) : EncodeLength.Statement (.traplt k) := rfl
theorem EncodeLength.trapge (k : BitVec 6) : EncodeLength.Statement (.trapge k) := rfl
theorem EncodeLength.trapse (k : BitVec 6) : EncodeLength.Statement (.trapse k) := rfl
theorem EncodeLength.trapht (k : BitVec 6) : EncodeLength.Statement (.trapht k) := rfl
theorem EncodeLength.trapst (k : BitVec 6) : EncodeLength.Statement (.trapst k) := rfl
theorem EncodeLength.traphe (k : BitVec 6) : EncodeLength.Statement (.traphe k) := rfl
theorem EncodeLength.trape (k : BitVec 6) : EncodeLength.Statement (.trape k) := rfl
theorem EncodeLength.trapne (k : BitVec 6) : EncodeLength.Statement (.trapne k) := rfl
theorem EncodeLength.trapv (k : BitVec 6) : EncodeLength.Statement (.trapv k) := rfl
theorem EncodeLength.trap (k : BitVec 6) : EncodeLength.Statement (.trap k) := rfl
theorem EncodeLength.reserved8C8D (operands : BitVec 9) : EncodeLength.Statement (.reserved8C8D operands) := rfl
theorem EncodeLength.reservedACAF (operands : BitVec 10) : EncodeLength.Statement (.reservedACAF operands) := rfl

end Sys2Proof.Laws
end

