-- ==== Sys2Proof/Laws/Transfers.lean ====
section
/-! SUPPORT. What branches, delayed branches, calls, traps and Software instructions can do: one lemma for each shape. -/

namespace Sys2Proof.Machine

/-! ### The cache -/

/-- Only the instruction cache and the bus lock differ. -/
def CacheFrame (s t : State) : Prop :=
  t = { s with stale := t.stale, lookBack := t.lookBack, lookAhead := t.lookAhead, busLock := t.busLock }

/-- What a branch taken does to the cache (R130). -/
theorem cacheFrame_branchCache (s : State) (w : Bool) (rel : Rel) (target : Word) :
    CacheFrame s (s.branchCache w rel target) := by
  exact rfl

/-- What a branch taken does to the cache leaves all else (R130). -/
theorem frame_branchCache (s : State) (w : Bool) (rel : Rel) (target : Word) : Frame [] s (s.branchCache w rel target) := by
  refine ⟨registersKept_of_eq _ rfl rfl rfl, .of_eq rfl ?_ (.inl rfl), fun _ => rfl, rfl, rfl⟩
  show (if _ then s.busLock else (s.flush target).busLock) = _ ∨ _ ∧ (if _ then s.busLock else (s.flush target).busLock) = _
  split
  · exact .inl rfl
  · exact (frame_flush s target).special.busLock

/-- Which branches leave the cache (R130). -/
theorem leavesCache_iff {s : State} {w : Bool} {rel : Rel} {target : Word} :
    s.leavesCache w rel target = true ↔ LeavesCache w rel target s := by
  cases rel with
  | long r => simp [State.leavesCache, LeavesCache]
  | short r => cases h : r.msb <;> cases w <;> simp [State.leavesCache, LeavesCache, State.inCache, h]

/-- Which branches flush the cache (R130). -/
theorem cacheAfter_branchCache (s : State) (w : Bool) (rel : Rel) (target : Word) :
    CacheAfter w rel target s (s.branchCache w rel target) := by
  have hf := flushed_flush s target
  constructor
  · intro h
    have hb := leavesCache_iff.mpr h
    exact ⟨if_pos hb, if_pos hb, if_pos hb, if_pos hb⟩
  · intro h
    have hb := mt leavesCache_iff.mp h
    exact ⟨(if_neg hb).trans hf.1, (if_neg hb).trans hf.2, (if_neg hb).trans hf.3, (if_neg hb).trans hf.4⟩

/-- A flush says nothing but of the cache and of the bus lock. -/
theorem Flushed.congr {target : Word} {s s' t t' : State} (h : Flushed target s' t)
    (hs : s'.busLock = s.busLock ∧ s'.fcr = s.fcr := by exact ⟨rfl, rfl⟩)
    (ht : t'.lookAhead = t.lookAhead ∧ t'.lookBack = t.lookBack ∧ t'.stale = t.stale ∧ t'.busLock = t.busLock := by
      exact ⟨rfl, rfl, rfl, rfl⟩) : Flushed target s t' :=
  ⟨ht.2.1.trans h.1, ht.1.trans h.2, ht.2.2.1.trans h.3, by rw [ht.2.2.2, h.4, hs.1, hs.2]⟩

/-- It says nothing but of the cache and of the bus lock. -/
theorem CacheAfter.congr {w : Bool} {rel : Rel} {target : Word} {s s' t t' : State} (h : CacheAfter w rel target s' t)
    (hs : s'.lookAhead = s.lookAhead ∧ s'.lookBack = s.lookBack ∧ s'.stale = s.stale ∧ s'.busLock = s.busLock ∧
      s'.fcr = s.fcr := by exact ⟨rfl, rfl, rfl, rfl, rfl⟩)
    (ht : t'.lookAhead = t.lookAhead ∧ t'.lookBack = t.lookBack ∧ t'.stale = t.stale ∧ t'.busLock = t.busLock := by
      exact ⟨rfl, rfl, rfl, rfl⟩) : CacheAfter w rel target s t' := by
  obtain ⟨a1, a2, a3, a4, a5⟩ := hs
  have hl : LeavesCache w rel target s' ↔ LeavesCache w rel target s := by
    unfold LeavesCache
    rw [a1, a2]
  exact ⟨fun c => have f := h.kept (hl.mpr c)
      ⟨(ht.1.trans f.1).trans a1, (ht.2.1.trans f.2).trans a2, (ht.2.2.1.trans f.3).trans a3, (ht.2.2.2.trans f.4).trans a4⟩,
    fun c => (h.flushed (mt hl.mp c)).congr ⟨a4, a5⟩ ht⟩

/-! ### Branches -/

/-- A bit of the SR after a branch taken. -/
theorem getLsbD_branched_sr (s : State) (target : Word) (j : Nat) (h4 : j ≠ 4) (h17 : j ≠ 17)
    (h : j < 19 ∨ 21 ≤ j) : (s.branched target).sr.getLsbD j = s.sr.getLsbD j := by
  show (setP (setM (setILC s.sr _) false) true).getLsbD j = _
  rw [setP, getLsbD_setBit, if_neg (by omega), setM, getLsbD_setBit, if_neg (by omega), setILC, getLsbD_setField,
    if_neg (by omega)]

/-- A branch taken, after flags alone were written, whatever it does to the cache: `t` is the state after it. -/
theorem branched_branches (target : Word) (f : FlagUpdate) {s t : State}
    (he : t = { ((s.opened.withFlags f).branched target) with
      stale := t.stale, lookBack := t.lookBack, lookAhead := t.lookAhead, busLock := t.busLock, fresh := t.fresh })
    (hbus : t.busLock = s.busLock ∨ s.fcr.getLsbD 17 = false ∧ t.busLock = true) :
    (f.claim s).meets t.sr ∧ BranchesTo target s t := by
  obtain ⟨⟨a2, a3, a4, a5⟩, a6, ⟨a7, a8, a9, a10⟩, a11⟩ := onlyFlags_withFlags s f
  have hb : ∀ j, j ≠ 4 → j ≠ 17 → j < 19 ∨ 21 ≤ j →
      t.sr.getLsbD j = (s.opened.withFlags f).sr.getLsbD j := fun j h4 h17 h =>
    (congrArg (fun u : State => u.sr.getLsbD j) he).trans (getLsbD_branched_sr _ target j h4 h17 h)
  refine ⟨⟨?_, ?_, ?_, ?_⟩, congrArg State.pc he, congrArg State.delayPending he,
    ⟨congrArg State.afterDelayedBranch he, congrArg State.callLockout he⟩, ⟨?_, ?_, ?_, ?_, ?_, ?_⟩, ?_⟩
  · exact fun b hc => (hb 0 (by omega) (by omega) (by omega)).trans (a2 b hc)
  · exact fun b hc => (hb 1 (by omega) (by omega) (by omega)).trans (a3 b hc)
  · exact fun b hc => (hb 2 (by omega) (by omega) (by omega)).trans (a4 b hc)
  · exact fun b hc => (hb 3 (by omega) (by omega) (by omega)).trans (a5 b hc)
  · refine (congrArg (fun u : State => srM u.sr) he).trans ?_
    show srM (setP (setM _ false) true) = false
    simp
  · exact (hb 5 (by omega) (by omega) (by omega)).trans a6
  · exact (congrArg (fun u : State => srP u.sr) he).trans (srP_setP ..)
  · exact fun i h1 h2 => (hb i (by omega) (by omega) (by omega)).trans (a8 i h1 h2)
  · exact (hb 18 (by omega) (by omega) (by omega)).trans a9
  · exact fun i h1 h2 => (hb i (by omega) (by omega) (by omega)).trans (a10 i h1 h2)
  · have hk := hbus
    rw [he]
    rw [he] at hk
    exact a11.trans (w2 := []) ⟨registersKept_of_eq _ rfl rfl rfl,
      .of_eq rfl hk (.inl rfl), fun _ => rfl, rfl, rfl⟩ (by simp)

/-- A branch taken that flushes the cache, after flags alone were written. -/
theorem jump_branches (target : Word) (f : FlagUpdate) (s : State) :
    ∃ t, jump target (s.opened.withFlags f) = .next t ∧ (f.claim s).meets t.sr ∧ BranchesTo target s t ∧ Flushed target s t :=
  have h := branched_branches target f (s := s) (t := ((s.opened.withFlags f).jumped target).bump) rfl
    (frame_flush s target).special.busLock
  ⟨_, rfl, h.1, h.2, (flushed_flush ((s.opened.withFlags f).branched target) target).congr⟩

/-- Without flags. -/
theorem jump_opened (target : Word) (s : State) :
    ∃ t, jump target s.opened = .next t ∧ s.sameFlags.meets t.sr ∧ BranchesTo target s t ∧ Flushed target s t := by
  have h := jump_branches target noFlags s
  rw [State.withFlags, applyFlags_noFlags] at h
  exact h

/-- An instruction that does nothing but end. -/
theorem passes_opened {i : Instr} {len : Nat} {s : State} (hi : exec i s = retire len s.opened) (hlen : i.length = len) :
    Passes i s.sameFlags s := by
  refine passes_retire (f := noFlags) ?_ hlen (FlagClaim.follows_refl _)
  rw [State.withFlags, applyFlags_noFlags]
  exact hi

/-- A condition reads the flags alone. -/
theorem holds_opened (c : Cond) (s : State) : c.holds s.opened.sr = c.holds s.sr := by
  cases c <;> simp [Cond.holds]

/-- A Delayed Branch misplaced in a delay slot. -/
theorem branchAlways_outcome {i : Instr} {c : Cond} {rel : Rel} {s : State} (hi : exec i s = branchAlways true c rel s)
    (hlen : i.length = rel.length) :
    (c.holds s.sr = true →
      ∃ t, exec i s = .next t ∧ s.sameFlags.meets t.sr ∧ BranchesTo (s.pcSeen rel.length + relValue rel) s t ∧
        Flushed (s.pcSeen rel.length + relValue rel) s t) ∧
    (c.holds s.sr = false → Passes i s.sameFlags s) := by
  constructor
  · intro h
    obtain ⟨t, h1, h2⟩ := jump_opened (branchTarget rel s) s
    exact ⟨t, by rw [hi, branchAlways, if_pos h]; exact h1, h2⟩
  · intro h
    exact passes_opened (by rw [hi, branchAlways, if_neg (by simp [h])]) hlen

/-- A Branch that is no delay instruction. -/
theorem branchOp_outcome {i : Instr} {c : Cond} {rel : Rel} {s : State} (hi : exec i s = branchOp c rel s)
    (hlen : i.length = rel.length) (hslot : s.inSlot = false) :
    let next := s.pc + BitVec.ofNat 32 (2 * rel.length)
    (c.holds s.sr = true → ∃ t, exec i s = .next t ∧ s.sameFlags.meets t.sr ∧ BranchesTo (next + relValue rel) s t ∧
      CacheAfter false rel (next + relValue rel) s t) ∧
    (c.holds s.sr = false → Passes i s.sameFlags s) := by
  have hd : s.delayPending = false := by
    simp only [State.inSlot, Bool.or_eq_false_iff] at hslot
    exact hslot.1
  have hseen : s.pcSeen rel.length = s.pc + BitVec.ofNat 32 (2 * rel.length) := by rw [State.pcSeen, hd]; rfl
  replace hi : exec i s = branchAlways false c rel s := by rw [hi]; simp [branchOp, slotGuard, hslot, guarded]
  constructor
  · intro h
    rw [branchAlways, if_pos h, branchTarget, hseen] at hi
    refine ⟨_, hi, ?_⟩
    have hb := branched_branches (s.pc + BitVec.ofNat 32 (2 * rel.length) + relValue rel) noFlags (s := s)
      (t := (((s.opened).branched (s.pc + BitVec.ofNat 32 (2 * rel.length) + relValue rel)).branchCache false rel
        (s.pc + BitVec.ofNat 32 (2 * rel.length) + relValue rel)).bump)
      (by
        rw [show s.opened.withFlags noFlags = s.opened by rw [State.withFlags, applyFlags_noFlags]]
        rw [cacheFrame_branchCache (s.opened.branched _) false rel _]
        rfl)
      (frame_branchCache (s.opened.branched _) false rel _).special.busLock
    refine ⟨hb.1, hb.2, (cacheAfter_branchCache (s.opened.branched _) false rel _).congr⟩
  · intro h
    exact passes_opened (by rw [hi, branchAlways, if_neg (by simp [h])]) hlen

/-- A Delayed Branch that is no delay instruction. -/
theorem delayedBranchOp_outcome {i : Instr} {c : Cond} {rel : Rel} {s : State} (hi : exec i s = delayedBranchOp c rel s)
    (hslot : s.inSlot = false) :
    ∃ t, exec i s = .next t ∧ OnlyFlags s.sameFlags s t ∧ t.afterDelayedBranch = true ∧ t.callLockout = false ∧
      srP t.sr = true ∧ srILC t.sr = BitVec.ofNat 2 rel.length ∧
      (c.holds s.sr = true → t.pc = clearBit0 (s.pc + BitVec.ofNat 32 (2 * rel.length) + relValue rel) ∧
        t.delayPending = true ∧ t.delayAddr = s.pc + BitVec.ofNat 32 (2 * rel.length) ∧
        CacheAfter (srM s.sr) rel (s.pc + BitVec.ofNat 32 (2 * rel.length) + relValue rel) s t ∧
        SlotFetched rel (s.pc + BitVec.ofNat 32 (2 * rel.length) + relValue rel) s t) ∧
      (c.holds s.sr = false → t.pc = s.pc + BitVec.ofNat 32 (2 * rel.length) ∧ t.delayPending = false) := by
  have hd : s.delayPending = false := by
    simp only [State.inSlot, Bool.or_eq_false_iff] at hslot
    exact hslot.1
  have hof := onlyFlags_withFlags s noFlags
  rw [State.withFlags, applyFlags_noFlags] at hof
  unfold delayedBranchOp at hi
  rw [if_neg (by simp [hslot])] at hi
  by_cases h : c.holds s.sr = true
  · rw [if_pos h] at hi
    have htarget : branchTarget rel s.opened = s.pc + BitVec.ofNat 32 (2 * rel.length) + relValue rel := by
      rw [branchTarget, pcSeen_opened, State.pcSeen, hd]
      rfl
    have hm : srM s.opened.sr = srM s.sr := by simp
    have hsr : (s.opened.delayed rel).bump.sr = setP (setILC s.opened.sr (BitVec.ofNat 2 rel.length)) true := by
      simp [State.delayed]
    refine ⟨_, hi, hof.congr (g := FlagUpdate.claim noFlags s) (u := s.opened) ?_ ?_ (FlagClaim.follows_refl _),
      by simp [State.delayed], by simp, by rw [hsr]; exact srP_setP ..,
      by rw [hsr]; exact (srILC_setP ..).trans (srILC_setILC ..), fun _ => ⟨?_, by simp [State.delayed], by simp [State.delayed], ?_, ?_⟩,
      fun hn => absurd (h.symm.trans hn) (by simp)⟩
    · intro j h1 h2
      rw [hsr]
      show (setP (setILC s.opened.sr _) true).getLsbD j = _
      rw [setP, getLsbD_setBit, if_neg (by omega), setILC, getLsbD_setField, if_neg (by omega)]
    · exact (frame_of_eq (s := s.opened) (t := { s.opened with
          pc := clearBit0 (branchTarget rel s.opened)
          delayPending := true
          delayAddr := s.opened.pc + BitVec.ofNat 32 (2 * rel.length)
          slotAhead := if s.opened.leavesCache (srM s.opened.sr) rel (branchTarget rel s.opened) then none
            else some s.opened.lookAhead
          afterDelayedBranch := true
          sr := setP (setILC s.opened.sr (BitVec.ofNat 2 rel.length)) true })
        (registersKept_of_eq [] rfl rfl rfl) rfl).trans ((frame_branchCache _ _ rel _).trans (w2 := [])
          (frame_of_eq (registersKept_of_eq _ rfl rfl rfl) rfl) (by simp)) (by simp)
    · have hpc : (s.opened.delayed rel).bump.pc = clearBit0 (branchTarget rel s.opened) := by simp [State.delayed]
      rw [hpc, htarget]
    · rw [← htarget, ← hm]
      exact (cacheAfter_branchCache _ _ rel _).congr
    · rw [← htarget]
      have hl : s.opened.leavesCache (srM s.opened.sr) rel (branchTarget rel s.opened) = true ↔
          LeavesCache (srM s.sr) rel (branchTarget rel s.opened) s := hm ▸ leavesCache_iff
      exact ⟨fun c => if_pos (hl.mpr c), fun c => if_neg (mt hl.mp c)⟩
  · rw [if_neg h] at hi
    refine ⟨_, hi, hof.congr (g := FlagUpdate.claim noFlags s) (u := s.opened) ?_ ?_ (FlagClaim.follows_refl _), rfl, by simp,
      srP_settle .., srILC_settle _ _ hd, fun hn => absurd hn h, fun _ => ⟨?_, by simp⟩⟩
    · exact sameButEnd_settle _ _
    · exact (frame_settle s.opened rel.length).trans (w2 := []) ⟨registersKept_of_eq _ rfl rfl rfl, .of_eq rfl (.inl rfl) (.inl rfl),
        fun _ => rfl, rfl, rfl⟩ (by simp)
    · show (s.opened.settle rel.length).pc = _
      rw [State.settle_pc, pcSeen_opened, State.pcSeen, hd]
      rfl

/-! ### New stack frames -/

/-- Local registers at different offsets below 64 are different. -/
theorem localIndex_ne (sr : Word) {i j : Nat} (h : i % 64 ≠ j % 64) : localIndex sr i ≠ localIndex sr j := by
  intro hc
  have := congrArg BitVec.toNat hc
  simp only [localIndex, BitVec.toNat_ofNat] at this
  omega

/-- A local register written is read back. -/
theorem getLocal_setLr_same (s : State) (c : Nat) (v : Word) : (s.setLr c v).getLocal (localIndex s.sr c) = v := by
  simp [State.getLocal, State.setLr, State.setLocal]

/-- Another one is unchanged. -/
theorem getLocal_setLr_other (s : State) (c : Nat) (v : Word) {i : BitVec 6} (h : i ≠ localIndex s.sr c) :
    (s.setLr c v).getLocal i = s.getLocal i := by
  have h' : (localIndex s.sr c).toNat ≠ i.toNat := fun hc => h (BitVec.eq_of_toNat_eq hc.symm)
  simp [State.getLocal, State.setLr, State.setLocal, h']

/-- A frame of which only local registers are known to change. -/
theorem frame_locals {written : List Place} {s t : State} (hl : ∀ i : BitVec 6, Place.loc i ∉ written → t.getLocal i = s.getLocal i)
    (hb : t.busLock = s.busLock ∨ s.fcr.getLsbD 17 = false ∧ t.busLock = true)
    (h : t = { s with
      pc := t.pc, sr := t.sr, locals := t.locals, stale := t.stale, lookBack := t.lookBack, lookAhead := t.lookAhead, busLock := t.busLock,
      delayPending := t.delayPending, delayAddr := t.delayAddr, slotAhead := t.slotAhead,
      afterDelayedBranch := t.afterDelayedBranch, callLockout := t.callLockout, fresh := t.fresh }) : Frame written s t := by
  refine ⟨?_, ?_, fun k => by rw [h], by rw [h], by rw [h]⟩
  · intro p hpc hsr hp
    cases p with
    | pc => exact absurd rfl hpc
    | sr => exact absurd rfl hsr
    | fer => rw [h]; rfl
    | gpr i => rw [h]; rfl
    | loc i => exact hl i hp
  · rw [h] at hb ⊢
    exact .of_eq rfl hb (.inl rfl)

/-- What a CALL leaves (R430, R431). -/
theorem called_spec (ld : BitVec 4) (len : Nat) (target : Word) (s : State) (hd : s.delayPending = false) :
    let n := callOffset ld
    let t := (s.called ld len target).bump
    t.pc = clearBit0 target ∧
      t.held (.loc (localIndex s.sr n)) = setBit (s.pc + BitVec.ofNat 32 (2 * len)) 0 (srS s.sr) ∧
      t.held (.loc (localIndex s.sr (n + 1))) = setILC s.sr (BitVec.ofNat 2 len) ∧
      srFP t.sr = srFP s.sr + BitVec.ofNat 7 n ∧ srFL t.sr = 6#4 ∧ srM t.sr = false ∧ srH t.sr = false ∧ srP t.sr = true ∧
      s.sameFlags.meets t.sr ∧ SameBits 6 16 t.sr s.sr ∧ srS t.sr = srS s.sr ∧
      t.callLockout = true ∧ t.delayPending = false ∧ t.afterDelayedBranch = false ∧
      Frame [.loc (localIndex s.sr n), .loc (localIndex s.sr (n + 1))] s t := by
  intro n t
  have hsr : ∀ j, j ≠ 4 → j ≠ 5 → j ≠ 17 → j < 19 → t.sr.getLsbD j = s.sr.getLsbD j := by
    intro j h4 h5 h17 h19
    show (setP (setM (setILC (raiseFrame (setH s.sr false) n 6#4) _) false) true).getLsbD j = _
    rw [setP, getLsbD_setBit, if_neg (by omega), setM, getLsbD_setBit, if_neg (by omega), setILC, getLsbD_setField,
      if_neg (by omega), raiseFrame, setFL, getLsbD_setField, if_neg (by omega), setFP, getLsbD_setField, if_neg (by omega),
      getLsbD_setH _ _ _ h5]
  have hidx : ∀ c, localIndex (setH s.sr false) c = localIndex s.sr c := fun c => localIndex_setH s.sr false c
  have hloc : ∀ i, t.getLocal i =
      ((s.opened.setLr n (setBit (s.pc + BitVec.ofNat 32 (2 * len)) 0 (srS s.sr))).setLr (n + 1)
        (setILC s.sr (BitVec.ofNat 2 len))).getLocal i := by
    intro i
    have hseen : s.opened.pcSeen len = s.pc + BitVec.ofNat 32 (2 * len) := by
      rw [pcSeen_opened, State.pcSeen, hd]
      rfl
    show (State.setLr (State.setLr s.opened n (savedPC (s.opened.pcSeen len) (srS (setH s.sr false)))) (n + 1) _).getLocal i = _
    rw [hseen, srS_setH, savedPC]
  refine ⟨rfl, ?_, ?_, ?_, ?_, ?_, ?_, srP_setP .., ⟨?_, ?_, ?_, ?_⟩, fun i h1 h2 => hsr i (by omega) (by omega) (by omega)
    (by omega), hsr 18 (by omega) (by omega) (by omega) (by omega), rfl, rfl, rfl, ?_⟩
  · show t.getLocal _ = _
    rw [hloc, getLocal_setLr_other, ← hidx]
    · exact getLocal_setLr_same s.opened n _
    · show localIndex s.sr n ≠ localIndex (setH s.sr false) (n + 1)
      rw [hidx]
      exact localIndex_ne _ (by omega)
  · show t.getLocal _ = _
    rw [hloc, ← hidx]
    exact getLocal_setLr_same (s.opened.setLr n _) (n + 1) _
  · show srFP (setP (setM (setILC (raiseFrame (setH s.sr false) n 6#4) _) false) true) = _
    simp [raiseFrame]
  · show srFL (setP (setM (setILC (raiseFrame (setH s.sr false) n 6#4) _) false) true) = _
    simp [raiseFrame]
  · show srM (setP (setM (setILC (raiseFrame (setH s.sr false) n 6#4) _) false) true) = _
    simp
  · show srH (setP (setM (setILC (raiseFrame (setH s.sr false) n 6#4) _) false) true) = _
    simp [raiseFrame]
  · rintro b ⟨⟩; exact hsr 0 (by omega) (by omega) (by omega) (by omega)
  · rintro b ⟨⟩; exact hsr 1 (by omega) (by omega) (by omega) (by omega)
  · rintro b ⟨⟩; exact hsr 2 (by omega) (by omega) (by omega) (by omega)
  · rintro b ⟨⟩; exact hsr 3 (by omega) (by omega) (by omega) (by omega)
  · refine frame_locals (fun i hi => ?_) (frame_flush s target).special.busLock rfl
    simp only [List.mem_cons, Place.loc.injEq, List.not_mem_nil, or_false, not_or] at hi
    rw [hloc, getLocal_setLr_other, getLocal_setLr_other]
    · exact State.getLocal.eq_1 s i ▸ rfl
    · show i ≠ localIndex (setH s.sr false) n
      rw [hidx]; exact hi.1
    · show i ≠ localIndex (setH s.sr false) (n + 1)
      rw [hidx]; exact hi.2

/-- What a Trap instruction leaves (R434). -/
theorem trapped_spec (entry : Word) (s : State) (hd : s.delayPending = false) :
    let n := frameLength s.sr
    let t := (s.trapped entry).bump
    t.pc = clearBit0 entry ∧
      t.held (.loc (localIndex s.sr n)) = setBit (s.pc + 2#32) 0 (srS s.sr) ∧
      t.held (.loc (localIndex s.sr (n + 1))) = setILC s.sr 1#2 ∧
      srFP t.sr = srFP s.sr + BitVec.ofNat 7 n ∧ srFL t.sr = 6#4 ∧
      srS t.sr = true ∧ srL t.sr = true ∧ srM t.sr = false ∧ srT t.sr = false ∧ srH t.sr = false ∧ srP t.sr = true ∧
      s.sameFlags.meets t.sr ∧ SameBits 6 14 t.sr s.sr ∧
      t.delayPending = false ∧ t.afterDelayedBranch = false ∧ t.callLockout = false ∧
      Frame [.loc (localIndex s.sr n), .loc (localIndex s.sr (n + 1))] s t := by
  intro n t
  obtain ⟨x, hx⟩ : ∃ x, t.sr = setP (setM (setILC (setL (setT (setS (raiseFrame (setH s.sr false) n 6#4) true) false) true) x) false) true := ⟨_, rfl⟩
  have hsr : ∀ j, j ≠ 4 → j ≠ 5 → j < 15 → t.sr.getLsbD j = s.sr.getLsbD j := by
    intro j h4 h5 h15
    rw [hx]
    rw [setP, getLsbD_setBit, if_neg (by omega), setM, getLsbD_setBit, if_neg (by omega), setILC, getLsbD_setField,
      if_neg (by omega), setL, getLsbD_setBit, if_neg (by omega), setT, getLsbD_setBit, if_neg (by omega), setS,
      getLsbD_setBit, if_neg (by omega), raiseFrame, setFL, getLsbD_setField, if_neg (by omega), setFP, getLsbD_setField,
      if_neg (by omega), getLsbD_setH _ _ _ h5]
  have hidx : ∀ c, localIndex (setH s.sr false) c = localIndex s.sr c := fun c => localIndex_setH s.sr false c
  have hloc : ∀ i, t.getLocal i =
      ((s.opened.setLr n (setBit (s.pc + 2#32) 0 (srS s.sr))).setLr (n + 1) (setILC s.sr 1#2)).getLocal i := by
    intro i
    have hseen : s.opened.pcSeen 1 = s.pc + 2#32 := by
      rw [pcSeen_opened, State.pcSeen, hd]
      rfl
    show (State.setLr (State.setLr s.opened n (savedPC (s.opened.pcSeen 1) (srS (setH s.sr false)))) (n + 1) _).getLocal i = _
    rw [hseen, srS_setH, savedPC]
  refine ⟨rfl, ?_, ?_, ?_, ?_, ?_, ?_, ?_, ?_, ?_, srP_setP .., ⟨?_, ?_, ?_, ?_⟩, fun i h1 h2 => hsr i (by omega) (by omega)
    (by omega), rfl, rfl, rfl, ?_⟩
  · show t.getLocal _ = _
    rw [hloc, getLocal_setLr_other, ← hidx]
    · exact getLocal_setLr_same s.opened n _
    · show localIndex s.sr n ≠ localIndex (setH s.sr false) (n + 1)
      rw [hidx]
      exact localIndex_ne _ (by omega)
  · show t.getLocal _ = _
    rw [hloc, ← hidx]
    exact getLocal_setLr_same (s.opened.setLr n _) (n + 1) _
  · rw [hx]; simp [raiseFrame]
  · rw [hx]; simp [raiseFrame]
  · rw [hx]; simp
  · rw [hx]; simp
  · rw [hx]; simp
  · rw [hx]; simp
  · rw [hx]; simp [raiseFrame]
  · rintro b ⟨⟩; exact hsr 0 (by omega) (by omega) (by omega)
  · rintro b ⟨⟩; exact hsr 1 (by omega) (by omega) (by omega)
  · rintro b ⟨⟩; exact hsr 2 (by omega) (by omega) (by omega)
  · rintro b ⟨⟩; exact hsr 3 (by omega) (by omega) (by omega)
  · refine frame_locals (fun i hi => ?_) (frame_flush s entry).special.busLock rfl
    simp only [List.mem_cons, Place.loc.injEq, List.not_mem_nil, or_false, not_or] at hi
    rw [hloc, getLocal_setLr_other, getLocal_setLr_other]
    · exact State.getLocal.eq_1 s i ▸ rfl
    · show i ≠ localIndex (setH s.sr false) n
      rw [hidx]; exact hi.1
    · show i ≠ localIndex (setH s.sr false) (n + 1)
      rw [hidx]; exact hi.2

/-- Words saved in successive local registers. -/
def State.setLrs (s : State) (n : Nat) : List Word → State
  | [] => s
  | w :: rest => (s.setLr n w).setLrs (n + 1) rest

/-- Saving words leaves the SR. -/
theorem setLrs_sr (s : State) (n : Nat) (l : List Word) : (s.setLrs n l).sr = s.sr := by
  induction l generalizing s n with
  | nil => rfl
  | cons w rest ih => exact ih (s.setLr n w) (n + 1)

/-- A local register that none of the words goes to. -/
theorem getLocal_setLrs_other (s : State) (n : Nat) (l : List Word) {i : BitVec 6}
    (h : ∀ j, j < l.length → i ≠ localIndex s.sr (n + j)) : (s.setLrs n l).getLocal i = s.getLocal i := by
  induction l generalizing s n with
  | nil => rfl
  | cons w rest ih =>
    rw [State.setLrs, ih]
    · exact getLocal_setLr_other s n w (h 0 (by simp))
    · intro j hj
      have := h (j + 1) (by simpa using hj)
      rwa [show n + 1 + j = n + (j + 1) by omega]

/-- Each word is in its register. -/
theorem getLocal_setLrs_same (s : State) (n : Nat) (l : List Word) (hl : l.length ≤ 64) {j : Nat} (hj : j < l.length) :
    (s.setLrs n l).getLocal (localIndex s.sr (n + j)) = l.getD j 0#32 := by
  induction l generalizing s n j with
  | nil => exact absurd hj (by simp)
  | cons w rest ih =>
    simp only [List.length_cons] at hl hj
    cases j with
    | zero =>
      rw [State.setLrs, getLocal_setLrs_other]
      · exact getLocal_setLr_same s n w
      · intro j hj'
        exact localIndex_ne _ (by omega)
    | succ j =>
      have := ih (s.setLr n w) (n + 1) (by omega) (j := j) (by omega)
      rw [show n + 1 + j = n + (j + 1) by omega] at this
      rw [State.setLrs, List.getD_cons_succ]
      exact this

/-- The five words a Software instruction saves (R501). -/
def softWords (ld ls : BitVec 4) (s : State) : List Word :=
  [stackAddress s.sr s.sp + BitVec.ofNat 32 (4 * ld.toNat), s.lr ls.toNat, s.lr (ls.toNat + 1),
    setBit (s.pc + 2#32) 0 (srS s.sr), setILC s.sr 1#2]

/-- What a Software instruction leaves (R501). -/
theorem softEntered_spec (ld ls : BitVec 4) (entry : Word) (s : State) (hd : s.delayPending = false) :
    let n := frameLength s.sr
    let t := (s.softEntered ld ls entry).bump
    t.pc = clearBit0 entry ∧
      (∀ j, j < 5 → t.held (.loc (localIndex s.sr (n + j))) = (softWords ld ls s).getD j 0#32) ∧
      srFP t.sr = srFP s.sr + BitVec.ofNat 7 n ∧ srFL t.sr = 6#4 ∧ srL t.sr = true ∧ srM t.sr = false ∧
      srT t.sr = false ∧ srH t.sr = false ∧ srP t.sr = true ∧ srS t.sr = srS s.sr ∧
      s.sameFlags.meets t.sr ∧ SameBits 6 14 t.sr s.sr ∧
      t.delayPending = false ∧ t.afterDelayedBranch = false ∧ t.callLockout = false ∧
      Frame ((List.range 5).map fun j => .loc (localIndex s.sr (n + j))) s t := by
  intro n t
  obtain ⟨x, hx⟩ : ∃ x, t.sr = setP (setM (setILC (setL (setT (raiseFrame (setH s.sr false) n 6#4) false) true) x) false) true := ⟨_, rfl⟩
  have hsr : ∀ j, j ≠ 4 → j ≠ 5 → j ≠ 15 → j ≠ 16 → j ≠ 17 → j < 19 → t.sr.getLsbD j = s.sr.getLsbD j := by
    intro j h4 h5 h15 h16 h17 h19
    rw [hx]
    rw [setP, getLsbD_setBit, if_neg (by omega), setM, getLsbD_setBit, if_neg (by omega), setILC, getLsbD_setField,
      if_neg (by omega), setL, getLsbD_setBit, if_neg (by omega), setT, getLsbD_setBit, if_neg (by omega), raiseFrame, setFL,
      getLsbD_setField, if_neg (by omega), setFP, getLsbD_setField, if_neg (by omega), getLsbD_setH _ _ _ h5]
  have hidx : ∀ c, localIndex (setH s.sr false) c = localIndex s.sr c := fun c => localIndex_setH s.sr false c
  have hseen : s.opened.pcSeen 1 = s.pc + 2#32 := by
    rw [pcSeen_opened, State.pcSeen, hd]
    rfl
  have hadr : stackAddress (setH s.sr false) s.sp = stackAddress s.sr s.sp := by simp [stackAddress]
  have hloc : ∀ i, t.getLocal i = (s.opened.setLrs n (softWords ld ls s)).getLocal i := by
    intro i
    have hsaved : t.locals = (s.opened.setLrs n [stackAddress (setH s.sr false) s.sp + BitVec.ofNat 32 (4 * ld.toNat),
      s.opened.lr ls.toNat, s.opened.lr (ls.toNat + 1), savedPC (s.opened.pcSeen 1) (srS (setH s.sr false)),
      setILC s.sr 1#2]).locals := rfl
    rw [hseen, hadr, srS_setH, savedPC, lr_opened, lr_opened] at hsaved
    rw [State.getLocal, hsaved]
    rfl
  refine ⟨rfl, ?_, ?_, ?_, ?_, ?_, ?_, ?_, srP_setP .., hsr 18 (by omega) (by omega) (by omega) (by omega) (by omega) (by omega),
    ⟨?_, ?_, ?_, ?_⟩, fun i h1 h2 => hsr i (by omega) (by omega) (by omega) (by omega) (by omega) (by omega), rfl, rfl, rfl, ?_⟩
  · intro j hj
    show t.getLocal _ = _
    rw [hloc, ← hidx]
    exact getLocal_setLrs_same s.opened n _ (by simp [softWords]) (by simpa [softWords] using hj)
  · rw [hx]; simp [raiseFrame]
  · rw [hx]; simp [raiseFrame]
  · rw [hx]; simp
  · rw [hx]; simp
  · rw [hx]; simp
  · rw [hx]; simp [raiseFrame]
  · rintro b ⟨⟩; exact hsr 0 (by omega) (by omega) (by omega) (by omega) (by omega) (by omega)
  · rintro b ⟨⟩; exact hsr 1 (by omega) (by omega) (by omega) (by omega) (by omega) (by omega)
  · rintro b ⟨⟩; exact hsr 2 (by omega) (by omega) (by omega) (by omega) (by omega) (by omega)
  · rintro b ⟨⟩; exact hsr 3 (by omega) (by omega) (by omega) (by omega) (by omega) (by omega)
  · refine frame_locals (fun i hi => ?_) (frame_flush s entry).special.busLock rfl
    rw [hloc, getLocal_setLrs_other]
    · rfl
    · intro j hj hc
      rw [State.opened_sr, hidx] at hc
      exact hi (List.mem_map.mpr ⟨j, List.mem_range.mpr (by simpa [softWords] using hj), by rw [hc]⟩)

end Sys2Proof.Machine
end

