-- ==== Sys2Proof/Laws/Stack.lean ====
section
/-! SUPPORT. What the words pushed by FRAME and pulled by RET do to memory and to the local registers. -/

namespace Sys2Proof.Machine

/-- The address of word `j` from an address on. -/
def wordAt (a : Word) (j : Nat) : Word := a + BitVec.ofNat 32 (4 * j)

theorem wordAt_succ (a : Word) (j : Nat) : wordAt (a + 4#32) j = wordAt a (j + 1) := by
  unfold wordAt
  rw [BitVec.add_assoc]
  congr 1
  apply BitVec.eq_of_toNat_eq
  simp only [BitVec.toNat_add, BitVec.toNat_ofNat]
  omega

theorem alignWord_wordAt (a : Word) (j b : Nat) :
    alignWord (wordAt a j) + BitVec.ofNat 32 b = alignWord a + BitVec.ofNat 32 (4 * j + b) := by
  unfold wordAt
  rw [alignWord_add4, BitVec.add_assoc]
  congr 1
  apply BitVec.eq_of_toNat_eq
  simp only [BitVec.toNat_add, BitVec.toNat_ofNat]
  omega

/-- A push keeps the canonical form. -/
theorem wf_push {s : State} (h : Memory.wf s.mem = true) : Memory.wf s.push.mem = true :=
  State.wf_writeWord (s := s.noteAccess (regionOf s.sp)) h (regionOf s.sp) s.sp (s.getLocal (s.sp.extractLsb' 2 6))

/-- A push stores the local register of its address (R440). -/
theorem stores_push {s : State} (h : Memory.wf s.mem = true) :
    Stores (regionOf s.sp) (alignWord s.sp) (wordBytes (s.getLocal (s.sp.extractLsb' 2 6))) s s.push :=
  (stores_writeWord (s := s.noteAccess (regionOf s.sp)) h (regionOf s.sp) s.sp (s.getLocal (s.sp.extractLsb' 2 6))).congr
    rfl rfl rfl

/-- Pushes keep the canonical form. -/
theorem wf_pushes {s : State} (h : Memory.wf s.mem = true) (n : Nat) : Memory.wf (s.pushes n).mem = true := by
  induction n generalizing s with
  | zero => exact h
  | succ n ih => exact ih (wf_push h)

/-- The stack pointer after pushes. -/
theorem pushes_sp (s : State) (n : Nat) : (s.pushes n).sp = wordAt s.sp n := by
  induction n generalizing s with
  | zero => simp [State.pushes, wordAt]
  | succ n ih =>
    rw [State.pushes, ih, show s.push.sp = s.sp + 4#32 from rfl, wordAt_succ]

/-- A cell that no pushed word goes to. -/
theorem read_pushes_other {s : State} (h : Memory.wf s.mem = true) (n : Nat) {k : Nat}
    (hk : ∀ j b, j < n → b < 4 → s.cell (regionOf (wordAt s.sp j)) (alignWord (wordAt s.sp j) + BitVec.ofNat 32 b) ≠ some k) :
    Memory.read (s.pushes n).mem k = Memory.read s.mem k := by
  induction n generalizing s with
  | zero => rfl
  | succ n ih =>
    rw [State.pushes, ih (s := s.push) (wf_push h)]
    · refine (stores_push h).other k fun b hb => ?_
      have := hk 0 b (by omega) hb
      rwa [show wordAt s.sp 0 = s.sp by simp [wordAt]] at this
    · intro j b hj hb
      rw [show s.push.sp = s.sp + 4#32 from rfl, wordAt_succ, cell_congr (State.push_platform s)]
      exact hk (j + 1) b (by omega) hb

/-- The cells of a pushed word. -/
theorem read_pushes_same {s : State} (h : Memory.wf s.mem = true) (n : Nat) (hn : n ≤ 512) {j b k : Nat} (hj : j < n)
    (hb : b < 4) (hk : s.cell (regionOf (wordAt s.sp j)) (alignWord (wordAt s.sp j) + BitVec.ofNat 32 b) = some k) :
    Memory.read (s.pushes n).mem k = (wordBytes (s.getLocal ((wordAt s.sp j).extractLsb' 2 6))).getD b 0#8 := by
  induction n generalizing s j with
  | zero => omega
  | succ n ih =>
    cases j with
    | zero =>
      rw [State.pushes, read_pushes_other (s := s.push) (wf_push h)]
      · rw [show wordAt s.sp 0 = s.sp by simp [wordAt]] at hk ⊢
        exact (stores_push h).stored b k hb hk
      · intro j' b' hj' hb'
        rw [show s.push.sp = s.sp + 4#32 from rfl, wordAt_succ, alignWord_wordAt]
        rw [alignWord_wordAt] at hk
        exact cell_ne (by omega) (by omega) (by omega) hk
    | succ j =>
      have hsp : s.push.sp = s.sp + 4#32 := rfl
      have hl : ∀ i, s.push.getLocal i = s.getLocal i := fun i => by
        have : s.push.locals = s.locals := State.push_locals s
        simp only [State.getLocal, this]
      have := ih (s := s.push) (wf_push h) (by omega) (j := j) (by omega)
        (by rw [hsp, wordAt_succ, cell_congr (State.push_platform s)]; exact hk)
      rw [hsp, wordAt_succ, hl] at this
      exact this

/-! ### Pulls -/

/-- The address of the word pulled as number `j`. -/
def wordBelow (a : Word) (j : Nat) : Word := a - BitVec.ofNat 32 (4 * (j + 1))

theorem wordBelow_succ (a : Word) (j : Nat) : wordBelow (a - 4#32) j = wordBelow a (j + 1) := by
  unfold wordBelow
  apply BitVec.eq_of_toNat_eq
  simp only [BitVec.toNat_sub, BitVec.toNat_ofNat]
  omega

/-- The local register of a pulled word: bits 7..2 of its address. -/
theorem index_wordBelow (a : Word) (j : Nat) :
    ((wordBelow a j).extractLsb' 2 6).toNat = (a.toNat / 4 + 2 ^ 30 * (j + 1) - (j + 1)) % 64 := by
  unfold wordBelow
  have := a.isLt
  simp only [BitVec.extractLsb'_toNat, BitVec.toNat_sub, BitVec.toNat_ofNat, Nat.shiftRight_eq_div_pow]
  omega

/-- The local registers of words less than 64 apart are different. -/
theorem index_wordBelow_ne (a : Word) {i j : Nat} (hi : i < 64) (hj : j < 64) (hij : i ≠ j) :
    (wordBelow a i).extractLsb' 2 6 ≠ (wordBelow a j).extractLsb' 2 6 := by
  intro h
  have := congrArg BitVec.toNat h
  rw [index_wordBelow, index_wordBelow] at this
  omega

/-- The stack pointer after pulls. -/
theorem pulls_sp (s : State) (n : Nat) : (s.pulls n).sp = s.sp - BitVec.ofNat 32 (4 * n) := by
  induction n generalizing s with
  | zero => simp [State.pulls]
  | succ n ih =>
    rw [State.pulls, ih, show s.pull.sp = s.sp - 4#32 from rfl]
    apply BitVec.eq_of_toNat_eq
    simp only [BitVec.toNat_sub, BitVec.toNat_ofNat]
    omega

/-- What a pull reads does not depend on what was pulled before. -/
theorem pull_readWord (s : State) (r : Region) (a : Word) : s.pull.readWord r a = s.readWord r a := rfl

/-- A local register that no pulled word goes to. -/
theorem getLocal_pulls_other (s : State) (n : Nat) {i : BitVec 6}
    (h : ∀ j, j < n → i ≠ (wordBelow s.sp j).extractLsb' 2 6) : (s.pulls n).getLocal i = s.getLocal i := by
  induction n generalizing s with
  | zero => rfl
  | succ n ih =>
    rw [State.pulls, ih]
    · have h0 := h 0 (by omega)
      have hne : ((s.sp - 4#32).extractLsb' 2 6).toNat ≠ i.toNat := fun hc => h0 (BitVec.eq_of_toNat_eq hc.symm)
      show (s.locals.set ((s.sp - 4#32).extractLsb' 2 6).toNat _)[i.toNat] = s.locals[i.toNat]
      exact Vector.getElem_set_ne _ _ hne
    · intro j hj
      rw [show s.pull.sp = s.sp - 4#32 from rfl, wordBelow_succ]
      exact h (j + 1) (by omega)

/-- The local register of a pulled word. -/
theorem getLocal_pulls_same (s : State) (n : Nat) (hn : n ≤ 64) {j : Nat} (hj : j < n) :
    (s.pulls n).getLocal ((wordBelow s.sp j).extractLsb' 2 6) =
      s.readWord (regionOf (wordBelow s.sp j)) (wordBelow s.sp j) := by
  induction n generalizing s j with
  | zero => omega
  | succ n ih =>
    cases j with
    | zero =>
      rw [State.pulls, getLocal_pulls_other]
      · simp [State.pull, State.getLocal, State.setLocal, wordBelow]
      · intro j hj'
        rw [show s.pull.sp = s.sp - 4#32 from rfl, wordBelow_succ]
        exact index_wordBelow_ne _ (by omega) (by omega) (by omega)
    | succ j =>
      have hsp : s.pull.sp = s.sp - 4#32 := rfl
      have := ih s.pull (by omega) (j := j) (by omega)
      rw [hsp, wordBelow_succ, pull_readWord] at this
      exact this

/-- The bus lock after `n` words are pushed: an external one starts it where FCR(17) = 0 (R165). -/
theorem busLock_pushes (s : State) (n : Nat) :
    (s.pushes n).busLock = (s.busLock || (!s.fcr.getLsbD 17 &&
      (List.range n).any fun j => decide (regionOf (wordAt s.sp j) = .external))) := by
  induction n generalizing s with
  | zero => simp [State.pushes]
  | succ n ih =>
    have h1 : s.push.busLock = (s.noteAccess (regionOf s.sp)).busLock := by simp [State.push, State.writeWord]
    rw [State.pushes, ih, h1, noteAccess_busLock, State.push_fcr, show s.push.sp = s.sp + 4#32 from rfl,
      List.range_succ_eq_map, List.any_cons, List.any_map, show wordAt s.sp 0 = s.sp from BitVec.add_zero _]
    simp only [wordAt_succ, Function.comp_def, Nat.succ_eq_add_one]
    cases s.busLock <;> cases s.fcr.getLsbD 17 <;> simp

/-- The bus lock after `n` words are pulled (R165). -/
theorem busLock_pulls (s : State) (n : Nat) :
    (s.pulls n).busLock = (s.busLock || (!s.fcr.getLsbD 17 &&
      (List.range n).any fun j => decide (regionOf (wordBelow s.sp j) = .external))) := by
  induction n generalizing s with
  | zero => simp [State.pulls]
  | succ n ih =>
    have h1 : s.pull.busLock = (s.noteAccess (regionOf (s.sp - 4#32))).busLock := rfl
    rw [State.pulls, ih, h1, noteAccess_busLock, State.pull_fcr, show s.pull.sp = s.sp - 4#32 from rfl,
      List.range_succ_eq_map, List.any_cons, List.any_map, show wordBelow s.sp 0 = s.sp - 4#32 from rfl]
    simp only [wordBelow_succ, Function.comp_def, Nat.succ_eq_add_one]
    cases s.busLock <;> cases s.fcr.getLsbD 17 <;> simp

/-- What a program relies on that pulls `n` words (R112). -/
theorem iramRelied_pulls (s : State) (n : Nat) :
    (s.pulls n).iramRelied = (s.iramRelied ||
      (List.range n).any fun j => !s.guarantees (regionOf (wordBelow s.sp j)) (alignWord (wordBelow s.sp j)) 4) := by
  induction n generalizing s with
  | zero => simp [State.pulls]
  | succ n ih =>
    have h1 : s.pull.iramRelied =
      (s.iramRelied || !s.guarantees (regionOf (s.sp - 4#32)) (alignWord (s.sp - 4#32)) 4) := rfl
    have h2 : ∀ r a k, s.pull.guarantees r a k = s.guarantees r a k := fun _ _ _ => rfl
    rw [State.pulls, ih, h1, show s.pull.sp = s.sp - 4#32 from rfl, List.range_succ_eq_map, List.any_cons, List.any_map,
      show wordBelow s.sp 0 = s.sp - 4#32 from rfl]
    simp only [wordBelow_succ, Function.comp_def, Nat.succ_eq_add_one, h2, Bool.or_assoc]

end Sys2Proof.Machine
end

