-- ==== Sys2Proof/Tests/Slice0.lean ====
section
/-! SUPPORT. Tests: ill-formed terms refused, every constructor's decoding on a word written out from the spec's encoding table,
single steps with the expected values of spec/95_test_vectors.md, and a witness for the hypotheses of every statement. -/

namespace Sys2Proof.Tests

open Sys2Proof Sys2Proof.Machine

/-! ### Ill-formed terms, one for each check of `Instr.wf` -/

/-- n = 17, 18, 19 announce immediate halfwords (R192). -/
theorem test_wf_refuses_immediate_codes :
    Instr.wf (.cmpi (.loc 0#4) (.code 17#5)) = false ∧
    Instr.wf (.movi (.loc 0#4) (.code 18#5)) = false ∧
    Instr.wf (.addi (.loc 0#4) (.code 19#5)) = false ∧
    Instr.wf (.addsi (.loc 0#4) (.code 17#5)) = false ∧
    Instr.wf (.cmpbi (.loc 0#4) (.code 18#5)) = false ∧
    Instr.wf (.andni (.loc 0#4) (.code 19#5)) = false ∧
    Instr.wf (.ori (.loc 0#4) (.code 17#5)) = false ∧
    Instr.wf (.xori (.loc 0#4) (.code 18#5)) = false := by decide

/-- CHK with Rs = SR is CHKZ, CHK L0, L0 is NOP (R199 (a)). -/
theorem test_wf_refuses_chk_aliases :
    Instr.wf (.chk (.loc 1#4) (.glob 1#4)) = false ∧ Instr.wf (.chk (.loc 0#4) (.loc 0#4)) = false := by decide

/-- MOVD with Rd = PC is RET (R199 (b)). -/
theorem test_wf_refuses_movd_to_pc :
    Instr.wf (.movd (.glob 0#4) (.loc 1#4)) = false := by decide

/-- SETADR and SETxx with Rd = SR are FETCH (R199 (e)). -/
theorem test_wf_refuses_set_of_sr :
    Instr.wf (.setadr (.glob 1#4)) = false ∧
    Instr.wf (.set1 (.glob 1#4)) = false ∧
    Instr.wf (.set0 (.glob 1#4)) = false ∧
    Instr.wf (.setle (.glob 1#4)) = false ∧
    Instr.wf (.setgt (.glob 1#4)) = false ∧
    Instr.wf (.setlt (.glob 1#4)) = false ∧
    Instr.wf (.setge (.glob 1#4)) = false ∧
    Instr.wf (.setse (.glob 1#4)) = false ∧
    Instr.wf (.setht (.glob 1#4)) = false ∧
    Instr.wf (.setst (.glob 1#4)) = false ∧
    Instr.wf (.sethe (.glob 1#4)) = false ∧
    Instr.wf (.sete (.glob 1#4)) = false ∧
    Instr.wf (.setne (.glob 1#4)) = false ∧
    Instr.wf (.setv (.glob 1#4)) = false ∧
    Instr.wf (.setnv (.glob 1#4)) = false ∧
    Instr.wf (.set1m (.glob 1#4)) = false ∧
    Instr.wf (.setlem (.glob 1#4)) = false ∧
    Instr.wf (.setgtm (.glob 1#4)) = false ∧
    Instr.wf (.setltm (.glob 1#4)) = false ∧
    Instr.wf (.setgem (.glob 1#4)) = false ∧
    Instr.wf (.setsem (.glob 1#4)) = false ∧
    Instr.wf (.sethtm (.glob 1#4)) = false ∧
    Instr.wf (.setstm (.glob 1#4)) = false ∧
    Instr.wf (.sethem (.glob 1#4)) = false ∧
    Instr.wf (.setem (.glob 1#4)) = false ∧
    Instr.wf (.setnem (.glob 1#4)) = false ∧
    Instr.wf (.setvm (.glob 1#4)) = false ∧
    Instr.wf (.setnvm (.glob 1#4)) = false := by decide

/-- The displacement modes with Rd = SR are the absolute modes (R231). -/
theorem test_wf_refuses_displacement_of_sr :
    Instr.wf (.ldbsD (.glob 1#4) (.loc 1#4) (.short 0#13)) = false ∧
    Instr.wf (.ldbuD (.glob 1#4) (.loc 1#4) (.short 0#13)) = false ∧
    Instr.wf (.ldhuD (.glob 1#4) (.loc 1#4) (.short 0#13)) = false ∧
    Instr.wf (.ldhsD (.glob 1#4) (.loc 1#4) (.short 0#13)) = false ∧
    Instr.wf (.ldwD (.glob 1#4) (.loc 1#4) (.short 0#13)) = false ∧
    Instr.wf (.lddD (.glob 1#4) (.loc 1#4) (.short 0#13)) = false ∧
    Instr.wf (.ldwIOD (.glob 1#4) (.loc 1#4) (.short 0#13)) = false ∧
    Instr.wf (.lddIOD (.glob 1#4) (.loc 1#4) (.short 0#13)) = false ∧
    Instr.wf (.stbsD (.glob 1#4) (.loc 1#4) (.short 0#13)) = false ∧
    Instr.wf (.stbuD (.glob 1#4) (.loc 1#4) (.short 0#13)) = false ∧
    Instr.wf (.sthuD (.glob 1#4) (.loc 1#4) (.short 0#13)) = false ∧
    Instr.wf (.sthsD (.glob 1#4) (.loc 1#4) (.short 0#13)) = false ∧
    Instr.wf (.stwD (.glob 1#4) (.loc 1#4) (.short 0#13)) = false ∧
    Instr.wf (.stdD (.glob 1#4) (.loc 1#4) (.short 0#13)) = false ∧
    Instr.wf (.stwIOD (.glob 1#4) (.loc 1#4) (.short 0#13)) = false ∧
    Instr.wf (.stdIOD (.glob 1#4) (.loc 1#4) (.short 0#13)) = false := by decide

/-- The type-selector bits of a displacement are not part of it (R231). -/
theorem test_wf_refuses_selector_bits_1 :
    Instr.wf (.ldhuD (.loc 0#4) (.loc 1#4) (.short 1#13)) = false ∧
    Instr.wf (.ldhsD (.loc 0#4) (.loc 1#4) (.long 1#29)) = false ∧
    Instr.wf (.ldwD (.loc 0#4) (.loc 1#4) (.short 2#13)) = false ∧
    Instr.wf (.lddD (.loc 0#4) (.loc 1#4) (.long 2#29)) = false ∧
    Instr.wf (.ldhuA (.loc 1#4) (.short 1#13)) = false ∧
    Instr.wf (.ldhsA (.loc 1#4) (.long 1#29)) = false ∧
    Instr.wf (.ldwA (.loc 1#4) (.short 2#13)) = false ∧
    Instr.wf (.lddA (.loc 1#4) (.long 2#29)) = false ∧
    Instr.wf (.ldwIOD (.loc 0#4) (.loc 1#4) (.short 2#13)) = false ∧
    Instr.wf (.lddIOD (.loc 0#4) (.loc 1#4) (.long 2#29)) = false ∧
    Instr.wf (.ldwIOA (.loc 1#4) (.short 2#13)) = false ∧
    Instr.wf (.lddIOA (.loc 1#4) (.long 2#29)) = false := by decide

/-- The type-selector bits of a displacement are not part of it (R231). -/
theorem test_wf_refuses_selector_bits_2 :
    Instr.wf (.ldhuN (.loc 0#4) (.loc 1#4) (.short 1#13)) = false ∧
    Instr.wf (.ldhsN (.loc 0#4) (.loc 1#4) (.long 1#29)) = false ∧
    Instr.wf (.ldwN (.loc 0#4) (.loc 1#4) (.short 2#13)) = false ∧
    Instr.wf (.lddN (.loc 0#4) (.loc 1#4) (.long 2#29)) = false ∧
    Instr.wf (.ldwS (.loc 0#4) (.loc 1#4) (.short 2#13)) = false ∧
    Instr.wf (.sthuD (.loc 0#4) (.loc 1#4) (.long 1#29)) = false ∧
    Instr.wf (.sthsD (.loc 0#4) (.loc 1#4) (.short 1#13)) = false ∧
    Instr.wf (.stwD (.loc 0#4) (.loc 1#4) (.long 2#29)) = false ∧
    Instr.wf (.stdD (.loc 0#4) (.loc 1#4) (.short 2#13)) = false ∧
    Instr.wf (.sthuA (.loc 1#4) (.long 1#29)) = false ∧
    Instr.wf (.sthsA (.loc 1#4) (.short 1#13)) = false ∧
    Instr.wf (.stwA (.loc 1#4) (.long 2#29)) = false := by decide

/-- The type-selector bits of a displacement are not part of it (R231). -/
theorem test_wf_refuses_selector_bits_3 :
    Instr.wf (.stdA (.loc 1#4) (.short 2#13)) = false ∧
    Instr.wf (.stwIOD (.loc 0#4) (.loc 1#4) (.long 2#29)) = false ∧
    Instr.wf (.stdIOD (.loc 0#4) (.loc 1#4) (.short 2#13)) = false ∧
    Instr.wf (.stwIOA (.loc 1#4) (.long 2#29)) = false ∧
    Instr.wf (.stdIOA (.loc 1#4) (.short 2#13)) = false ∧
    Instr.wf (.sthuN (.loc 0#4) (.loc 1#4) (.long 1#29)) = false ∧
    Instr.wf (.sthsN (.loc 0#4) (.loc 1#4) (.short 1#13)) = false ∧
    Instr.wf (.stwN (.loc 0#4) (.loc 1#4) (.long 2#29)) = false ∧
    Instr.wf (.stdN (.loc 0#4) (.loc 1#4) (.short 2#13)) = false ∧
    Instr.wf (.stwS (.loc 0#4) (.loc 1#4) (.long 2#29)) = false := by decide

/-! ### Decoding: words written out from the encodings of the opcode table -/

theorem test_decode_rr_b :
    decode 0b0000001011000111#16 0#16 0#16 = .ok (.chk (.loc 12#4) (.glob 7#4)) ∧
    decode 0b0000001100000000#16 0#16 0#16 = .ok (.nop) ∧
    decode 0b0000010000001010#16 0#16 0#16 = .ok (.ret (.glob 10#4)) ∧
    decode 0b0000111011000111#16 0#16 0#16 = .ok (.divs (.loc 12#4) (.glob 7#4)) ∧
    decode 0b0010001011000111#16 0#16 0#16 = .ok (.cmp (.loc 12#4) (.glob 7#4)) ∧
    decode 0b0010101001011010#16 0#16 0#16 = .ok (.add (.loc 5#4) (.glob 10#4)) ∧
    decode 0b0011001001011010#16 0#16 0#16 = .ok (.cmpb (.loc 5#4) (.glob 10#4)) ∧
    decode 0b0011101011000111#16 0#16 0#16 = .ok (.or (.loc 12#4) (.glob 7#4)) ∧
    decode 0b0100001001011010#16 0#16 0#16 = .ok (.subc (.loc 5#4) (.glob 10#4)) ∧
    decode 0b0100101001011010#16 0#16 0#16 = .ok (.sub (.loc 5#4) (.glob 10#4)) ∧
    decode 0b0101001011000111#16 0#16 0#16 = .ok (.addc (.loc 12#4) (.glob 7#4)) ∧
    decode 0b0101101001011010#16 0#16 0#16 = .ok (.neg (.loc 5#4) (.glob 10#4)) ∧
    decode 0b1011001011000111#16 0#16 0#16 = .ok (.mulu (.loc 12#4) (.glob 7#4)) := by decide

theorem test_decode_rr_a :
    decode 0b0000000001010001#16 0#16 0#16 = .ok (.chkz (.glob 5#4)) ∧
    decode 0b0000010111000111#16 0#16 0#16 = .ok (.movd (.glob 12#4) (.loc 7#4)) ∧
    decode 0b0000100101011010#16 0#16 0#16 = .ok (.divu (.glob 5#4) (.loc 10#4)) ∧
    decode 0b0010010101011010#16 0#16 0#16 = .ok (.mov (.glob 5#4) (.loc 10#4)) ∧
    decode 0b0010110111000111#16 0#16 0#16 = .ok (.adds (.glob 12#4) (.loc 7#4)) ∧
    decode 0b0011010101011010#16 0#16 0#16 = .ok (.andn (.glob 5#4) (.loc 10#4)) ∧
    decode 0b0011110101011010#16 0#16 0#16 = .ok (.xor (.glob 5#4) (.loc 10#4)) ∧
    decode 0b0100010111000111#16 0#16 0#16 = .ok (.not (.glob 12#4) (.loc 7#4)) ∧
    decode 0b0100110101011010#16 0#16 0#16 = .ok (.subs (.glob 5#4) (.loc 10#4)) ∧
    decode 0b0101010101011010#16 0#16 0#16 = .ok (.and (.glob 5#4) (.loc 10#4)) ∧
    decode 0b0101110111000111#16 0#16 0#16 = .ok (.negs (.glob 12#4) (.loc 7#4)) ∧
    decode 0b1011010101011010#16 0#16 0#16 = .ok (.muls (.glob 5#4) (.loc 10#4)) ∧
    decode 0b1011110101011010#16 0#16 0#16 = .ok (.mul (.glob 5#4) (.loc 10#4)) := by decide

theorem test_decode_index_moves :
    decode 0b0001000101011010#16 0b1000101000000110#16 0b1000000000010011#16 = .ok (.xm1 (.glob 5#4) (.loc 10#4) (.long 168198163#28)) ∧
    decode 0b0001001001011010#16 0b0001101000000110#16 0#16 = .ok (.xm2 (.loc 5#4) (.glob 10#4) (.short 2566#12)) ∧
    decode 0b0001000111000111#16 0b0010101000000110#16 0#16 = .ok (.xm4 (.glob 12#4) (.loc 7#4) (.short 2566#12)) ∧
    decode 0b0001001001011010#16 0b1011101000000110#16 0b1000000000010011#16 = .ok (.xm8 (.loc 5#4) (.glob 10#4) (.long 168198163#28)) ∧
    decode 0b0001000101011010#16 0b1100101000000110#16 0b1000000000010011#16 = .ok (.xx1 (.glob 5#4) (.loc 10#4) (.long 168198163#28)) ∧
    decode 0b0001001011000111#16 0b0101101000000110#16 0#16 = .ok (.xx2 (.loc 12#4) (.glob 7#4) (.short 2566#12)) ∧
    decode 0b0001000101011010#16 0b0110101000000110#16 0#16 = .ok (.xx4 (.glob 5#4) (.loc 10#4) (.short 2566#12)) ∧
    decode 0b0001001001011010#16 0b1111101000000110#16 0b1000000000010011#16 = .ok (.xx8 (.loc 5#4) (.glob 10#4) (.long 168198163#28)) := by decide

theorem test_decode_constants :
    decode 0b0001010111000111#16 0b1100000000010110#16 0b0000000000010011#16 = .ok (.mask (.glob 12#4) (.loc 7#4) (.long 1075183635#31)) ∧
    decode 0b0001101001011010#16 0b0100000000010110#16 0#16 = .ok (.sum (.loc 5#4) (.glob 10#4) (.short 16406#15)) ∧
    decode 0b0001110101011010#16 0b0100000000010110#16 0#16 = .ok (.sums (.glob 5#4) (.loc 10#4) (.short 16406#15)) ∧
    decode 0b1110111001011010#16 0b1100000000010110#16 0b0000000000010011#16 = .ok (.call 5#4 (.glob 10#4) (.long 1075183635#31)) := by decide

theorem test_decode_immediates :
    decode 0b0110001101010010#16 0b0001001000110100#16 0#16 = .ok (.cmpi (.loc 5#4) (.low 4660#16)) ∧
    decode 0b0110010101010011#16 0b0001001000110100#16 0#16 = .ok (.movi (.glob 5#4) (.ones 4660#16)) ∧
    decode 0b0110101011000110#16 0#16 0#16 = .ok (.addi (.loc 12#4) (.code 6#5)) ∧
    decode 0b0110110101010001#16 0b0001001000110100#16 0b1000011101100101#16 = .ok (.addsi (.glob 5#4) (.word 305432421#32)) ∧
    decode 0b0111001101010010#16 0b0001001000110100#16 0#16 = .ok (.cmpbi (.loc 5#4) (.low 4660#16)) ∧
    decode 0b0111010111000011#16 0b0001001000110100#16 0#16 = .ok (.andni (.glob 12#4) (.ones 4660#16)) ∧
    decode 0b0111101001010110#16 0#16 0#16 = .ok (.ori (.loc 5#4) (.code 6#5)) ∧
    decode 0b0111110101010001#16 0b0001001000110100#16 0b1000011101100101#16 = .ok (.xori (.glob 5#4) (.word 305432421#32)) := by decide

theorem test_decode_double_shift_immediate :
    decode 0b1000000011001101#16 0#16 0#16 = .ok (.shrdi 12#4 13#5) ∧
    decode 0b1000010111000110#16 0#16 0#16 = .ok (.sardi 12#4 22#5) ∧
    decode 0b1000100011001101#16 0#16 0#16 = .ok (.shldi 12#4 13#5) := by decide

theorem test_decode_local_pairs :
    decode 0b1000001001011010#16 0#16 0#16 = .ok (.shrd 5#4 10#4) ∧
    decode 0b1000001101011010#16 0#16 0#16 = .ok (.shr 5#4 10#4) ∧
    decode 0b1000011001011010#16 0#16 0#16 = .ok (.sard 5#4 10#4) ∧
    decode 0b1000011101011010#16 0#16 0#16 = .ok (.sar 5#4 10#4) ∧
    decode 0b1000101001011010#16 0#16 0#16 = .ok (.shld 5#4 10#4) ∧
    decode 0b1000101101011010#16 0#16 0#16 = .ok (.shl 5#4 10#4) ∧
    decode 0b1000111011000111#16 0#16 0#16 = .ok (.testlz 12#4 7#4) ∧
    decode 0b1000111101011010#16 0#16 0#16 = .ok (.rol 5#4 10#4) ∧
    decode 0b1110110111000111#16 0#16 0#16 = .ok (.frame 12#4 7#4) := by decide

theorem test_decode_load_displacement :
    decode 0b1001000101011010#16 0b0100010000000111#16 0#16 = .ok (.ldbsD (.glob 5#4) (.loc 10#4) (.short 5127#13)) ∧
    decode 0b1001001011000111#16 0b1001000000100100#16 0b0100000000001011#16 = .ok (.ldbuD (.loc 12#4) (.glob 7#4) (.long 2375691#29)) ∧
    decode 0b1001000101011010#16 0b1110000000100100#16 0b0100000000001010#16 = .ok (.ldhuD (.glob 5#4) (.loc 10#4) (.long 270811146#29)) ∧
    decode 0b1001001001011010#16 0b0110010000000111#16 0#16 = .ok (.ldhsD (.loc 5#4) (.glob 10#4) (.short 5126#13)) ∧
    decode 0b1001000111000111#16 0b0011010000000100#16 0#16 = .ok (.ldwD (.glob 12#4) (.loc 7#4) (.short 1028#13)) ∧
    decode 0b1001001001011010#16 0b1111000000100100#16 0b0100000000001001#16 = .ok (.lddD (.loc 5#4) (.glob 10#4) (.long 270811144#29)) := by decide

theorem test_decode_load_absolute :
    decode 0b1001000100011010#16 0b1100000000100100#16 0b0100000000001011#16 = .ok (.ldbsA (.loc 10#4) (.long 270811147#29)) ∧
    decode 0b1001000000010111#16 0b0001010000000111#16 0#16 = .ok (.ldbuA (.glob 7#4) (.short 1031#13)) ∧
    decode 0b1001000100011010#16 0b0110010000000110#16 0#16 = .ok (.ldhuA (.loc 10#4) (.short 5126#13)) ∧
    decode 0b1001000000011010#16 0b1110000000100100#16 0b0100000000001011#16 = .ok (.ldhsA (.glob 10#4) (.long 270811146#29)) ∧
    decode 0b1001000100010111#16 0b1011000000100100#16 0b0100000000001000#16 = .ok (.ldwA (.loc 7#4) (.long 2375688#29)) ∧
    decode 0b1001000000011010#16 0b0111010000000101#16 0#16 = .ok (.lddA (.glob 10#4) (.short 5124#13)) := by decide

theorem test_decode_load_io :
    decode 0b1001000101011010#16 0b0111010000000110#16 0#16 = .ok (.ldwIOD (.glob 5#4) (.loc 10#4) (.short 5124#13)) ∧
    decode 0b1001001011000111#16 0b1011000000100100#16 0b0100000000001011#16 = .ok (.lddIOD (.loc 12#4) (.glob 7#4) (.long 2375688#29)) ∧
    decode 0b1001000100011010#16 0b1111000000100100#16 0b0100000000001010#16 = .ok (.ldwIOA (.loc 10#4) (.long 270811144#29)) ∧
    decode 0b1001000000011010#16 0b0111010000000111#16 0#16 = .ok (.lddIOA (.glob 10#4) (.short 5124#13)) := by decide

theorem test_decode_load_next :
    decode 0b1001010111000111#16 0b0000010000000111#16 0#16 = .ok (.ldbsN (.glob 12#4) (.loc 7#4) (.short 1031#13)) ∧
    decode 0b1001011001011010#16 0b1101000000100100#16 0b0100000000001011#16 = .ok (.ldbuN (.loc 5#4) (.glob 10#4) (.long 270811147#29)) ∧
    decode 0b1001010101011010#16 0b1110000000100100#16 0b0100000000001010#16 = .ok (.ldhuN (.glob 5#4) (.loc 10#4) (.long 270811146#29)) ∧
    decode 0b1001011011000111#16 0b0010010000000111#16 0#16 = .ok (.ldhsN (.loc 12#4) (.glob 7#4) (.short 1030#13)) ∧
    decode 0b1001010101011010#16 0b0111010000000100#16 0#16 = .ok (.ldwN (.glob 5#4) (.loc 10#4) (.short 5124#13)) ∧
    decode 0b1001011001011010#16 0b1111000000100100#16 0b0100000000001001#16 = .ok (.lddN (.loc 5#4) (.glob 10#4) (.long 270811144#29)) ∧
    decode 0b1001010111000111#16 0b1011000000100100#16 0b0100000000001011#16 = .ok (.ldwS (.glob 12#4) (.loc 7#4) (.long 2375688#29)) := by decide

theorem test_decode_store_displacement :
    decode 0b1001101001011010#16 0b0100010000000111#16 0#16 = .ok (.stbsD (.loc 5#4) (.glob 10#4) (.short 5127#13)) ∧
    decode 0b1001100101011010#16 0b0101010000000111#16 0#16 = .ok (.stbuD (.glob 5#4) (.loc 10#4) (.short 5127#13)) ∧
    decode 0b1001101011000111#16 0b1010000000100100#16 0b0100000000001010#16 = .ok (.sthuD (.loc 12#4) (.glob 7#4) (.long 2375690#29)) ∧
    decode 0b1001100101011010#16 0b1110000000100100#16 0b0100000000001011#16 = .ok (.sthsD (.glob 5#4) (.loc 10#4) (.long 270811146#29)) ∧
    decode 0b1001101001011010#16 0b0111010000000100#16 0#16 = .ok (.stwD (.loc 5#4) (.glob 10#4) (.short 5124#13)) ∧
    decode 0b1001100111000111#16 0b0011010000000101#16 0#16 = .ok (.stdD (.glob 12#4) (.loc 7#4) (.short 1028#13)) := by decide

theorem test_decode_store_absolute :
    decode 0b1001100000011010#16 0b1100000000100100#16 0b0100000000001011#16 = .ok (.stbsA (.glob 10#4) (.long 270811147#29)) ∧
    decode 0b1001100100011010#16 0b1101000000100100#16 0b0100000000001011#16 = .ok (.stbuA (.loc 10#4) (.long 270811147#29)) ∧
    decode 0b1001100000010111#16 0b0010010000000110#16 0#16 = .ok (.sthuA (.glob 7#4) (.short 1030#13)) ∧
    decode 0b1001100100011010#16 0b0110010000000111#16 0#16 = .ok (.sthsA (.loc 10#4) (.short 5126#13)) ∧
    decode 0b1001100000011010#16 0b1111000000100100#16 0b0100000000001000#16 = .ok (.stwA (.glob 10#4) (.long 270811144#29)) ∧
    decode 0b1001100100010111#16 0b1011000000100100#16 0b0100000000001001#16 = .ok (.stdA (.loc 7#4) (.long 2375688#29)) := by decide

theorem test_decode_store_io :
    decode 0b1001101001011010#16 0b0111010000000110#16 0#16 = .ok (.stwIOD (.loc 5#4) (.glob 10#4) (.short 5124#13)) ∧
    decode 0b1001100101011010#16 0b0111010000000111#16 0#16 = .ok (.stdIOD (.glob 5#4) (.loc 10#4) (.short 5124#13)) ∧
    decode 0b1001100000010111#16 0b1011000000100100#16 0b0100000000001010#16 = .ok (.stwIOA (.glob 7#4) (.long 2375688#29)) ∧
    decode 0b1001100100011010#16 0b1111000000100100#16 0b0100000000001011#16 = .ok (.stdIOA (.loc 10#4) (.long 270811144#29)) := by decide

theorem test_decode_store_next :
    decode 0b1001111001011010#16 0b0100010000000111#16 0#16 = .ok (.stbsN (.loc 5#4) (.glob 10#4) (.short 5127#13)) ∧
    decode 0b1001110111000111#16 0b0001010000000111#16 0#16 = .ok (.stbuN (.glob 12#4) (.loc 7#4) (.short 1031#13)) ∧
    decode 0b1001111001011010#16 0b1110000000100100#16 0b0100000000001010#16 = .ok (.sthuN (.loc 5#4) (.glob 10#4) (.long 270811146#29)) ∧
    decode 0b1001110101011010#16 0b1110000000100100#16 0b0100000000001011#16 = .ok (.sthsN (.glob 5#4) (.loc 10#4) (.long 270811146#29)) ∧
    decode 0b1001111011000111#16 0b0011010000000100#16 0#16 = .ok (.stwN (.loc 12#4) (.glob 7#4) (.short 1028#13)) ∧
    decode 0b1001110101011010#16 0b0111010000000101#16 0#16 = .ok (.stdN (.glob 5#4) (.loc 10#4) (.short 5124#13)) ∧
    decode 0b1001111001011010#16 0b1111000000100100#16 0b0100000000001011#16 = .ok (.stwS (.loc 5#4) (.glob 10#4) (.long 270811144#29)) := by decide

theorem test_decode_shift_immediate_fetch :
    decode 0b1010000111000110#16 0#16 0#16 = .ok (.shri (.glob 12#4) 22#5) ∧
    decode 0b1010011001011101#16 0#16 0#16 = .ok (.sari (.loc 5#4) 13#5) ∧
    decode 0b1010100101010110#16 0#16 0#16 = .ok (.shli (.glob 5#4) 22#5) ∧
    decode 0b1011100100010110#16 0#16 0#16 = .ok (.fetch 11#4) := by decide

theorem test_decode_sets :
    decode 0b1011101001010000#16 0#16 0#16 = .ok (.setadr (.loc 5#4)) ∧
    decode 0b1011100011000010#16 0#16 0#16 = .ok (.set1 (.glob 12#4)) ∧
    decode 0b1011101001010011#16 0#16 0#16 = .ok (.set0 (.loc 5#4)) ∧
    decode 0b1011100001010100#16 0#16 0#16 = .ok (.setle (.glob 5#4)) ∧
    decode 0b1011101011000101#16 0#16 0#16 = .ok (.setgt (.loc 12#4)) ∧
    decode 0b1011100001010110#16 0#16 0#16 = .ok (.setlt (.glob 5#4)) ∧
    decode 0b1011101001010111#16 0#16 0#16 = .ok (.setge (.loc 5#4)) ∧
    decode 0b1011100011001000#16 0#16 0#16 = .ok (.setse (.glob 12#4)) ∧
    decode 0b1011101001011001#16 0#16 0#16 = .ok (.setht (.loc 5#4)) ∧
    decode 0b1011100001011010#16 0#16 0#16 = .ok (.setst (.glob 5#4)) ∧
    decode 0b1011101011001011#16 0#16 0#16 = .ok (.sethe (.loc 12#4)) ∧
    decode 0b1011100001011100#16 0#16 0#16 = .ok (.sete (.glob 5#4)) ∧
    decode 0b1011101001011101#16 0#16 0#16 = .ok (.setne (.loc 5#4)) ∧
    decode 0b1011100011001110#16 0#16 0#16 = .ok (.setv (.glob 12#4)) ∧
    decode 0b1011101001011111#16 0#16 0#16 = .ok (.setnv (.loc 5#4)) := by decide

theorem test_decode_sets_minus :
    decode 0b1011100101010010#16 0#16 0#16 = .ok (.set1m (.glob 5#4)) ∧
    decode 0b1011101111000100#16 0#16 0#16 = .ok (.setlem (.loc 12#4)) ∧
    decode 0b1011100101010101#16 0#16 0#16 = .ok (.setgtm (.glob 5#4)) ∧
    decode 0b1011101101010110#16 0#16 0#16 = .ok (.setltm (.loc 5#4)) ∧
    decode 0b1011100111000111#16 0#16 0#16 = .ok (.setgem (.glob 12#4)) ∧
    decode 0b1011101101011000#16 0#16 0#16 = .ok (.setsem (.loc 5#4)) ∧
    decode 0b1011100101011001#16 0#16 0#16 = .ok (.sethtm (.glob 5#4)) ∧
    decode 0b1011101111001010#16 0#16 0#16 = .ok (.setstm (.loc 12#4)) ∧
    decode 0b1011100101011011#16 0#16 0#16 = .ok (.sethem (.glob 5#4)) ∧
    decode 0b1011101101011100#16 0#16 0#16 = .ok (.setem (.loc 5#4)) ∧
    decode 0b1011100111001101#16 0#16 0#16 = .ok (.setnem (.glob 12#4)) ∧
    decode 0b1011101101011110#16 0#16 0#16 = .ok (.setvm (.loc 5#4)) ∧
    decode 0b1011100101011111#16 0#16 0#16 = .ok (.setnvm (.glob 5#4)) := by decide

theorem test_decode_software :
    decode 0b1100000001011010#16 0#16 0#16 = .ok (.fadd 5#4 10#4) ∧
    decode 0b1100000111000111#16 0#16 0#16 = .ok (.faddd 12#4 7#4) ∧
    decode 0b1100001001011010#16 0#16 0#16 = .ok (.fsub 5#4 10#4) ∧
    decode 0b1100001101011010#16 0#16 0#16 = .ok (.fsubd 5#4 10#4) ∧
    decode 0b1100010011000111#16 0#16 0#16 = .ok (.fmul 12#4 7#4) ∧
    decode 0b1100010101011010#16 0#16 0#16 = .ok (.fmuld 5#4 10#4) ∧
    decode 0b1100011001011010#16 0#16 0#16 = .ok (.fdiv 5#4 10#4) ∧
    decode 0b1100011111000111#16 0#16 0#16 = .ok (.fdivd 12#4 7#4) ∧
    decode 0b1100100001011010#16 0#16 0#16 = .ok (.fcmp 5#4 10#4) ∧
    decode 0b1100100101011010#16 0#16 0#16 = .ok (.fcmpd 5#4 10#4) ∧
    decode 0b1100101011000111#16 0#16 0#16 = .ok (.fcmpu 12#4 7#4) ∧
    decode 0b1100101101011010#16 0#16 0#16 = .ok (.fcmpud 5#4 10#4) ∧
    decode 0b1100110001011010#16 0#16 0#16 = .ok (.fcvt 5#4 10#4) ∧
    decode 0b1100110111000111#16 0#16 0#16 = .ok (.fcvtd 12#4 7#4) ∧
    decode 0b1100111101011010#16 0#16 0#16 = .ok (.softDo 5#4 10#4) := by decide

theorem test_decode_dsp :
    decode 0b1100111001011010#16 0b0000000100000000#16 0#16 = .ok (.emul 5#4 10#4) ∧
    decode 0b1100111001011010#16 0b0000000100000100#16 0#16 = .ok (.emulu 5#4 10#4) ∧
    decode 0b1100111011000111#16 0b0000000100000110#16 0#16 = .ok (.emuls 12#4 7#4) ∧
    decode 0b1100111001011010#16 0b0000000100001010#16 0#16 = .ok (.emac 5#4 10#4) ∧
    decode 0b1100111001011010#16 0b0000000100001110#16 0#16 = .ok (.emacd 5#4 10#4) ∧
    decode 0b1100111011000111#16 0b0000000100011010#16 0#16 = .ok (.emsub 12#4 7#4) ∧
    decode 0b1100111001011010#16 0b0000000100011110#16 0#16 = .ok (.emsubd 5#4 10#4) ∧
    decode 0b1100111001011010#16 0b0000000000101010#16 0#16 = .ok (.ehmac 5#4 10#4) ∧
    decode 0b1100111011000111#16 0b0000000000101110#16 0#16 = .ok (.ehmacd 12#4 7#4) ∧
    decode 0b1100111001011010#16 0b0000000001000110#16 0#16 = .ok (.ehcmuld 5#4 10#4) ∧
    decode 0b1100111001011010#16 0b0000000001001110#16 0#16 = .ok (.ehcmacd 5#4 10#4) ∧
    decode 0b1100111011000111#16 0b0000000010000110#16 0#16 = .ok (.ehcsumd 12#4 7#4) ∧
    decode 0b1100111001011010#16 0b0000000010010110#16 0#16 = .ok (.ehcfftd 5#4 10#4) := by decide

theorem test_decode_local_register :
    decode 0b1101000011000111#16 0#16 0#16 = .ok (.ldwR 12#4 (.glob 7#4)) ∧
    decode 0b1101001101011010#16 0#16 0#16 = .ok (.lddR 5#4 (.loc 10#4)) ∧
    decode 0b1101010001011010#16 0#16 0#16 = .ok (.ldwP 5#4 (.glob 10#4)) ∧
    decode 0b1101011111000111#16 0#16 0#16 = .ok (.lddP 12#4 (.loc 7#4)) ∧
    decode 0b1101100001011010#16 0#16 0#16 = .ok (.stwR 5#4 (.glob 10#4)) ∧
    decode 0b1101101101011010#16 0#16 0#16 = .ok (.stdR 5#4 (.loc 10#4)) ∧
    decode 0b1101110011000111#16 0#16 0#16 = .ok (.stwP 12#4 (.glob 7#4)) ∧
    decode 0b1101111101011010#16 0#16 0#16 = .ok (.stdP 5#4 (.loc 10#4)) := by decide

theorem test_decode_delayed_branches :
    decode 0b1110000010100110#16 0b1000000000000101#16 0#16 = .ok (.dbv (.long 5455874#23)) ∧
    decode 0b1110000110100110#16 0b1000000000000101#16 0#16 = .ok (.dbnv (.long 5455874#23)) ∧
    decode 0b1110001000100111#16 0#16 0#16 = .ok (.dbe (.short 83#7)) ∧
    decode 0b1110001100100111#16 0#16 0#16 = .ok (.dbne (.short 83#7)) ∧
    decode 0b1110010010100110#16 0b1000000000000101#16 0#16 = .ok (.dbst (.long 5455874#23)) ∧
    decode 0b1110010110100110#16 0b1000000000000101#16 0#16 = .ok (.dbhe (.long 5455874#23)) ∧
    decode 0b1110011000100111#16 0#16 0#16 = .ok (.dbse (.short 83#7)) ∧
    decode 0b1110011100100111#16 0#16 0#16 = .ok (.dbht (.short 83#7)) ∧
    decode 0b1110100010100110#16 0b1000000000000101#16 0#16 = .ok (.dblt (.long 5455874#23)) ∧
    decode 0b1110100110100110#16 0b1000000000000101#16 0#16 = .ok (.dbge (.long 5455874#23)) ∧
    decode 0b1110101000100111#16 0#16 0#16 = .ok (.dble (.short 83#7)) ∧
    decode 0b1110101100100111#16 0#16 0#16 = .ok (.dbgt (.short 83#7)) ∧
    decode 0b1110110010100110#16 0b1000000000000101#16 0#16 = .ok (.dbr (.long 5455874#23)) := by decide

theorem test_decode_branches :
    decode 0b1111000000100111#16 0#16 0#16 = .ok (.bv (.short 83#7)) ∧
    decode 0b1111000110100110#16 0b1000000000000101#16 0#16 = .ok (.bnv (.long 5455874#23)) ∧
    decode 0b1111001010100110#16 0b1000000000000101#16 0#16 = .ok (.be (.long 5455874#23)) ∧
    decode 0b1111001100100111#16 0#16 0#16 = .ok (.bne (.short 83#7)) ∧
    decode 0b1111010000100111#16 0#16 0#16 = .ok (.bst (.short 83#7)) ∧
    decode 0b1111010110100110#16 0b1000000000000101#16 0#16 = .ok (.bhe (.long 5455874#23)) ∧
    decode 0b1111011010100110#16 0b1000000000000101#16 0#16 = .ok (.bse (.long 5455874#23)) ∧
    decode 0b1111011100100111#16 0#16 0#16 = .ok (.bht (.short 83#7)) ∧
    decode 0b1111100000100111#16 0#16 0#16 = .ok (.blt (.short 83#7)) ∧
    decode 0b1111100110100110#16 0b1000000000000101#16 0#16 = .ok (.bge (.long 5455874#23)) ∧
    decode 0b1111101010100110#16 0b1000000000000101#16 0#16 = .ok (.ble (.long 5455874#23)) ∧
    decode 0b1111101100100111#16 0#16 0#16 = .ok (.bgt (.short 83#7)) ∧
    decode 0b1111110000100111#16 0#16 0#16 = .ok (.br (.short 83#7)) := by decide

theorem test_decode_traps :
    decode 0b1111110110011000#16 0#16 0#16 = .ok (.traple 38#6) ∧
    decode 0b1111110110011001#16 0#16 0#16 = .ok (.trapgt 38#6) ∧
    decode 0b1111110110011010#16 0#16 0#16 = .ok (.traplt 38#6) ∧
    decode 0b1111110110011011#16 0#16 0#16 = .ok (.trapge 38#6) ∧
    decode 0b1111111010011000#16 0#16 0#16 = .ok (.trapse 38#6) ∧
    decode 0b1111111010011001#16 0#16 0#16 = .ok (.trapht 38#6) ∧
    decode 0b1111111010011010#16 0#16 0#16 = .ok (.trapst 38#6) ∧
    decode 0b1111111010011011#16 0#16 0#16 = .ok (.traphe 38#6) ∧
    decode 0b1111111110011000#16 0#16 0#16 = .ok (.trape 38#6) ∧
    decode 0b1111111110011001#16 0#16 0#16 = .ok (.trapne 38#6) ∧
    decode 0b1111111110011010#16 0#16 0#16 = .ok (.trapv 38#6) ∧
    decode 0b1111111110011011#16 0#16 0#16 = .ok (.trap 38#6) := by decide

theorem test_decode_reserved :
    decode 0b1000110010110011#16 0#16 0#16 = .ok (.reserved8C8D 179#9) ∧
    decode 0b1010111010110011#16 0#16 0#16 = .ok (.reservedACAF 691#10) := by decide

/-- Encodings no row of the table has (R200, R231, R404, R412). -/
theorem test_decode_refusals :
    decode 0b1100111000010010#16 0b0000000100000001#16 0#16 = .error (.unknownExtend 0x0101#16) ∧
    decode 0b1001011100010010#16 0b0011000000000010#16 0#16 = .error .reservedSelector ∧
    decode 0b1001111100010010#16 0b0011000000000010#16 0#16 = .error .reservedSelector ∧
    decode 0b1011101001010001#16 0#16 0#16 = .error (.reservedSet 1#5) ∧
    decode 0b1011101101010001#16 0#16 0#16 = .error (.reservedSet 17#5) ∧
    decode 0b1011100100010101#16 0#16 0#16 = .error (.oddFetch 21#5) ∧
    decodeBytes [0x67#8, 0x01#8, 0x12#8] = .error .truncated := by decide

/-! ### Single steps

The expected values are those of spec/95_test_vectors.md; where none is given for an instruction, the value was worked out by hand
from its rule. Memory is big endian, the code stands at 00001000, SP = 8000, UB = 9000. -/

/-- A user program about to execute the instruction at 00001000, FL = 8, FP = 0. -/
def idle : State := { State.reset with pc := 0x1000#32, sr := 0x01000000#32, sp := 0x8000#32, ub := 0x9000#32 }

/-- Local registers given their values. -/
def withLocals (s : State) : List (BitVec 6 × Word) → State
  | [] => s
  | (i, v) :: rest => withLocals (s.setLocal i v) rest

/-- Global registers G(i+3) given their values. -/
def withGlobals (s : State) : List (Fin 13 × Word) → State
  | [] => s
  | (i, v) :: rest => withGlobals (s.put (.gpr i) v) rest

/-- Words of memory given their values. -/
def withWords (s : State) : List (Word × Word) → State
  | [] => s
  | (a, v) :: rest => withWords (s.writeWord (regionOf a) a v) rest

/-- Code placed at an address, nothing older of it in the cache. -/
def withCode (s : State) (a : Word) : List Half → State
  | [] => { s with stale := [] }
  | h :: rest => withCode (s.writeHalf (regionOf a) a h) (a + 2#32) rest

/-- The machine of one test. -/
def machine (sr : Word) (locals : List (BitVec 6 × Word)) (globals : List (Fin 13 × Word)) (words : List (Word × Word))
    (code : List Half) : State :=
  withCode (withWords (withGlobals (withLocals { idle with sr := sr } locals) globals) words) 0x1000#32 code

/-- The step answers a next state with this property. -/
def leaves (r : Result) (p : State → Bool) : Bool :=
  match r with
  | .next t => p t
  | .fault _ => false
  | .refused _ => false

/-- The word of external memory at an address. -/
def wordAt (t : State) (a : Word) : Word := t.readWord (regionOf a) a

/-- The four condition flags V, N, Z, C as a number. -/
def flagsOf (t : State) : BitVec 4 := t.sr.extractLsb' 0 4

theorem test_step_loads_1 :
    leaves (step (machine 0x1000000#32 [(0#6, 0x1E30#32), (6#6, 0xFFFF#32), (7#6, 0xFFFF0000#32)] [] [(0x1E30#32, 0xF00#32), (0x1E34#32, 0x3F01#32), (0x1E38#32, 0x4C10#32), (0x1E3C#32, 0xFF#32)] [0xD106#16]))
      (fun t => t.getLocal 6 == 0xF00#32) = true ∧
    leaves (step (machine 0x1000000#32 [(0#6, 0x1E30#32), (6#6, 0xFFFF#32), (7#6, 0xFFFF0000#32)] [] [(0x1E30#32, 0xF00#32), (0x1E34#32, 0x3F01#32), (0x1E38#32, 0x4C10#32), (0x1E3C#32, 0xFF#32)] [0xD306#16]))
      (fun t => t.getLocal 6 == 0xF00#32 && t.getLocal 7 == 0x3F01#32) = true ∧
    leaves (step (machine 0x1000000#32 [(0#6, 0x1E30#32), (6#6, 0xFFFF#32), (7#6, 0xFFFF0000#32)] [] [(0x1E30#32, 0xF00#32), (0x1E34#32, 0x3F01#32), (0x1E38#32, 0x4C10#32), (0x1E3C#32, 0xFF#32)] [0x9306#16, 0x3008#16]))
      (fun t => t.getLocal 6 == 0x4C10#32 && t.sr == 0x1120000#32) = true ∧
    leaves (step (machine 0x1000000#32 [(0#6, 0x1E30#32), (6#6, 0xFFFF#32), (7#6, 0xFFFF0000#32)] [] [(0x1E30#32, 0xF00#32), (0x1E34#32, 0x3F01#32), (0x1E38#32, 0x4C10#32), (0x1E3C#32, 0xFF#32)] [0x9306#16, 0x3009#16]))
      (fun t => t.getLocal 6 == 0x4C10#32 && t.getLocal 7 == 0xFF#32) = true ∧
    leaves (step (machine 0x1000000#32 [(0#6, 0x2000#32), (2#6, 0x11223344#32), (3#6, 0x55667788#32)] [] [(0x2000#32, 0x80FF7F01#32), (0x2004#32, 0x8001FFFE#32), (0x2008#32, 0xCAFEBABE#32), (0x200C#32, 0xBADF00D#32)] [0x9301#16, 0x0000#16]))
      (fun t => t.getLocal 1 == 0xFFFFFF80#32) = true ∧
    leaves (step (machine 0x1000000#32 [(0#6, 0x2000#32), (2#6, 0x11223344#32), (3#6, 0x55667788#32)] [] [(0x2000#32, 0x80FF7F01#32), (0x2004#32, 0x8001FFFE#32), (0x2008#32, 0xCAFEBABE#32), (0x200C#32, 0xBADF00D#32)] [0x9301#16, 0x1000#16]))
      (fun t => t.getLocal 1 == 0x80#32) = true := by decide

theorem test_step_loads_2 :
    leaves (step (machine 0x1000000#32 [(0#6, 0x2000#32), (2#6, 0x11223344#32), (3#6, 0x55667788#32)] [] [(0x2000#32, 0x80FF7F01#32), (0x2004#32, 0x8001FFFE#32), (0x2008#32, 0xCAFEBABE#32), (0x200C#32, 0xBADF00D#32)] [0x9301#16, 0x0001#16]))
      (fun t => t.getLocal 1 == 0xFFFFFFFF#32) = true ∧
    leaves (step (machine 0x1000000#32 [(0#6, 0x2000#32), (2#6, 0x11223344#32), (3#6, 0x55667788#32)] [] [(0x2000#32, 0x80FF7F01#32), (0x2004#32, 0x8001FFFE#32), (0x2008#32, 0xCAFEBABE#32), (0x200C#32, 0xBADF00D#32)] [0x9301#16, 0x1003#16]))
      (fun t => t.getLocal 1 == 0x1#32) = true ∧
    leaves (step (machine 0x1000000#32 [(0#6, 0x2000#32), (2#6, 0x11223344#32), (3#6, 0x55667788#32)] [] [(0x2000#32, 0x80FF7F01#32), (0x2004#32, 0x8001FFFE#32), (0x2008#32, 0xCAFEBABE#32), (0x200C#32, 0xBADF00D#32)] [0x9301#16, 0x2005#16]))
      (fun t => t.getLocal 1 == 0xFFFF8001#32) = true ∧
    leaves (step (machine 0x1000000#32 [(0#6, 0x2000#32), (2#6, 0x11223344#32), (3#6, 0x55667788#32)] [] [(0x2000#32, 0x80FF7F01#32), (0x2004#32, 0x8001FFFE#32), (0x2008#32, 0xCAFEBABE#32), (0x200C#32, 0xBADF00D#32)] [0x9301#16, 0x2004#16]))
      (fun t => t.getLocal 1 == 0x8001#32) = true ∧
    leaves (step (machine 0x1000000#32 [(0#6, 0x2000#32), (2#6, 0x11223344#32), (3#6, 0x55667788#32)] [] [(0x2000#32, 0x80FF7F01#32), (0x2004#32, 0x8001FFFE#32), (0x2008#32, 0xCAFEBABE#32), (0x200C#32, 0xBADF00D#32)] [0x9301#16, 0x2007#16]))
      (fun t => t.getLocal 1 == 0xFFFFFFFE#32) = true ∧
    leaves (step (machine 0x1000000#32 [(0#6, 0x2000#32), (2#6, 0x11223344#32), (3#6, 0x55667788#32)] [] [(0x2000#32, 0x80FF7F01#32), (0x2004#32, 0x8001FFFE#32), (0x2008#32, 0xCAFEBABE#32), (0x200C#32, 0xBADF00D#32)] [0x9301#16, 0x2006#16]))
      (fun t => t.getLocal 1 == 0xFFFE#32) = true := by decide

theorem test_step_loads_3 :
    leaves (step (machine 0x1000000#32 [(0#6, 0x2000#32), (2#6, 0x11223344#32), (3#6, 0x55667788#32)] [] [(0x2000#32, 0x80FF7F01#32), (0x2004#32, 0x8001FFFE#32), (0x2008#32, 0xCAFEBABE#32), (0x200C#32, 0xBADF00D#32)] [0x9301#16, 0x3008#16]))
      (fun t => t.getLocal 1 == 0xCAFEBABE#32) = true ∧
    leaves (step (machine 0x1000000#32 [(0#6, 0x2000#32), (2#6, 0x11223344#32), (3#6, 0x55667788#32)] [] [(0x2000#32, 0x80FF7F01#32), (0x2004#32, 0x8001FFFE#32), (0x2008#32, 0xCAFEBABE#32), (0x200C#32, 0xBADF00D#32)] [0x9111#16, 0xB000#16, 0x2008#16]))
      (fun t => t.getLocal 1 == 0xCAFEBABE#32) = true ∧
    leaves (step (machine 0x1000000#32 [(0#6, 0x2000#32), (2#6, 0x11223344#32), (3#6, 0x55667788#32)] [] [(0x2000#32, 0x80FF7F01#32), (0x2004#32, 0x8001FFFE#32), (0x2008#32, 0xCAFEBABE#32), (0x200C#32, 0xBADF00D#32)] [0x9701#16, 0x3008#16]))
      (fun t => t.getLocal 1 == 0x80FF7F01#32 && t.getLocal 0 == 0x2008#32) = true ∧
    leaves (step (machine 0x1000000#32 [(0#6, 0x2000#32), (2#6, 0x11223344#32), (3#6, 0x55667788#32)] [] [(0x2000#32, 0x80FF7F01#32), (0x2004#32, 0x8001FFFE#32), (0x2008#32, 0xCAFEBABE#32), (0x200C#32, 0xBADF00D#32)] [0x9701#16, 0x1001#16]))
      (fun t => t.getLocal 1 == 0x80#32 && t.getLocal 0 == 0x2001#32) = true ∧
    leaves (step (machine 0x1000000#32 [(0#6, 0x2000#32), (2#6, 0x11223344#32), (3#6, 0x55667788#32)] [] [(0x2000#32, 0x80FF7F01#32), (0x2004#32, 0x8001FFFE#32), (0x2008#32, 0xCAFEBABE#32), (0x200C#32, 0xBADF00D#32)] [0x9701#16, 0x3009#16]))
      (fun t => t.getLocal 1 == 0x80FF7F01#32 && t.getLocal 2 == 0x8001FFFE#32 && t.getLocal 0 == 0x2008#32) = true ∧
    leaves (step (machine 0x1000000#32 [(0#6, 0x2000#32), (2#6, 0x11223344#32), (3#6, 0x55667788#32)] [] [(0x2000#32, 0x80FF7F01#32), (0x2004#32, 0x8001FFFE#32), (0x2008#32, 0xCAFEBABE#32), (0x200C#32, 0xBADF00D#32)] [0x9701#16, 0x3007#16]))
      (fun t => t.getLocal 1 == 0x80FF7F01#32 && t.getLocal 0 == 0x2004#32) = true := by decide

theorem test_step_loads_4 :
    leaves (step (machine 0x1000000#32 [(0#6, 0x2000#32), (2#6, 0x11223344#32), (3#6, 0x55667788#32)] [] [(0x2000#32, 0x80FF7F01#32), (0x2004#32, 0x8001FFFE#32), (0x2008#32, 0xCAFEBABE#32), (0x200C#32, 0xBADF00D#32)] [0xD005#16]))
      (fun t => t.gpr[2] == 0x80FF7F01#32) = true ∧
    leaves (step (machine 0x1000000#32 [(0#6, 0x2000#32), (2#6, 0x11223344#32), (3#6, 0x55667788#32)] [] [(0x2000#32, 0x80FF7F01#32), (0x2004#32, 0x8001FFFE#32), (0x2008#32, 0xCAFEBABE#32), (0x200C#32, 0xBADF00D#32)] [0xD301#16]))
      (fun t => t.getLocal 1 == 0x80FF7F01#32 && t.getLocal 2 == 0x8001FFFE#32) = true ∧
    leaves (step (machine 0x1000000#32 [(0#6, 0x2000#32), (2#6, 0x11223344#32), (3#6, 0x55667788#32)] [] [(0x2000#32, 0x80FF7F01#32), (0x2004#32, 0x8001FFFE#32), (0x2008#32, 0xCAFEBABE#32), (0x200C#32, 0xBADF00D#32)] [0xD501#16]))
      (fun t => t.getLocal 1 == 0x80FF7F01#32 && t.getLocal 0 == 0x2004#32) = true ∧
    leaves (step (machine 0x1000000#32 [(0#6, 0x2000#32), (2#6, 0x11223344#32), (3#6, 0x55667788#32)] [] [(0x2000#32, 0x80FF7F01#32), (0x2004#32, 0x8001FFFE#32), (0x2008#32, 0xCAFEBABE#32), (0x200C#32, 0xBADF00D#32)] [0xD701#16]))
      (fun t => t.getLocal 1 == 0x80FF7F01#32 && t.getLocal 2 == 0x8001FFFE#32 && t.getLocal 0 == 0x2008#32) = true ∧
    leaves (step (machine 0x1000000#32 [(0#6, 0x2000#32), (2#6, 0x11223344#32), (3#6, 0x55667788#32)] [] [(0x2000#32, 0x80FF7F01#32), (0x2004#32, 0x8001FFFE#32), (0x2008#32, 0xCAFEBABE#32), (0x200C#32, 0xBADF00D#32)] [0xD500#16]))
      (fun t => t.getLocal 0 == 0x80FF7F01#32) = true ∧
    leaves (step (machine 0x1000000#32 [(1#6, 0x77#32)] [] [] [0x9701#16, 0x3008#16]))
      (fun t => t.getLocal 0 == 0x8#32 && t.getLocal 8 == 0x1004#32 && t.getLocal 9 == 0x1120000#32) = true := by decide

theorem test_step_loads_5 :
    leaves (step { (machine 0x1000000#32 [(11#6, 0xAA#32)] [(2, 0x202C#32)] [] [0x9550#16, 0x3003#16]) with sp := 0x2000#32 })
      (fun t => t.getLocal 0 == 0xAA#32) = true ∧
    leaves (step (machine 0x1000000#32 [] [] [(0x40#32, 0x80FF7F01#32)] [0x9111#16, 0x0040#16]))
      (fun t => t.getLocal 1 == 0xFFFFFF80#32 && t.pc == 0x1004#32) = true ∧
    leaves (step (machine 0x1000000#32 [] [] [(0x40#32, 0x80FF7F01#32)] [0x9111#16, 0x1041#16]))
      (fun t => t.getLocal 1 == 0xFF#32) = true ∧
    leaves (step (machine 0x1000000#32 [] [] [(0x40#32, 0x80FF8F01#32)] [0x9111#16, 0x2042#16]))
      (fun t => t.getLocal 1 == 0x8F01#32) = true ∧
    leaves (step (machine 0x1000000#32 [] [] [(0x40#32, 0x80FF8F01#32)] [0x9111#16, 0x2043#16]))
      (fun t => t.getLocal 1 == 0xFFFF8F01#32) = true ∧
    leaves (step (machine 0x1000000#32 [] [] [(0x40#32, 0x5#32), (0x44#32, 0x6#32)] [0x9111#16, 0x3041#16]))
      (fun t => t.getLocal 1 == 0x5#32 && t.getLocal 2 == 0x6#32) = true := by decide

theorem test_step_loads_6 :
    leaves (step (machine 0x1000000#32 [(0#6, 0x2000#32)] [] [(0x2000#32, 0x80FF7F01#32), (0x2004#32, 0x8001FFFE#32), (0x2008#32, 0xCAFEBABE#32), (0x200C#32, 0xBADF00D#32)] [0x9701#16, 0x0003#16]))
      (fun t => t.getLocal 1 == 0xFFFFFF80#32 && t.getLocal 0 == 0x2003#32) = true ∧
    leaves (step (machine 0x1000000#32 [(0#6, 0x2002#32)] [] [(0x2000#32, 0x80FF7F01#32), (0x2004#32, 0x8001FFFE#32), (0x2008#32, 0xCAFEBABE#32), (0x200C#32, 0xBADF00D#32)] [0x9701#16, 0x2006#16]))
      (fun t => t.getLocal 1 == 0x7F01#32 && t.getLocal 0 == 0x2008#32) = true ∧
    leaves (step (machine 0x1000000#32 [(0#6, 0x2004#32)] [] [(0x2000#32, 0x80FF7F01#32), (0x2004#32, 0x8001FFFE#32), (0x2008#32, 0xCAFEBABE#32), (0x200C#32, 0xBADF00D#32)] [0x9701#16, 0x2005#16]))
      (fun t => t.getLocal 1 == 0xFFFF8001#32 && t.getLocal 0 == 0x2008#32) = true := by decide

theorem test_step_stores_1 :
    leaves (step (machine 0x1000000#32 [(0#6, 0x1E30#32), (6#6, 0xFFFF#32), (7#6, 0xFFFF0000#32)] [] [(0x1E30#32, 0xF00#32), (0x1E34#32, 0x3F01#32), (0x1E38#32, 0x4C10#32), (0x1E3C#32, 0xFF#32)] [0xD906#16]))
      (fun t => wordAt t 0x1E30#32 == 0xFFFF#32) = true ∧
    leaves (step (machine 0x1000000#32 [(0#6, 0x1E30#32), (6#6, 0xFFFF#32), (7#6, 0xFFFF0000#32)] [] [(0x1E30#32, 0xF00#32), (0x1E34#32, 0x3F01#32), (0x1E38#32, 0x4C10#32), (0x1E3C#32, 0xFF#32)] [0xDB06#16]))
      (fun t => wordAt t 0x1E30#32 == 0xFFFF#32 && wordAt t 0x1E34#32 == 0xFFFF0000#32) = true ∧
    leaves (step (machine 0x1000000#32 [(0#6, 0x1E30#32), (6#6, 0xFFFF#32), (7#6, 0xFFFF0000#32)] [] [(0x1E30#32, 0xF00#32), (0x1E34#32, 0x3F01#32), (0x1E38#32, 0x4C10#32), (0x1E3C#32, 0xFF#32)] [0x9B06#16, 0x3008#16]))
      (fun t => wordAt t 0x1E38#32 == 0xFFFF#32) = true ∧
    leaves (step (machine 0x1000000#32 [(0#6, 0x1E30#32), (6#6, 0xFFFF#32), (7#6, 0xFFFF0000#32)] [] [(0x1E30#32, 0xF00#32), (0x1E34#32, 0x3F01#32), (0x1E38#32, 0x4C10#32), (0x1E3C#32, 0xFF#32)] [0x9B06#16, 0x3009#16]))
      (fun t => wordAt t 0x1E38#32 == 0xFFFF#32 && wordAt t 0x1E3C#32 == 0xFFFF0000#32) = true ∧
    leaves (step (machine 0x1000000#32 [(0#6, 0x2000#32), (2#6, 0x11223344#32), (3#6, 0x55667788#32)] [] [(0x2000#32, 0x80FF7F01#32), (0x2004#32, 0x8001FFFE#32), (0x2008#32, 0xCAFEBABE#32), (0x200C#32, 0xBADF00D#32)] [0xD902#16]))
      (fun t => wordAt t 0x2000#32 == 0x11223344#32) = true ∧
    leaves (step (machine 0x1000000#32 [(0#6, 0x2000#32), (2#6, 0x11223344#32), (3#6, 0x55667788#32)] [] [(0x2000#32, 0x80FF7F01#32), (0x2004#32, 0x8001FFFE#32), (0x2008#32, 0xCAFEBABE#32), (0x200C#32, 0xBADF00D#32)] [0xDB02#16]))
      (fun t => wordAt t 0x2000#32 == 0x11223344#32 && wordAt t 0x2004#32 == 0x55667788#32) = true := by decide

theorem test_step_stores_2 :
    leaves (step (machine 0x1000000#32 [(0#6, 0x2000#32), (2#6, 0x11223344#32), (3#6, 0x55667788#32)] [] [(0x2000#32, 0x80FF7F01#32), (0x2004#32, 0x8001FFFE#32), (0x2008#32, 0xCAFEBABE#32), (0x200C#32, 0xBADF00D#32)] [0xDD02#16]))
      (fun t => wordAt t 0x2000#32 == 0x11223344#32 && t.getLocal 0 == 0x2004#32) = true ∧
    leaves (step (machine 0x1000000#32 [(0#6, 0x2000#32), (2#6, 0x11223344#32), (3#6, 0x55667788#32)] [] [(0x2000#32, 0x80FF7F01#32), (0x2004#32, 0x8001FFFE#32), (0x2008#32, 0xCAFEBABE#32), (0x200C#32, 0xBADF00D#32)] [0xDF02#16]))
      (fun t => wordAt t 0x2000#32 == 0x11223344#32 && wordAt t 0x2004#32 == 0x55667788#32 && t.getLocal 0 == 0x2008#32) = true ∧
    leaves (step (machine 0x1000000#32 [(0#6, 0x2000#32), (2#6, 0x11223344#32), (3#6, 0x55667788#32)] [] [(0x2000#32, 0x80FF7F01#32), (0x2004#32, 0x8001FFFE#32), (0x2008#32, 0xCAFEBABE#32), (0x200C#32, 0xBADF00D#32)] [0xDD00#16]))
      (fun t => wordAt t 0x2000#32 == 0x2000#32 && t.getLocal 0 == 0x2004#32) = true ∧
    leaves (step (machine 0x1000000#32 [(0#6, 0x2000#32), (2#6, 0x11223344#32), (3#6, 0x55667788#32)] [] [(0x2000#32, 0x80FF7F01#32), (0x2004#32, 0x8001FFFE#32), (0x2008#32, 0xCAFEBABE#32), (0x200C#32, 0xBADF00D#32)] [0x9B02#16, 0x1001#16]))
      (fun t => wordAt t 0x2000#32 == 0x80447F01#32) = true ∧
    leaves (step (machine 0x1000000#32 [(0#6, 0x2000#32), (2#6, 0x11223344#32), (3#6, 0x55667788#32)] [] [(0x2000#32, 0x80FF7F01#32), (0x2004#32, 0x8001FFFE#32), (0x2008#32, 0xCAFEBABE#32), (0x200C#32, 0xBADF00D#32)] [0x9B02#16, 0x0001#16]))
      (fun t => wordAt t 0x2000#32 == 0x80447F01#32 && t.getLocal 8 == 0x1004#32 && t.getLocal 9 == 0x1120000#32) = true ∧
    leaves (step (machine 0x1000000#32 [(0#6, 0x2000#32), (2#6, 0x11223344#32), (3#6, 0x55667788#32)] [] [(0x2000#32, 0x80FF7F01#32), (0x2004#32, 0x8001FFFE#32), (0x2008#32, 0xCAFEBABE#32), (0x200C#32, 0xBADF00D#32)] [0x9B02#16, 0x2002#16]))
      (fun t => wordAt t 0x2000#32 == 0x80FF3344#32) = true := by decide

theorem test_step_stores_3 :
    leaves (step (machine 0x1000000#32 [(0#6, 0x2000#32), (2#6, 0x11223344#32), (3#6, 0x55667788#32)] [] [(0x2000#32, 0x80FF7F01#32), (0x2004#32, 0x8001FFFE#32), (0x2008#32, 0xCAFEBABE#32), (0x200C#32, 0xBADF00D#32)] [0x9B02#16, 0x3004#16]))
      (fun t => wordAt t 0x2004#32 == 0x11223344#32) = true ∧
    leaves (step (machine 0x1000000#32 [(0#6, 0x2000#32), (2#6, 0x11223344#32), (3#6, 0x55667788#32)] [] [(0x2000#32, 0x80FF7F01#32), (0x2004#32, 0x8001FFFE#32), (0x2008#32, 0xCAFEBABE#32), (0x200C#32, 0xBADF00D#32)] [0x9B02#16, 0x3009#16]))
      (fun t => wordAt t 0x2008#32 == 0x11223344#32 && wordAt t 0x200C#32 == 0x55667788#32) = true ∧
    leaves (step (machine 0x1000000#32 [(0#6, 0x2000#32), (2#6, 0x11223344#32), (3#6, 0x55667788#32)] [] [(0x2000#32, 0x80FF7F01#32), (0x2004#32, 0x8001FFFE#32), (0x2008#32, 0xCAFEBABE#32), (0x200C#32, 0xBADF00D#32)] [0x9912#16, 0xB000#16, 0x2004#16]))
      (fun t => wordAt t 0x2004#32 == 0x11223344#32) = true ∧
    leaves (step (machine 0x1000000#32 [(0#6, 0x2000#32), (2#6, 0x11223344#32), (3#6, 0x55667788#32)] [] [(0x2000#32, 0x80FF7F01#32), (0x2004#32, 0x8001FFFE#32), (0x2008#32, 0xCAFEBABE#32), (0x200C#32, 0xBADF00D#32)] [0x9F02#16, 0x3004#16]))
      (fun t => wordAt t 0x2000#32 == 0x11223344#32 && t.getLocal 0 == 0x2004#32) = true ∧
    leaves (step (machine 0x1000000#32 [(0#6, 0x2000#32), (2#6, 0x11223344#32), (3#6, 0x55667788#32)] [] [(0x2000#32, 0x80FF7F01#32), (0x2004#32, 0x8001FFFE#32), (0x2008#32, 0xCAFEBABE#32), (0x200C#32, 0xBADF00D#32)] [0x9F02#16, 0x300B#16]))
      (fun t => wordAt t 0x2000#32 == 0x11223344#32 && t.getLocal 0 == 0x2008#32) = true ∧
    leaves (step (machine 0x1000000#32 [(0#6, 0x2000#32), (2#6, 0xFFFFFF80#32)] [] [(0x2000#32, 0x80FF7F01#32), (0x2004#32, 0x8001FFFE#32), (0x2008#32, 0xCAFEBABE#32), (0x200C#32, 0xBADF00D#32)] [0x9B02#16, 0x0003#16]))
      (fun t => wordAt t 0x2000#32 == 0x80FF7F80#32 && t.pc == 0x1004#32) = true := by decide

theorem test_step_stores_4 :
    leaves (step (machine 0x1000000#32 [(0#6, 0x2000#32), (2#6, 0x7FFF#32)] [] [(0x2000#32, 0x80FF7F01#32), (0x2004#32, 0x8001FFFE#32), (0x2008#32, 0xCAFEBABE#32), (0x200C#32, 0xBADF00D#32)] [0x9B02#16, 0x2003#16]))
      (fun t => wordAt t 0x2000#32 == 0x80FF7FFF#32 && t.pc == 0x1004#32) = true ∧
    leaves (step (machine 0x1000000#32 [(0#6, 0x2000#32), (2#6, 0x8000#32)] [] [(0x2000#32, 0x80FF7F01#32), (0x2004#32, 0x8001FFFE#32), (0x2008#32, 0xCAFEBABE#32), (0x200C#32, 0xBADF00D#32)] [0x9B02#16, 0x2003#16]))
      (fun t => wordAt t 0x2000#32 == 0x80FF8000#32 && t.pc == 0xFFFFFFF0#32) = true ∧
    leaves (step (machine 0x1000000#32 [(1#6, 0x1E30#32), (0#6, 0x5#32)] [] [] [0xDF10#16]))
      (fun t => wordAt t 0x1E30#32 == 0x5#32 && wordAt t 0x1E34#32 == 0x1E38#32) = true ∧
    leaves (step { (machine 0x1000000#32 [(6#6, 0xFFFF#32)] [(2, 0x1FF8#32)] [] [0x9D56#16, 0x3007#16]) with sp := 0x2000#32 })
      (fun t => wordAt t 0x1FF8#32 == 0xFFFF#32 && t.gpr[2] == 0x1FFC#32) = true ∧
    leaves (step (machine 0x1000000#32 [(2#6, 0xFFFFFF85#32)] [] [] [0x9912#16, 0x0041#16]))
      (fun t => wordAt t 0x40#32 == 0x850000#32) = true ∧
    leaves (step (machine 0x1000000#32 [(2#6, 0x11223344#32)] [] [] [0x9912#16, 0x1043#16]))
      (fun t => wordAt t 0x40#32 == 0x44#32) = true := by decide

theorem test_step_stores_5 :
    leaves (step (machine 0x1000000#32 [(2#6, 0x11223344#32)] [] [] [0x9912#16, 0x2042#16]))
      (fun t => wordAt t 0x40#32 == 0x3344#32) = true ∧
    leaves (step (machine 0x1000000#32 [(2#6, 0x7344#32)] [] [] [0x9912#16, 0x2041#16]))
      (fun t => wordAt t 0x40#32 == 0x73440000#32) = true ∧
    leaves (step (machine 0x1000000#32 [(2#6, 0x7#32), (3#6, 0x8#32)] [] [] [0x9912#16, 0x3041#16]))
      (fun t => wordAt t 0x40#32 == 0x7#32 && wordAt t 0x44#32 == 0x8#32) = true ∧
    leaves (step (machine 0x1000000#32 [(0#6, 0x2001#32), (2#6, 0x7F#32)] [] [(0x2000#32, 0x80FF7F01#32), (0x2004#32, 0x8001FFFE#32), (0x2008#32, 0xCAFEBABE#32), (0x200C#32, 0xBADF00D#32)] [0x9F02#16, 0x0001#16]))
      (fun t => wordAt t 0x2000#32 == 0x807F7F01#32 && t.getLocal 0 == 0x2002#32) = true ∧
    leaves (step (machine 0x1000000#32 [(0#6, 0x2003#32), (2#6, 0x11223344#32)] [] [(0x2000#32, 0x80FF7F01#32), (0x2004#32, 0x8001FFFE#32), (0x2008#32, 0xCAFEBABE#32), (0x200C#32, 0xBADF00D#32)] [0x9F02#16, 0x1002#16]))
      (fun t => wordAt t 0x2000#32 == 0x80FF7F44#32 && t.getLocal 0 == 0x2005#32) = true ∧
    leaves (step (machine 0x1000000#32 [(0#6, 0x2000#32), (2#6, 0x11223344#32)] [] [(0x2000#32, 0x80FF7F01#32), (0x2004#32, 0x8001FFFE#32), (0x2008#32, 0xCAFEBABE#32), (0x200C#32, 0xBADF00D#32)] [0x9F02#16, 0x2002#16]))
      (fun t => wordAt t 0x2000#32 == 0x33447F01#32 && t.getLocal 0 == 0x2002#32) = true := by decide

theorem test_step_stores_6 :
    leaves (step (machine 0x1000000#32 [(0#6, 0x2002#32), (2#6, 0xFFFF8000#32)] [] [(0x2000#32, 0x80FF7F01#32), (0x2004#32, 0x8001FFFE#32), (0x2008#32, 0xCAFEBABE#32), (0x200C#32, 0xBADF00D#32)] [0x9F02#16, 0x2003#16]))
      (fun t => wordAt t 0x2000#32 == 0x80FF8000#32 && t.getLocal 0 == 0x2004#32) = true ∧
    leaves (step (machine 0x1000000#32 [(0#6, 0x2000#32), (2#6, 0x11223344#32), (3#6, 0x55667788#32)] [] [(0x2000#32, 0x80FF7F01#32), (0x2004#32, 0x8001FFFE#32), (0x2008#32, 0xCAFEBABE#32), (0x200C#32, 0xBADF00D#32)] [0x9F02#16, 0x3009#16]))
      (fun t => wordAt t 0x2000#32 == 0x11223344#32 && wordAt t 0x2004#32 == 0x55667788#32 && t.getLocal 0 == 0x2008#32) = true := by decide

theorem test_step_move_logical_1 :
    leaves (step (machine 0x1040000#32 [(0#6, 0x1E30#32), (6#6, 0xFFFF#32), (7#6, 0xFFFF0000#32)] [] [] [0x2706#16]))
      (fun t => t.getLocal 0 == 0xFFFF#32) = true ∧
    leaves (step (machine 0x1000000#32 [] [] [] [0x6604#16]))
      (fun t => t.getLocal 0 == 0x4#32) = true ∧
    leaves (step (machine 0x1040000#32 [(0#6, 0x1E30#32), (6#6, 0xFFFF#32), (7#6, 0xFFFF0000#32)] [] [] [0x0706#16]))
      (fun t => t.getLocal 0 == 0xFFFF#32 && t.getLocal 1 == 0xFFFF0000#32) = true ∧
    leaves (step (machine 0x1000000#32 [(0#6, 0xF0CFFFF#32), (1#6, 0xFFFF0000#32)] [] [] [0x5701#16]))
      (fun t => t.getLocal 0 == 0xF0C0000#32 && flagsOf t == 0#4) = true ∧
    leaves (step (machine 0x1000000#32 [(0#6, 0xF0CFFFF#32), (1#6, 0xFFFF0000#32)] [] [] [0x3701#16]))
      (fun t => t.getLocal 0 == 0xFFFF#32 && flagsOf t == 0#4) = true ∧
    leaves (step (machine 0x1000000#32 [(0#6, 0xF0CFFFF#32), (1#6, 0xFFFF0000#32)] [] [] [0x3B01#16]))
      (fun t => t.getLocal 0 == 0xFFFFFFFF#32 && flagsOf t == 0#4) = true := by decide

theorem test_step_move_logical_2 :
    leaves (step (machine 0x1000000#32 [(0#6, 0xF0CFFFF#32), (1#6, 0xFFFF0000#32)] [] [] [0x3F01#16]))
      (fun t => t.getLocal 0 == 0xF0F3FFFF#32 && flagsOf t == 0#4) = true ∧
    leaves (step (machine 0x1000000#32 [(0#6, 0xF0CFFFF#32), (1#6, 0xFFFF0000#32)] [] [] [0x7702#16, 0x1234#16]))
      (fun t => t.getLocal 0 == 0xF0CEDCB#32 && flagsOf t == 0#4) = true ∧
    leaves (step (machine 0x1000000#32 [(0#6, 0xF0CFFFF#32), (1#6, 0xFFFF0000#32)] [] [] [0x7B02#16, 0x1234#16]))
      (fun t => t.getLocal 0 == 0xF0CFFFF#32 && flagsOf t == 0#4) = true ∧
    leaves (step (machine 0x1000000#32 [(0#6, 0xF0CFFFF#32), (1#6, 0xFFFF0000#32)] [] [] [0x7F02#16, 0x1234#16]))
      (fun t => t.getLocal 0 == 0xF0CEDCB#32 && flagsOf t == 0#4) = true ∧
    leaves (step (machine 0x1040000#32 [(1#6, 0x80000000#32)] [] [] [0x2701#16]))
      (fun t => t.getLocal 0 == 0x80000000#32) = true ∧
    leaves (step (machine 0x1000000#32 [] [] [] [0x6703#16, 0x1234#16]))
      (fun t => t.getLocal 0 == 0xFFFF1234#32 && t.sr == 0x1120004#32) = true := by decide

theorem test_step_move_logical_3 :
    leaves (step (machine 0x1040000#32 [(0#6, 0x5#32), (1#6, 0x6#32)] [] [] [0x0601#16]))
      (fun t => t.getLocal 0 == 0x0#32 && t.getLocal 1 == 0x0#32) = true ∧
    leaves (step (machine 0x1000000#32 [(1#6, 0xFFFFFFFF#32)] [] [] [0x4701#16]))
      (fun t => t.getLocal 0 == 0x0#32 && flagsOf t == 2#4) = true ∧
    leaves (step (machine 0x1000000#32 [(1#6, 0x12345678#32)] [] [] [0x1701#16, 0x00FF#16]))
      (fun t => t.getLocal 0 == 0x78#32) = true ∧
    leaves (step (machine 0x1000000#32 [(1#6, 0x12345678#32)] [] [] [0x1701#16, 0x7F00#16]))
      (fun t => t.getLocal 0 == 0x12345600#32) = true ∧
    leaves (step (machine 0x1000000#32 [(0#6, 0xFFFFFFFF#32)] [] [] [0x770F#16]))
      (fun t => t.getLocal 0 == 0x80000000#32) = true ∧
    leaves (step (machine 0x1000000#32 [] [] [] [0x7912#16, 0x8000#16]))
      (fun t => t.getLocal 8 == 0x1004#32 && t.getLocal 9 == 0x1128000#32) = true := by decide

theorem test_step_add_subtract_1 :
    leaves (step (machine 0x1000000#32 [(0#6, 0x4#32), (1#6, 0xFFFFFFFC#32)] [] [] [0x2B01#16]))
      (fun t => t.getLocal 0 == 0x0#32 && flagsOf t == 3#4) = true ∧
    leaves (step (machine 0x1000000#32 [(0#6, 0x4#32)] [] [] [0x6B02#16, 0x0120#16]))
      (fun t => t.getLocal 0 == 0x124#32 && flagsOf t == 0#4) = true ∧
    leaves (step (machine 0x1000000#32 [(1#6, 0x4#32)] [] [] [0x1B01#16, 0x0120#16]))
      (fun t => t.getLocal 0 == 0x124#32 && flagsOf t == 0#4) = true ∧
    leaves (step (machine 0x1000000#32 [(0#6, 0x124#32), (1#6, 0x4#32)] [] [] [0x4B01#16]))
      (fun t => t.getLocal 0 == 0x120#32 && flagsOf t == 0#4) = true ∧
    leaves (step (machine 0x1000000#32 [(1#6, 0x4#32)] [] [] [0x5B01#16]))
      (fun t => t.getLocal 0 == 0xFFFFFFFC#32 && flagsOf t == 5#4) = true ∧
    leaves (step (machine 0x1000000#32 [(0#6, 0x7FFFFFFF#32), (1#6, 0x1#32)] [] [] [0x2B01#16]))
      (fun t => t.getLocal 0 == 0x80000000#32 && flagsOf t == 12#4) = true := by decide

theorem test_step_add_subtract_2 :
    leaves (step (machine 0x1000000#32 [(0#6, 0x7FFFFFFF#32), (1#6, 0x1#32)] [] [] [0x2F01#16]))
      (fun t => t.getLocal 0 == 0x80000000#32 && t.getLocal 8 == 0x1002#32 && t.getLocal 9 == 0x10A000C#32) = true ∧
    leaves (step (machine 0x1000000#32 [(0#6, 0xFFFFFFFF#32), (1#6, 0x1#32)] [] [] [0x2F01#16]))
      (fun t => flagsOf t == 2#4) = true ∧
    leaves (step (machine 0x1000002#32 [(1#6, 0xFFFFFFFF#32), (3#6, 0x1#32)] [] [] [0x5313#16]))
      (fun t => t.getLocal 1 == 0x0#32 && flagsOf t == 3#4) = true ∧
    leaves (step (machine 0x1000003#32 [] [] [] [0x5302#16]))
      (fun t => t.getLocal 0 == 0x1#32 && flagsOf t == 0#4) = true ∧
    leaves (step (machine 0x1000000#32 [(1#6, 0x1#32)] [] [] [0x4B01#16]))
      (fun t => t.getLocal 0 == 0xFFFFFFFF#32 && flagsOf t == 5#4) = true ∧
    leaves (step (machine 0x1000000#32 [(0#6, 0x80000000#32), (1#6, 0x1#32)] [] [] [0x4F01#16]))
      (fun t => t.getLocal 9 == 0x10A0008#32) = true := by decide

theorem test_step_add_subtract_3 :
    leaves (step (machine 0x1000003#32 [] [] [] [0x4302#16]))
      (fun t => t.getLocal 0 == 0xFFFFFFFF#32 && flagsOf t == 5#4) = true ∧
    leaves (step (machine 0x1000002#32 [(0#6, 0x5#32), (2#6, 0x5#32)] [] [] [0x4302#16]))
      (fun t => flagsOf t == 2#4) = true ∧
    leaves (step (machine 0x1000000#32 [(1#6, 0x80000000#32)] [] [] [0x5B01#16]))
      (fun t => flagsOf t == 13#4) = true ∧
    leaves (step (machine 0x1000000#32 [(1#6, 0x80000000#32)] [] [] [0x5F01#16]))
      (fun t => t.getLocal 9 == 0x10A000C#32) = true ∧
    leaves (step (machine 0x1000001#32 [(0#6, 0x4#32)] [] [] [0x6A00#16]))
      (fun t => t.getLocal 0 == 0x5#32 && flagsOf t == 0#4) = true ∧
    leaves (step (machine 0x1000000#32 [(0#6, 0x80000000#32)] [] [] [0x6F0F#16]))
      (fun t => t.getLocal 9 == 0x10A0008#32) = true := by decide

theorem test_step_add_subtract_4 :
    leaves (step (machine 0x1000000#32 [(1#6, 0x1#32)] [] [] [0x1B01#16, 0x7FFF#16]))
      (fun t => t.getLocal 0 == 0x0#32 && flagsOf t == 3#4) = true ∧
    leaves (step (machine 0x1000000#32 [(1#6, 0x7FFFFFFF#32)] [] [] [0x1F01#16, 0x0001#16]))
      (fun t => t.getLocal 9 == 0x112000C#32 && t.getLocal 8 == 0x1004#32) = true := by decide

theorem test_step_multiply_divide_1 :
    leaves (step (machine 0x1040000#32 [(0#6, 0x5678#32), (2#6, 0x9ABC#32)] [] [] [0xBF02#16]))
      (fun t => t.getLocal 0 == 0x3443B020#32) = true ∧
    leaves (step (machine 0x1040000#32 [(0#6, 0x5678#32), (2#6, 0x9ABC#32)] [] [] [0xB302#16]))
      (fun t => t.getLocal 0 == 0x0#32 && t.getLocal 1 == 0x3443B020#32) = true ∧
    leaves (step (machine 0x1000000#32 [(0#6, 0x1#32), (1#6, 0x23456789#32), (2#6, 0x123456#32)] [] [] [0x0B02#16]))
      (fun t => t.getLocal 0 == 0x789#32 && t.getLocal 1 == 0x1000#32 && flagsOf t == 0#4) = true ∧
    leaves (step (machine 0x1040000#32 [(0#6, 0xFFFFFFFD#32), (1#6, 0x5#32)] [] [] [0xBF01#16]))
      (fun t => t.getLocal 0 == 0xFFFFFFF1#32) = true ∧
    leaves (step (machine 0x1040000#32 [(0#6, 0xFFFFFFFF#32), (2#6, 0xFFFFFFFF#32)] [] [] [0xB302#16]))
      (fun t => t.getLocal 0 == 0xFFFFFFFE#32 && t.getLocal 1 == 0x1#32) = true ∧
    leaves (step (machine 0x1040000#32 [(0#6, 0x80000000#32), (2#6, 0x80000000#32)] [] [] [0xB702#16]))
      (fun t => t.getLocal 0 == 0x40000000#32 && t.getLocal 1 == 0x0#32) = true := by decide

theorem test_step_multiply_divide_2 :
    leaves (step (machine 0x1040000#32 [(0#6, 0xFFFFFFFF#32), (2#6, 0x2#32)] [] [] [0xB702#16]))
      (fun t => t.getLocal 0 == 0xFFFFFFFF#32 && t.getLocal 1 == 0xFFFFFFFE#32) = true ∧
    leaves (step (machine 0x1000000#32 [(1#6, 0x5#32)] [] [] [0x0B02#16]))
      (fun t => t.pc == 0xFFFFFFF0#32) = true ∧
    leaves (step (machine 0x1000000#32 [(0#6, 0xFFFFFFFF#32), (1#6, 0xFFFFFFFF#32), (2#6, 0x1#32)] [] [] [0x0F02#16]))
      (fun t => t.pc == 0xFFFFFFF0#32) = true ∧
    leaves (step (machine 0x1000000#32 [(1#6, 0x80000000#32), (2#6, 0xFFFFFFFF#32)] [] [] [0x0F02#16]))
      (fun t => t.getLocal 0 == 0x0#32 && t.getLocal 1 == 0x80000000#32 && flagsOf t == 4#4) = true := by decide

theorem test_step_shifts_1 :
    leaves (step (machine 0x1040000#32 [(0#6, 0xFFFF#32)] [] [] [0xAA04#16]))
      (fun t => t.getLocal 0 == 0xFFFF0#32) = true ∧
    leaves (step (machine 0x1040000#32 [(0#6, 0xFFFF#32), (1#6, 0x2#32)] [] [] [0x8B01#16]))
      (fun t => t.getLocal 0 == 0x3FFFC#32) = true ∧
    leaves (step (machine 0x1000000#32 [(0#6, 0xC000FFFF#32), (1#6, 0x2#32)] [] [] [0xA604#16]))
      (fun t => t.getLocal 0 == 0xFC000FFF#32 && flagsOf t == 5#4) = true ∧
    leaves (step (machine 0x1000000#32 [(0#6, 0xC000FFFF#32), (1#6, 0x2#32)] [] [] [0x8701#16]))
      (fun t => t.getLocal 0 == 0xF0003FFF#32 && flagsOf t == 5#4) = true ∧
    leaves (step (machine 0x1000000#32 [(0#6, 0xC000FFFF#32), (1#6, 0x2#32)] [] [] [0xA204#16]))
      (fun t => t.getLocal 0 == 0xC000FFF#32 && flagsOf t == 1#4) = true ∧
    leaves (step (machine 0x1000000#32 [(0#6, 0xC000FFFF#32), (1#6, 0x2#32)] [] [] [0x8301#16]))
      (fun t => t.getLocal 0 == 0x30003FFF#32 && flagsOf t == 1#4) = true := by decide

theorem test_step_shifts_2 :
    leaves (step (machine 0x1040000#32 [(0#6, 0xC000FFFF#32), (1#6, 0x4#32)] [] [] [0x8F01#16]))
      (fun t => t.getLocal 0 == 0xFFFFC#32) = true ∧
    leaves (step (machine 0x1040000#32 [(0#6, 0x3#32)] [] [] [0xAB0F#16]))
      (fun t => t.getLocal 0 == 0x80000000#32) = true ∧
    leaves (step (machine 0x1000001#32 [(0#6, 0x80000001#32)] [] [] [0xA200#16]))
      (fun t => t.getLocal 0 == 0x80000001#32 && flagsOf t == 4#4) = true ∧
    leaves (step (machine 0x1000000#32 [(0#6, 0x80000000#32)] [] [] [0xA70F#16]))
      (fun t => t.getLocal 0 == 0xFFFFFFFF#32 && flagsOf t == 4#4) = true ∧
    leaves (step (machine 0x1040000#32 [(0#6, 0x40000001#32), (1#6, 0xFFFFFFE1#32)] [] [] [0x8B01#16]))
      (fun t => t.getLocal 0 == 0x80000002#32) = true ∧
    leaves (step (machine 0x1000000#32 [(0#6, 0x7FFFFFFF#32), (1#6, 0x1F#32)] [] [] [0x8701#16]))
      (fun t => t.getLocal 0 == 0x0#32 && flagsOf t == 3#4) = true := by decide

theorem test_step_shifts_3 :
    leaves (step (machine 0x1040000#32 [(0#6, 0x80000001#32), (1#6, 0x1F#32)] [] [] [0x8F01#16]))
      (fun t => t.getLocal 0 == 0xC0000000#32) = true ∧
    leaves (step (machine 0x1040000#32 [(0#6, 0x12345678#32), (1#6, 0x9ABCDEF0#32)] [] [] [0x8804#16]))
      (fun t => t.getLocal 0 == 0x23456789#32 && t.getLocal 1 == 0xABCDEF00#32) = true ∧
    leaves (step (machine 0x1040000#32 [(1#6, 0x3#32)] [] [] [0x890F#16]))
      (fun t => t.getLocal 0 == 0x1#32 && t.getLocal 1 == 0x80000000#32) = true ∧
    leaves (step (machine 0x1000000#32 [(0#6, 0x12345678#32), (1#6, 0x9ABCDEF8#32)] [] [] [0x8004#16]))
      (fun t => t.getLocal 0 == 0x1234567#32 && t.getLocal 1 == 0x89ABCDEF#32 && flagsOf t == 1#4) = true ∧
    leaves (step (machine 0x1000000#32 [(0#6, 0x80000000#32), (1#6, 0xFF#32)] [] [] [0x8408#16]))
      (fun t => t.getLocal 0 == 0xFF800000#32 && t.getLocal 1 == 0x0#32 && flagsOf t == 5#4) = true ∧
    leaves (step (machine 0x1000000#32 [(0#6, 0x80000000#32)] [] [] [0x850F#16]))
      (fun t => t.getLocal 0 == 0xFFFFFFFF#32 && t.getLocal 1 == 0x0#32 && flagsOf t == 4#4) = true := by decide

theorem test_step_shifts_4 :
    leaves (step (machine 0x1040000#32 [(0#6, 0x12345678#32), (1#6, 0x9ABCDEF0#32), (2#6, 0x24#32)] [] [] [0x8A02#16]))
      (fun t => t.getLocal 0 == 0x23456789#32 && t.getLocal 1 == 0xABCDEF00#32) = true ∧
    leaves (step (machine 0x1000000#32 [(0#6, 0x12345678#32), (1#6, 0x9ABCDEF0#32), (2#6, 0x10#32)] [] [] [0x8202#16]))
      (fun t => t.getLocal 0 == 0x1234#32 && t.getLocal 1 == 0x56789ABC#32 && flagsOf t == 1#4) = true ∧
    leaves (step (machine 0x1000000#32 [(0#6, 0xF2345678#32), (1#6, 0x9ABCDEF0#32), (2#6, 0x4#32)] [] [] [0x8602#16]))
      (fun t => t.getLocal 0 == 0xFF234567#32 && t.getLocal 1 == 0x89ABCDEF#32 && flagsOf t == 4#4) = true := by decide

theorem test_step_index_check_compare_1 :
    leaves (step (machine 0x1000000#32 [(0#6, 0x456#32), (1#6, 0x123#32)] [] [] [0x1301#16, 0x1124#16]))
      (fun t => t.getLocal 0 == 0x246#32 && t.pc == 0x1004#32) = true ∧
    leaves (step (machine 0x1000000#32 [(0#6, 0x456#32), (1#6, 0x123#32)] [] [] [0x1301#16, 0x1122#16]))
      (fun t => t.getLocal 0 == 0x246#32 && t.pc == 0xFFFFFFF0#32 && t.getLocal 8 == 0x1004#32 && t.getLocal 9 == 0x1120000#32) = true ∧
    leaves (step (machine 0x1000000#32 [(1#6, 0x123#32)] [] [] [0x1301#16, 0x5000#16]))
      (fun t => t.getLocal 0 == 0x246#32) = true ∧
    leaves (step (machine 0x1000000#32 [(0#6, 0x5#32), (1#6, 0x5#32)] [] [] [0x2301#16]))
      (fun t => flagsOf t == 2#4 && t.getLocal 0 == 0x5#32) = true ∧
    leaves (step (machine 0x1000000#32 [(0#6, 0x3#32), (1#6, 0x5#32)] [] [] [0x2301#16]))
      (fun t => flagsOf t == 5#4 && t.getLocal 0 == 0x3#32) = true ∧
    leaves (step (machine 0x1000000#32 [(0#6, 0xFFFFFFFF#32)] [] [] [0x630F#16]))
      (fun t => flagsOf t == 2#4) = true := by decide

theorem test_step_index_check_compare_2 :
    leaves (step (machine 0x1000000#32 [(0#6, 0x1233#32)] [] [] [0x6302#16, 0x1234#16]))
      (fun t => flagsOf t == 5#4) = true ∧
    leaves (step (machine 0x1000000#32 [(0#6, 0xF0#32), (1#6, 0xF#32)] [] [] [0x3301#16]))
      (fun t => flagsOf t == 2#4) = true ∧
    leaves (step (machine 0x1000000#32 [(0#6, 0xF0#32), (1#6, 0x10#32)] [] [] [0x3301#16]))
      (fun t => flagsOf t == 0#4) = true ∧
    leaves (step (machine 0x1000000#32 [(0#6, 0x11002233#32)] [] [] [0x7200#16]))
      (fun t => flagsOf t == 2#4) = true ∧
    leaves (step (machine 0x1000000#32 [(0#6, 0x11223344#32)] [] [] [0x7200#16]))
      (fun t => flagsOf t == 0#4) = true ∧
    leaves (step (machine 0x1000000#32 [(1#6, 0x0#32)] [] [] [0x8E01#16]))
      (fun t => t.getLocal 0 == 0x20#32) = true := by decide

theorem test_step_index_check_compare_3 :
    leaves (step (machine 0x1000000#32 [(1#6, 0x1#32)] [] [] [0x8E01#16]))
      (fun t => t.getLocal 0 == 0x1F#32) = true ∧
    leaves (step (machine 0x1000000#32 [(1#6, 0x11#32)] [] [] [0x1301#16, 0x2010#16]))
      (fun t => t.getLocal 0 == 0x44#32 && t.pc == 0xFFFFFFF0#32) = true ∧
    leaves (step (machine 0x1000000#32 [(1#6, 0x20000000#32)] [] [] [0x1301#16, 0x3FFF#16]))
      (fun t => t.getLocal 0 == 0x0#32 && t.pc == 0xFFFFFFF0#32) = true ∧
    leaves (step (machine 0x1000000#32 [(1#6, 0x20000001#32)] [] [] [0x1301#16, 0x7000#16]))
      (fun t => t.getLocal 0 == 0x8#32) = true ∧
    leaves (step (machine 0x1000000#32 [] [] [] [0x1200#16, 0x8000#16, 0x1004#16]))
      (fun t => t.getLocal 0 == 0x1006#32 && t.getLocal 8 == 0x1006#32 && t.getLocal 9 == 0x11A0000#32) = true ∧
    leaves (step (machine 0x1000000#32 [] [] [] [0x1200#16, 0x8000#16, 0x1007#16]))
      (fun t => t.getLocal 0 == 0x1006#32 && t.pc == 0x1006#32) = true := by decide

theorem test_step_index_check_compare_4 :
    leaves (step (machine 0x1000000#32 [(0#6, 0x5#32), (1#6, 0x5#32)] [] [] [0x0301#16]))
      (fun t => t.pc == 0x1002#32) = true ∧
    leaves (step (machine 0x1000000#32 [(0#6, 0x6#32), (1#6, 0x5#32)] [] [] [0x0301#16]))
      (fun t => t.getLocal 8 == 0x1002#32 && t.getLocal 9 == 0x10A0000#32) = true ∧
    leaves (step (machine 0x1000000#32 [] [] [] [0x0201#16]))
      (fun t => t.pc == 0xFFFFFFF0#32) = true ∧
    leaves (step (machine 0x1000000#32 [] [] [] [0x0300#16]))
      (fun t => t.pc == 0x1002#32 && t.sr == 0x10A0000#32) = true ∧
    leaves (step { (machine 0xCA0001#32 [] [] [] [0x0300#16]) with fcr := 0xEFFFFFFF#32, pins := { int := 1#4, io := 0#3 }, pinsDriven := true })
      (fun t => t.getLocal 6 == 0x1000#32 && t.getLocal 7 == 0xCA0001#32 && t.pc == 0xFFFFFFD4#32) = true ∧
    leaves (step (machine 0x1000000#32 [] [] [] [0xB816#16]))
      (fun t => t.pc == 0x1002#32) = true := by decide

theorem test_step_dsp_1 :
    leaves (step (machine 0x1000000#32 [(0#6, 0x12344321#32), (1#6, 0x56788765#32)] [(11, 0x11112222#32), (12, 0x33334444#32)] [] [0xCE01#16, 0x0100#16]))
      (fun t => t.gpr[11] == 0x11112222#32 && t.gpr[12] == 0x4B7CE305#32 && t.pc == 0x1004#32 && t.sr == 0x1120000#32) = true ∧
    leaves (step (machine 0x1000000#32 [(0#6, 0x12344321#32), (1#6, 0x56788765#32)] [(11, 0x11112222#32), (12, 0x33334444#32)] [] [0xCE01#16, 0x0104#16]))
      (fun t => t.gpr[11] == 0x62620AD#32 && t.gpr[12] == 0x4B7CE305#32 && t.pc == 0x1004#32 && t.sr == 0x1120000#32) = true ∧
    leaves (step (machine 0x1000000#32 [(0#6, 0x12344321#32), (1#6, 0x56788765#32)] [(11, 0x11112222#32), (12, 0x33334444#32)] [] [0xCE01#16, 0x0106#16]))
      (fun t => t.gpr[11] == 0x62620AD#32 && t.gpr[12] == 0x4B7CE305#32 && t.pc == 0x1004#32 && t.sr == 0x1120000#32) = true ∧
    leaves (step (machine 0x1000000#32 [(0#6, 0x12344321#32), (1#6, 0x56788765#32)] [(11, 0x11112222#32), (12, 0x33334444#32)] [] [0xCE01#16, 0x010A#16]))
      (fun t => t.gpr[11] == 0x11112222#32 && t.gpr[12] == 0x7EB02749#32 && t.pc == 0x1004#32 && t.sr == 0x1120000#32) = true ∧
    leaves (step (machine 0x1000000#32 [(0#6, 0x12344321#32), (1#6, 0x56788765#32)] [(11, 0x11112222#32), (12, 0x33334444#32)] [] [0xCE01#16, 0x010E#16]))
      (fun t => t.gpr[11] == 0x173742CF#32 && t.gpr[12] == 0x7EB02749#32 && t.pc == 0x1004#32 && t.sr == 0x1120000#32) = true ∧
    leaves (step (machine 0x1000000#32 [(0#6, 0x12344321#32), (1#6, 0x56788765#32)] [(11, 0x11112222#32), (12, 0x33334444#32)] [] [0xCE01#16, 0x011A#16]))
      (fun t => t.gpr[11] == 0x11112222#32 && t.gpr[12] == 0xE7B6613F#32 && t.pc == 0x1004#32 && t.sr == 0x1120000#32) = true := by decide

theorem test_step_dsp_2 :
    leaves (step (machine 0x1000000#32 [(0#6, 0x12344321#32), (1#6, 0x56788765#32)] [(11, 0x11112222#32), (12, 0x33334444#32)] [] [0xCE01#16, 0x011E#16]))
      (fun t => t.gpr[11] == 0xAEB0174#32 && t.gpr[12] == 0xE7B6613F#32 && t.pc == 0x1004#32 && t.sr == 0x1120000#32) = true ∧
    leaves (step (machine 0x1000000#32 [(0#6, 0x12344321#32), (1#6, 0x56788765#32)] [(11, 0x11112222#32), (12, 0x33334444#32)] [] [0xCE01#16, 0x002A#16]))
      (fun t => t.gpr[11] == 0x11112222#32 && t.gpr[12] == 0x19B927A9#32 && t.pc == 0x1004#32 && t.sr == 0x1120000#32) = true ∧
    leaves (step (machine 0x1000000#32 [(0#6, 0x12344321#32), (1#6, 0x56788765#32)] [(11, 0x11112222#32), (12, 0x33334444#32)] [] [0xCE01#16, 0x002E#16]))
      (fun t => t.gpr[11] == 0x11112222#32 && t.gpr[12] == 0x19B927A9#32 && t.pc == 0x1004#32 && t.sr == 0x1120000#32) = true ∧
    leaves (step (machine 0x1000000#32 [(0#6, 0x12344321#32), (1#6, 0x56788765#32)] [(11, 0x11112222#32), (12, 0x33334444#32)] [] [0xCE01#16, 0x0046#16]))
      (fun t => t.gpr[11] == 0x25C61D5B#32 && t.gpr[12] == 0xE1927FC#32 && t.pc == 0x1004#32 && t.sr == 0x1120000#32) = true ∧
    leaves (step (machine 0x1000000#32 [(0#6, 0x12344321#32), (1#6, 0x56788765#32)] [(11, 0x11112222#32), (12, 0x33334444#32)] [] [0xCE01#16, 0x004E#16]))
      (fun t => t.gpr[11] == 0x36D73F7D#32 && t.gpr[12] == 0x414C6C40#32 && t.pc == 0x1004#32 && t.sr == 0x1120000#32) = true ∧
    leaves (step (machine 0x1000000#32 [(0#6, 0x12344321#32), (1#6, 0x56788765#32)] [(11, 0x11112222#32), (12, 0x33334444#32)] [] [0xCE01#16, 0x0086#16]))
      (fun t => t.gpr[11] == 0x34568765#32 && t.gpr[12] == 0xF012FEDD#32 && t.pc == 0x1004#32 && t.sr == 0x1120000#32) = true := by decide

theorem test_step_dsp_3 :
    leaves (step (machine 0x1000000#32 [(0#6, 0x12344321#32), (1#6, 0x56788765#32)] [(11, 0x11112222#32), (12, 0x33334444#32)] [] [0xCE01#16, 0x0096#16]))
      (fun t => t.gpr[11] == 0x3456A987#32 && t.gpr[12] == 0xF012DCBB#32 && t.pc == 0x1004#32 && t.sr == 0x1120000#32) = true := by decide

theorem test_step_sets_1 :
    leaves (step (machine 0x1000000#32 [(0#6, 0x5#32)] [] [] [0xBA02#16]))
      (fun t => t.getLocal 0 == 0x1#32 && flagsOf t == 0#4) = true ∧
    leaves (step (machine 0x1000000#32 [(0#6, 0x5#32)] [] [] [0xBA03#16]))
      (fun t => t.getLocal 0 == 0x0#32 && flagsOf t == 0#4) = true ∧
    leaves (step (machine 0x1000000#32 [(0#6, 0x5#32)] [] [] [0xBB02#16]))
      (fun t => t.getLocal 0 == 0xFFFFFFFF#32 && flagsOf t == 0#4) = true ∧
    leaves (step (machine 0x1000004#32 [(0#6, 0x5#32)] [] [] [0xBA04#16]))
      (fun t => t.getLocal 0 == 0x1#32 && flagsOf t == 4#4) = true ∧
    leaves (step (machine 0x1000000#32 [(0#6, 0x5#32)] [] [] [0xBA04#16]))
      (fun t => t.getLocal 0 == 0x0#32 && flagsOf t == 0#4) = true ∧
    leaves (step (machine 0x1000000#32 [(0#6, 0x5#32)] [] [] [0xBA05#16]))
      (fun t => t.getLocal 0 == 0x1#32 && flagsOf t == 0#4) = true := by decide

theorem test_step_sets_2 :
    leaves (step (machine 0x1000002#32 [(0#6, 0x5#32)] [] [] [0xBA05#16]))
      (fun t => t.getLocal 0 == 0x0#32 && flagsOf t == 2#4) = true ∧
    leaves (step (machine 0x1000004#32 [(0#6, 0x5#32)] [] [] [0xBA06#16]))
      (fun t => t.getLocal 0 == 0x1#32 && flagsOf t == 4#4) = true ∧
    leaves (step (machine 0x1000004#32 [(0#6, 0x5#32)] [] [] [0xBA07#16]))
      (fun t => t.getLocal 0 == 0x0#32 && flagsOf t == 4#4) = true ∧
    leaves (step (machine 0x1000001#32 [(0#6, 0x5#32)] [] [] [0xBA08#16]))
      (fun t => t.getLocal 0 == 0x1#32 && flagsOf t == 1#4) = true ∧
    leaves (step (machine 0x1000000#32 [(0#6, 0x5#32)] [] [] [0xBA09#16]))
      (fun t => t.getLocal 0 == 0x1#32 && flagsOf t == 0#4) = true ∧
    leaves (step (machine 0x1000001#32 [(0#6, 0x5#32)] [] [] [0xBA0A#16]))
      (fun t => t.getLocal 0 == 0x1#32 && flagsOf t == 1#4) = true := by decide

theorem test_step_sets_3 :
    leaves (step (machine 0x1000001#32 [(0#6, 0x5#32)] [] [] [0xBA0B#16]))
      (fun t => t.getLocal 0 == 0x0#32 && flagsOf t == 1#4) = true ∧
    leaves (step (machine 0x1000002#32 [(0#6, 0x5#32)] [] [] [0xBA0C#16]))
      (fun t => t.getLocal 0 == 0x1#32 && flagsOf t == 2#4) = true ∧
    leaves (step (machine 0x1000002#32 [(0#6, 0x5#32)] [] [] [0xBA0D#16]))
      (fun t => t.getLocal 0 == 0x0#32 && flagsOf t == 2#4) = true ∧
    leaves (step (machine 0x1000008#32 [(0#6, 0x5#32)] [] [] [0xBA0E#16]))
      (fun t => t.getLocal 0 == 0x1#32 && flagsOf t == 8#4) = true ∧
    leaves (step (machine 0x1000008#32 [(0#6, 0x5#32)] [] [] [0xBA0F#16]))
      (fun t => t.getLocal 0 == 0x0#32 && flagsOf t == 8#4) = true ∧
    leaves (step (machine 0x1000002#32 [(0#6, 0x5#32)] [] [] [0xBB04#16]))
      (fun t => t.getLocal 0 == 0xFFFFFFFF#32 && flagsOf t == 2#4) = true := by decide

theorem test_step_sets_4 :
    leaves (step (machine 0x1000000#32 [(0#6, 0x5#32)] [] [] [0xBB05#16]))
      (fun t => t.getLocal 0 == 0xFFFFFFFF#32 && flagsOf t == 0#4) = true ∧
    leaves (step (machine 0x1000004#32 [(0#6, 0x5#32)] [] [] [0xBB06#16]))
      (fun t => t.getLocal 0 == 0xFFFFFFFF#32 && flagsOf t == 4#4) = true ∧
    leaves (step (machine 0x1000000#32 [(0#6, 0x5#32)] [] [] [0xBB07#16]))
      (fun t => t.getLocal 0 == 0xFFFFFFFF#32 && flagsOf t == 0#4) = true ∧
    leaves (step (machine 0x1000002#32 [(0#6, 0x5#32)] [] [] [0xBB08#16]))
      (fun t => t.getLocal 0 == 0xFFFFFFFF#32 && flagsOf t == 2#4) = true ∧
    leaves (step (machine 0x1000000#32 [(0#6, 0x5#32)] [] [] [0xBB09#16]))
      (fun t => t.getLocal 0 == 0xFFFFFFFF#32 && flagsOf t == 0#4) = true ∧
    leaves (step (machine 0x1000001#32 [(0#6, 0x5#32)] [] [] [0xBB0A#16]))
      (fun t => t.getLocal 0 == 0xFFFFFFFF#32 && flagsOf t == 1#4) = true := by decide

theorem test_step_sets_5 :
    leaves (step (machine 0x1000000#32 [(0#6, 0x5#32)] [] [] [0xBB0B#16]))
      (fun t => t.getLocal 0 == 0xFFFFFFFF#32 && flagsOf t == 0#4) = true ∧
    leaves (step (machine 0x1000002#32 [(0#6, 0x5#32)] [] [] [0xBB0C#16]))
      (fun t => t.getLocal 0 == 0xFFFFFFFF#32 && flagsOf t == 2#4) = true ∧
    leaves (step (machine 0x1000000#32 [(0#6, 0x5#32)] [] [] [0xBB0D#16]))
      (fun t => t.getLocal 0 == 0xFFFFFFFF#32 && flagsOf t == 0#4) = true ∧
    leaves (step (machine 0x1000008#32 [(0#6, 0x5#32)] [] [] [0xBB0E#16]))
      (fun t => t.getLocal 0 == 0xFFFFFFFF#32 && flagsOf t == 8#4) = true ∧
    leaves (step (machine 0x1000000#32 [(0#6, 0x5#32)] [] [] [0xBB0F#16]))
      (fun t => t.getLocal 0 == 0xFFFFFFFF#32 && flagsOf t == 0#4) = true ∧
    leaves (step (machine 0x1000000#32 [] [] [] [0xBA00#16]))
      (fun t => t.getLocal 0 == 0x8000#32) = true := by decide

theorem test_step_sets_6 :
    leaves (step { (machine 0x8D000000#32 [] [] [] [0xBA30#16]) with sp := 0x8100#32 })
      (fun t => t.getLocal 9 == 0x8118#32) = true := by decide

theorem test_step_branches_1 :
    leaves (step (machine 0x1000012#32 [] [] [] [0xF208#16]))
      (fun t => t.pc == 0x100A#32) = true ∧
    leaves (step (machine 0x1000010#32 [] [] [] [0xF208#16]))
      (fun t => t.pc == 0x1002#32) = true ∧
    leaves (step (machine 0x1000000#32 [] [] [] [0xF301#16]))
      (fun t => t.pc == 0xF82#32) = true ∧
    leaves (step (machine 0x1000000#32 [] [] [] [0xFC7E#16]))
      (fun t => t.pc == 0x1080#32) = true ∧
    leaves (step (machine 0x1000000#32 [] [] [] [0xFC80#16, 0x0080#16]))
      (fun t => t.pc == 0x1084#32) = true ∧
    leaves (step (machine 0x1000002#32 [] [] [] [0xFB80#16, 0x1000#16]))
      (fun t => t.pc == 0x1004#32) = true := by decide

theorem test_step_branches_2 :
    leaves (step (machine 0x1000008#32 [] [] [] [0xF004#16]))
      (fun t => t.pc == 0x1006#32) = true ∧
    leaves (step (machine 0x1000008#32 [] [] [] [0xF104#16]))
      (fun t => t.pc == 0x1002#32) = true ∧
    leaves (step (machine 0x1000002#32 [] [] [] [0xF304#16]))
      (fun t => t.pc == 0x1002#32) = true ∧
    leaves (step (machine 0x1000001#32 [] [] [] [0xF404#16]))
      (fun t => t.pc == 0x1006#32) = true ∧
    leaves (step (machine 0x1000001#32 [] [] [] [0xF504#16]))
      (fun t => t.pc == 0x1002#32) = true ∧
    leaves (step (machine 0x1000002#32 [] [] [] [0xF604#16]))
      (fun t => t.pc == 0x1006#32) = true := by decide

theorem test_step_branches_3 :
    leaves (step (machine 0x1000002#32 [] [] [] [0xF704#16]))
      (fun t => t.pc == 0x1002#32) = true ∧
    leaves (step (machine 0x1000000#32 [] [] [] [0xF704#16]))
      (fun t => t.pc == 0x1006#32) = true ∧
    leaves (step (machine 0x1000004#32 [] [] [] [0xF804#16]))
      (fun t => t.pc == 0x1006#32) = true ∧
    leaves (step (machine 0x1000004#32 [] [] [] [0xF904#16]))
      (fun t => t.pc == 0x1002#32) = true ∧
    leaves (step (machine 0x1000002#32 [] [] [] [0xFA04#16]))
      (fun t => t.pc == 0x1006#32) = true ∧
    leaves (step (machine 0x1000004#32 [] [] [] [0xFB04#16]))
      (fun t => t.pc == 0x1002#32) = true := by decide

theorem test_step_traps_1 :
    leaves (step (machine 0x14800001#32 [] [] [] [0xFF17#16]))
      (fun t => t.getLocal 14 == 0x1002#32 && t.getLocal 15 == 0x14880001#32 && t.pc == 0xFFFFFF14#32) = true ∧
    leaves (step (machine 0x78000000#32 [] [] [] [0xFF17#16]))
      (fun t => t.getLocal 12 == 0x1002#32 && t.getLocal 13 == 0x78080000#32) = true ∧
    leaves (step (machine 0x1000000#32 [] [] [] [0xFF1C#16]))
      (fun t => t.pc == 0x1002#32) = true ∧
    leaves (step (machine 0x1000002#32 [] [] [] [0xFF1C#16]))
      (fun t => t.getLocal 8 == 0x1002#32 && t.getLocal 9 == 0x1080002#32 && t.pc == 0xFFFFFF1C#32) = true ∧
    leaves (step (machine 0x1000004#32 [] [] [] [0xFD00#16]))
      (fun t => t.getLocal 9 == 0x1080004#32 && t.pc == 0xFFFFFF00#32) = true ∧
    leaves (step (machine 0x1000000#32 [] [] [] [0xFEFD#16]))
      (fun t => t.pc == 0xFFFFFFFC#32) = true := by decide

theorem test_step_traps_2 :
    leaves (step (machine 0x1000000#32 [] [] [] [0xFD95#16]))
      (fun t => t.pc == 0xFFFFFF94#32 && t.getLocal 8 == 0x1002#32 && t.getLocal 9 == 0x1080000#32) = true ∧
    leaves (step (machine 0x1000000#32 [] [] [] [0xFE96#16]))
      (fun t => t.pc == 0x1002#32 && t.getLocal 8 == 0x0#32) = true := by decide

theorem test_step_frames_1 :
    leaves (step (machine 0x1000000#32 [(0#6, 0x2001#32), (1#6, 0x1000000#32)] [] [] [0x0500#16]))
      (fun t => t.getLocal 8 == 0x2001#32 && t.getLocal 9 == 0x1040000#32 && t.pc == 0xFFFFFFF0#32) = true ∧
    leaves (step (machine 0x1040000#32 [(0#6, 0x2000#32), (1#6, 0x1008000#32)] [] [] [0x0500#16]))
      (fun t => t.getLocal 8 == 0x2000#32 && t.getLocal 9 == 0x1008000#32) = true ∧
    leaves (step (machine 0x14C00010#32 [] [] [] [0xED82#16]))
      (fun t => t.sr == 0x110A0000#32) = true ∧
    leaves (step (machine 0x14C00000#32 [] [] [] [0xED00#16]))
      (fun t => t.sr == 0x140A0000#32 && t.sp == 0x8000#32) = true ∧
    leaves (step (machine 0x1000000#32 [] [] [] [0xEE61#16, 0x1010#16]))
      (fun t => t.pc == 0x1010#32 && t.getLocal 6 == 0x1004#32 && t.getLocal 7 == 0x1100000#32) = true := by decide

theorem test_step_software_1 :
    leaves (step { (machine 0x28C00001#32 [(24#6, 0xAAAAAAAA#32), (25#6, 0xBBBBBBBB#32)] [] [] [0xC024#16]) with sp := 0x1040#32 })
      (fun t => t.getLocal 26 == 0x1058#32 && t.getLocal 27 == 0xAAAAAAAA#32 && t.getLocal 28 == 0xBBBBBBBB#32 && t.getLocal 29 == 0x1002#32 && t.getLocal 30 == 0x28C80001#32 && t.pc == 0xFFFFFE00#32) = true ∧
    leaves (step { (machine 0x28C00000#32 [] [] [] [0xCF24#16]) with sp := 0x1040#32 })
      (fun t => t.getLocal 30 == 0x28C80000#32 && t.pc == 0xFFFFFEF0#32) = true ∧
    leaves (step { (machine 0xC00000#32 [] [] [] [0xC902#16]) with mcr := 0xFFFF8FFF#32 })
      (fun t => t.getLocal 6 == 0x8000#32 && t.getLocal 9 == 0x1002#32 && t.getLocal 10 == 0xC80000#32 && t.pc == 0x16C#32) = true ∧
    leaves (step { (machine 0x1000000#32 [] [] [] [0xC245#16]) with mcr := 0xFFFFFFFF#32 })
      (fun t => t.pc == 0xFFFFFE20#32 && t.getLocal 8 == 0x8010#32 && t.getLocal 11 == 0x1002#32 && t.getLocal 12 == 0x1080000#32) = true ∧
    leaves (step { (machine 0x1000000#32 [] [] [] [0xC545#16]) with mcr := 0xFFFFFFFF#32 })
      (fun t => t.pc == 0xFFFFFE50#32) = true ∧
    leaves (step { (machine 0x1000000#32 [] [] [] [0xCD45#16]) with mcr := 0xFFFFFFFF#32 })
      (fun t => t.pc == 0xFFFFFED0#32) = true := by decide

theorem test_step_delayed_1 :
    leaves (step (machine 0x1000000#32 [] [] [] [0xEC10#16]))
      (fun t => t.pc == 0x1012#32) = true ∧
    leaves (step (machine 0x1000000#32 [] [] [] [0xE210#16]))
      (fun t => t.pc == 0x1002#32) = true ∧
    leaves (step (machine 0x1000000#32 [] [] [] [0xE310#16]))
      (fun t => t.pc == 0x1012#32) = true := by decide

/-- The I/O space: an access is recorded, memory is not touched (R101, D15). -/
theorem test_step_io :
    leaves (step (machine 0x01000000#32 [(0#6, 0x2000#32), (2#6, 7#32)] [] [] [0x9B02#16, 0x300A#16]))
      (fun t => t.ioTrace == [.write 0x2008#32 7#32] && wordAt t 0x2008#32 == 0#32) = true ∧
    leaves (step (machine 0x01000000#32 [(2#6, 7#32)] [] [] [0x9112#16, 0x3043#16]))
      (fun t => t.ioTrace == [.read 0x44#32, .read 0x40#32] && t.pc == 0x1004#32) = true := by decide

/-- A user MOV to a high global register is a Privilege Error, a supervisor's writes it (R33, R546). -/
theorem test_step_high_registers :
    leaves (step (machine 0x01040020#32 [(2#6, 0x5000#32)] [] [] [0x2522#16])) (fun t => t.sp == 0x5000#32) = true ∧
    leaves (step (machine 0x01000020#32 [(2#6, 0x5000#32)] [] [] [0x2522#16]))
      (fun t => t.sp == 0x8000#32 && t.pc == 0xFFFFFFF0#32) = true := by decide

/-- The reset state executes what `withFetchWord` places at FFFFFFF8 (R62). -/
theorem test_step_from_reset :
    leaves (step (State.reset.withFetchWord 16 0x6605)) (fun t => t.getLocal 0 == 5#32 && t.pc == 0xFFFFFFFA#32) = true := by
  decide

/-- The meaning is refused under this name. -/
def refuses (r : Result) (x : Refusal) : Bool :=
  match r with
  | .next _ => false
  | .fault _ => false
  | .refused y => y == x

/-- A stack bound with low bits set (I2.16). -/
theorem test_refuses_misaligned_stack :
    refuses (exec (.movi (.glob 2#4) (.word 0x5002#32)) { idle with sr := 0x01040020#32 }) .stackAlignment = true ∧
    refuses (exec (.movi (.glob 3#4) (.word 0x5001#32)) { idle with sr := 0x01040020#32 }) .stackAlignment = true := by decide

/-- SET0 with Rd-code 1: of G17 in the window a user's Privilege Error, else FETCH with odd n, refused (R406, I2.8). -/
theorem test_step_set_of_a_high_register :
    leaves (step (machine 0x01000020#32 [] [] [] [0xB813#16])) (fun t => t.pc == 0xFFFFFFF0#32) = true ∧
    refuses (step (machine 0x01040020#32 [] [] [] [0xB813#16])) .highGlobalWindow = true ∧
    refuses (step (machine 0x01000000#32 [] [] [] [0xB813#16])) (.undefinedEncoding (.oddFetch 3#5)) = true := by decide

/-- What is in the cache from 00001000 to 00001020: forward two words more are (R130). -/
theorem test_in_cache :
    let s := { idle with lookBack := 0x1000#32, lookAhead := 0x1020#32 }
    s.inCache true 0x1000#32 = true ∧ s.inCache true 0xFFE#32 = false ∧ s.inCache false 0x102A#32 = true ∧
    s.inCache false 0x102C#32 = false := by decide

/-- A branch of two halfwords flushes even where its target is in the cache (R130); 32 words are held at most (R127). -/
theorem test_cache_flush :
    leaves (exec (.br (.long 3#23)) { idle with lookBack := 0x1000#32, lookAhead := 0x1020#32, stale := [(0x1008, 1#16)] })
      (fun t => t.lookBack == 0x1008#32 && t.lookAhead == 0x1008#32 && t.stale == []) = true ∧
    ({ idle with lookBack := 0x1000#32, lookAhead := 0x107C#32 }.cachedTo 0x1080#32).lookBack = 0x1004#32 := by decide

/-- FCR(17) = 0 locks from the first access on; another master then writes no more (R125, R165). -/
theorem test_bus_lock :
    let pins : Pins := { int := 0#4, io := 0#3, grant := true }
    let i : Input := { pins := pins, cycles := 0, parity := 0#4, reset := false, dma := [(0x3000#32, 9#8)] }
    let s := { withLocals idle [(0, 0x2000#32)] with fcr := 0xFFFDFFFF#32 }
    (s.receive i).readByte .external 0x3000#32 = 9#8 ∧
    leaves (exec (.ldwR 0#4 (.loc 1#4)) s) (fun t => t.busLock && (t.receive i).readByte .external 0x3000#32 == 0#8) = true := by
  decide

/-- Another bus master writes between the two words: LDD.R L0, L2 of 2000 takes the first word as it was and the second as it is
then, STD.R leaves what was written over its first word and stores its second over the rest (R109, R238). -/
theorem test_double_words_are_two_accesses :
    let s := { withLocals idle [(0, 0x2000#32), (2, 0x11111111#32), (3, 0x22222222#32)] with
      pins := { int := 0#4, io := 0#3, grant := true }, between := [(0x2003#32, 7#8), (0x2007#32, 9#8)] }
    leaves (exec (.lddR 0#4 (.loc 4#4)) s)
      (fun t => t.lr 4 == 0#32 && t.lr 5 == 9#32 && t.readWord .external 0x2000#32 == 7#32) = true ∧
    leaves (exec (.stdR 0#4 (.loc 2#4)) s)
      (fun t => t.readWord .external 0x2000#32 == 0x11111107#32 && t.readWord .external 0x2004#32 == 0x22222222#32) = true ∧
    leaves (exec (.lddR 0#4 (.loc 4#4)) { s with fcr := 0xFFFDFFFF#32 }) (fun t => t.lr 5 == 0#32) = true ∧
    leaves (exec (.lddR 0#4 (.loc 4#4)) { s with pins := { s.pins with grant := false } }) (fun t => t.lr 5 == 0#32) = true := by
  decide

/-- A supervisor's MOV WCR, L0 of 12345678 keeps 5678 and leaves the upper half open, of 00005678 not; a capture of TR, and it reads
as zero again (R56, R566, I7.2). -/
theorem test_wcr_upper_half :
    let s := { idle with sr := 0x01040020#32 }
    let captures := { s with fcr := 0xFFFFDFFF#32, wcrUpperOpen := true, tr := 0xABCD1234#32, pins := { int := 0#4, io := 4#3 } }
    leaves (exec (.mov (.glob 8#4) (.loc 0#4)) (withLocals s [(0, 0x12345678#32)]))
      (fun t => t.wcr == 0x5678#32 && t.wcrUpperOpen) = true ∧
    leaves (exec (.mov (.glob 8#4) (.loc 0#4)) (withLocals { s with wcrUpperOpen := true } [(0, 0x5678#32)]))
      (fun t => t.readWcr == 0x5678#32) = true ∧
    (captures.evalIO3 false).readWcr = 0x1234#32 := by decide

/-- A word of code fetched from external memory is an access that locks, also by FETCH; from the IRAM it is none (R128, R165). -/
theorem test_fetch_locks_the_bus :
    let s := { idle with fcr := 0xFFFDFFFF#32, lookBack := 0x1000#32, lookAhead := 0x1000#32 }
    (s.cachedTo 0x1004#32).busLock = true ∧ (s.cachedTo 0x1000#32).busLock = false ∧
    ({ s with fcr := 0xFFFFFFFF#32 }.cachedTo 0x1004#32).busLock = false ∧
    ({ s with lookBack := 0xC0000100#32, lookAhead := 0xC0000100#32 }.cachedTo 0xC0000104#32).busLock = false ∧
    leaves (exec (.fetch 15#4) s)
      (fun t => t.busLock && t.lookAhead == 0x1020#32) = true := by decide

/-- The delay instruction at 00001004 of a short DBR at 00001002 that left the cache is read from it. After a flush it was read
before, which leaves the bus lock alone, and that where the prefetch had not reached it (R129, R130, R165). -/
theorem test_delay_instruction_is_cached :
    let s := { withCode idle 0x1004#32 [0x0300#16] with
      pc := 0x1010#32, sr := 0x01080000#32, delayPending := true, delayAddr := 0x1004#32, afterDelayedBranch := true,
      lookBack := 0x1000#32, lookAhead := 0x1000#32 }
    s.fetchAhead.lookAhead = 0x1004#32 ∧
    (let u := { s with lookBack := 0x800#32, lookAhead := 0x800#32, slotAhead := some 0x1000#32, fcr := 0xFFFDFFFF#32 }
     u.fetchAhead.lookAhead = 0x800#32 ∧ u.fetchAhead.busLock = true ∧
       { u with slotAhead := some 0x1004#32 }.fetchAhead.busLock = false) := by decide

/-- A short DBR whose forward target is out of the cache leaves the cache with M = 1 and flushes it with M = 0; a flush keeps what was
fetched of the delay instruction (R130, R131). -/
theorem test_delayed_branch_cache :
    let s := { idle with lookBack := 0x1000#32, lookAhead := 0x1004#32 }
    leaves (exec (.dbr (.short 0x20#7)) s)
      (fun t => t.lookAhead == alignWord t.pc && t.slotAhead == some 0x1004#32) = true ∧
    leaves (exec (.dbr (.short 0x20#7)) { s with sr := setM s.sr true })
      (fun t => t.lookAhead == 0x1004#32 && t.slotAhead == none) = true := by decide

/-- The IRAM keeps what was written; a program that reads what refresh does not guarantee is flagged (R112, I20). -/
theorem test_iram_guarantees :
    let on := (withLocals { idle with mcr := 0xFFF8FFFF#32 } [(0, 0xC0000010#32)]).writeWord .iram 0xC0000010#32 7#32
    let off := (withLocals idle [(0, 0xC0000010#32)]).writeWord .iram 0xC0000010#32 7#32
    leaves (exec (.ldwR 0#4 (.loc 1#4)) on) (fun t => t.getLocal 1#6 == 7#32 && !t.iramRelied) = true ∧
    leaves (exec (.ldwR 0#4 (.loc 1#4)) off) (fun t => t.getLocal 1#6 == 7#32 && t.iramRelied) = true ∧
    leaves (exec (.ldwR 0#4 (.loc 1#4)) ((on.writeMcr 0xFFFFFFFF#32).writeMcr 0xFFF8FFFF#32))
      (fun t => t.getLocal 1#6 == 7#32 && t.iramRelied) = true := by decide

/-- Memory that is not fitted takes no store; the IRAM always is (R7, R106). -/
theorem test_absent_memory :
    let s := { idle with platform := { part := .gms30c2116, absent := [(0x800, 0x8FF), (0x30000000, 0x300003FF)] } }
    (s.writeWord .external 0x2000#32 7#32).mem = [] ∧ (s.writeWord .external 0x2400#32 7#32).mem = [(0x2403, 7#8)] ∧
    (s.writeWord .iram 0xC0000000#32 7#32).mem = [(0xC0000003, 7#8)] := by decide

/-- What leaves the chip of each part (R6, R59, R107). -/
theorem test_bus_of_the_parts :
    let small : Platform := { part := .gms30c2116, absent := [] }
    let large : Platform := { part := .gms30c2132, absent := [] }
    busWidth 0xFFFFFFFF#32 3 = some 8 ∧ busWidth 0#32 0 = some 32 ∧ busWidth 0x8#32 1 = some 16 ∧
    small.servesBus 0#32 0 = false ∧ small.servesBus 0x8#32 1 = true ∧ large.servesBus 0#32 0 = true ∧
    small.busAddress 0x80400004#32 = 4 ∧ large.busAddress 0x84000004#32 = 4 := by decide

/-! ### Witnesses: concrete states and operands that meet the hypotheses of each statement, clause by clause -/

/-- The next instruction is NOP. -/
def atNop : State := machine 0x01000000#32 [] [] [] [0x0300#16]

/-- The H window is open, in user and in supervisor state. -/
def userWindow : State := { idle with sr := 0x01000020#32 }
def supervisorWindow : State := { idle with sr := 0x01040020#32 }

/-- A delayed branch of `len` halfwords to 00003000 was taken; the delay instruction stands at 00001002. -/
def inDelaySlot (len : BitVec 2) (code : List Half) : State :=
  { withCode idle 0x1002#32 code with
    pc := 0x3000#32, sr := setILC idle.sr len, delayPending := true, delayAddr := 0x1002#32, afterDelayedBranch := true }

/-- Locals L0 and L1 hold addresses. -/
def pointing : State := withLocals idle [(0, 0x2000#32), (1, 0xC0000002#32), (2, 0x80000000#32)]

theorem next_of_leaves {r : Result} {p : State → Bool} (h : leaves r p = true) : ∃ t, r = .next t := by
  cases r with
  | next t => exact ⟨t, rfl⟩
  | fault f => cases h
  | refused f => cases h

/-- An instruction of one halfword, and one of three with the PC as source. -/
theorem witness_EncodedInstructionsDecodeBack :
    Instr.wf (.mov (.loc 0#4) (.loc 6#4)) = true ∧ Instr.wf (.stdD (.loc 0#4) (.glob 0#4) (.long 0x1FFFFFFC#29)) = true := by
  decide

theorem witness_DecodedInstructionsEncodeBack :
    decode 0x2706#16 0#16 0#16 = .ok (.mov (.loc 0#4) (.loc 6#4)) ∧
    decode 0x6701#16 0xFFFF#16 0xFFFF#16 = .ok (.movi (.loc 0#4) (.word 0xFFFFFFFF#32)) := by decide

theorem invariant_at_nop : Inv atNop := by constructor <;> decide

theorem invariant_in_delay_slot : Inv (inDelaySlot 1#2 [0x0300#16]) := by constructor <;> decide

theorem witness_StepKeepsTheInvariant :
    (∃ t, Inv atNop ∧ step atNop = .next t) ∧
    (∃ t, Inv (inDelaySlot 1#2 [0x0300#16]) ∧ step (inDelaySlot 1#2 [0x0300#16]) = .next t) := by
  have h1 : leaves (step atNop) (fun t => t.pc == 0x1002#32) = true := by decide
  have h2 : leaves (step (inDelaySlot 1#2 [0x0300#16])) (fun t => t.pc == 0x3000#32) = true := by decide
  obtain ⟨t, ht⟩ := next_of_leaves h1
  obtain ⟨u, hu⟩ := next_of_leaves h2
  exact ⟨⟨t, invariant_at_nop, ht⟩, ⟨u, invariant_in_delay_slot, hu⟩⟩

/-- NOP at the PC; and as delay instruction after a Delayed Branch of one and of two halfwords, ADDI with an immediate halfword
(the longest the pair admits) after the shorter. -/
theorem witness_StepRunsTheDecodedInstruction :
    (let u := atNop.takeInput
     u.resetRequest = false ∧ u.powerDown = false ∧ u.pending = none ∧ u.fetch = .ok .nop ∧ u.stale = [] ∧
       u.delayPending = false ∧
       decode (u.readHalf (regionOf u.pc) u.pc) (u.readHalf (regionOf (u.pc + 2#32)) (u.pc + 2#32))
         (u.readHalf (regionOf (u.pc + 4#32)) (u.pc + 4#32)) = .ok .nop) ∧
    (let u := (inDelaySlot 1#2 [0x6B02#16, 0x0120#16]).takeInput
     u.resetRequest = false ∧ u.powerDown = false ∧ u.pending = none ∧ u.stale = [] ∧ u.delayPending = true ∧
       srILC u.sr = 1#2 ∧ (Instr.addi (.loc 0#4) (.low 0x0120#16)).length ≤ 2 ∧
       ∀ h, decode (u.readHalf (regionOf u.delayAddr) u.delayAddr)
         (u.readHalf (regionOf (u.delayAddr + 2#32)) (u.delayAddr + 2#32)) h = .ok (.addi (.loc 0#4) (.low 0x0120#16))) ∧
    (let u := (inDelaySlot 2#2 [0x0300#16]).takeInput
     u.resetRequest = false ∧ u.powerDown = false ∧ u.pending = none ∧ u.stale = [] ∧ u.delayPending = true ∧
       srILC u.sr = 2#2 ∧ ∀ h h', decode (u.readHalf (regionOf u.delayAddr) u.delayAddr) h h' = .ok .nop) := by
  refine ⟨by decide, ⟨by decide, by decide, by decide, by decide, by decide, by decide, by decide, ?_⟩,
    by decide, by decide, by decide, by decide, by decide, by decide, ?_⟩
  · have h1 : (inDelaySlot 1#2 [0x6B02#16, 0x0120#16]).takeInput.readHalf
        (regionOf (inDelaySlot 1#2 [0x6B02#16, 0x0120#16]).takeInput.delayAddr)
        (inDelaySlot 1#2 [0x6B02#16, 0x0120#16]).takeInput.delayAddr = 0x6B02#16 := by decide
    have h2 : (inDelaySlot 1#2 [0x6B02#16, 0x0120#16]).takeInput.readHalf
        (regionOf ((inDelaySlot 1#2 [0x6B02#16, 0x0120#16]).takeInput.delayAddr + 2#32))
        ((inDelaySlot 1#2 [0x6B02#16, 0x0120#16]).takeInput.delayAddr + 2#32) = 0x0120#16 := by decide
    intro h
    rw [h1, h2]
    rfl
  · have h1 : (inDelaySlot 2#2 [0x0300#16]).takeInput.readHalf
        (regionOf (inDelaySlot 2#2 [0x0300#16]).takeInput.delayAddr)
        (inDelaySlot 2#2 [0x0300#16]).takeInput.delayAddr = 0x0300#16 := by decide
    intro h h'
    rw [h1]
    rfl

/-- Closed window: any register but the PC, the SR among them; open window: local registers. -/
theorem witness_register_operands :
    (Reg.isPC (.glob 1#4) = false ∧ Usable [.glob 1#4, .glob 0#4] idle) ∧
    (Reg.isPC (.loc 15#4) = false ∧ Usable [.loc 15#4, .loc 0#4] userWindow) ∧
    (Reg.isPC (.glob 15#4) = false ∧ Usable [.glob 15#4, .glob 2#4] idle) := by
  unfold Usable
  decide

/-- MoveResults, LogicalResults, AddAndSubtractResults, CarryChainResults, TrappingArithmeticResults share these hypotheses. -/
theorem witness_MoveResults : Reg.isPC (.loc 0#4) = false ∧ Usable [.loc 0#4, .glob 1#4] idle := by
  unfold Usable
  decide
theorem witness_LogicalResults : Reg.isPC (.glob 1#4) = false ∧ Usable [.glob 1#4, .loc 0#4] idle := by
  unfold Usable
  decide
theorem witness_AddAndSubtractResults : Reg.isPC (.glob 2#4) = false ∧ Usable [.glob 2#4, .glob 1#4] idle := by
  unfold Usable
  decide
theorem witness_CarryChainResults : Reg.isPC (.loc 3#4) = false ∧ Usable [.loc 3#4, .loc 3#4] userWindow := by
  unfold Usable
  decide
theorem witness_TrappingArithmeticResults : Reg.isPC (.glob 1#4) = false ∧ Usable [.glob 1#4, .glob 1#4] idle := by
  unfold Usable
  decide

/-- The pair at the end of the globals, of the locals, and Rs = SR. -/
theorem witness_MovdCopiesTheHighWordFirst :
    (Reg.isPC (.glob 14#4) = false ∧ Usable [.glob 14#4, .loc 15#4] idle ∧ nextPlace (.glob 14#4) idle = some (.gpr 12) ∧
      Reg.isSR (.loc 15#4) = false ∧ nextPlace (.loc 15#4) idle = some (.loc 16#6)) ∧
    (Usable [.loc 0#4, .glob 1#4] idle ∧ nextPlace (.loc 0#4) idle = some (.loc 1#6) ∧ Reg.isSR (.glob 1#4) = true) := by
  unfold Usable
  decide

/-- Operands for which the product is defined, and the SR as Rs, for which it is not. -/
theorem witness_MultiplyResults :
    (Reg.isPC (.loc 0#4) = false ∧ Usable [.loc 0#4, .loc 2#4] idle ∧ nextPlace (.loc 0#4) idle = some (.loc 1#6) ∧
      Reg.isSR (.loc 0#4) = false ∧ Reg.isPC (.loc 2#4) = false ∧ Reg.isSR (.loc 2#4) = false) ∧
    (Usable [.glob 14#4, .glob 1#4] idle ∧ nextPlace (.glob 14#4) idle = some (.gpr 12) ∧ Reg.isSR (.glob 1#4) = true) := by
  unfold Usable
  decide

/-- 7 / 2 completes, 2^63 - 1 over 1 overflows, 0 divides nothing. -/
theorem witness_DivideResults :
    let s := withLocals idle [(1, 7#32), (2, 2#32), (4, 0x7FFFFFFF#32), (5, 0xFFFFFFFF#32), (6, 1#32)]
    Usable [.loc 0#4, .loc 2#4] s ∧ nextPlace (.loc 0#4) s = some (.loc 1#6) ∧ place (.loc 2#4) s ≠ place (.loc 0#4) s ∧
      place (.loc 2#4) s ≠ .loc 1#6 ∧ (source 1 (.loc 0#4) s ++ s.get 1 (.loc 1#6) : Double) = 7#64 ∧
      source 1 (.loc 2#4) s = 2#32 ∧
      nextPlace (.loc 4#4) s = some (.loc 5#6) ∧
      (2 : Int) ^ 31 ≤ (source 1 (.loc 4#4) s ++ s.get 1 (.loc 5#6) : Double).toInt.tdiv (source 1 (.loc 6#4) s).toInt ∧
      source 1 (.loc 3#4) s = 0#32 := by
  unfold Usable
  decide

theorem witness_SingleWordShiftResults : Reg.isPC (.glob 1#4) = false ∧ Usable [.glob 1#4] idle ∧ Usable [.loc 0#4] userWindow := by
  unfold Usable
  decide

/-- Ls apart from the pair, Ls = Ld, and Ls = Ldf across the end of the register stack. -/
theorem witness_DoubleWordShiftResults :
    (localIndex idle.sr 2 ≠ localIndex idle.sr 0 ∧ localIndex idle.sr 2 ≠ localIndex idle.sr 1) ∧
    ¬ (localIndex idle.sr 0 ≠ localIndex idle.sr 0 ∧ localIndex idle.sr 0 ≠ localIndex idle.sr 1) ∧
    (let s := { idle with sr := 0xFF000000#32 }
     localIndex s.sr 1 = localIndex s.sr (0 + 1)) := by decide

/-- Rs below, at and above the limit; Rs = PC. -/
theorem witness_IndexMoveResults :
    let s := withLocals idle [(1, 0x123#32)]
    Reg.isPC (.loc 0#4) = false ∧ Reg.isSR (.loc 0#4) = false ∧ Reg.isSR (.loc 1#4) = false ∧ Usable [.loc 0#4, .loc 1#4] s ∧
      (limValue (.short 0x124#12)).toNat > (source 2 (.loc 1#4) s).toNat ∧
      (limValue (.short 0x123#12)).toNat = (source 2 (.loc 1#4) s).toNat ∧
      (limValue (.short 0x122#12)).toNat < (source 2 (.loc 1#4) s).toNat ∧
      Usable [.loc 0#4, .glob 0#4] s ∧ Reg.isPC (.glob 0#4) = true ∧ Reg.isSR (.glob 0#4) = false := by
  unfold Usable
  decide

theorem witness_CheckOutcomes :
    Usable [.loc 0#4, .glob 0#4] idle ∧ Reg.isPC (.glob 0#4) = true ∧ Usable [.loc 0#4, .loc 1#4] userWindow ∧
    idle.window = false ∧ idle.inSlot = false ∧ source 1 (.loc 0#4) idle = 0#32 ∧ source 1 (.loc 0#4) pointing ≠ 0#32 := by
  unfold Usable
  decide

theorem witness_CompareFlags : Usable [.glob 0#4, .glob 1#4] idle ∧ Usable [.loc 0#4, .loc 15#4] userWindow := by
  unfold Usable
  decide

/-- The counts 0, 2 and 32; SETADR into a local and a global register. -/
theorem witness_LeadingZerosAndStackAddress :
    (0x80000000#32).getLsbD 31 = true ∧ (0x20000000#32).getLsbD 29 = true ∧ pointing.lr 3 = 0#32 ∧
    Reg.isPC (.glob 5#4) = false ∧ Reg.isSR (.glob 5#4) = false ∧ Usable [.glob 5#4] idle ∧
    (let s := { idle with sp := 0x8100#32 }
     s.sp.getLsbD 8 = true ∧ (srFP s.sr).getLsbD 6 = false) := by
  unfold Usable
  decide

theorem witness_SetConditionalResults :
    Reg.isPC (.loc 0#4) = false ∧ Reg.isSR (.loc 0#4) = false ∧ Usable [.loc 0#4] userWindow ∧ Usable [.glob 15#4] idle := by
  unfold Usable
  decide

theorem loadable_bounds : (∀ c, Reg.glob 2#4 = .glob c → 2 ≤ c.toNat ∧ c.toNat ≤ 12) ∧
    (∀ c, Reg.glob 12#4 = .glob c → 2 ≤ c.toNat ∧ c.toNat ≤ 12) ∧ (∀ c, Reg.glob 13#4 = .glob c → 2 ≤ c.toNat ∧ c.toNat ≤ 13) ∧
    (∀ c, Reg.loc 15#4 = .glob c → 2 ≤ c.toNat ∧ c.toNat ≤ 12) := by
  refine ⟨?_, ?_, ?_, ?_⟩ <;> intro c h <;> cases h <;> decide

/-- An external and an IRAM address register, a local one and the PC. -/
theorem witness_LoadResults :
    (∀ c, Reg.glob 13#4 = .glob c → 2 ≤ c.toNat ∧ c.toNat ≤ 13) ∧
    Usable [.loc 0#4, .glob 13#4] pointing ∧ source 2 (.loc 0#4) pointing = 0x2000#32 ∧
    source 2 (.loc 1#4) pointing = 0xC0000002#32 ∧ source 3 (.glob 0#4) pointing = 0x1006#32 ∧ pointing.window = false ∧
    pointing.lr 0 ≠ 0#32 :=
  ⟨loadable_bounds.2.2.1, by unfold Usable; decide, by decide, by decide, by decide, by decide, by decide⟩

/-- Below SP (memory) and at SP (a register) in the stack mode. -/
theorem witness_UpdatingLoadResults :
    (∀ c, Reg.loc 15#4 = .glob c → 2 ≤ c.toNat ∧ c.toNat ≤ 12) ∧
    Usable [.loc 0#4, .loc 15#4] pointing ∧ Reg.isPC (.loc 0#4) = false ∧ Reg.isSR (.loc 0#4) = false ∧
    source 2 (.loc 0#4) pointing ≠ 0#32 ∧ (source 2 (.loc 0#4) pointing).toNat < pointing.sp.toNat ∧
    (let s := withLocals idle [(0, 0x8000#32)]
     source 2 (.loc 0#4) s = s.sp ∧ place (.loc 0#4) s = .loc ((source 2 (.loc 0#4) s).extractLsb' 2 6)) ∧
    pointing.lr 0 ≠ 0#32 :=
  ⟨loadable_bounds.2.2.2, by unfold Usable; decide, by decide, by decide, by decide, by decide, by decide, by decide⟩

theorem witness_DoubleLoadResults :
    (∀ c, Reg.glob 12#4 = .glob c → 2 ≤ c.toNat ∧ c.toNat ≤ 12) ∧ nextPlace (.glob 12#4) pointing = some (.gpr 10) ∧
    Usable [.loc 0#4, .glob 12#4] pointing ∧ source 2 (.loc 0#4) pointing ≠ 0#32 ∧ Reg.isPC (.loc 0#4) = false ∧
    Reg.isSR (.loc 0#4) = false ∧ pointing.window = false ∧ pointing.lr 0 ≠ 0#32 :=
  ⟨loadable_bounds.2.1, by decide, by unfold Usable; decide, by decide, by decide, by decide, by decide, by decide⟩

theorem witness_IoAccessResults :
    (∀ c, Reg.glob 12#4 = .glob c → 2 ≤ c.toNat ∧ c.toNat ≤ 12) ∧ nextPlace (.glob 12#4) pointing = some (.gpr 10) ∧
    Usable [.loc 0#4, .glob 12#4] pointing ∧ source 2 (.loc 0#4) pointing ≠ 0#32 ∧ pointing.window = false ∧
    nextPlace (.glob 1#4) pointing = some .fer ∧ Reg.isSR (.glob 1#4) = true :=
  ⟨loadable_bounds.2.1, by decide, by unfold Usable; decide, by decide, by decide, by decide, by decide⟩

theorem witness_StoreResults :
    Memory.wf pointing.mem = true ∧ Usable [.loc 0#4, .glob 1#4] pointing ∧ source 2 (.loc 0#4) pointing ≠ 0#32 ∧
    Reg.isPC (.loc 0#4) = false ∧ Reg.isSR (.loc 0#4) = false ∧ pointing.window = false ∧ pointing.lr 1 ≠ 0#32 ∧
    outsideSigned 8 (source 2 (.loc 2#4) pointing).toInt = true ∧ outsideSigned 8 (source 2 (.loc 3#4) pointing).toInt = false := by
  unfold Usable
  decide

/-- Any pair; and the pair L0//L1 with L1 as address register, whose updated value is then the second word stored. -/
theorem witness_DoubleStoreResults :
    (Memory.wf pointing.mem = true ∧ nextPlace (.loc 2#4) pointing = some (.loc 3#6) ∧ Usable [.loc 0#4, .loc 2#4] pointing ∧
      source 2 (.loc 0#4) pointing ≠ 0#32 ∧ Reg.isPC (.loc 0#4) = false ∧ Reg.isSR (.loc 0#4) = false ∧
      pointing.window = false ∧ pointing.lr 0 ≠ 0#32) ∧
    nextPlace (.loc 0#4) pointing = some (place (.loc 1#4) pointing) := by
  unfold Usable
  decide

/-- One word below SP, and exactly at SP. -/
theorem witness_StackStoreResults :
    let s := withLocals idle [(0, 0x7FFC#32), (1, 0x8000#32)]
    Memory.wf s.mem = true ∧ Usable [.loc 0#4, .loc 2#4] s ∧ Reg.isPC (.loc 0#4) = false ∧ Reg.isSR (.loc 0#4) = false ∧
      source 2 (.loc 0#4) s ≠ 0#32 ∧ (source 2 (.loc 0#4) s).toNat < s.sp.toNat ∧
      source 2 (.loc 1#4) s ≠ 0#32 ∧ s.sp.toNat ≤ (source 2 (.loc 1#4) s).toNat := by
  unfold Usable
  decide

theorem witness_ZeroPointersFail :
    (∀ c, Reg.glob 12#4 = .glob c → 2 ≤ c.toNat ∧ c.toNat ≤ 12) ∧ (∀ c, Reg.glob 13#4 = .glob c → 2 ≤ c.toNat ∧ c.toNat ≤ 13) ∧
    Usable [.loc 0#4, .glob 12#4] idle ∧ source 2 (.loc 0#4) idle = 0#32 ∧ Reg.isPC (.loc 0#4) = false ∧
    Reg.isSR (.loc 0#4) = false ∧ nextPlace (.glob 12#4) idle = some (.gpr 10) ∧ idle.lr 0 = 0#32 :=
  ⟨loadable_bounds.2.1, loadable_bounds.2.2.1, by unfold Usable; decide, by decide, by decide, by decide, by decide, by decide⟩

/-- The last byte of external memory, the last of the IRAM's first copy, and an address whose low bits are ignored. -/
theorem witness_StoredDataReadBack :
    Memory.wf idle.mem = true ∧ (idle.cell .external 0xFFFFFFFF#32).isSome = true ∧
    (idle.cell .iram 0xC0000FFF#32).isSome = true ∧ (idle.cell .external 0x2003#32).isSome = true := by decide

/-- Each flag set and clear outside a delay slot. -/
theorem witness_BranchOutcomes :
    idle.inSlot = false ∧ srZ idle.sr = false ∧ srC idle.sr = false ∧ srN idle.sr = false ∧ srV idle.sr = false ∧
    (let s := { idle with sr := 0x0100000F#32 }
     s.inSlot = false ∧ srZ s.sr = true ∧ srC s.sr = true ∧ srN s.sr = true ∧ srV s.sr = true) := by decide

theorem witness_DelayedBranchOutcomes :
    idle.inSlot = false ∧ srZ idle.sr = false ∧ srC idle.sr = false ∧ srN idle.sr = false ∧ srV idle.sr = false ∧
    (let s := { idle with sr := 0x0100000F#32 }
     s.inSlot = false ∧ srZ s.sr = true ∧ srC s.sr = true ∧ srN s.sr = true ∧ srV s.sr = true) := by decide

/-- After a Delayed Branch taken, and after one not taken. -/
theorem witness_MisplacedDelayedBranches :
    (inDelaySlot 1#2 []).inSlot = true ∧ { idle with afterDelayedBranch := true }.inSlot = true := by decide

theorem witness_SlotRefusals :
    (inDelaySlot 1#2 []).inSlot = true ∧ (inDelaySlot 1#2 []).window = false ∧ Reg.isPC (.loc 0#4) = false ∧
    Reg.isSR (.loc 0#4) = false ∧ Reg.isPC (.glob 0#4) = true := by decide

theorem witness_PcDestinationsBranch :
    Reg.isPC (.glob 0#4) = true ∧ idle.window = false ∧ idle.inSlot = false := by decide

theorem witness_PcDestinationRefusals : Reg.isPC (.glob 0#4) = true ∧ idle.window = false := by decide

/-- The PC and the SR as Rd, and a permitted address register. -/
theorem witness_ReservedOperandRefusals :
    idle.window = false ∧ Reg.isPC (.glob 0#4) = true ∧ Reg.isSR (.glob 1#4) = true ∧ Reg.isPC (.glob 1#4) = false ∧
    Reg.isPC (.loc 0#4) = false ∧ Reg.isSR (.loc 0#4) = false := by decide

theorem witness_CallMakesAFrame :
    idle.inSlot = false ∧ Usable [.glob 1#4] idle ∧ Usable [.loc 0#4] userWindow ∧ userWindow.inSlot = false := by
  unfold Usable
  decide

theorem witness_TrapInstructionsEnter :
    idle.inSlot = false ∧ trapEntry idle.mcr 0 = some 0xFFFFFF00#32 ∧ trapEntry idle.mcr 63 = some 0xFFFFFFFC#32 ∧
    srN idle.sr = false ∧ srN (0x01000004#32) = true := by decide

theorem witness_SoftwareInstructionsEnter :
    idle.inSlot = false ∧ softEntry idle.mcr 0 = some 0xFFFFFE00#32 ∧ softEntry idle.mcr 15 = some 0xFFFFFEF0#32 := by decide

/-- MCR(14..12) at each value that has a clause, at the ends of the ranges. -/
theorem witness_EntryTablesAndReservedCodes :
    (0xFFFFFFFF#32).extractLsb' 12 3 = 7#3 ∧ ((0#32).extractLsb' 12 3).toNat ≤ 3 ∧ ((0x3000#32).extractLsb' 12 3).toNat ≤ 3 ∧
    (0x4000#32).extractLsb' 12 3 = 4#3 ∧ (0x6000#32).extractLsb' 12 3 = 6#3 ∧ { idle with mcr := 0x4000#32 }.mcr = 0x4000#32 ∧
    { idle with mcr := 0x4000#32 }.inSlot = false ∧
    (let s := { idle with mcr := 0x5000#32 }
     srN s.sr = false ∧ srZ s.sr = false ∧ srC s.sr = false ∧ s.inSlot = false) ∧
    (let s := { idle with mcr := 0x6000#32, sr := 0x0100000F#32 }
     srN s.sr = true ∧ srZ s.sr = true ∧ srC s.sr = true ∧ srV s.sr = true ∧ s.inSlot = false) := by decide

/-- No push; two words pushed below UB; the same with SP = UB. -/
theorem witness_FrameRestructuresTheStack :
    let count := fun s : State =>
      let d := (s.sp.extractLsb' 2 7 + 54#7 - ((srFP s.sr - 0#7) + 6#7)).toNat
      if 64 ≤ d then 128 - d else 0
    let s := { idle with sr := 0x64C00000#32 }
    Memory.wf idle.mem = true ∧ count { idle with sr := 0x14C00000#32 } = 0 ∧ count s = 2 ∧ s.sp.toNat < s.ub.toNat ∧
      { s with ub := 0x8000#32 }.ub.toNat ≤ s.sp.toNat := by decide

/-- A legal return without and with words to pull; a user's return to supervisor state, and one that would set L. -/
theorem witness_ReturnRestoresAndPulls :
    let s := withLocals idle [(0, 0x2000#32), (1, 0x01000000#32), (2, 0x2001#32), (3, 0x00008000#32), (5, 0xFE000000#32)]
    let count := fun b : Word => let d := (b.extractLsb' 25 7 - s.sp.extractLsb' 2 7).toNat; if 64 ≤ d then 128 - d else 0
    s.inSlot = false ∧ s.window = false ∧ Reg.isPC (.loc 0#4) = false ∧ Reg.isSR (.loc 0#4) = false ∧
      nextPlace (.loc 0#4) s = some (.loc 1#6) ∧ nextPlace (.loc 2#4) s = some (.loc 3#6) ∧
      nextPlace (.glob 14#4) s = some (.gpr 12) ∧
      (source 1 (.loc 0#4) s).getLsbD 0 = false ∧ (s.get 1 (.loc 1#6)).getLsbD 15 = false ∧ count (s.get 1 (.loc 1#6)) = 0 ∧
      count (s.get 1 (.loc 5#6)) = 1 ∧
      srS s.sr = false ∧ (source 1 (.loc 2#4) s).getLsbD 0 = true ∧ srL s.sr = false ∧ (s.get 1 (.loc 3#6)).getLsbD 15 = true := by
  decide

/-- ISR with each IO pin as input and as output. -/
theorem witness_HighRegisterReads :
    userWindow.window = true ∧ supervisorWindow.window = true ∧ supervisorWindow.fcr.getLsbD 2 = true ∧
    (let s := { supervisorWindow with fcr := 0x00001010#32 }
     s.window = true ∧ s.fcr.getLsbD 6 = false ∧ s.fcr.getLsbD 4 = true ∧ s.fcr.getLsbD 10 = false ∧
       s.fcr.extractLsb' 12 2 = 1#2) ∧
    (let s := { supervisorWindow with fcr := 0x00003100#32 }
     s.fcr.getLsbD 10 = false ∧ s.fcr.extractLsb' 12 2 ≠ 1#2 ∧ s.fcr.getLsbD 8 = true) := by decide

/-- A value SP takes and one it does not. -/
theorem witness_HighRegisterWrites :
    supervisorWindow.window = true ∧ srS supervisorWindow.sr = true ∧ (0x5000#32).extractLsb' 0 2 = 0#2 ∧
    (0x5002#32).extractLsb' 0 2 ≠ 0#2 := by decide

theorem witness_UserWritesToHighRegistersFail : userWindow.window = true ∧ srS userWindow.sr = false := by decide

theorem witness_ExceptionEntrySavesAndMasks : trapEntry idle.mcr 60 = some 0xFFFFFFF0#32 := by decide

/-- INT1 requests with L = 0; a locked boundary; nothing pending. -/
theorem witness_BoundaryTakesTheBestException :
    (let s := { idle with fcr := 0xEFFFFFFF#32, pins := { int := 1#4, io := 0#3 }, pinsDriven := true }
     s.takeInput.resetRequest = false ∧ s.takeInput.powerDown = false ∧ s.takeInput.afterDelayedBranch = false ∧
       s.takeInput.callLockout = false ∧ s.takeInput.pending = some 53 ∧ trapEntry s.takeInput.mcr 53 = some 0xFFFFFFD4#32) ∧
    idle.takeInput.pending = none ∧ (inDelaySlot 1#2 []).takeInput.afterDelayedBranch = true := by decide

theorem witness_PrescalerDividesByNPlusTwo : idle.prescaler = 0 ∧ { idle with tpr := 0x00FF0000#32 }.prescaler = 0 := by decide

/-- Each mode, input and output, with the pin at and off its polarity. -/
theorem witness_Io3ModesCompareWcrWithTr :
    (0x00000000#32).extractLsb' 12 2 = 0#2 ∧ (0x00001000#32).extractLsb' 12 2 = 1#2 ∧ (0x00001000#32).getLsbD 10 = false ∧
    (0x00001400#32).extractLsb' 12 2 = 1#2 ∧ (0x00001400#32).getLsbD 10 = true ∧ idle.eventFlag = false ∧
    idle.pins.io.getLsbD 2 = (0x00001400#32).getLsbD 9 ∧ idle.pins.io.getLsbD 2 ≠ (0x00001600#32).getLsbD 9 ∧
    (0x00002000#32).extractLsb' 12 2 = 2#2 ∧ (0x00003000#32).extractLsb' 12 2 = 3#2 := by decide

theorem witness_ResetRequestsOverruleEverything :
    let s := { pointing with resetRequest := true }
    Memory.wf s.takeInput.mem = true ∧ s.takeInput.resetRequest = true := by decide

theorem witness_PowerDownSleepsUntilARequest :
    let s := { idle with powerDown := true }
    s.takeInput.resetRequest = false ∧ s.takeInput.powerDown = true := by decide

theorem witness_FollowerOfG15Refusals :
    idle.window = false ∧ Reg.isPC (.loc 0#4) = false ∧ Reg.isSR (.loc 0#4) = false ∧ idle.inSlot = false := by decide

/-- A window of a user and of a supervisor, a global and a local register, and SET0 with Rd-code 1 at the PC. -/
theorem witness_GlobalRegistersInTheWindow :
    (userWindow.window = true ∧ srS userWindow.sr = false ∧ supervisorWindow.window = true ∧
      srS supervisorWindow.sr = true ∧ regIsGlobal (.glob 5#4) = true ∧ regIsGlobal (.loc 5#4) = false) ∧
    (let s := machine 0x01000020#32 [] [] [] [0xB813#16]
     let u := machine 0x01040020#32 [] [] [] [0xB813#16]
     s.window = true ∧ srS s.sr = false ∧ s.fetch = .error (.oddFetch 3#5) ∧
       u.window = true ∧ srS u.sr = true ∧ u.fetch = .error (.oddFetch 3#5)) := by decide

/-- Each flag set and clear outside a delay slot, the tables mapped; and in a delay slot. -/
theorem witness_TakenBranchesAndTheCache :
    (idle.inSlot = false ∧ srZ idle.sr = false ∧ srC idle.sr = false ∧ srN idle.sr = false ∧ srV idle.sr = false ∧
      idle.window = false ∧ (trapEntry idle.mcr 60).isSome = true ∧ (trapEntry idle.mcr 0).isSome = true ∧
      (softEntry idle.mcr 0).isSome = true ∧ Reg.isPC (.glob 0#4) = true ∧ Reg.isPC (.loc 0#4) = false ∧
      Reg.isSR (.loc 0#4) = false ∧ Reg.loc 0#4 ≠ .glob 15#4) ∧
    Usable [.loc 0#4] idle ∧
    (let s := { idle with sr := 0x0100000F#32 }
     s.inSlot = false ∧ srZ s.sr = true ∧ srC s.sr = true ∧ srN s.sr = true ∧ srV s.sr = true) ∧
    (inDelaySlot 1#2 []).inSlot = true ∧ idle.inputs = [] ∧ { idle with powerDown := true }.powerDown = true ∧
    (atNop.fetch = .ok .nop ∧ atNop.powerDown = false ∧ atNop.resetRequest = false ∧ atNop.delayPending = false) ∧
    (let s := inDelaySlot 1#2 [0x0300#16]
     s.fetch = .ok .nop ∧ s.powerDown = false ∧ s.resetRequest = false ∧ s.delayPending = true ∧
       s.slotAhead = none ∧ { s with slotAhead := some 0x1000#32 }.slotAhead = some 0x1000#32) := by
  unfold Usable
  decide

/-- The bus free, held and locked; a byte written twice by another master, and one where no memory is. -/
theorem witness_BusLockAndOtherMasters :
    let pins : Pins := { int := 0#4, io := 0#3, grant := true }
    let i : Input :=
      { pins := pins, cycles := 0, parity := 0#4, reset := false,
        dma := [(0x2000#32, 1#8), (0x2000#32, 2#8), (0xC0000000#32, 3#8)] }
    Memory.wf pointing.mem = true ∧ i.pins.grant = true ∧ pointing.busLock = false ∧
      { pointing with busLock := true }.busLock = true ∧ { pins with grant := false }.grant = false ∧
      (let v := { pointing with pins := pins, between := i.dma }
       v.pins.grant = true ∧ v.busLock = false ∧ v.fcr.getLsbD 17 = true ∧ v.between = i.dma ∧
         { v with fcr := 0xFFFDFFFF#32 }.fcr.getLsbD 17 = false) ∧
      i.dma = [(0x2000#32, 1#8)] ++ (0x2000#32, 2#8) :: [(0xC0000000#32, 3#8)] ∧
      pointing.cell .external 0x2000#32 = some 0x2000 ∧
      0x2000 ∉ [(0xC0000000#32, 3#8)].filterMap (fun e : Word × Byte => pointing.cell .external e.1) ∧
      (∀ c, Reg.glob 12#4 = .glob c → 2 ≤ c.toNat ∧ c.toNat ≤ 12) ∧ (∀ c, Reg.glob 13#4 = .glob c → 2 ≤ c.toNat ∧ c.toNat ≤ 13) ∧
      nextPlace (.glob 12#4) pointing = some (.gpr 10) ∧ Usable [.loc 0#4, .glob 12#4] pointing ∧
      source 1 (.loc 0#4) pointing ≠ 0#32 ∧ Reg.isPC (.loc 0#4) = false ∧ Reg.isSR (.loc 0#4) = false ∧
      outsideSigned 8 (source 1 (.glob 12#4) pointing).toInt = false ∧ outsideSigned 16 (source 1 (.glob 12#4) pointing).toInt = false ∧
      pointing.lr 0 ≠ 0#32 ∧ pointing.window = false := by
  refine ⟨by decide, by decide, by decide, by decide, by decide, by decide, by decide, by decide, by decide, loadable_bounds.2.1,
    loadable_bounds.2.2.1, by decide, ?_, by decide⟩
  unfold Usable
  decide

end Sys2Proof.Tests
end

section
/-! The register after G15 (R10, D7, I2.14): one refusal lemma for each shape that names a register pair, and the statement O57
assembled from them. -/

namespace Sys2Proof.Machine

/-! ### G15 and the checks it passes -/

/-- No register follows G15, and only G15 (R10, D7). -/
theorem nextPlace_eq_none_iff {r : Reg} {s : State} : nextPlace r s = none ↔ r = .glob 15#4 := by
  cases r with
  | loc c => simp [nextPlace]
  | glob c => simp [nextPlace]

theorem nextPlace_g15 (s : State) : nextPlace (.glob 15#4) s = none := nextPlace_eq_none_iff.mpr rfl

theorem isPC_g15 : Reg.isPC (.glob 15#4) = false := by decide

theorem isSR_g15 : Reg.isSR (.glob 15#4) = false := by decide

/-- Outside a delay slot the slot check lets the instruction run. -/
theorem slotGuard_none {s : State} (h : s.inSlot = false) : slotGuard s = none := by
  simp [slotGuard, h]

/-- A double-word store of G15 has no low-order word. -/
theorem storeFollower_g15 (len : Nat) (s t : State) : storeFollower len (.glob 15#4) s t = none := by
  simp [storeFollower, isSR_g15, nextPlace_g15]

/-! ### The shapes with a register pair -/

/-- A result pair for G15. -/
theorem pairOp_g15 {srcs : List Reg} {compute : State → Place → ComputedPair} {s : State}
    (hu : Usable (.glob 15#4 :: srcs) s) : pairOp (.glob 15#4) srcs compute s = .refused .followerOfG15 := by
  unfold pairOp
  rw [windowGuard_none (dst := some _) hu, pcGuard_none isPC_g15, nextPlace_g15]
  rfl

/-- MULS and MULU to G15. -/
theorem multiplyDouble_g15 {rs : Reg} {product : Word → Word → Double} {s : State} (hu : Usable [.glob 15#4, rs] s) :
    multiplyDouble (.glob 15#4) rs product s = .refused .followerOfG15 := by
  unfold multiplyDouble
  exact pairOp_g15 hu

/-- DIVS and DIVU to G15. -/
theorem divideOp_g15 {rs : Reg} {divide : Double → Word → Option Division} {s : State} (hu : Usable [.glob 15#4, rs] s) :
    divideOp (.glob 15#4) rs divide s = .refused .followerOfG15 := by
  unfold divideOp
  exact pairOp_g15 hu

/-- The store of G15 and its follower, whatever the address register holds: the refusal comes before the Pointer Error. -/
theorem storeDoubleOp_g15 {len : Nat} {fields : List Reg} {check : Option Result} {access : State → Access} {s : State}
    (hu : Usable (.glob 15#4 :: fields) s) (hc : check = none) :
    storeDoubleOp len fields (.glob 15#4) check access s = .refused .followerOfG15 := by
  unfold storeDoubleOp
  rw [windowGuard_none (dst := none) hu, hc]
  simp only [guarded, andThen, storeFollower_g15]

/-- The same store to the I/O address space. -/
theorem ioStoreDoubleOp_g15 {len : Nat} {fields : List Reg} {access : State → Access} {s : State}
    (hu : Usable (.glob 15#4 :: fields) s) :
    ioStoreDoubleOp len fields (.glob 15#4) access s = .refused .followerOfG15 := by
  unfold ioStoreDoubleOp
  rw [windowGuard_none (dst := none) hu]
  simp only [guarded, storeFollower_g15]

/-- MOVD to G15. -/
theorem execMovd_to_g15 {rs : Reg} {s : State} (hu : Usable [.glob 15#4, rs] s) :
    execMovd (.glob 15#4) rs s = .refused .followerOfG15 := by
  unfold execMovd
  rw [windowGuard_none (dst := some _) hu, pcGuard_none isPC_g15, nextPlace_g15]
  rfl

/-- MOVD from G15, whether or not a register follows Rd. -/
theorem execMovd_from_g15 {rd : Reg} {s : State} (hu : Usable [rd, .glob 15#4] s) (hp : rd.isPC = false) :
    execMovd rd (.glob 15#4) s = .refused .followerOfG15 := by
  unfold execMovd
  rw [windowGuard_none (dst := some rd) hu, pcGuard_none hp, nextPlace_g15]
  cases nextPlace rd s with
  | none => rfl
  | some q => simp only [guarded, andThen, isSR_g15, Bool.false_eq_true, if_false]

/-- RET through G15 and its follower. -/
theorem execRet_g15 {s : State} (hu : Usable [.pc, .glob 15#4] s) (hslot : s.inSlot = false) :
    execRet (.glob 15#4) s = .refused .followerOfG15 := by
  unfold execRet
  rw [windowGuard_none (dst := some .pc) hu, isPC_g15, isSR_g15, slotGuard_none hslot, nextPlace_g15]
  rfl

/-- Settles O57, by the shape of each instruction: with the window closed every check passes, and the pair's second register is
missing. -/
theorem followerOfG15Refusals : Obligations.FollowerOfG15Refusals := by
  intro rd rs ld dis s hw g15 stops
  have usable (regs : List Reg) : Usable regs s := usable_closed hw
  refine ⟨?movdTo, ?movdFrom, ?muls, ?mulu, ?divs, ?divu, ?stdD, ?stdA, ?stdR, ?stdP, ?stdN, ?stdIOD, ?stdIOA, ?ret⟩
  case movdTo => exact execMovd_to_g15 (usable _)
  case movdFrom => exact execMovd_from_g15 (usable _)
  case muls => exact (multiplyDouble_g15 (usable _) : execMuls g15 rs s = _)
  case mulu => exact (multiplyDouble_g15 (usable _) : execMulu g15 rs s = _)
  case divs => exact (divideOp_g15 (usable _) : execDivs g15 rs s = _)
  case divu => exact (divideOp_g15 (usable _) : execDivu g15 rs s = _)
  case stdD => exact (storeDoubleOp_g15 (usable _) rfl : execStdD rd g15 dis s = _)
  case stdA => exact (storeDoubleOp_g15 (usable _) rfl : execStdA g15 dis s = _)
  case stdR => exact (storeDoubleOp_g15 (usable _) rfl : execStdR ld g15 s = _)
  case stdP => exact (storeDoubleOp_g15 (usable _) rfl : execStdP ld g15 s = _)
  case stdN =>
    intro hp hs
    exact (storeDoubleOp_g15 (usable _) (addressGuard_none hp hs) : execStdN rd g15 dis s = _)
  case stdIOD => exact (ioStoreDoubleOp_g15 (usable _) : execStdIOD rd g15 dis s = _)
  case stdIOA => exact (ioStoreDoubleOp_g15 (usable _) : execStdIOA g15 dis s = _)
  case ret => exact execRet_g15 (usable _)

end Sys2Proof.Machine
end

section
/-! The invariant of every step (O4 to O6). `Inv` is taken apart into what speaks of the devices, of memory and of the cache, each with
the updates that keep it, and what the PC, the delay state and the lock-outs add at an instruction's boundary. One lemma for
each shape of instruction then says that whatever it answers meets the invariant. -/

namespace Sys2Proof.Machine

/-! ### The parts of the invariant -/

/-- What the invariant says of the high global registers, the latches, the pins and the bus lock (R165, R548, R564, R566, R570). -/
structure DevicesSound (s : State) : Prop where
  wcrUpper : s.wcr.extractLsb' 16 16 = 0#16
  quietFlags : s.fcr.getLsbD 13 = true → s.equalFlag = false ∧ s.eventFlag = false ∧ s.io3Toggle = false
  overflowEnabled : s.extOvfPending = true → s.fcr.getLsbD 16 = false
  asleep : s.powerDown = true → s.mcr.getLsbD 22 = false
  unlocked : s.fcr.getLsbD 17 = true → s.busLock = false
  quietPins : s.pinsDriven = false → s.pins = inactivePins s.fcr

/-- What the invariant says of memory and of the marks of the IRAM (R100 to R106, R112). -/
structure StorageSound (s : State) : Prop where
  memory : Memory.wf s.mem = true
  kept : Memory.wf s.iramKept = true
  unrefreshed : s.mcr.extractLsb' 16 3 = 7#3 → s.iramKept = []

/-- What the invariant says of the look-back and the look-ahead counter (R127). -/
structure CacheSound (s : State) : Prop where
  lookBack : alignWord s.lookBack = s.lookBack
  lookAhead : alignWord s.lookAhead = s.lookAhead
  size : (s.lookAhead - s.lookBack).toNat ≤ 124

/-- The invariant without the PC, the delay state and the lock-outs. -/
structure Sound (s : State) : Prop where
  devices : DevicesSound s
  storage : StorageSound s
  cache : CacheSound s

/-- What holds in the course of an instruction, where the lock-out of a Delayed Branch is already used up. -/
structure Running (s : State) : Prop where
  sound : Sound s
  pcEven : s.pc.getLsbD 0 = false
  oneLock : (s.afterDelayedBranch && s.callLockout) = false

/-- The invariant by its parts. -/
theorem inv_iff {s : State} : Inv s ↔ Running s ∧
    (s.delayPending = true → s.afterDelayedBranch = true ∧ s.delayAddr.getLsbD 0 = false) := by
  constructor
  · intro h
    obtain ⟨back, ahead, size⟩ := h.cache
    exact ⟨⟨⟨⟨h.wcrUpper, h.quietFlags, h.overflowEnabled, h.asleep, h.unlocked, h.quietPins⟩, ⟨h.memory, h.iram.1, h.iram.2⟩,
      ⟨back, ahead, size⟩⟩, h.pcEven, h.oneLock⟩, h.delaySlot⟩
  · rintro ⟨⟨⟨d, m, c⟩, hpc, hl⟩, hd⟩
    exact ⟨m.memory, hpc, d.wcrUpper, d.quietFlags, d.overflowEnabled, d.asleep, hd, hl, ⟨c.lookBack, c.lookAhead, c.size⟩,
      ⟨m.kept, m.unrefreshed⟩, d.unlocked, d.quietPins⟩

theorem Inv.running {s : State} (h : Inv s) : Running s := (inv_iff.mp h).1

theorem Inv.sound {s : State} (h : Inv s) : Sound s := h.running.sound

/-- Where no delay instruction is pending the invariant asks for nothing more. -/
theorem Running.inv {s : State} (h : Running s) (hd : s.delayPending = false) : Inv s :=
  inv_iff.mpr ⟨h, fun hc => absurd (hd.symm.trans hc) (by decide)⟩

/-! ### What keeps the parts -/

/-- What the invariant says of the devices depends on the special registers alone; the bus lock may start, which it does only
while FCR(17) = 0. -/
theorem DevicesSound.congr {s t : State} (h : DevicesSound s) (hk : SpecialKept s t) : DevicesSound t where
  wcrUpper := by rw [hk.wcr]; exact h.wcrUpper
  quietFlags := by rw [hk.fcr, hk.equalFlag, hk.eventFlag, hk.io3Toggle]; exact h.quietFlags
  overflowEnabled := by rw [hk.fcr, hk.extOvfPending]; exact h.overflowEnabled
  asleep := by rw [hk.powerDown, hk.mcr]; exact h.asleep
  unlocked := by
    rw [hk.fcr]
    intro hf
    rcases hk.busLock with hb | ⟨hb, _⟩
    · exact hb.trans (h.unlocked hf)
    · exact absurd (hb.symm.trans hf) (by decide)
  quietPins := by rw [hk.pinsDriven, hk.pins, hk.fcr]; exact h.quietPins

theorem StorageSound.congr {s t : State} (h : StorageSound s) (hm : t.mem = s.mem := by simp)
    (hi : t.iramKept = s.iramKept := by simp) (hr : t.mcr = s.mcr := by simp) : StorageSound t :=
  ⟨by rw [hm]; exact h.memory, by rw [hi]; exact h.kept, by rw [hi, hr]; exact h.unrefreshed⟩

theorem CacheSound.congr {s t : State} (h : CacheSound s) (hb : t.lookBack = s.lookBack := by simp)
    (ha : t.lookAhead = s.lookAhead := by simp) : CacheSound t :=
  ⟨by rw [hb]; exact h.lookBack, by rw [ha]; exact h.lookAhead, by rw [hb, ha]; exact h.size⟩

/-- An update of registers and bookkeeping alone. -/
theorem Sound.congr {s t : State} (h : Sound s) (hk : SpecialKept s t) (hm : t.mem = s.mem := by simp)
    (hi : t.iramKept = s.iramKept := by simp) (hb : t.lookBack = s.lookBack := by simp)
    (ha : t.lookAhead = s.lookAhead := by simp) : Sound t :=
  ⟨h.devices.congr hk, h.storage.congr hm hi hk.mcr, h.cache.congr hb ha⟩

/-- The PC and the lock-outs unchanged. -/
theorem Running.congr {s t : State} (h : Running s) (hs : Sound t) (hpc : t.pc = s.pc := by simp)
    (ha : t.afterDelayedBranch = s.afterDelayedBranch := by simp) (hc : t.callLockout = s.callLockout := by simp) : Running t :=
  ⟨hs, by rw [hpc]; exact h.pcEven, by rw [ha, hc]; exact h.oneLock⟩

/-! ### Even addresses and word addresses (R22, R127) -/

theorem clearBit0_even (w : Word) : (clearBit0 w).getLsbD 0 = false := by
  rw [clearBit0, BitVec.getLsbD_and, show (0xFFFFFFFE#32).getLsbD 0 = false by decide, Bool.and_false]

/-- A number of halfwords after an even address is an even address. -/
theorem even_add {w : Word} (h : w.getLsbD 0 = false) (n : Nat) : (w + BitVec.ofNat 32 (2 * n)).getLsbD 0 = false := by
  simp only [BitVec.getLsbD, Nat.testBit_zero, decide_eq_false_iff_not, BitVec.toNat_add, BitVec.toNat_ofNat] at h ⊢
  omega

theorem alignWord_alignWord (a : Word) : alignWord (alignWord a) = alignWord a := by
  apply BitVec.eq_of_toNat_eq
  rw [alignWord_toNat, alignWord_toNat]
  omega

/-- The look-back counter at its farthest is a word address (R127). -/
theorem alignWord_sub_124 {a : Word} (h : alignWord a = a) : alignWord (a - 124#32) = a - 124#32 := by
  have ha := congrArg BitVec.toNat h
  rw [alignWord_toNat] at ha
  apply BitVec.eq_of_toNat_eq
  rw [alignWord_toNat, BitVec.toNat_sub, show (124#32).toNat = 124 from rfl]
  omega

/-- The higher of two word addresses is a word address (R128). -/
theorem alignWord_higher {a b : Word} (ha : alignWord a = a) (hb : alignWord b = b) : alignWord (higher a b) = higher a b := by
  unfold higher
  split
  · exact ha
  · exact hb

/-! ### The cache (R127 to R130) -/

/-- A flush leaves both counters at one word. -/
theorem CacheSound.of_flushed {s t : State} {target : Word} (h : Flushed target s t) : CacheSound t where
  lookBack := by rw [h.lookBack, alignWord_alignWord]
  lookAhead := by rw [h.lookAhead, alignWord_alignWord]
  size := by rw [h.lookAhead, h.lookBack, BitVec.sub_self]; decide

/-- The prefetch through a word holds at most 32 words: it pushes the look-back counter. -/
theorem CacheSound.cachedTo {s : State} (h : CacheSound s) {top : Word} (ht : alignWord top = top) : CacheSound (s.cachedTo top) := by
  have hc := cacheReaches_cachedTo s top
  refine ⟨?_, by rw [hc.lookAhead]; exact ht, ?_⟩
  · rw [hc.lookBack]
    split
    · exact alignWord_sub_124 ht
    · exact h.lookBack
  · rw [hc.lookAhead, hc.lookBack]
    split
    · rw [BitVec.toNat_sub, BitVec.toNat_sub, show (124#32).toNat = 124 from rfl]
      have := top.isLt
      omega
    · omega

/-- A branch taken that flushes the cache. -/
theorem Sound.of_flushed {s t u : State} {target : Word} (h : Sound s) (hk : SpecialKept s t) (hf : Flushed target u t)
    (hm : t.mem = s.mem := by simp) (hi : t.iramKept = s.iramKept := by simp) : Sound t :=
  ⟨h.devices.congr hk, h.storage.congr hm hi hk.mcr, .of_flushed hf⟩

theorem Sound.cachedTo {s : State} (h : Sound s) {top : Word} (ht : alignWord top = top) : Sound (s.cachedTo top) :=
  ⟨h.devices.congr (frame_cachedTo s top).special, h.storage.congr, h.cache.cachedTo ht⟩

theorem Sound.prefetchTo {s : State} (h : Sound s) {w : Word} (hw : alignWord w = w) : Sound (s.prefetchTo w) :=
  h.cachedTo (alignWord_higher h.cache.lookAhead hw)

theorem Sound.prefetched {s : State} (h : Sound s) (next : Word) : Sound (s.prefetched next) := by
  unfold State.prefetched
  refine h.cachedTo ?_
  rw [alignWord_add4, State.reached, alignWord_higher h.cache.lookAhead (alignWord_alignWord _)]

/-- What a Branch or Delayed Branch taken leaves of the cache, whether it flushes or not. -/
theorem Sound.branchCache {s : State} (h : Sound s) (waits : Bool) (rel : Rel) (target : Word) :
    Sound (s.branchCache waits rel target) := by
  refine ⟨h.devices.congr (frame_branchCache ..).special, h.storage.congr, ?_⟩
  by_cases hl : LeavesCache waits rel target s
  · have hk := (cacheAfter_branchCache s waits rel target).kept hl
    exact h.cache.congr hk.lookBack hk.lookAhead
  · exact .of_flushed ((cacheAfter_branchCache s waits rel target).flushed hl)

/-! ### Memory (R100 to R112) -/

/-- Only memory differs: the special registers do not. -/
theorem MemFrame.special {s t : State} (h : MemFrame s t) : SpecialKept s t := by
  rw [h]
  exact .of_eq rfl (.inl rfl) (.inl rfl)

/-- Where refresh is disabled the mark of a stored byte is none (R112). -/
theorem StorageSound.putByte {s : State} (h : StorageSound s) (r : Region) (a : Word) (v : Byte) :
    StorageSound (s.putByte r a v) := by
  refine ⟨State.wf_putByte h.memory r a v, State.wf_iramKept_putByte h.kept r a v, fun hm => ?_⟩
  rw [State.putByte_mcr] at hm
  rw [State.putByte_iramKept, h.unrefreshed hm]
  simp [refreshes, hm, Memory.write, Memory.unlisted]

theorem StorageSound.noteStale {s : State} (h : StorageSound s) (r : Region) (a : Word) : StorageSound (s.noteStale r a) :=
  h.congr

theorem StorageSound.writeByte {s : State} (h : StorageSound s) (r : Region) (a : Word) (v : Byte) :
    StorageSound (s.writeByte r a v) := (h.noteStale r a).putByte r a v

theorem StorageSound.writeHalf {s : State} (h : StorageSound s) (r : Region) (a : Word) (v : Half) :
    StorageSound (s.writeHalf r a v) := ((h.noteStale r a).putByte r _ _).putByte r _ _

theorem StorageSound.writeWord {s : State} (h : StorageSound s) (r : Region) (a v : Word) : StorageSound (s.writeWord r a v) :=
  (((((h.noteStale r _).noteStale r _).putByte r _ _).putByte r _ _).putByte r _ _).putByte r _ _

theorem StorageSound.storeData {s : State} (h : StorageSound s) (ty : DataType) (r : Region) (a v : Word) :
    StorageSound (s.storeData ty r a v) := by
  cases ty with
  | bs => exact h.writeByte ..
  | bu => exact h.writeByte ..
  | hu => exact h.writeHalf ..
  | hs => exact h.writeHalf ..
  | w => exact h.writeWord ..

/-- What another bus master wrote, byte by byte (R123). -/
theorem StorageSound.writeBytes {s : State} (h : StorageSound s) (writes : List (Word × Byte)) :
    StorageSound (writes.foldl (fun t e => t.writeByte .external e.1 e.2) s) := by
  induction writes generalizing s with
  | nil => exact h
  | cons e rest ih => exact ih (h.writeByte .external e.1 e.2)

theorem StorageSound.dma {s : State} (h : StorageSound s) (writes : List (Word × Byte)) : StorageSound (s.dma writes) := by
  unfold State.dma
  split
  · exact h
  · exact h.writeBytes writes

/-- A store changes what memory holds and nothing else of the machine. -/
theorem Sound.store {s t : State} (h : Sound s) (hf : MemFrame s t) (hm : StorageSound t) : Sound t :=
  ⟨h.devices.congr hf.special, hm, h.cache.congr (by rw [hf]) (by rw [hf])⟩


/-- The cells of a memory rise: each is above the bound and above those before it. -/
theorem Memory.rising_iff {lo : Nat} {m : List Host.Cell} :
    Memory.rising lo m = true ↔ (∀ c ∈ m, lo ≤ c.1) ∧ m.Pairwise (fun a b => a.1 < b.1) := by
  induction m generalizing lo with
  | nil => simp [Memory.rising]
  | cons c rest ih =>
    obtain ⟨k, v⟩ := c
    simp only [Memory.rising, Bool.and_eq_true, decide_eq_true_eq, ih, List.forall_mem_cons, List.pairwise_cons]
    constructor
    · rintro ⟨hk, habove, hp⟩
      exact ⟨⟨hk, fun c hc => by have := habove c hc; omega⟩, habove, hp⟩
    · rintro ⟨⟨hk, _⟩, habove, hp⟩
      exact ⟨hk, habove, hp⟩

/-- The canonical form, by the cells. -/
theorem Memory.wf_iff {m : List Host.Cell} : Memory.wf m = true ↔
    m.Pairwise (fun a b => a.1 < b.1) ∧ ∀ c ∈ m, c.2 ≠ Memory.unlisted ∧ Memory.isCell c.1 = true := by
  simp [Memory.wf, Memory.rising_iff]

/-! ### The IO3 modes, the timer and the high global registers (R558 to R570) -/

/-- A halfword fills no bit of the upper half (R564). -/
theorem upper_of_low (v : Word) : ((v.extractLsb' 0 16).setWidth 32).extractLsb' 16 16 = 0#16 := by
  apply BitVec.eq_of_getLsbD_eq
  intro i hi
  rw [BitVec.getLsbD_extractLsb', BitVec.getLsbD_setWidth, BitVec.getLsbD_extractLsb']
  simp

/-- With FCR(13) = 1 the IO3 mode is none of the two that write the flags (R564). -/
theorem quiet_mode {fcr : Word} (h : fcr.getLsbD 13 = true) {m : BitVec 2} (hm : m.getLsbD 1 = false) :
    (fcr.extractLsb' 12 2 == m) = false := by
  rw [beq_eq_false_iff_ne]
  rintro rfl
  rw [BitVec.getLsbD_extractLsb', h] at hm
  exact absurd hm (by decide)

/-- The flags and the toggle latch are written in modes with FCR(13) = 0 alone, and WCR captures a halfword (R564 to R568). -/
theorem DevicesSound.evalIO3 {s : State} (h : DevicesSound s) (became : Bool) : DevicesSound (s.evalIO3 became) := by
  have hc := compares_evalIO3 s became
  refine ⟨?wcr, ?flags, by simpa using h.overflowEnabled, by simpa using h.asleep, by simpa using h.unlocked,
    by simpa using h.quietPins⟩
  case wcr =>
    rw [hc.capture]
    split
    · rw [← low_halfword]
      exact upper_of_low _
    · exact h.wcrUpper
  case flags =>
    rw [State.evalIO3_fcr]
    intro hf
    obtain ⟨hequal, hevent, htoggle⟩ := h.quietFlags hf
    rw [hc.equal, hc.event, hc.toggle, hequal, hevent, htoggle, quiet_mode hf (m := 0#2) rfl, quiet_mode hf (m := 1#2) rfl]
    simp

theorem Sound.evalIO3 {s : State} (h : Sound s) (became : Bool) : Sound (s.evalIO3 became) :=
  ⟨h.devices.evalIO3 became, h.storage.congr, h.cache.congr⟩

/-- TR, TPR, TCR, BCR, SP and UB, the prescaler and the I/O pins once driven are free. -/
theorem Sound.tick {s : State} (h : Sound s) : Sound s.tick :=
  Sound.evalIO3 (s := { s with tr := s.tr + 1#32 }) ⟨⟨h.devices.wcrUpper, h.devices.quietFlags, h.devices.overflowEnabled,
    h.devices.asleep, h.devices.unlocked, h.devices.quietPins⟩, h.storage.congr, h.cache.congr⟩ true

theorem DevicesSound.writeTr {s : State} (h : DevicesSound s) (v : Word) : DevicesSound (s.writeTr v) :=
  evalIO3 (s := { s with tr := v })
    ⟨h.wcrUpper, h.quietFlags, h.overflowEnabled, h.asleep, h.unlocked, h.quietPins⟩ _

theorem DevicesSound.writeWcr {s : State} (h : DevicesSound s) (v : Word) : DevicesSound (s.writeWcr v) :=
  evalIO3 (s := { s with
      wcr := (v.extractLsb' 0 16).setWidth 32
      wcrUpperOpen := v.extractLsb' 16 16 != 0#16
      equalFlag := false
      eventFlag := false })
    ⟨upper_of_low v, fun hf => ⟨rfl, rfl, (h.quietFlags hf).2.2⟩, h.overflowEnabled, h.asleep, h.unlocked, h.quietPins⟩ _

/-- What a move to FCR leaves before the mode it sets is evaluated: its bits 13, 16 and 17 clear the flags and the latch, a saved
Extended Overflow, and the bus lock (R58, R125, R548, R564). -/
def State.fcrWritten (s : State) (v : Word) : State :=
  { s with
    fcr := v
    pins := if s.pinsDriven then s.pins else inactivePins v
    busLock := s.busLock && !v.getLsbD 17
    equalFlag := s.equalFlag && !v.getLsbD 13
    eventFlag := s.eventFlag && !v.getLsbD 13
    io3Toggle := s.io3Toggle && !v.getLsbD 13
    extOvfPending := s.extOvfPending && !v.getLsbD 16 }

theorem writeFcr_eq (s : State) (v : Word) : s.writeFcr v = (s.fcrWritten v).evalIO3 false := by
  unfold State.writeFcr State.fcrWritten
  cases v.getLsbD 13 <;> cases v.getLsbD 16 <;> simp

theorem DevicesSound.writeFcr {s : State} (h : DevicesSound s) (v : Word) : DevicesSound (s.writeFcr v) := by
  rw [writeFcr_eq]
  refine evalIO3 (s := s.fcrWritten v)
    ⟨h.wcrUpper, fun hf => ?flags, fun ho => ?ovf, h.asleep, fun hf => ?lock, fun hp => if_neg ?pins⟩ false
  case flags => simp [State.fcrWritten, show v.getLsbD 13 = true from hf]
  case ovf =>
    simp only [State.fcrWritten, Bool.and_eq_true, Bool.not_eq_true'] at ho
    exact ho.2
  case lock => simp [State.fcrWritten, show v.getLsbD 17 = true from hf]
  case pins => simp [show s.pinsDriven = false from hp]

/-- MCR(22) is set only while the processor is awake (R570). -/
theorem DevicesSound.writeMcr {s : State} (h : DevicesSound s) (hp : s.powerDown = false) (v : Word) :
    DevicesSound (s.writeMcr v) := by
  refine ⟨h.wcrUpper, h.quietFlags, h.overflowEnabled, ?_, h.unlocked, h.quietPins⟩
  simp [State.writeMcr, hp]

/-- A move to a high global register. -/
theorem DevicesSound.writeHigh {s : State} (h : DevicesSound s) (hp : s.powerDown = false) (r : High) (v : Word) :
    DevicesSound (s.writeHigh r v) := by
  cases r with
  | tr => exact h.writeTr v
  | wcr => exact h.writeWcr v
  | fcr => exact h.writeFcr v
  | mcr => exact h.writeMcr hp v
  | isr | reserved => exact h
  | sp | ub | bcr | tpr | tcr =>
    exact ⟨h.wcrUpper, h.quietFlags, h.overflowEnabled, h.asleep, h.unlocked, h.quietPins⟩


/-- With refresh disabled nothing is guaranteed any more (R112). -/
theorem StorageSound.writeMcr {s : State} (h : StorageSound s) (v : Word) : StorageSound (s.writeMcr v) := by
  refine ⟨h.memory, ?_, fun hm => ?_⟩
  · show Memory.wf (if refreshes v then s.iramKept else []) = true
    split
    · exact h.kept
    · rfl
  · refine if_neg ?_
    rw [refreshes, show v.extractLsb' 16 3 = 7#3 from hm]
    decide

theorem StorageSound.writeHigh {s : State} (h : StorageSound s) (r : High) (v : Word) : StorageSound (s.writeHigh r v) := by
  cases r with
  | mcr => exact h.writeMcr v
  | tr => exact h.congr (State.evalIO3_mem ..) (State.evalIO3_iramKept ..) (State.evalIO3_mcr ..)
  | wcr => exact h.congr (State.evalIO3_mem ..) (State.evalIO3_iramKept ..) (State.evalIO3_mcr ..)
  | fcr =>
    show StorageSound (s.writeFcr v)
    rw [writeFcr_eq]
    exact h.congr (State.evalIO3_mem ..) (State.evalIO3_iramKept ..) (State.evalIO3_mcr ..)
  | isr | reserved => exact h
  | sp | ub | bcr | tpr | tcr => exact ⟨h.memory, h.kept, h.unrefreshed⟩

/-- What a move to a high global register leaves alone. -/
structure HighFrame (s t : State) : Prop where
  pc : t.pc = s.pc
  sr : t.sr = s.sr
  fer : t.fer = s.fer
  gpr : t.gpr = s.gpr
  locals : t.locals = s.locals
  mem : t.mem = s.mem
  iramRelied : t.iramRelied = s.iramRelied
  lookBack : t.lookBack = s.lookBack
  lookAhead : t.lookAhead = s.lookAhead
  delayPending : t.delayPending = s.delayPending
  afterDelayedBranch : t.afterDelayedBranch = s.afterDelayedBranch
  callLockout : t.callLockout = s.callLockout
  parityPending : t.parityPending = s.parityPending
  pinsDriven : t.pinsDriven = s.pinsDriven
  platform : t.platform = s.platform
  inputs : t.inputs = s.inputs
  ioTrace : t.ioTrace = s.ioTrace

theorem highFrame_evalIO3 {s t : State} (h : HighFrame s t) (became : Bool) : HighFrame s (t.evalIO3 became) := by
  cases h
  constructor <;> simpa

theorem highFrame_writeHigh (s : State) (r : High) (v : Word) : HighFrame s (s.writeHigh r v) := by
  cases r with
  | tr | wcr => exact highFrame_evalIO3 (by constructor <;> rfl) _
  | fcr =>
    show HighFrame s (s.writeFcr v)
    rw [writeFcr_eq]
    exact highFrame_evalIO3 (by constructor <;> rfl) _
  | sp | ub | bcr | tpr | tcr | mcr | isr | reserved => constructor <;> rfl

theorem Sound.writeHigh {s : State} (h : Sound s) (hp : s.powerDown = false) (r : High) (v : Word) : Sound (s.writeHigh r v) :=
  have hf := highFrame_writeHigh s r v
  ⟨h.devices.writeHigh hp r v, h.storage.writeHigh r v, h.cache.congr hf.lookBack hf.lookAhead⟩

end Sys2Proof.Machine
end

section
/-! What every instruction keeps of the invariant: the ends of an instruction, its checks, one lemma for each shape of instruction,
and the dispatch over all of them. -/

namespace Sys2Proof.Machine

/-! ### The ends of an instruction -/

/-- If the result answers a next state, that meets the invariant. -/
def Keeps : Result → Prop
  | .next t => Inv t
  | .fault _ => True
  | .refused _ => True

theorem keeps_next {t : State} (h : Inv t) : Keeps (.next t) := h

theorem keeps_refused (r : Refusal) : Keeps (.refused r) := trivial

theorem keeps_fault (f : Fault) : Keeps (.fault f) := trivial

/-- The number of draws, what the program relied on and the coming inputs are bookkeeping. -/
theorem Inv.withBookkeeping {s : State} (h : Inv s) (relied : Bool) (inputs : List Input) (between : List (Word × Byte))
    (fresh : Nat) : Inv { s with iramRelied := relied, inputs := inputs, between := between, fresh := fresh } :=
  ⟨h.memory, h.pcEven, h.wcrUpper, h.quietFlags, h.overflowEnabled, h.asleep, h.delaySlot, h.oneLock, h.cache, h.iram, h.unlocked,
    h.quietPins⟩

theorem Inv.bump {s : State} (h : Inv s) : Inv s.bump := h.withBookkeeping ..

/-- An instruction begins with both lock-outs used up. -/
theorem Inv.opened {s : State} (h : Inv s) : Running s.opened :=
  ⟨h.sound.congr (frame_opened s).special, by simpa using h.pcEven, by simp⟩

/-- The sequential end of an instruction: in a delay slot the PC keeps the branch's target (R22, R425). -/
theorem Running.settle {s : State} (h : Running s) (len : Nat) : Inv (s.settle len).bump := by
  have hs : Sound (s.settle len).bump := h.sound.congr (frame_settle s len).special
  refine Running.inv ⟨hs, ?_, by simpa using h.oneLock⟩ (by simp)
  rw [State.bump_pc, State.settle_pc, State.pcSeen]
  split
  · exact h.pcEven
  · exact even_add h.pcEven len

theorem Running.keeps_retire {s : State} (h : Running s) (len : Nat) : Keeps (retire len s) := keeps_next (h.settle len)

/-- An exception entry replaces the PC, the delay state and the lock-outs, whatever they were (R534). -/
theorem Sound.entered {s : State} (h : Sound s) (irq : Bool) (entry : Word) : Inv (s.entered irq entry).bump :=
  have he := entered_spec irq entry s
  Running.inv ⟨h.of_flushed he.frame.special he.flushed, clearBit0_even entry, rfl⟩ rfl

theorem Sound.keeps_takeException {s : State} (h : Sound s) (k : Nat) (irq : Bool) : Keeps (takeException k irq s) := by
  unfold takeException
  split
  · exact keeps_next (h.entered _ _)
  · exact keeps_fault _

theorem Sound.keeps_raiseError {s : State} (h : Sound s) (len : Nat) : Keeps (raiseError len s) :=
  (h.congr (frame_settleError s len).special : Sound (s.settleError len)).keeps_takeException _ _

theorem Sound.flush {s : State} (h : Sound s) (target : Word) : Sound (s.flush target) :=
  h.of_flushed (frame_flush s target).special (flushed_flush s target)

/-- What a branch taken changes of the PC, the SR and the delay state alone. -/
theorem special_branched (s : State) (target : Word) : SpecialKept s (s.branched target) := .of_eq rfl (.inl rfl) (.inl rfl)

theorem Running.branched {s : State} (h : Running s) (target : Word) : Running (s.branched target) :=
  ⟨h.sound.congr (special_branched s target), clearBit0_even target, h.oneLock⟩

theorem Running.jumped {s : State} (h : Running s) (target : Word) : Inv (s.jumped target) :=
  Running.inv ⟨(h.branched target).sound.flush target, clearBit0_even target, h.oneLock⟩ rfl

theorem Running.keeps_jump {s : State} (h : Running s) (target : Word) : Keeps (jump target s) := keeps_next (h.jumped target).bump

/-! ### Loads, stores and the stack in the course of an instruction -/

theorem Sound.setLocal {s : State} (h : Sound s) (i : BitVec 6) (v : Word) : Sound (s.setLocal i v) :=
  h.congr (.of_eq rfl (.inl rfl) (.inl rfl))

/-- The stack pointer is free. -/
theorem Sound.withSp {s : State} (h : Sound s) (a : Word) : Sound { s with sp := a } :=
  ⟨⟨h.devices.wcrUpper, h.devices.quietFlags, h.devices.overflowEnabled, h.devices.asleep, h.devices.unlocked, h.devices.quietPins⟩,
    h.storage.congr, h.cache.congr⟩

theorem Sound.noteAccess {s : State} (h : Sound s) (r : Region) : Sound (s.noteAccess r) := h.congr (frame_noteAccess s r).special

theorem Sound.noteRead {s : State} (h : Sound s) (r : Region) (a : Word) (n : Nat) : Sound (s.noteRead r a n) :=
  h.congr (frame_noteRead s r a n).special

theorem Sound.writeWord {s : State} (h : Sound s) (r : Region) (a v : Word) : Sound (s.writeWord r a v) :=
  h.store (memFrame_writeWord s r a v) (h.storage.writeWord r a v)

theorem Sound.pulls {s : State} (h : Sound s) (n : Nat) : Sound (s.pulls n) := by
  induction n generalizing s with
  | zero => exact h
  | succ n ih => exact ih (((h.withSp _).noteRead _ _ _).setLocal _ _)

theorem Sound.pushes {s : State} (h : Sound s) (n : Nat) : Sound (s.pushes n) := by
  induction n generalizing s with
  | zero => exact h
  | succ n ih => exact ih (((h.noteAccess _).writeWord _ _ _).withSp _)

/-- A result placed: the PC takes it with bit 0 cleared (R22). -/
theorem Running.put {s : State} (h : Running s) (p : Place) (v : Word) : Running (s.put p v) := by
  refine ⟨h.sound.congr (frame_put s p v).special, ?_, by simpa using h.oneLock⟩
  by_cases hp : p = .pc
  · rw [hp]
    exact clearBit0_even v
  · rw [put_pc s p v hp]
    exact h.pcEven

theorem Running.withFlags {s : State} (h : Running s) (f : FlagUpdate) : Running (s.withFlags f) :=
  h.congr (h.sound.congr (frame_withFlags s f).special)

theorem Running.updateAddress {s : State} (h : Running s) (a : Access) : Running (s.updateAddress a) := by
  unfold State.updateAddress
  split
  · exact h.put _ _
  · exact h

theorem Running.noteAccess {s : State} (h : Running s) (r : Region) : Running (s.noteAccess r) := h.congr (h.sound.noteAccess r)

theorem Running.noteLoad {s : State} (h : Running s) (ty : DataType) (r : Region) (a : Word) : Running (s.noteLoad ty r a) :=
  h.congr (h.sound.congr (busFrame_noteLoad s ty r a).frame.special)

theorem Running.noteStackRead {s : State} (h : Running s) (a : Word) : Running (s.noteStackRead a) :=
  h.congr (h.sound.congr (busFrame_noteStackRead s a).frame.special)

theorem Running.noteIoRead {s : State} (h : Running s) (a : Word) : Running (s.noteIoRead a) :=
  h.congr (h.sound.congr (special_noteIoRead s a))

theorem Running.ioWrite {s : State} (h : Running s) (a v : Word) : Running (s.ioWrite a v) :=
  h.congr (h.sound.congr (special_ioWrite s a v))

/-- A store, or what another bus master writes. -/
theorem Running.store {s t : State} (h : Running s) (hf : MemFrame s t) (hm : StorageSound t) : Running t :=
  h.congr (h.sound.store hf hm) (by rw [hf]) (by rw [hf]) (by rw [hf])

theorem Running.writeWord {s : State} (h : Running s) (r : Region) (a v : Word) : Running (s.writeWord r a v) :=
  h.store (memFrame_writeWord s r a v) (h.sound.storage.writeWord r a v)

theorem Running.storeData {s : State} (h : Running s) (ty : DataType) (r : Region) (a v : Word) : Running (s.storeData ty r a v) :=
  h.store (memFrame_storeData s ty r a v) (h.sound.storage.storeData ty r a v)

theorem Running.interlude {s : State} (h : Running s) : Running s.interlude :=
  h.store (memFrame_interlude s) (h.sound.storage.dma s.between)

theorem Running.stackWrite {s : State} (h : Running s) (a v : Word) : Running (s.stackWrite a v) := by
  unfold State.stackWrite
  split
  · exact (h.noteAccess _).writeWord _ _ _
  · exact h.congr (h.sound.setLocal _ _)

/-- An overflow of the DSP unit is saved only where it is enabled (R473, R548). -/
theorem Running.putDsp {s : State} (h : Running s) (r : DspResult) : Running (s.putDsp r) := by
  obtain ⟨hwcr, hquiet, hovf, hasleep, hlock, hpins⟩ := h.sound.devices
  refine h.congr ⟨⟨hwcr, hquiet, fun ho => ?_, hasleep, hlock, hpins⟩, h.sound.storage.congr, h.sound.cache.congr⟩
  replace ho : (s.extOvfPending || (r.ovf && !s.fcr.getLsbD 16)) = true := ho
  rw [Bool.or_eq_true, Bool.and_eq_true, Bool.not_eq_true'] at ho
  exact ho.elim hovf And.right

theorem Running.writeHigh {s : State} (h : Running s) (hp : s.powerDown = false) (r : High) (v : Word) :
    Running (s.writeHigh r v) :=
  have hf := highFrame_writeHigh s r v
  h.congr (h.sound.writeHigh hp r v) hf.pc hf.afterDelayedBranch hf.callLockout

/-! ### The checks of an instruction -/

/-- If the check stops the instruction, what it stops with keeps the invariant. -/
def StopsSoundly : Option Result → Prop
  | some r => Keeps r
  | none => True

theorem stopsSoundly_none : StopsSoundly none := trivial

theorem stopsSoundly_some {r : Result} (h : Keeps r) : StopsSoundly (some r) := h

theorem stopsSoundly_refusal {c : Prop} [Decidable c] (r : Refusal) : StopsSoundly (if c then some (.refused r) else none) := by
  split
  · exact stopsSoundly_some (keeps_refused r)
  · exact stopsSoundly_none

theorem StopsSoundly.andThen {first second : Option Result} (h1 : StopsSoundly first) (h2 : StopsSoundly second) :
    StopsSoundly (andThen first second) := by
  cases first with
  | none => exact h2
  | some r => exact h1

theorem keeps_guarded {check : Option Result} {run : Result} (hc : StopsSoundly check) (hr : Keeps run) :
    Keeps (guarded check run) := by
  cases check with
  | none => exact hr
  | some r => exact hc

/-- A user's Privilege Error in the H window, or a refusal (R546, I2.15). -/
theorem Inv.windowGuard {s : State} (h : Inv s) (len : Nat) (dst : Option Reg) (srcs : List Reg) :
    StopsSoundly (windowGuard len dst srcs s) := by
  unfold Machine.windowGuard
  split
  · exact stopsSoundly_none
  · split
    · exact stopsSoundly_some ((h.opened.withFlags _).sound.keeps_raiseError len)
    · exact stopsSoundly_refusal _

theorem stopsSoundly_pcGuard (r : Reg) : StopsSoundly (pcGuard r) := stopsSoundly_refusal _

theorem stopsSoundly_slotGuard (s : State) : StopsSoundly (slotGuard s) := stopsSoundly_refusal _

theorem stopsSoundly_stackGuard (r : High) (v : Word) : StopsSoundly (stackGuard r v) := stopsSoundly_refusal _

theorem stopsSoundly_addressGuard (r : Reg) : StopsSoundly (addressGuard r) := stopsSoundly_refusal _

theorem stopsSoundly_indexGuard (rd rs : Reg) : StopsSoundly (indexGuard rd rs) := by
  unfold indexGuard
  split
  · exact stopsSoundly_some (keeps_refused _)
  · exact stopsSoundly_refusal _

theorem stopsSoundly_loadGuard (d : Bool) (r : Reg) : StopsSoundly (loadGuard d r) := by
  cases r with
  | loc c => exact stopsSoundly_none
  | glob c => exact stopsSoundly_refusal _

/-! ### The shapes of instructions -/

/-- An instruction that traps or goes on. -/
theorem Running.keeps_end {s : State} (h : Running s) (c : Bool) (len : Nat) :
    Keeps (if c then raiseError len s else retire len s) := by
  split
  · exact h.sound.keeps_raiseError len
  · exact h.keeps_retire len

theorem Running.keeps_finish {s : State} (h : Running s) (len : Nat) (p : Place) (v : Word) (f : FlagUpdate) (trap : Bool) :
    Keeps (finish len p v f trap s) := ((h.withFlags f).put p v).keeps_end _ len

theorem Running.keeps_finishBranch {s : State} (h : Running s) (len : Nat) (p : Place) (v : Word) (f : FlagUpdate) :
    Keeps (finishBranch len p v f s) := by
  unfold finishBranch
  split
  · exact (h.withFlags f).keeps_jump v
  · exact h.keeps_finish ..

theorem Running.keeps_finishPair {s : State} (h : Running s) (len : Nat) (p q : Place) (v w : Word) (f : FlagUpdate) (trap : Bool) :
    Keeps (finishPair len p q v w f trap s) := (((h.withFlags f).put p v).put q w).keeps_end _ len

section
variable {s : State}

theorem Inv.registerOp (h : Inv s) (len : Nat) (dst : Reg) (srcs : List Reg) (compute : State → Computed) :
    Keeps (registerOp len dst srcs compute s) :=
  keeps_guarded ((h.windowGuard ..).andThen (stopsSoundly_pcGuard dst)) (h.opened.keeps_finish ..)

theorem Inv.branchableOp (h : Inv s) (len : Nat) (dst : Reg) (srcs : List Reg) (compute : State → Computed) :
    Keeps (branchableOp len dst srcs compute s) := by
  refine keeps_guarded ((h.windowGuard ..).andThen ?_) (h.opened.keeps_finishBranch ..)
  split
  · exact stopsSoundly_slotGuard s
  · exact stopsSoundly_none

theorem Inv.testOp (h : Inv s) (len : Nat) (srcs : List Reg) (compute : State → FlagUpdate × Bool) :
    Keeps (testOp len srcs compute s) :=
  keeps_guarded (h.windowGuard ..) ((h.opened.withFlags _).keeps_end _ len)

theorem Inv.pairOp (h : Inv s) (dst : Reg) (srcs : List Reg) (compute : State → Place → ComputedPair) :
    Keeps (pairOp dst srcs compute s) := by
  refine keeps_guarded ((h.windowGuard ..).andThen (stopsSoundly_pcGuard dst)) ?_
  split
  · exact keeps_refused _
  · exact h.opened.keeps_finishPair ..

theorem Inv.logicalOp (h : Inv s) (rd rs : Reg) (op : Word → Word → Word) : Keeps (logicalOp rd rs op s) := h.registerOp ..

theorem Inv.logicalImmOp (h : Inv s) (rd : Reg) (imm : Imm) (op : Word → Word) : Keeps (logicalImmOp rd imm op s) :=
  h.registerOp ..

theorem Inv.setOp (h : Inv s) (rd : Reg) (one : Word) (c : Cond) : Keeps (setOp rd one c s) := h.registerOp ..

theorem Inv.multiplyDouble (h : Inv s) (rd rs : Reg) (product : Word → Word → Double) : Keeps (multiplyDouble rd rs product s) :=
  h.pairOp ..

theorem Inv.divideOp (h : Inv s) (rd rs : Reg) (divide : Double → Word → Option Division) : Keeps (divideOp rd rs divide s) :=
  h.pairOp ..

theorem Inv.indexOp (h : Inv s) (len : Nat) (rd rs : Reg) (k : Nat) (limit : Option Word) :
    Keeps (indexOp len rd rs k limit s) :=
  keeps_guarded ((h.windowGuard ..).andThen (stopsSoundly_indexGuard rd rs)) (h.opened.keeps_finish ..)

theorem Inv.execMovd (h : Inv s) (rd rs : Reg) : Keeps (execMovd rd rs s) := by
  refine keeps_guarded ((h.windowGuard ..).andThen (stopsSoundly_pcGuard rd)) ?_
  split
  · exact keeps_refused _
  · split
    · exact h.opened.keeps_finishPair ..
    · split
      · exact keeps_refused _
      · exact h.opened.keeps_finishPair ..

/-- MOV and MOVI with the H window open: a user's global destination traps, a supervisor's is a high global register (R546). -/
theorem Inv.moveHigh (h : Inv s) (hp : s.powerDown = false) (len : Nat) (rd : Reg) (v : Word) (f : FlagUpdate) :
    Keeps (moveHigh len rd v f s) := by
  cases rd with
  | loc c => exact h.opened.keeps_finish ..
  | glob c =>
    unfold Machine.moveHigh
    dsimp only
    split
    · exact (h.opened.withFlags _).sound.keeps_raiseError len
    · exact keeps_guarded (stopsSoundly_stackGuard ..) (((h.opened.withFlags f).writeHigh (by simpa using hp) _ v).keeps_retire len)

theorem Inv.moveLow (h : Inv s) (len : Nat) (rd : Reg) (v : Word) (f : FlagUpdate) : Keeps (moveLow len rd v f s) := by
  refine keeps_guarded ?_ (h.opened.keeps_finishBranch ..)
  split
  · exact stopsSoundly_slotGuard s
  · exact stopsSoundly_none

theorem Inv.execMov (h : Inv s) (hp : s.powerDown = false) (rd rs : Reg) : Keeps (execMov rd rs s) := by
  unfold Machine.execMov
  split
  · exact h.moveHigh hp ..
  · exact h.moveLow ..

theorem Inv.execMovi (h : Inv s) (hp : s.powerDown = false) (rd : Reg) (imm : Imm) : Keeps (execMovi rd imm s) := by
  unfold Machine.execMovi
  split
  · exact h.moveHigh hp ..
  · exact h.moveLow ..

theorem Inv.dspOp (h : Inv s) (ld ls : BitVec 4) (f : State → Word → Word → DspResult) : Keeps (dspOp ld ls f s) :=
  (h.opened.putDsp _).keeps_retire 2

theorem Inv.execNop (h : Inv s) : Keeps (execNop s) := h.opened.keeps_retire 1

/-- FETCH: the prefetch runs to a word (R412). -/
theorem Inv.execFetch (h : Inv s) (half : BitVec 4) : Keeps (execFetch half s) := by
  unfold Machine.execFetch
  split
  · exact keeps_refused _
  · refine keeps_guarded ((h.windowGuard ..).andThen (stopsSoundly_slotGuard s)) (Running.keeps_retire ?_ 1)
    exact h.opened.congr (h.opened.sound.prefetchTo (alignWord_alignWord _))

/-! ### Loads and stores -/

/-- A Pointer Error, or the access. -/
theorem keeps_access {len : Nat} {t : State} {null : Bool} {run : Result} (ht : Running t) (hr : Keeps run) :
    Keeps (if null then raiseError len t else run) := by
  split
  · exact ht.sound.keeps_raiseError len
  · exact hr

theorem Inv.loadOp (h : Inv s) {len : Nat} {ty : DataType} {fields : List Reg} {rs : Reg} {check : Option Result}
    {access : State → Access} (hc : StopsSoundly check) : Keeps (loadOp len ty fields rs check access s) :=
  have hu := h.opened.updateAddress (access s.opened)
  keeps_guarded ((h.windowGuard ..).andThen (hc.andThen (stopsSoundly_loadGuard ..)))
    (keeps_access hu (((hu.noteLoad ..).put ..).keeps_retire len))

theorem Inv.loadDoubleOp (h : Inv s) {len : Nat} {fields : List Reg} {rs : Reg} {check : Option Result}
    {access : State → Access} (hc : StopsSoundly check) : Keeps (loadDoubleOp len fields rs check access s) := by
  refine keeps_guarded ((h.windowGuard ..).andThen (hc.andThen (stopsSoundly_loadGuard ..))) ?_
  split
  · exact keeps_refused _
  · have hu := h.opened.updateAddress (access s.opened)
    exact keeps_access hu (((((hu.noteLoad ..).interlude.noteLoad ..).put ..).put ..).keeps_retire len)

theorem Inv.storeOp (h : Inv s) {len : Nat} {ty : DataType} {fields : List Reg} {rs : Reg} {check : Option Result}
    {access : State → Access} (hc : StopsSoundly check) : Keeps (storeOp len ty fields rs check access s) :=
  have hu := h.opened.updateAddress (access s.opened)
  keeps_guarded ((h.windowGuard ..).andThen hc) (keeps_access hu (((hu.noteAccess _).storeData ..).keeps_end _ len))

theorem Inv.storeDoubleOp (h : Inv s) {len : Nat} {fields : List Reg} {rs : Reg} {check : Option Result}
    {access : State → Access} (hc : StopsSoundly check) : Keeps (storeDoubleOp len fields rs check access s) := by
  refine keeps_guarded ((h.windowGuard ..).andThen hc) ?_
  have hu := h.opened.updateAddress (access s.opened)
  dsimp only
  split
  · exact keeps_refused _
  · exact keeps_access hu ((((hu.noteAccess _).writeWord ..).interlude.writeWord ..).keeps_retire len)

theorem Inv.ioLoadOp (h : Inv s) (len : Nat) (fields : List Reg) (rs : Reg) (access : State → Access) :
    Keeps (ioLoadOp len fields rs access s) :=
  keeps_guarded ((h.windowGuard ..).andThen (stopsSoundly_loadGuard ..))
    (keeps_access h.opened (((h.opened.noteIoRead _).put ..).keeps_retire len))

theorem Inv.ioLoadDoubleOp (h : Inv s) (len : Nat) (fields : List Reg) (rs : Reg) (access : State → Access) :
    Keeps (ioLoadDoubleOp len fields rs access s) := by
  refine keeps_guarded ((h.windowGuard ..).andThen (stopsSoundly_loadGuard ..)) ?_
  split
  · exact keeps_refused _
  · exact keeps_access h.opened (((((h.opened.noteIoRead _).noteIoRead _).put ..).put ..).keeps_retire len)

theorem Inv.ioStoreOp (h : Inv s) (len : Nat) (fields : List Reg) (rs : Reg) (access : State → Access) :
    Keeps (ioStoreOp len fields rs access s) :=
  keeps_guarded (h.windowGuard ..) (keeps_access h.opened ((h.opened.ioWrite _ _).keeps_retire len))

theorem Inv.ioStoreDoubleOp (h : Inv s) (len : Nat) (fields : List Reg) (rs : Reg) (access : State → Access) :
    Keeps (ioStoreDoubleOp len fields rs access s) := by
  refine keeps_guarded (h.windowGuard ..) ?_
  dsimp only
  split
  · exact keeps_refused _
  · exact keeps_access h.opened (((h.opened.ioWrite _ _).ioWrite _ _).keeps_retire len)

theorem Inv.execLdwS (h : Inv s) (rd rs : Reg) (dis : Dis) : Keeps (execLdwS rd rs dis s) :=
  have hu := h.opened.updateAddress (nextAccess rd dis s.opened)
  keeps_guarded ((h.windowGuard ..).andThen ((stopsSoundly_addressGuard rd).andThen (stopsSoundly_loadGuard ..)))
    (keeps_access hu (((hu.noteStackRead _).put ..).keeps_retire _))

theorem Inv.execStwS (h : Inv s) (rd rs : Reg) (dis : Dis) : Keeps (execStwS rd rs dis s) :=
  have hu := h.opened.updateAddress (nextAccess rd dis s.opened)
  keeps_guarded ((h.windowGuard ..).andThen (stopsSoundly_addressGuard rd))
    (keeps_access hu ((hu.stackWrite _ _).keeps_retire _))

/-! ### Transfers of control -/

/-- New words in the local registers, a new SR, then a branch taken: what CALL, the Traps and the Software instructions do. -/
theorem Running.withFrame {s : State} (h : Running s) (locals : Vector Word 64) (sr : Word) :
    Running { s with locals := locals, sr := sr } :=
  h.congr (h.sound.congr (.of_eq rfl (.inl rfl) (.inl rfl)))

theorem Running.branchCache (h : Running s) (waits : Bool) (rel : Rel) (target : Word) : Running (s.branchCache waits rel target) :=
  h.congr (h.sound.branchCache waits rel target)

/-- The lock-out of a Delayed Branch or of a CALL is set where neither is, and no delay instruction is pending (R427, R431). -/
theorem Running.locked (h : Running s) (hd : s.delayPending = false) {after call : Bool} (hl : (after && call) = false) :
    Inv { s with afterDelayedBranch := after, callLockout := call } :=
  Running.inv ⟨h.sound.congr (.of_eq rfl (.inl rfl) (.inl rfl)), h.pcEven, hl⟩ hd

theorem Inv.branchAlways (h : Inv s) (misplaced : Bool) (c : Cond) (rel : Rel) : Keeps (branchAlways misplaced c rel s) := by
  unfold Machine.branchAlways
  split
  · dsimp only
    split
    · exact h.opened.keeps_jump _
    · exact keeps_next (Running.inv ((h.opened.branched _).branchCache ..) rfl).bump
  · exact h.opened.keeps_retire _

theorem Inv.branchOp (h : Inv s) (c : Cond) (rel : Rel) : Keeps (branchOp c rel s) :=
  keeps_guarded (stopsSoundly_slotGuard s) (h.branchAlways false c rel)

/-- A Delayed Branch taken makes its delay instruction pending, at the even address after it (R424). -/
theorem Running.delayed (h : Running s) (hc : s.callLockout = false) (rel : Rel) : Inv (s.delayed rel) := by
  have hr (addr sr : Word) (ahead : Option Word) : Running { s with
      pc := clearBit0 (branchTarget rel s), delayPending := true, delayAddr := addr, slotAhead := ahead,
      afterDelayedBranch := true, sr := sr } :=
    ⟨h.sound.congr (.of_eq rfl (.inl rfl) (.inl rfl)), clearBit0_even _, hc⟩
  exact inv_iff.mpr ⟨(hr _ _ _).branchCache .., fun _ => ⟨rfl, even_add h.pcEven _⟩⟩

theorem Inv.delayedBranchOp (h : Inv s) (c : Cond) (rel : Rel) : Keeps (delayedBranchOp c rel s) := by
  unfold Machine.delayedBranchOp
  split
  · exact h.branchAlways true c rel
  · split
    · exact keeps_next (h.opened.delayed rfl rel).bump
    · exact keeps_next ((h.opened.settle _).running.locked (by simp) (by simp))

theorem Inv.trapOp (h : Inv s) (c : Cond) (k : BitVec 6) : Keeps (trapOp c k s) := by
  refine keeps_guarded (stopsSoundly_slotGuard s) ?_
  split
  · split
    · exact keeps_next (Running.jumped (h.opened.withFrame _ _) _).bump
    · exact keeps_fault _
  · exact h.opened.keeps_retire 1

theorem Inv.softwareOp (h : Inv s) (k : Nat) (ld ls : BitVec 4) : Keeps (softwareOp k ld ls s) := by
  refine keeps_guarded (stopsSoundly_slotGuard s) ?_
  split
  · exact keeps_next (Running.jumped (h.opened.withFrame _ _) _).bump
  · exact keeps_fault _

theorem Inv.execCall (h : Inv s) (ld : BitVec 4) (rs : Reg) (c : Const) : Keeps (execCall ld rs c s) := by
  refine keeps_guarded ((h.windowGuard ..).andThen (stopsSoundly_slotGuard s)) (keeps_next (Inv.bump ?_))
  exact (Running.jumped (h.opened.withFrame _ _) _).running.locked rfl rfl

theorem Inv.execFrame (h : Inv s) (ld ls : BitVec 4) : Keeps (execFrame ld ls s) := by
  unfold Machine.execFrame
  dsimp only
  have hr := h.opened.withFrame s.opened.locals (frameSR s.opened.sr ld ls)
  split
  · exact (hr.sound.pushes _).keeps_raiseError 1
  · refine Running.keeps_retire (hr.congr (hr.sound.pushes _)) 1

/-- An illegal Return takes the error exception, another pulls words into the local registers (R446). -/
theorem Running.keeps_returnFrom (h : Running s) (a b : Word) : Keeps (returnFrom a b s) := by
  have ht : Sound (s.returned a b) :=
    (h.sound.congr (.of_eq rfl (.inl rfl) (.inl rfl)) :
      Sound { s with pc := clearBit0 a, sr := returnSR a b, delayPending := false }).flush a
  unfold Machine.returnFrom
  dsimp only
  split
  · exact ht.keeps_takeException 60 false
  · refine keeps_next (Running.inv ⟨ht.pulls _, ?_, ?_⟩ ?_).bump
    · rw [State.pulls_pc]
      exact clearBit0_even a
    · simpa using h.oneLock
    · simp

theorem Inv.execRet (h : Inv s) (rs : Reg) : Keeps (execRet rs s) := by
  refine keeps_guarded ((h.windowGuard ..).andThen (StopsSoundly.andThen (stopsSoundly_refusal _) (stopsSoundly_slotGuard s))) ?_
  split
  · exact keeps_refused _
  · exact h.opened.keeps_returnFrom _ _
end

/-! ### Every instruction -/

/-- What an instruction answers meets the invariant: each is one of the shapes above. -/
theorem Inv.exec {s : State} (h : Inv s) (hp : s.powerDown = false) (i : Instr) : Keeps (exec i s) := by
  cases i <;> unfold Machine.exec
  case chk | chkz | cmp | cmpi | cmpb | cmpbi => exact h.testOp ..
  case nop => exact h.execNop
  case mov => exact h.execMov hp ..
  case movi => exact h.execMovi hp ..
  case movd => exact h.execMovd ..
  case add | addi | sum | sub => exact h.branchableOp ..
  case adds | addc | addsi | sums | subs | subc | neg | negs | mul | not | mask | shli | shl | sari | sar | shri | shr | rol | testlz
      | setadr | set0 =>
    exact h.registerOp ..
  case and | andn | or | xor => exact h.logicalOp ..
  case andni | ori | xori => exact h.logicalImmOp ..
  case set1 | setle | setgt | setlt | setge | setse | setht | setst | sethe | sete | setne | setv | setnv | set1m | setlem | setgtm
      | setltm | setgem | setsem | sethtm | setstm | sethem | setem | setnem | setvm | setnvm =>
    exact h.setOp ..
  case muls | mulu => exact h.multiplyDouble ..
  case divs | divu => exact h.divideOp ..
  case shldi | shld | sardi | sard | shrdi | shrd => exact h.pairOp ..
  case xm1 | xm2 | xm4 | xm8 | xx1 | xx2 | xx4 | xx8 => exact h.indexOp ..
  case ldbsD | ldbuD | ldhuD | ldhsD | ldwD | ldbsA | ldbuA | ldhuA | ldhsA | ldwA | ldwR | ldwP =>
    exact h.loadOp stopsSoundly_none
  case ldbsN | ldbuN | ldhuN | ldhsN | ldwN => exact h.loadOp (stopsSoundly_addressGuard _)
  case lddD | lddA | lddR | lddP => exact h.loadDoubleOp stopsSoundly_none
  case lddN => exact h.loadDoubleOp (stopsSoundly_addressGuard _)
  case stbsD | stbuD | sthuD | sthsD | stwD | stbsA | stbuA | sthuA | sthsA | stwA | stwR | stwP =>
    exact h.storeOp stopsSoundly_none
  case stbsN | stbuN | sthuN | sthsN | stwN => exact h.storeOp (stopsSoundly_addressGuard _)
  case stdD | stdA | stdR | stdP => exact h.storeDoubleOp stopsSoundly_none
  case stdN => exact h.storeDoubleOp (stopsSoundly_addressGuard _)
  case ldwS => exact h.execLdwS ..
  case stwS => exact h.execStwS ..
  case ldwIOD | ldwIOA => exact h.ioLoadOp ..
  case lddIOD | lddIOA => exact h.ioLoadDoubleOp ..
  case stwIOD | stwIOA => exact h.ioStoreOp ..
  case stdIOD | stdIOA => exact h.ioStoreDoubleOp ..
  case emul | emulu | emuls | emac | emacd | emsub | emsubd | ehmac | ehmacd | ehcmuld | ehcmacd | ehcsumd | ehcfftd =>
    exact h.dspOp ..
  case fadd | faddd | fsub | fsubd | fmul | fmuld | fdiv | fdivd | fcmp | fcmpd | fcmpu | fcmpud | fcvt | fcvtd | softDo =>
    exact h.softwareOp ..
  case bv | bnv | be | bne | bst | bhe | bse | bht | blt | bge | ble | bgt | br => exact h.branchOp ..
  case dbv | dbnv | dbe | dbne | dbst | dbhe | dbse | dbht | dblt | dbge | dble | dbgt | dbr => exact h.delayedBranchOp ..
  case traple | trapgt | traplt | trapge | trapse | trapht | trapst | traphe | trape | trapne | trapv | trap => exact h.trapOp ..
  case call => exact h.execCall ..
  case frame => exact h.execFrame ..
  case ret => exact h.execRet ..
  case fetch => exact h.execFetch ..
  case reserved8C8D | reservedACAF => exact keeps_refused _

end Sys2Proof.Machine
end

section
/-! What time, the inputs of a boundary, Reset, power-down and an exception keep of the invariant, and the statements O4 to O6. -/

namespace Sys2Proof.Machine

/-! ### Time (R558, R559) -/

theorem Sound.cycle {s : State} (h : Sound s) : Sound s.cycle := by
  have hany (n : Nat) : Sound { s with prescaler := n } :=
    ⟨⟨h.devices.wcrUpper, h.devices.quietFlags, h.devices.overflowEnabled, h.devices.asleep, h.devices.unlocked,
      h.devices.quietPins⟩, h.storage.congr, h.cache.congr⟩
  unfold State.cycle
  split
  · exact (hany 0).tick
  · exact hany _

theorem Sound.advance {s : State} (h : Sound s) (n : Nat) : Sound (s.advance n) := by
  induction n generalizing s with
  | zero => exact h
  | succ n ih => exact ih h.cycle

/-- The PC, the delay state and the lock-outs unchanged. -/
theorem Inv.congr {s t : State} (h : Inv s) (hs : Sound t) (hpc : t.pc = s.pc := by simp)
    (hd : t.delayPending = s.delayPending := by simp) (hda : t.delayAddr = s.delayAddr := by simp)
    (ha : t.afterDelayedBranch = s.afterDelayedBranch := by simp) (hc : t.callLockout = s.callLockout := by simp) : Inv t :=
  inv_iff.mpr ⟨h.running.congr hs hpc ha hc, by rw [hd, ha, hda]; exact h.delaySlot⟩

theorem Inv.advance {s : State} (h : Inv s) (n : Nat) : Inv (s.advance n) := h.congr (h.sound.advance n)

theorem keeps_thenAdvance {r : Result} (h : Keeps r) (cycles : Nat) : Keeps (thenAdvance cycles r) := by
  cases r with
  | next t => exact Inv.advance h cycles
  | fault f => exact keeps_fault f
  | refused r => exact keeps_refused r

/-! ### The boundary (R532, R570, R590) -/

/-- Power-down ends, if it does, without a change of MCR. -/
theorem Inv.sleep {s : State} (h : Inv s) (cycles : Nat) : Inv (s.sleep cycles) := by
  have ht := (h.advance cycles).bump
  obtain ⟨hwcr, hquiet, hovf, -, hlock, hpins⟩ := ht.sound.devices
  unfold State.sleep
  dsimp only
  split
  · exact ht.congr ⟨⟨hwcr, hquiet, hovf, fun hc => (nomatch hc), hlock, hpins⟩, ht.sound.storage.congr, ht.sound.cache.congr⟩
  · exact ht

theorem memFrame_dma (s : State) (writes : List (Word × Byte)) : MemFrame s (s.dma writes) := by
  unfold MemFrame
  rw [State.dma_frame]

/-- The inputs of a boundary drive the pins and write external memory (R123, R557). -/
theorem Inv.receive {s : State} (h : Inv s) (i : Input) : Inv (s.receive i) := by
  have hs := h.sound
  have hi : Sound { s with
      pins := i.pins
      pinsDriven := true
      between := i.between
      parityPending := s.parityPending || parityHit s.bcr i.parity
      resetRequest := s.resetRequest || i.reset } :=
    ⟨⟨hs.devices.wcrUpper, hs.devices.quietFlags, hs.devices.overflowEnabled, hs.devices.asleep, hs.devices.unlocked,
      fun hc => nomatch hc⟩, hs.storage.congr, hs.cache.congr⟩
  exact h.congr ((hi.store (memFrame_dma ..) (hi.storage.dma i.dma)).evalIO3 false) (by simp [State.receive])
    (by simp [State.receive]) (by simp [State.receive]) (by simp [State.receive]) (by simp [State.receive])

/-- A delay instruction's fetch may start the bus lock, as any access does, only while FCR(17) = 0 (R165). -/
theorem fetchLock_starts (s : State) (low top : Word) :
    s.fetchLock low top = s.busLock ∨ s.fcr.getLsbD 17 = false ∧ s.fetchLock low top = true := by
  rw [State.fetchLock, Bool.and_assoc, Bool.and_comm]
  exact lock_starts

theorem Inv.noteCode {s : State} (h : Inv s) (a : Word) (len : Nat) : Inv (s.noteCode a len) := h.withBookkeeping ..

theorem Inv.fetchAhead {s : State} (h : Inv s) : Inv s.fetchAhead := by
  unfold State.fetchAhead
  split
  · exact h
  split
  case h_2 => exact h
  case h_1 i _ =>
    have hn := h.noteCode s.fetchAddr i.length
    dsimp only
    split
    · split
      · exact hn.congr (hn.sound.prefetchTo (alignWord_alignWord _))
      · exact hn.congr (hn.sound.congr (.of_eq rfl (fetchLock_starts ..) (.inl rfl)))
    · exact hn.congr (hn.sound.prefetched _)

theorem Inv.takeInput {s : State} (h : Inv s) : Inv s.takeInput := by
  unfold State.takeInput
  split
  · exact (h.withBookkeeping s.iramRelied s.inputs [] s.fresh).fetchAhead
  · exact ((h.withBookkeeping s.iramRelied _ s.between s.fresh).receive _).fetchAhead

/-- An encoding no instruction has stops, or takes a user's Privilege Error in the H window (I2.6). -/
theorem Inv.unreadable {s : State} (h : Inv s) (e : DecodeError) : Keeps (unreadable e s) := by
  unfold Machine.unreadable
  split
  · split
    · exact keeps_refused _
    · exact keeps_guarded (h.windowGuard ..) (keeps_refused _)
  · exact keeps_refused _

theorem Inv.runInstruction {s : State} (h : Inv s) (hp : s.powerDown = false) : Keeps (runInstruction s) := by
  unfold Machine.runInstruction
  split
  · exact h.exec hp _
  · exact h.unreadable _

/-- A saved condition is cleared by its trap. -/
theorem Inv.takeAtBoundary {s : State} (h : Inv s) (k : Nat) : Keeps (takeAtBoundary k s) := by
  obtain ⟨hwcr, hquiet, hovf, hasleep, hlock, hpins⟩ := h.sound.devices
  have hs : Sound { s with
      extOvfPending := s.extOvfPending && k != 59
      parityPending := s.parityPending && k != 58 } :=
    ⟨⟨hwcr, hquiet, fun ho => hovf (Bool.and_eq_true _ _ ▸ ho).1, hasleep, hlock, hpins⟩, h.sound.storage.congr, h.sound.cache.congr⟩
  exact hs.keeps_takeException k _

/-! ### Reset (R590) -/

/-- The cells of the IRAM after a Reset are cells of the IRAM, in rising order, none with the value of an unlisted one. -/
theorem undefinedIram_cells (s : State) :
    s.undefinedIram.Pairwise (fun a b => a.1 < b.1) ∧
      ∀ c ∈ s.undefinedIram, 0xC0000000 ≤ c.1 ∧ c.1 < 0xC0001000 ∧ c.2 ≠ Memory.unlisted := by
  have hsome {i : Nat} {c : Host.Cell} (h : (if s.free 8 (.iramByte i) = Memory.unlisted then none
      else some (0xC0000000 + i, s.free 8 (.iramByte i))) = some c) : c.1 = 0xC0000000 + i ∧ c.2 ≠ Memory.unlisted := by
    split at h
    · exact nomatch h
    · rename_i hne
      cases h
      exact ⟨rfl, hne⟩
  constructor
  · refine List.Pairwise.filterMap _ (fun i j hij c hc d hd => ?_) List.pairwise_lt_range
    rw [(hsome hc).1, (hsome hd).1]
    omega
  · intro c hc
    obtain ⟨i, hi, h⟩ := List.mem_filterMap.mp hc
    have := List.mem_range.mp hi
    obtain ⟨hk, hv⟩ := hsome h
    exact ⟨by omega, by omega, hv⟩

/-- Reset keeps the external memory on either side of the IRAM (R590, D20). -/
theorem wf_afterReset {s : State} (h : Memory.wf s.mem = true) : Memory.wf s.afterReset.mem = true := by
  obtain ⟨hrise, hcells⟩ := Memory.wf_iff.mp h
  obtain ⟨hiram, hbounds⟩ := undefinedIram_cells s
  have hlow {c : Host.Cell} (hc : c ∈ s.mem.filter fun c => decide (c.1 < 0xC0000000)) : c ∈ s.mem ∧ c.1 < 0xC0000000 := by
    simpa using hc
  have hhigh {c : Host.Cell} (hc : c ∈ s.mem.filter fun c => decide (0xE0000000 ≤ c.1)) : c ∈ s.mem ∧ 0xE0000000 ≤ c.1 := by
    simpa using hc
  refine Memory.wf_iff.mpr ⟨?rise, fun c hc => ?cells⟩
  case rise =>
    refine List.pairwise_append.mpr ⟨List.pairwise_append.mpr ⟨hrise.filter _, hiram, ?_⟩, hrise.filter _, ?_⟩
    · intro c hc d hd
      have := hlow hc
      have := hbounds d hd
      omega
    · intro c hc d hd
      have := hhigh hd
      rcases List.mem_append.mp hc with hc | hc
      · have := hlow hc
        omega
      · have := hbounds c hc
        omega
  case cells =>
    rcases List.mem_append.mp hc with hc | hc
    · rcases List.mem_append.mp hc with hc | hc
      · exact hcells c (hlow hc).1
      · obtain ⟨_, hlt, hv⟩ := hbounds c hc
        exact ⟨hv, by simp [Memory.isCell, hlt]⟩
    · exact hcells c (hhigh hc).1

/-- The Reset entry is a word address, and both counters hold it (R590). -/
theorem resetEntry_cache :
    alignWord 0xFFFFFFF8#32 = 0xFFFFFFF8#32 ∧ alignWord 0xFFFFFFF8#32 = 0xFFFFFFF8#32 ∧
      (0xFFFFFFF8#32 - 0xFFFFFFF8#32).toNat ≤ 124 := by decide

theorem resetEntry_even : (0xFFFFFFF8#32).getLsbD 0 = false := by decide

theorem Inv.afterReset {s : State} (h : Inv s) : Inv s.afterReset where
  memory := wf_afterReset h.memory
  pcEven := resetEntry_even
  wcrUpper := upper_of_low _
  quietFlags := fun _ => ⟨rfl, rfl, rfl⟩
  overflowEnabled := fun hc => nomatch hc
  asleep := fun hc => nomatch hc
  delaySlot := fun hc => nomatch hc
  oneLock := rfl
  cache := resetEntry_cache
  iram := ⟨rfl, fun _ => rfl⟩
  unlocked := fun _ => rfl
  quietPins := fun hp => if_neg (by simp [show s.pinsDriven = false from hp])

/-- Every step meets the invariant again: by what the boundary brings, a Reset, power-down, an exception or an instruction. -/
theorem Inv.turn {s : State} (h : Inv s) (cycles : Nat) : Keeps (turn cycles s) := by
  unfold Machine.turn
  split
  · exact h.afterReset
  split
  · exact h.sleep cycles
  rename_i hp
  split
  · exact h.takeAtBoundary _
  · exact keeps_thenAdvance (h.runInstruction (Bool.eq_false_of_not_eq_true hp)) cycles

/-- Settles O4: the invariant holds after the inputs of the boundary, and the turn of the loop that follows keeps it. -/
theorem stepKeepsTheInvariant : Obligations.StepKeepsTheInvariant := by
  intro s t h hstep
  have hk : Keeps (step s) := h.takeInput.turn s.cycles
  rw [hstep] at hk
  exact hk

/-- Settles O5, clause by clause: memory is empty, every latch clear, FCR and MCR all ones. -/
theorem resetStateMeetsTheInvariant : Obligations.ResetStateMeetsTheInvariant where
  memory := State.wf_reset
  pcEven := resetEntry_even
  wcrUpper := by decide
  quietFlags := fun _ => ⟨rfl, rfl, rfl⟩
  overflowEnabled := fun hc => nomatch hc
  asleep := fun hc => nomatch hc
  delaySlot := fun hc => nomatch hc
  oneLock := rfl
  cache := resetEntry_cache
  iram := ⟨rfl, fun _ => rfl⟩
  unlocked := fun _ => rfl
  quietPins := fun _ => by decide

/-- Settles O6: each value is a field of the reset state, or a bit field of its SR. -/
theorem resetLeavesTheStatedValues : Obligations.ResetLeavesTheStatedValues := by
  unfold Obligations.ResetLeavesTheStatedValues
  refine ⟨rfl, ?S, ?L, ?T, ?M, ?FL, rfl, rfl, rfl, rfl, rfl, rfl, rfl, rfl, rfl, rfl, rfl, rfl, rfl⟩
  all_goals decide

end Sys2Proof.Machine
end

section
/-! The PC as destination (R24, R420): MOV, MOVI, ADD, ADDI, SUM and SUB are then branches taken, and the statement O36. -/

namespace Sys2Proof.Machine

section
variable {i : Instr} {rd : Reg} {s : State} {g : FlagClaim} {v : Word} {f : FlagUpdate}

/-- A result for the PC is a branch taken to it (R280 (b)). -/
theorem finishBranch_pc (len : Nat) (hp : rd.isPC = true) :
    finishBranch len (place rd s) v f s.opened = jump v (s.opened.withFlags f) := by
  rw [place_eq_pc.mpr hp]
  rfl

/-- A branch taken with its flags: what is claimed of them follows from what the instruction writes. -/
theorem branches_of_jump (hi : exec i s = jump v (s.opened.withFlags f)) (hg : g.Follows (f.claim s)) :
    ∃ t, exec i s = .next t ∧ g.meets t.sr ∧ BranchesTo v s t := by
  obtain ⟨t, hj, hm, hb, _⟩ := jump_branches v f s
  exact ⟨t, hi.trans hj, hg _ hm, hb⟩

/-- ADD, ADDI, SUM and SUB with the PC as destination. -/
theorem branchableOp_branches {len : Nat} {srcs : List Reg} {compute : State → Computed}
    (hi : exec i s = branchableOp len rd srcs compute s) (hp : rd.isPC = true) (hw : s.window = false) (hslot : s.inSlot = false)
    (hv : (compute s.opened).value = v) (hg : g.Follows ((compute s.opened).flags.claim s)) :
    ∃ t, exec i s = .next t ∧ g.meets t.sr ∧ BranchesTo v s t := by
  refine branches_of_jump ?_ hg
  rw [hi, ← hv]
  unfold branchableOp
  rw [windowGuard_none (usable_closed hw), hp, if_pos rfl, slotGuard_none hslot]
  exact finishBranch_pc len hp

/-- MOV and MOVI with the PC as destination. -/
theorem moveLow_branches {len : Nat} (hi : exec i s = moveLow len rd v f s) (hp : rd.isPC = true) (hslot : s.inSlot = false)
    (hg : g.Follows (f.claim s)) : ∃ t, exec i s = .next t ∧ g.meets t.sr ∧ BranchesTo v s t := by
  refine branches_of_jump ?_ hg
  rw [hi]
  unfold moveLow
  rw [hp, if_pos rfl, slotGuard_none hslot]
  exact finishBranch_pc len hp

end

/-! ### The results without a carry in -/

theorem sumOf_value (a b : Word) : (sumOf a b false).value = a + b := BitVec.add_zero _

theorem differenceOf_value (a b : Word) : (differenceOf a b false).value = a - b := BitVec.sub_zero _

/-- The flags of an addition (R313). -/
theorem sumOf_claim (a b : Word) (s : State) : (sumOf a b false).flags.claim s =
    { c := some (decide (2 ^ 32 ≤ a.toNat + b.toNat)), z := some (a + b == 0#32), n := some ((a + b).getLsbD 31),
      v := some (outsideSigned 32 (a.toInt + b.toInt)) } := by
  have hv : a + b + carryWord false = a + b := sumOf_value a b
  simp only [sumOf, addFlags, FlagUpdate.claim, Option.getD_some, hv, carryOut, overflowAdd, sign, Bool.toNat_false, Nat.add_zero,
    Nat.cast_zero, Int.add_zero]

/-- The flags of a subtraction (R320). -/
theorem differenceOf_claim (a b : Word) (s : State) : (differenceOf a b false).flags.claim s =
    { c := some (decide (a.toNat < b.toNat)), z := some (a - b == 0#32), n := some ((a - b).getLsbD 31),
      v := some (outsideSigned 32 (a.toInt - b.toInt)) } := by
  have hv : a - b - carryWord false = a - b := differenceOf_value a b
  simp only [differenceOf, subFlags, FlagUpdate.claim, Option.getD_some, hv, borrowOut, overflowSub, sign, Bool.toNat_false,
    Nat.add_zero, Nat.cast_zero, Int.sub_zero]

/-- The flags of MOV: V is open (R281). -/
theorem moveFlags_follows (s : State) (v : Word) :
    FlagClaim.Follows { s.sameFlags with z := some (v == 0#32), n := some (v.getLsbD 31), v := none } ((s.moveFlags v).claim s) :=
  FlagClaim.follows_of (.inr rfl) (.inr rfl) (.inr rfl) (.inl rfl)

/-- The flags of MOVI: V is cleared (R282). -/
theorem moveImmFlags_follows (s : State) (v : Word) :
    FlagClaim.Follows { s.sameFlags with z := some (v == 0#32), n := some (v.getLsbD 31), v := some false }
      ((moveImmFlags v).claim s) := FlagClaim.follows_refl _

/-- The immediate operand of ADDI, before and after the start of the instruction (R316). -/
theorem immOrCZ_opened (imm : Imm) (a : Word) (s : State) : immOrCZ imm a s.opened =
    if imm = .code 0#5 then carryWord (srC s.sr && (!srZ s.sr || a.getLsbD 0)) else immValue imm := by
  simp [immOrCZ, immIsZeroCode]

/-- Settles O36: outside a delay slot and with the window closed every check passes, and the result goes to the PC by a branch. -/
theorem pcDestinationsBranch : Obligations.PcDestinationsBranch := by
  intro rd rs imm c s hp hw hslot goes sum moved
  have hsrc (len : Nat) (r : Reg) : source len r s.opened = source len r s := source_opened len (usable_closed hw) (.head [])
  have hcarry (len : Nat) (r : Reg) : sourceOrCarry len r s.opened = sourceOrCarry len r s :=
    sourceOrCarry_opened len (usable_closed hw) (.head [])
  have hadds {i : Instr} {len : Nat} {srcs : List Reg} {a b : State → Word} {x y : Word}
      (hi : exec i s = branchableOp len rd srcs (fun t => sumOf (a t) (b t) false) s) (ha : a s.opened = x) (hb : b s.opened = y) :
      goes i (x + y) (sum x y) := by
    subst ha hb
    exact branchableOp_branches hi hp hw hslot (sumOf_value _ _) (by rw [sumOf_claim]; exact FlagClaim.follows_refl _)
  refine ⟨?mov, ?movi, ⟨?add, ?sub⟩, ?addi, ?sum⟩
  case mov =>
    exact moveLow_branches (if_neg (by simp [hw]) : execMov rd rs s = _) hp hslot (moveFlags_follows s _)
  case movi =>
    exact moveLow_branches (if_neg (by simp [hw]) : execMovi rd imm s = _) hp hslot (moveImmFlags_follows s _)
  case add => exact hadds (rfl : execAdd rd rs s = _) (hsrc _ _) (hcarry _ _)
  case sub =>
    refine branchableOp_branches (rfl : execSub rd rs s = _) hp hw hslot ?_ ?_
    · rw [hsrc, hcarry]
      exact differenceOf_value _ _
    · rw [hsrc, hcarry, differenceOf_claim]
      exact FlagClaim.follows_refl _
  case addi =>
    exact hadds (rfl : execAddi rd imm s = _) (hsrc _ _) (by rw [hsrc]; exact immOrCZ_opened imm _ s)
  case sum => exact hadds (rfl : execSum rd rs c s = _) (hcarry _ _) rfl

end Sys2Proof.Machine
end

section
/-! The high global registers (R33, R47 to R59): MOV and MOVI with the H window open read and write G(c+16), and the statements O48 and
O49. -/

namespace Sys2Proof.Machine

/-- Settles O48: with the window open a MOV to a local register finishes as any register instruction, with the value of G(c+16). -/
theorem highRegisterReads : Obligations.HighRegisterReads := by
  intro ld c s hw
  refine ⟨s.readHigh (highOf c), readsHigh_readHigh c s, ?_⟩
  exact finish_yields (if_pos hw : execMov (.loc ld) (.glob c) s = _) rfl rfl (moveFlags_follows s _)

/-! ### What a move to a high global register writes -/

/-- Which high global register a code denotes (R20). -/
theorem highOf_iff (c : BitVec 4) :
    (highOf c = .sp ↔ c = 2#4) ∧ (highOf c = .ub ↔ c = 3#4) ∧ (highOf c = .bcr ↔ c = 4#4) ∧ (highOf c = .tpr ↔ c = 5#4) ∧
      (highOf c = .tcr ↔ c = 6#4) ∧ (highOf c = .tr ↔ c = 7#4) ∧ (highOf c = .wcr ↔ c = 8#4) ∧ (highOf c = .fcr ↔ c = 10#4) ∧
      (highOf c = .mcr ↔ c = 11#4) := by
  revert c
  decide

/-- The registers and latches that a move of `v` to the high global register `r` writes, the IO3 modes apart (R48 to R59, R112, R165,
R548, R558, R570). -/
structure HighWritten (r : High) (v : Word) (s t : State) : Prop where
  sp : t.sp = if r = .sp then v else s.sp
  ub : t.ub = if r = .ub then v else s.ub
  bcr : t.bcr = if r = .bcr then v else s.bcr
  tpr : t.tpr = if r = .tpr then v else s.tpr
  prescaler : t.prescaler = if r = .tpr then 0 else s.prescaler
  tcr : t.tcr = if r = .tcr then v else s.tcr
  tr : t.tr = if r = .tr then v else s.tr
  fcr : t.fcr = if r = .fcr then v else s.fcr
  mcr : t.mcr = if r = .mcr then v else s.mcr
  extOvfPending : t.extOvfPending = (s.extOvfPending && !(decide (r = .fcr) && v.getLsbD 16))
  busLock : t.busLock = (s.busLock && !(decide (r = .fcr) && v.getLsbD 17))
  powerDown : t.powerDown = (s.powerDown || (decide (r = .mcr) && s.mcr.getLsbD 22 && !v.getLsbD 22))
  pins : t.pins = if r = .fcr ∧ s.pinsDriven = false then inactivePins v else s.pins
  iramKept : t.iramKept = if r = .mcr ∧ v.extractLsb' 16 3 = 7#3 then [] else s.iramKept

/-- The evaluation of the IO3 modes writes none of them. -/
theorem HighWritten.evalIO3 {r : High} {v : Word} {s t : State} (h : HighWritten r v s t) (became : Bool) :
    HighWritten r v s (t.evalIO3 became) where
  sp := (State.evalIO3_sp ..).trans h.sp
  ub := (State.evalIO3_ub ..).trans h.ub
  bcr := (State.evalIO3_bcr ..).trans h.bcr
  tpr := (State.evalIO3_tpr ..).trans h.tpr
  prescaler := (State.evalIO3_prescaler ..).trans h.prescaler
  tcr := (State.evalIO3_tcr ..).trans h.tcr
  tr := (State.evalIO3_tr ..).trans h.tr
  fcr := (State.evalIO3_fcr ..).trans h.fcr
  mcr := (State.evalIO3_mcr ..).trans h.mcr
  extOvfPending := (State.evalIO3_extOvfPending ..).trans h.extOvfPending
  busLock := (State.evalIO3_busLock ..).trans h.busLock
  powerDown := (State.evalIO3_powerDown ..).trans h.powerDown
  pins := (State.evalIO3_pins ..).trans h.pins
  iramKept := (State.evalIO3_iramKept ..).trans h.iramKept

theorem highWritten_writeHigh (s : State) (r : High) (v : Word) : HighWritten r v s (s.writeHigh r v) := by
  cases r with
  | tr | wcr => exact HighWritten.evalIO3 (by constructor <;> simp) _
  | fcr =>
    show HighWritten .fcr v s (s.writeFcr v)
    rw [writeFcr_eq]
    refine HighWritten.evalIO3 ?_ _
    constructor
    case pins => cases hd : s.pinsDriven <;> simp [State.fcrWritten, hd]
    all_goals simp [State.fcrWritten]
  | mcr =>
    constructor
    case iramKept => by_cases hr : v.extractLsb' 16 3 = 7#3 <;> simp [State.writeHigh, State.writeMcr, refreshes, hr]
    all_goals simp [State.writeHigh, State.writeMcr]
  | sp | ub | bcr | tpr | tcr | isr | reserved => constructor <;> simp [State.writeHigh]

/-- A move to TR, with the equality of R564 before and after it. -/
theorem compares_writeTr (s : State) (v : Word) :
    Compares s.fcr s.wcr v s.wcrUpperOpen s.equalFlag s.eventFlag s.io3Toggle
      (decide (s.wcr.extractLsb' 0 16 = v.extractLsb' 0 16) && !decide (s.wcr.extractLsb' 0 16 = s.tr.extractLsb' 0 16)) s
      (s.writeTr v) := by
  rw [Bool.and_comm]
  exact (compares_evalIO3 { s with tr := v } _).congr rfl rfl rfl rfl rfl rfl rfl rfl

/-- A move to WCR (R56, R564, I7.2). -/
theorem compares_writeWcr (s : State) (v : Word) :
    Compares s.fcr (v &&& 0xFFFF#32) s.tr (v.extractLsb' 16 16 != 0#16) false false s.io3Toggle
      (decide ((v &&& 0xFFFF#32).extractLsb' 0 16 = s.tr.extractLsb' 0 16) &&
        !decide (s.wcr.extractLsb' 0 16 = s.tr.extractLsb' 0 16)) s (s.writeWcr v) := by
  rw [Bool.and_comm, ← low_halfword]
  exact (compares_evalIO3 { s with
      wcr := (v.extractLsb' 0 16).setWidth 32
      wcrUpperOpen := v.extractLsb' 16 16 != 0#16
      equalFlag := false
      eventFlag := false } _).congr rfl rfl rfl rfl rfl rfl rfl rfl

/-- A move to FCR evaluates the mode it sets (R58, R564). -/
theorem compares_writeFcr (s : State) (v : Word) :
    Compares v s.wcr s.tr s.wcrUpperOpen (s.equalFlag && !v.getLsbD 13) (s.eventFlag && !v.getLsbD 13)
      (s.io3Toggle && !v.getLsbD 13) false s (s.writeFcr v) := by
  rw [writeFcr_eq]
  exact (compares_evalIO3 (s.fcrWritten v) false).congr rfl rfl rfl rfl rfl rfl rfl rfl

/-- The beginning and the sequential end of an instruction touch nothing of the IO3 modes. -/
theorem Compares.settled {fcr wcr tr : Word} {upperOpen equal event toggle became : Bool} {s w : State} {f : FlagUpdate}
    (h : Compares fcr wcr tr upperOpen equal event toggle became (s.opened.withFlags f) w) (len : Nat) :
    Compares fcr wcr tr upperOpen equal event toggle became s (w.settle len).bump :=
  h.congr rfl (by simp) (by simp) (by simp) (by simp) (by simp) (by simp) (by simp)

/-- What the IO3 modes write stands at a move to any other register. -/
theorem writeHigh_io3 (s : State) {r : High} (v : Word) (ht : r ≠ .tr) (hw : r ≠ .wcr) (hf : r ≠ .fcr) :
    (s.writeHigh r v).wcr = s.wcr ∧ (s.writeHigh r v).wcrUpperOpen = s.wcrUpperOpen ∧
      (s.writeHigh r v).equalFlag = s.equalFlag ∧ (s.writeHigh r v).eventFlag = s.eventFlag ∧
      (s.writeHigh r v).io3Toggle = s.io3Toggle ∧ (s.writeHigh r v).resetRequest = s.resetRequest := by
  cases r with
  | tr => exact absurd rfl ht
  | wcr => exact absurd rfl hw
  | fcr => exact absurd rfl hf
  | sp | ub | bcr | tpr | tcr | isr | mcr | reserved => exact ⟨rfl, rfl, rfl, rfl, rfl, rfl⟩

/-- The SR at the end of an instruction that wrote flags alone. -/
theorem status_settle {s w : State} {f : FlagUpdate} {g : FlagClaim} (hg : g.Follows (f.claim s))
    (hsr : w.sr = (s.opened.withFlags f).sr) (len : Nat) :
    g.meets (w.settle len).sr ∧ srH (w.settle len).sr = false ∧ StatusKept s.sr (w.settle len).sr := by
  have hsame : SameButEnd (w.settle len).sr (s.opened.withFlags f).sr := hsr ▸ sameButEnd_settle w len
  obtain ⟨hmeets, hH, hkept, _⟩ := (onlyFlags_withFlags s f).congr (t := { s.opened.withFlags f with sr := (w.settle len).sr })
    hsame (frame_of_eq (registersKept_of_eq _ rfl rfl rfl) rfl) hg
  exact ⟨hmeets, hH, hkept⟩

/-- Where the stack check passes, a supervisor's move to a high global register is made and retires. -/
theorem moveHigh_next {len : Nat} {c : BitVec 4} {v : Word} {f : FlagUpdate} {s : State} (hs : srS s.sr = true)
    (ha : c = 2#4 ∨ c = 3#4 → v.extractLsb' 0 2 = 0#2) :
    moveHigh len (.glob c) v f s = retire len ((s.opened.withFlags f).writeHigh (highOf c) v) := by
  obtain ⟨hsp, hub, _⟩ := highOf_iff c
  have hguard : stackGuard (highOf c) v = none := if_neg (by rw [hsp, hub]; exact fun h => h.2 (ha h.1))
  simp [moveHigh, State.user, hs, hguard, guarded]

/-- Where it does not, the move is refused (I2.16). -/
theorem moveHigh_refused {len : Nat} {c : BitVec 4} {v : Word} {f : FlagUpdate} {s : State} (hs : srS s.sr = true)
    (hc : c = 2#4 ∨ c = 3#4) (ha : v.extractLsb' 0 2 ≠ 0#2) : moveHigh len (.glob c) v f s = .refused .stackAlignment := by
  obtain ⟨hsp, hub, _⟩ := highOf_iff c
  have hguard : stackGuard (highOf c) v = some (.refused .stackAlignment) := if_pos (by rw [hsp, hub]; exact ⟨hc, ha⟩)
  simp [moveHigh, State.user, hs, hguard, guarded]

/-- Settles O49: the three moves are one, and each conjunct is the frame of the write, what it writes, or the mode
evaluated after it. -/
theorem highRegisterWrites : Obligations.HighRegisterWrites := by
  intro c ls imm s hw hsup does
  have hmove {i : Instr} {len : Nat} {v : Word} {f : FlagUpdate} {overflow : Option Bool}
      (hi : exec i s = moveHigh len (.glob c) v f s) (hlen : i.length = len)
      (hf : FlagClaim.Follows { s.sameFlags with z := some (v == 0#32), n := some (v.getLsbD 31), v := overflow } (f.claim s)) :
      does i v overflow := by
    refine ⟨fun hc ha => hi.trans (moveHigh_refused hsup hc ha), fun ha => ⟨_, hi.trans (moveHigh_next hsup ha), ?_⟩⟩
    have hframe := highFrame_writeHigh (s.opened.withFlags f) (highOf c) v
    have hwritten := highWritten_writeHigh (s.opened.withFlags f) (highOf c) v
    obtain ⟨⟨hC, hZ, hN, hV⟩, hH, hkept⟩ := status_settle hf hframe.sr len
    obtain ⟨hsp, hub, hbcr, htpr, htcr, htr, hwcr, hfcr, hmcr⟩ := highOf_iff c
    refine ⟨registersKept_of_eq _ ?_ ?_ ?_, fun k => ?_, ?_, ?_, hH, hkept, hC _ rfl, hZ _ rfl, hN _ rfl, hV, ?_⟩
    · simpa using hframe.fer
    · simpa using hframe.gpr
    · simpa using hframe.locals
    · simp [hframe.mem]
    · simpa using hframe.ioTrace
    · rw [hlen]
      exact continues_retire (by simp [hframe.pc]) (by simp [hframe.delayPending]) (by simp [hframe.afterDelayedBranch])
        (by simp [hframe.callLockout])
    refine ⟨?_, ?_, ?_, ?_, ?_, ?_, ?_, ?_, ?_, ?_, ?_, ?_, ?_, ?_, ?_, ?_, ?_, ?_, ?_, ?_⟩
    · simpa using hframe.iramRelied
    · simpa [hmcr] using hwritten.iramKept
    · simpa [hsp] using hwritten.sp
    · simpa [hub] using hwritten.ub
    · simpa [hbcr] using hwritten.bcr
    · simpa [htpr] using hwritten.tpr
    · simpa [htpr] using hwritten.prescaler
    · simpa [htcr] using hwritten.tcr
    · simpa [htr] using hwritten.tr
    · simpa [hfcr] using hwritten.fcr
    · simpa [hfcr] using hwritten.extOvfPending
    · simpa [hfcr] using hwritten.busLock
    · simpa [hmcr] using hwritten.mcr
    · simpa [hmcr] using hwritten.powerDown
    · simpa using hframe.parityPending
    · simpa using hframe.inputs
    · simpa using hframe.pinsDriven
    · simpa using hframe.platform
    · simpa [hfcr] using hwritten.pins
    dsimp only
    split_ifs with h7 h8 h10
    · exact h7 ▸ (compares_writeTr (s.opened.withFlags f) v).settled len
    · exact h8 ▸ (compares_writeWcr (s.opened.withFlags f) v).settled len
    · exact h10 ▸ (compares_writeFcr (s.opened.withFlags f) v).settled len
    · simpa using writeHigh_io3 (s.opened.withFlags f) v (mt htr.mp h7) (mt hwcr.mp h8) (mt hfcr.mp h10)
  refine ⟨?mov, ?movi, fun c' => ⟨s.readHigh (highOf c'), readsHigh_readHigh c' s, ?movHigh⟩⟩
  case mov => exact hmove (if_pos hw : execMov (.glob c) (.loc ls) s = _) rfl (moveFlags_follows s _)
  case movi => exact hmove (if_pos hw : execMovi (.glob c) imm s = _) rfl (moveImmFlags_follows s _)
  case movHigh => exact hmove (if_pos hw : execMov (.glob c) (.glob c') s = _) rfl (moveFlags_follows s _)

end Sys2Proof.Machine
end

section
/-! The H window and the other instructions (R33, R280 (e), R546, I2.15): what the check at the start of an instruction stops with, which
operands it looks at, and the statement O58. -/

namespace Sys2Proof.Machine

/-! ### The check of the H window -/

section
variable {s : State} {len : Nat} {dst : Option Reg} {srcs : List Reg} {stop : Result}

/-- A user's global destination is a Privilege Error (R280 (e), R546). -/
theorem windowGuard_user {r : Reg} (hw : s.window = true) (hr : regIsGlobal r = true) (hu : srS s.sr = false) :
    windowGuard len (some r) srcs s = some (raiseError len (s.opened.withFlags s.freeFlags)) := by
  simp [windowGuard, hw, hr, State.user, hu]

/-- A supervisor's global destination and a global source are refused (I2.15). -/
theorem windowGuard_refused (hw : s.window = true) (hs : dst.any regIsGlobal = true → srS s.sr = true)
    (hg : (dst.any regIsGlobal || srcs.any regIsGlobal) = true) :
    windowGuard len dst srcs s = some (.refused .highGlobalWindow) := by
  have huser : (dst.any regIsGlobal && s.user) = false := by
    cases hd : dst.any regIsGlobal with
    | false => rfl
    | true => simp [State.user, hs hd]
  simp only [windowGuard, hw, huser, hg, Bool.not_true, Bool.false_eq_true, if_false, if_true]

/-- The Privilege Error writes nothing but condition flags, of which nothing is claimed (R546). -/
theorem windowError_spec {i : Instr} (s : State) (hlen : i.length = len) :
    ∃ u, OnlyFlags { c := none, z := none, n := none, v := none } s u ∧
      TakesError i s u (raiseError len (s.opened.withFlags s.freeFlags)) :=
  ⟨(s.opened.withFlags s.freeFlags).settleError len,
    (onlyFlags_withFlags s _).congr (sameButEnd_settleError _ len) (frame_settleError _ len)
      (FlagClaim.follows_of (.inl rfl) (.inl rfl) (.inl rfl) (.inl rfl)),
    takesError hlen rfl rfl rfl rfl ((srILC_applyFlags ..).trans (srILC_setH ..))⟩

/-! ### The instructions that begin with the check -/

/-- The destination and the sources that the window check of an instruction looks at; none where an instruction has no such check. -/
def windowOperands : Instr → Option (Option Reg × List Reg)
  | .movd rd rs | .and rd rs | .andn rd rs | .or rd rs | .xor rd rs | .not rd rs | .add rd rs | .adds rd rs | .addc rd rs
  | .sub rd rs | .subs rd rs | .subc rd rs | .neg rd rs | .negs rd rs | .mul rd rs | .muls rd rs | .mulu rd rs | .divs rd rs
  | .divu rd rs | .mask rd rs _ | .sum rd rs _ | .sums rd rs _ | .xm1 rd rs _ | .xm2 rd rs _ | .xm4 rd rs _ | .xm8 rd rs _
  | .xx1 rd rs _ | .xx2 rd rs _ | .xx4 rd rs _ | .xx8 rd rs _ => some (some rd, [rs])
  | .andni rd _ | .ori rd _ | .xori rd _ | .addi rd _ | .addsi rd _ | .shli rd _ | .sari rd _ | .shri rd _ | .setadr rd | .set1 rd
  | .set0 rd | .set1m rd | .setle rd | .setlem rd | .setgt rd | .setgtm rd | .setlt rd | .setltm rd | .setge rd | .setgem rd
  | .setse rd | .setsem rd | .setht rd | .sethtm rd | .setst rd | .setstm rd | .sethe rd | .sethem rd | .sete rd | .setem rd
  | .setne rd | .setnem rd | .setv rd | .setvm rd | .setnv rd | .setnvm rd => some (some rd, [])
  | .chk rd rs | .cmp rd rs | .cmpb rd rs => some (none, [rd, rs])
  | .cmpi rd _ | .cmpbi rd _ => some (none, [rd])
  | .ldbsD rd rs _ | .ldbsN rd rs _ | .ldbuD rd rs _ | .ldbuN rd rs _ | .ldhuD rd rs _ | .ldhuN rd rs _ | .ldhsD rd rs _
  | .ldhsN rd rs _ | .ldwD rd rs _ | .ldwN rd rs _ | .lddD rd rs _ | .lddN rd rs _ | .ldwS rd rs _ | .ldwIOD rd rs _
  | .lddIOD rd rs _ | .stbsD rd rs _ | .stbsN rd rs _ | .stbuD rd rs _ | .stbuN rd rs _ | .sthuD rd rs _ | .sthuN rd rs _
  | .sthsD rd rs _ | .sthsN rd rs _ | .stwD rd rs _ | .stwN rd rs _ | .stdD rd rs _ | .stdN rd rs _ | .stwS rd rs _
  | .stwIOD rd rs _ | .stdIOD rd rs _ => some (none, [rs, rd])
  | .call _ rs _ | .ldwR _ rs | .ldwP _ rs | .lddR _ rs | .lddP _ rs | .stwR _ rs | .stwP _ rs | .stdR _ rs | .stdP _ rs =>
    some (none, [rs])
  | .chkz rd => some (none, [rd, .sr])
  | .ldbsA rs _ | .ldbuA rs _ | .ldhuA rs _ | .ldhsA rs _ | .ldwA rs _ | .lddA rs _ | .ldwIOA rs _ | .lddIOA rs _ | .stbsA rs _
  | .stbuA rs _ | .sthuA rs _ | .sthsA rs _ | .stwA rs _ | .stdA rs _ | .stwIOA rs _ | .stdIOA rs _ => some (none, [rs, .sr])
  | .ret rs => some (some .pc, [rs])
  | _ => none

/-- Where a check stops an instruction, that is what it answers. -/
theorem guarded_stop {check : Option Result} {run : Result} (h : check = some stop) : guarded check run = stop := by
  rw [h]
  rfl

/-- The first of two checks stops. -/
theorem andThen_stop {first second : Option Result} (h : first = some stop) : andThen first second = some stop := by
  rw [h]
  rfl

/-! What the window check stops with, each shape of instruction answers. -/

theorem registerOp_stop {d : Reg} {compute : State → Computed} (h : windowGuard len (some d) srcs s = some stop) :
    registerOp len d srcs compute s = stop := guarded_stop (andThen_stop h)

theorem branchableOp_stop {d : Reg} {compute : State → Computed} (h : windowGuard len (some d) srcs s = some stop) :
    branchableOp len d srcs compute s = stop := guarded_stop (andThen_stop h)

theorem pairOp_stop {d : Reg} {compute : State → Place → ComputedPair} (h : windowGuard 1 (some d) srcs s = some stop) :
    pairOp d srcs compute s = stop := guarded_stop (andThen_stop h)

section
variable {rd rs : Reg}

theorem logicalOp_stop {op : Word → Word → Word} (h : windowGuard 1 (some rd) [rs] s = some stop) : logicalOp rd rs op s = stop :=
  registerOp_stop h

theorem logicalImmOp_stop {imm : Imm} {op : Word → Word} (h : windowGuard imm.length (some rd) [] s = some stop) :
    logicalImmOp rd imm op s = stop := registerOp_stop h

theorem setOp_stop {one : Word} {c : Cond} (h : windowGuard 1 (some rd) [] s = some stop) : setOp rd one c s = stop :=
  registerOp_stop h

theorem multiplyDouble_stop {product : Word → Word → Double} (h : windowGuard 1 (some rd) [rs] s = some stop) :
    multiplyDouble rd rs product s = stop := pairOp_stop h

theorem divideOp_stop {divide : Double → Word → Option Division} (h : windowGuard 1 (some rd) [rs] s = some stop) :
    divideOp rd rs divide s = stop := pairOp_stop h

theorem indexOp_stop {k : Nat} {limit : Option Word} (h : windowGuard len (some rd) [rs] s = some stop) :
    indexOp len rd rs k limit s = stop := guarded_stop (andThen_stop h)

variable {fields : List Reg} {check : Option Result} {access : State → Access} {ty : DataType}

theorem loadOp_stop (h : windowGuard len none (rs :: fields) s = some stop) : loadOp len ty fields rs check access s = stop :=
  guarded_stop (andThen_stop h)

theorem loadDoubleOp_stop (h : windowGuard len none (rs :: fields) s = some stop) :
    loadDoubleOp len fields rs check access s = stop := guarded_stop (andThen_stop h)

theorem storeOp_stop (h : windowGuard len none (rs :: fields) s = some stop) : storeOp len ty fields rs check access s = stop :=
  guarded_stop (andThen_stop h)

theorem storeDoubleOp_stop (h : windowGuard len none (rs :: fields) s = some stop) :
    storeDoubleOp len fields rs check access s = stop := guarded_stop (andThen_stop h)

theorem ioLoadOp_stop (h : windowGuard len none (rs :: fields) s = some stop) : ioLoadOp len fields rs access s = stop :=
  guarded_stop (andThen_stop h)

theorem ioLoadDoubleOp_stop (h : windowGuard len none (rs :: fields) s = some stop) :
    ioLoadDoubleOp len fields rs access s = stop := guarded_stop (andThen_stop h)

theorem ioStoreOp_stop (h : windowGuard len none (rs :: fields) s = some stop) : ioStoreOp len fields rs access s = stop :=
  guarded_stop h

theorem ioStoreDoubleOp_stop (h : windowGuard len none (rs :: fields) s = some stop) :
    ioStoreDoubleOp len fields rs access s = stop := guarded_stop h
end

/-- What the window check stops with, the instruction answers: each begins with it. -/
theorem exec_of_windowGuard {i : Instr} (hi : windowOperands i = some (dst, srcs))
    (h : windowGuard i.length dst srcs s = some stop) : exec i s = stop := by
  cases i <;> cases hi <;> unfold exec
  case chk | chkz | cmp | cmpi | cmpb | cmpbi => exact guarded_stop h
  case add | addi | sum | sub => exact branchableOp_stop h
  case adds | addc | addsi | sums | subs | subc | neg | negs | mul | not | mask | shli | sari | shri | setadr | set0 =>
    exact registerOp_stop h
  case and | andn | or | xor => exact logicalOp_stop h
  case andni | ori | xori => exact logicalImmOp_stop h
  case set1 | setle | setgt | setlt | setge | setse | setht | setst | sethe | sete | setne | setv | setnv | set1m | setlem | setgtm
      | setltm | setgem | setsem | sethtm | setstm | sethem | setem | setnem | setvm | setnvm =>
    exact setOp_stop h
  case muls | mulu => exact multiplyDouble_stop h
  case divs | divu => exact divideOp_stop h
  case xm1 | xm2 | xm4 | xm8 | xx1 | xx2 | xx4 | xx8 => exact indexOp_stop h
  case ldbsD | ldbuD | ldhuD | ldhsD | ldwD | ldbsA | ldbuA | ldhuA | ldhsA | ldwA | ldwR | ldwP | ldbsN | ldbuN | ldhuN | ldhsN
      | ldwN =>
    exact loadOp_stop h
  case lddD | lddA | lddR | lddP | lddN => exact loadDoubleOp_stop h
  case stbsD | stbuD | sthuD | sthsD | stwD | stbsA | stbuA | sthuA | sthsA | stwA | stwR | stwP | stbsN | stbuN | sthuN | sthsN
      | stwN =>
    exact storeOp_stop h
  case stdD | stdA | stdR | stdP | stdN => exact storeDoubleOp_stop h
  case ldwIOD | ldwIOA => exact ioLoadOp_stop h
  case lddIOD | lddIOA => exact ioLoadDoubleOp_stop h
  case stwIOD | stwIOA => exact ioStoreOp_stop h
  case stdIOD | stdIOA => exact ioStoreDoubleOp_stop h
  case movd | ldwS | stwS | call | ret => exact guarded_stop (andThen_stop h)

/-- FETCH, but for its reserved n = 16, begins with the check too: its SR field denotes G17 (R404, I2.6). -/
theorem exec_fetch_of_windowGuard {n : BitVec 4} (hn : n ≠ 8#4) (h : windowGuard 1 (some .sr) [] s = some stop) :
    exec (.fetch n) s = stop := by
  have hn8 : (s.window && n == 8#4) = false := by simp [hn]
  calc exec (.fetch n) s
      _ = guarded (andThen (windowGuard 1 (some .sr) [] s) (slotGuard s))
            (retire 1 (s.opened.prefetchTo (alignWord (s.pc + BitVec.ofNat 32 (2 * n.toNat + 2))))) :=
          if_neg (by simp [hn8])
      _ = stop := guarded_stop (andThen_stop h)

/-- The reserved n = 16 of FETCH names no register but has no meaning either (R404, I2.6). -/
theorem exec_fetch_reserved (hw : s.window = true) :
    exec (.fetch 8#4) s = .refused (.undefinedEncoding (.reservedSet 16#5)) := if_pos (by simp [hw])

/-- A FETCH with odd n is a SETxx of G17, met before it is read as an instruction (R404, R406, I2.6). -/
theorem runInstruction_oddFetch {k : BitVec 5} (hf : s.fetch = .error (.oddFetch k)) (h1 : k ≠ 1#5) (h17 : k ≠ 17#5) (h19 : k ≠ 19#5)
    (h : windowGuard 1 (some .sr) [] s = some stop) : runInstruction s = stop := by
  have hrun : runInstruction s = unreadable (.oddFetch k) s := by rw [runInstruction, hf]
  calc runInstruction s
      _ = guarded (windowGuard 1 (some .sr) [] s) (.refused (.undefinedEncoding (.oddFetch k))) :=
          hrun.trans (if_neg (by simp [h1, h17, h19]))
      _ = stop := guarded_stop h

/-! ### What the check answers for an instruction -/

/-- The user's Privilege Error of an instruction whose destination is a global register (R280 (e), R546). -/
theorem exec_windowError {i : Instr} {r : Reg} (hi : windowOperands i = some (some r, srcs)) (hw : s.window = true)
    (hr : regIsGlobal r = true) (hu : srS s.sr = false) :
    ∃ u, OnlyFlags { c := none, z := none, n := none, v := none } s u ∧ TakesError i s u (exec i s) := by
  rw [exec_of_windowGuard hi (windowGuard_user hw hr hu)]
  exact windowError_spec s rfl

/-- The refusal of an instruction that names a global register, a supervisor's where it is the destination (I2.15). -/
theorem exec_windowRefused {i : Instr} (hi : windowOperands i = some (dst, srcs)) (hw : s.window = true)
    (hs : dst.any regIsGlobal = true → srS s.sr = true) (hg : (dst.any regIsGlobal || srcs.any regIsGlobal) = true) :
    exec i s = .refused .highGlobalWindow := exec_of_windowGuard hi (windowGuard_refused hw hs hg)
end

/-- Settles O58: every instruction but MOV and MOVI begins with a check of the registers it names, which answers alike for all. -/
theorem globalRegistersInTheWindow : Obligations.GlobalRegistersInTheWindow := by
  intro rd rs ld n k imm c lim dis s hw stops noFlags fails sets writes reads takes
  have hsets {i : Instr} {srcs : List Reg} (hi : windowOperands i = some (some rd, srcs)) : sets i := fun hr =>
    ⟨exec_windowError hi hw hr, fun hs => exec_windowRefused hi hw (fun _ => hs) (by simp [hr])⟩
  have hwrites {i : Instr} (hi : windowOperands i = some (some rd, [rs])) : writes i :=
    ⟨hsets hi, fun hd hr => exec_windowRefused hi hw (by simp [hd]) (by simp [hr])⟩
  have hreads {i : Instr} {r : Reg} {srcs : List Reg} (hi : windowOperands i = some (none, srcs)) (hr : regIsGlobal r = true)
      (hm : r ∈ srcs) : stops i :=
    exec_windowRefused hi hw (by simp) (List.any_eq_true.mpr ⟨r, hm, hr⟩)
  have htests {i : Instr} (hi : windowOperands i = some (none, [rd, rs])) : reads i := fun h =>
    h.elim (hreads hi · (by simp)) (hreads hi · (by simp))
  have haccesses {i : Instr} (hi : windowOperands i = some (none, [rs, rd])) : reads i := fun h =>
    h.elim (hreads hi · (by simp)) (hreads hi · (by simp))
  have htakes {i : Instr} (hi : windowOperands i = some (none, [rs])) : takes i := fun h => hreads hi h (by simp)
  have hstatus {i : Instr} {r : Reg} (hi : windowOperands i = some (none, [r, .sr])) : stops i :=
    hreads hi (r := .sr) rfl (by simp)
  have huser (hu : srS s.sr = false) := windowGuard_user (len := 1) (srcs := []) (r := .sr) hw rfl hu
  have hsupervisor (hs : srS s.sr = true) := windowGuard_refused (len := 1) (dst := some .sr) (srcs := []) hw (fun _ => hs) rfl
  iterate 30 refine ⟨hwrites rfl, ?_⟩
  iterate 36 refine ⟨hsets rfl, ?_⟩
  iterate 3 refine ⟨htests rfl, ?_⟩
  iterate 30 refine ⟨haccesses rfl, ?_⟩
  iterate 9 refine ⟨htakes rfl, ?_⟩
  iterate 17 refine ⟨hstatus rfl, ?_⟩
  refine ⟨fun hd => ⟨hreads (i := .cmpi rd imm) rfl hd (by simp), hreads (i := .cmpbi rd imm) rfl hd (by simp)⟩,
    ⟨exec_windowError (i := .ret rs) rfl hw rfl, fun hs => exec_windowRefused (i := .ret rs) rfl hw (fun _ => hs) rfl⟩,
    fun hn => ⟨fun hu => ?_, fun hs => exec_fetch_of_windowGuard hn (hsupervisor hs)⟩, exec_fetch_reserved hw,
    fun hf h1 h17 h19 => ⟨fun hs => runInstruction_oddFetch hf h1 h17 h19 (hsupervisor hs), fun hu => ?_⟩⟩
  · show ∃ u, OnlyFlags noFlags s u ∧ TakesError (.fetch n) s u (exec (.fetch n) s)
    rw [exec_fetch_of_windowGuard hn (huser hu)]
    exact windowError_spec s rfl
  · rw [runInstruction_oddFetch hf h1 h17 h19 (huser hu)]
    exact windowError_spec (i := .nop) s rfl

end Sys2Proof.Machine
end

section
/-! Data stored and read back (R103, R104, R111, R112): the bytes of one store lie in one word, whose cells are all fitted if one is,
and the statement O31. -/

namespace Sys2Proof.Machine

/-! ### The bytes of one word -/

/-- The `n` bytes from `base` on lie in the word of `a` (R104). -/
def InWord (base : Word) (n : Nat) (a : Word) : Prop :=
  ∀ j, j < n → (base + BitVec.ofNat 32 j).toNat / 4 = a.toNat / 4

theorem inWord_byte (a : Word) : InWord a 1 a := by
  intro j hj
  obtain rfl : j = 0 := by omega
  rw [BitVec.add_zero]

theorem inWord_half (a : Word) : InWord (alignHalf a) 2 a := by
  intro j hj
  have := a.isLt
  rw [BitVec.toNat_add, alignHalf_toNat, BitVec.toNat_ofNat]
  omega

theorem inWord_word (a : Word) : InWord (alignWord a) 4 a := by
  intro j hj
  have := a.isLt
  rw [BitVec.toNat_add, alignWord_toNat, BitVec.toNat_ofNat]
  omega

/-- An address is one of the four of its word. -/
theorem exists_byte_of_word {a b : Word} (h : b.toNat / 4 = a.toNat / 4) :
    ∃ j, j < 4 ∧ b = alignWord a + BitVec.ofNat 32 j := by
  have := b.isLt
  refine ⟨b.toNat % 4, by omega, BitVec.eq_of_toNat_eq ?_⟩
  rw [BitVec.toNat_add, alignWord_toNat, BitVec.toNat_ofNat]
  omega

/-- Memory is fitted by the word (R7, R106). -/
theorem fitted_congr (p : Platform) {j k : Nat} (h : j / 4 = k / 4) : p.fitted j = p.fitted k := by
  have hiram : decide (0xC0000000 ≤ j ∧ j < 0xE0000000) = decide (0xC0000000 ≤ k ∧ k < 0xE0000000) :=
    decide_eq_decide.mpr (by omega)
  unfold Platform.fitted
  rw [hiram, h]

/-- The bytes of one word have cells in one word. -/
theorem cellOf_word {r : Region} {a b : Word} {k : Nat} (hab : b.toNat / 4 = a.toNat / 4) (h : cellOf r a = some k) :
    ∃ j, cellOf r b = some j ∧ j / 4 = k / 4 := by
  rcases cellOf_cases h with ⟨rfl, hk⟩ | ⟨rfl, hk, hlim⟩
  · exact ⟨_, rfl, by omega⟩
  · refine ⟨b.toNat, if_neg ?_, by omega⟩
    rw [regionOf_eq, if_neg (by omega)]
    decide

/-- Where one byte of a word is fitted, so is every other. -/
theorem cell_isSome_word {s : State} {r : Region} {a b : Word} (hab : b.toNat / 4 = a.toNat / 4)
    (h : (s.cell r a).isSome = true) : ∃ j, s.cell r b = some j := by
  obtain ⟨k, hk⟩ := Option.isSome_iff_exists.mp h
  obtain ⟨j, hj, hjk⟩ := cellOf_word hab (cellOf_of_cell hk)
  have hfit : s.platform.fitted k = true := by
    unfold State.cell at hk
    rw [cellOf_of_cell hk] at hk
    by_contra hc
    exact absurd hk (by simp [hc])
  exact ⟨j, by rw [State.cell, hj]; exact if_pos ((fitted_congr _ hjk).trans hfit)⟩

/-! ### What a store of bytes leaves to read -/

/-- A byte store as bytes. -/
theorem State.writeByte_putBytes (s : State) (r : Region) (a : Word) (v : Byte) :
    s.writeByte r a v = (s.noteStale r a).putBytes r a [v] := rfl

/-- Each stored byte reads back. -/
theorem readByte_putBytes {s : State} (h : Memory.wf s.mem = true) {r : Region} {base a : Word} {l : List Byte}
    (hl : InWord base l.length a) (hn : l.length ≤ 4) (ha : (s.cell r a).isSome = true) {j : Nat} (hj : j < l.length) :
    (s.putBytes r base l).readByte r (base + BitVec.ofNat 32 j) = l.getD j 0#8 := by
  obtain ⟨k, hk⟩ := cell_isSome_word (hl j hj) ha
  have hp : (s.putBytes r base l).platform = s.platform := by rw [State.putBytes_frame]
  rw [State.readByte, cell_congr hp, hk]
  exact State.read_putBytes_same h r base l (by omega) hj hk

/-! ### What a store of bytes leaves guaranteed -/

/-- Bytes are guaranteed if each is. -/
theorem guarantees_eq_all (s : State) (r : Region) (a : Word) (n : Nat) :
    s.guarantees r a n = (List.range n).all fun j => s.guarantees r (a + BitVec.ofNat 32 j) 1 := by
  cases r with
  | external => simp [State.guarantees]
  | iram =>
    simp only [State.guarantees, List.range_one, List.all_cons, List.all_nil, BitVec.add_zero, Bool.and_true]
    rfl

/-- Stored bytes are guaranteed outside the IRAM, and in it exactly while refresh is enabled (R112). -/
theorem guarantees_putBytes_same {s : State} (h : Memory.wf s.iramKept = true) (r : Region) (base : Word) {l : List Byte}
    (hl : l ≠ []) : (s.putBytes r base l).guarantees r base l.length =
      decide (r = .external ∨ s.mcr.extractLsb' 16 3 ≠ 7#3) := by
  cases r with
  | external => rfl
  | iram =>
    have hj : ∀ j ∈ List.range l.length,
        (s.putBytes .iram base l).guarantees .iram (base + BitVec.ofNat 32 j) 1 = refreshes s.mcr := by
      intro j hj
      rw [State.guarantees_putBytes h, if_pos ⟨rfl, j, List.mem_range.mp hj, rfl⟩]
    have hpos : 0 < l.length := List.length_pos_iff.mpr hl
    rw [guarantees_eq_all, Bool.eq_iff_iff, List.all_eq_true, decide_eq_true_eq]
    constructor
    · intro hall
      have h0 := hall 0 (List.mem_range.mpr hpos)
      rw [hj 0 (List.mem_range.mpr hpos)] at h0
      exact .inr (by simpa [refreshes] using h0)
    · rintro (hr | hr) j hjm
      · exact nomatch hr
      · rw [hj j hjm]
        simpa [refreshes] using hr

/-- A byte of the IRAM to whose cell none goes keeps its guarantee or its lack of one (R112). -/
theorem guarantees_putBytes_other {s : State} (h : Memory.wf s.iramKept = true) {r : Region} {base a c : Word} {l : List Byte}
    (hl : InWord base l.length a) (hc : ∀ j, j < 4 → cellOf r (alignWord a + BitVec.ofNat 32 j) ≠ cellOf .iram c) :
    (s.putBytes r base l).guarantees .iram c 1 = s.guarantees .iram c 1 := by
  rw [State.guarantees_putBytes h, if_neg]
  rintro ⟨rfl, j, hj, he⟩
  obtain ⟨i, hi, hb⟩ := exists_byte_of_word (hl j hj)
  exact hc i hi (by rw [← hb, cellOf, cellOf, he])

/-! ### The three sizes -/

theorem half_of_bytes (h : Half) : (h.extractLsb' 8 8 ++ h.extractLsb' 0 8 : Half) = h :=
  (BitVec.extractLsb'_append_extractLsb'_eq_extractLsb' rfl).trans BitVec.extractLsb'_eq_self

theorem word_of_bytes (v : Word) :
    (v.extractLsb' 24 8 ++ v.extractLsb' 16 8 ++ v.extractLsb' 8 8 ++ v.extractLsb' 0 8 : Word) = v := by
  have h1 : v.extractLsb' 24 8 ++ v.extractLsb' 16 8 = v.extractLsb' 16 16 :=
    BitVec.extractLsb'_append_extractLsb'_eq_extractLsb' rfl
  have h2 : v.extractLsb' 16 16 ++ v.extractLsb' 8 8 = v.extractLsb' 8 24 :=
    BitVec.extractLsb'_append_extractLsb'_eq_extractLsb' rfl
  have h3 : v.extractLsb' 8 24 ++ v.extractLsb' 0 8 = v.extractLsb' 0 32 :=
    BitVec.extractLsb'_append_extractLsb'_eq_extractLsb' rfl
  rw [h1, h2, h3]
  exact BitVec.extractLsb'_eq_self

section
variable {s : State} {r : Region} {a : Word}

theorem readByte_writeByte (h : Memory.wf s.mem = true) (ha : (s.cell r a).isSome = true) (b : Byte) :
    (s.writeByte r a b).readByte r a = b := by
  have hb := readByte_putBytes (s := s.noteStale r a) (l := [b]) (by simpa using h) (inWord_byte a) (by simp)
    (by simpa [cell_congr (State.noteStale_platform s r a)] using ha) (j := 0) (by simp)
  rw [BitVec.add_zero] at hb
  rw [State.writeByte_putBytes, hb, List.getD_cons_zero]

theorem readHalf_writeHalf (h : Memory.wf s.mem = true) (ha : (s.cell r a).isSome = true) (v : Half) :
    (s.writeHalf r a v).readHalf r a = v := by
  have hb {j : Nat} := readByte_putBytes (s := s.noteStale r a) (l := [v.extractLsb' 8 8, v.extractLsb' 0 8]) (by simpa using h)
    (inWord_half a) (by simp) (by simpa [cell_congr (State.noteStale_platform s r a)] using ha) (j := j)
  have h0 := hb (j := 0) (by simp)
  rw [BitVec.add_zero] at h0
  rw [State.writeHalf_putBytes, State.readHalf, h0, hb (j := 1) (by simp)]
  exact half_of_bytes v

theorem readWord_writeWord (h : Memory.wf s.mem = true) (ha : (s.cell r a).isSome = true) (v : Word) :
    (s.writeWord r a v).readWord r a = v := by
  have hb {j : Nat} := readByte_putBytes (s := (s.noteStale r (alignWord a)).noteStale r (alignWord a + 2#32)) (l := wordBytes v)
    (by simpa using h) (inWord_word a) (by simp [wordBytes])
    (by simpa [cell_congr (State.noteStale_platform _ r _)] using ha) (j := j)
  have h0 := hb (j := 0) (by simp [wordBytes])
  rw [BitVec.add_zero] at h0
  rw [State.writeWord_putBytes, State.readWord, h0, hb (j := 1) (by simp [wordBytes]), hb (j := 2) (by simp [wordBytes]),
    hb (j := 3) (by simp [wordBytes])]
  exact word_of_bytes v

/-- What bytes of the word of `a` leave guaranteed that are stored in `u`, which has the marks of `s` (R112). -/
theorem guarantees_putBytes_word {u : State} (h : Memory.wf s.iramKept = true) (hi : u.iramKept = s.iramKept) (hm : u.mcr = s.mcr)
    {base : Word} {l : List Byte} (hne : l ≠ []) (hl : InWord base l.length a) :
    (u.putBytes r base l).guarantees r base l.length = decide (r = .external ∨ s.mcr.extractLsb' 16 3 ≠ 7#3) ∧
      ∀ c : Word, (∀ j, j < 4 → cellOf r (alignWord a + BitVec.ofNat 32 j) ≠ cellOf .iram c) →
        (u.putBytes r base l).guarantees .iram c 1 = s.guarantees .iram c 1 := by
  refine ⟨?_, fun c hc => ?_⟩
  · rw [guarantees_putBytes_same (hi ▸ h) r base hne, hm]
  · rw [guarantees_putBytes_other (hi ▸ h) hl hc]
    simp only [State.guarantees, hi]
end

/-- Settles O31: each store is one of bytes of the word of `a`, noted for the fetch first. -/
theorem storedDataReadBack : Obligations.StoredDataReadBack := by
  intro r a v h b s hwf ha
  refine ⟨⟨readByte_writeByte hwf ha b, State.wf_writeByte hwf r a b⟩,
    ⟨readHalf_writeHalf hwf ha h, State.wf_writeHalf hwf r a h⟩,
    ⟨readWord_writeWord hwf ha v, State.wf_writeWord hwf r a v⟩, fun hkept => ?_⟩
  obtain ⟨hbyte, hbyte'⟩ := guarantees_putBytes_word (r := r) hkept (u := s.noteStale r a) (by simp) (by simp) (l := [b]) (by simp)
    (inWord_byte a)
  obtain ⟨hhalf, hhalf'⟩ := guarantees_putBytes_word (r := r) hkept (u := s.noteStale r a) (by simp) (by simp)
    (l := [h.extractLsb' 8 8, h.extractLsb' 0 8]) (by simp) (inWord_half a)
  obtain ⟨hword, hword'⟩ := guarantees_putBytes_word (r := r) hkept
    (u := (s.noteStale r (alignWord a)).noteStale r (alignWord a + 2#32)) (by simp) (by simp) (l := wordBytes v)
    (by simp [wordBytes]) (inWord_word a)
  rw [State.writeByte_putBytes, State.writeHalf_putBytes, State.writeWord_putBytes]
  exact ⟨hbyte, hhalf, hword, fun c hc => ⟨hbyte' c hc, hhalf' c hc, hword' c hc⟩⟩

end Sys2Proof.Machine
end

section
/-! The instruction cache (R112, R127 to R131, R133, R165): which branches taken leave it and which flush it, how far the prefetch and
FETCH fill it, and the statement O59. -/

namespace Sys2Proof.Machine

/-! ### Conditions as the statements write them -/

/-- The flags at which a condition holds (R421). -/
def Cond.Met (sr : Word) : Cond → Prop
  | .v => srV sr = true
  | .nv => srV sr = false
  | .e => srZ sr = true
  | .ne => srZ sr = false
  | .st => srC sr = true
  | .he => srC sr = false
  | .se => srC sr = true ∨ srZ sr = true
  | .ht => srC sr = false ∧ srZ sr = false
  | .lt => srN sr = true
  | .ge => srN sr = false
  | .le => srN sr = true ∨ srZ sr = true
  | .gt => srN sr = false ∧ srZ sr = false
  | .always => True

theorem Cond.holds_iff {c : Cond} {sr : Word} : c.holds sr = true ↔ c.Met sr := by
  cases c <;> simp [Cond.holds, Cond.Met]

/-! ### Branches taken that flush the cache (R130) -/

/-- The instruction is a branch taken that flushes the cache. -/
def FlushesCache (i : Instr) (s : State) : Prop :=
  ∃ t a, exec i s = .next t ∧ t.pc = clearBit0 a ∧ Flushed a s t

section
variable {i : Instr} {s : State}

theorem flushesCache_of_jump {v : Word} {f : FlagUpdate} (hi : exec i s = jump v (s.opened.withFlags f)) : FlushesCache i s := by
  obtain ⟨t, hj, _, hb, hf⟩ := jump_branches v f s
  exact ⟨t, v, hi.trans hj, hb.pc, hf⟩

/-- ADD, ADDI, SUM and SUB with the PC as destination. -/
theorem flushesCache_branchableOp {len : Nat} {rd : Reg} {srcs : List Reg} {compute : State → Computed}
    (hi : exec i s = branchableOp len rd srcs compute s) (hp : rd.isPC = true) (hw : s.window = false) (hslot : s.inSlot = false) :
    FlushesCache i s := by
  refine flushesCache_of_jump (v := (compute s.opened).value) (f := (compute s.opened).flags) ?_
  rw [hi, branchableOp, windowGuard_none (usable_closed hw), if_pos hp, slotGuard_none hslot]
  exact finishBranch_pc len hp

/-- MOV and MOVI with the PC as destination. -/
theorem flushesCache_moveLow {len : Nat} {rd : Reg} {v : Word} {f : FlagUpdate} (hi : exec i s = moveLow len rd v f s)
    (hp : rd.isPC = true) (hslot : s.inSlot = false) : FlushesCache i s := by
  refine flushesCache_of_jump (v := v) (f := f) ?_
  rw [hi, moveLow, if_pos hp, slotGuard_none hslot]
  exact finishBranch_pc len hp

theorem flushesCache_call {ld : BitVec 4} {rs : Reg} {c : Const} (hu : Usable [rs] s) (hslot : s.inSlot = false) :
    FlushesCache (.call ld rs c) s := by
  have hi : exec (.call ld rs c) s = .next (s.called ld c.length
      ((if rs.isSR then 0#32 else source c.length rs s.opened) + constValue c)).bump := by
    show execCall ld rs c s = _
    rw [execCall, windowGuard_none (dst := none) hu, slotGuard_none hslot]
    rfl
  exact ⟨_, _, hi, rfl, (flushed_flush _ _).congr⟩

/-- A Trap instruction whose condition holds. -/
theorem flushesCache_trapOp {c : Cond} {k : BitVec 6} (hi : exec i s = trapOp c k s) (hslot : s.inSlot = false)
    (he : (trapEntry s.mcr k.toNat).isSome = true) (hc : c.Met s.sr) : FlushesCache i s := by
  obtain ⟨entry, he⟩ := Option.isSome_iff_exists.mp he
  rw [trapOp, slotGuard_none hslot, guarded, if_pos (Cond.holds_iff.mpr hc), he] at hi
  exact ⟨_, entry, hi, rfl, (flushed_flush _ _).congr⟩

/-- Whether an entry table is mapped does not depend on the entry (R207 to R209). -/
theorem softEntry_isSome {mcr : Word} {j : Nat} (h : (softEntry mcr j).isSome = true) (k : Nat) :
    ∃ entry, softEntry mcr k = some entry := by
  unfold softEntry at h ⊢
  split at h
  case h_1 => exact absurd h (by simp)
  case h_2 =>
    split
    · exact ⟨_, rfl⟩
    · exact ⟨_, rfl⟩

/-- A Software instruction. -/
theorem flushesCache_softwareOp {k : Nat} {ld ls : BitVec 4} (hi : exec i s = softwareOp k ld ls s) (hslot : s.inSlot = false)
    (he : (softEntry s.mcr 0).isSome = true) : FlushesCache i s := by
  obtain ⟨entry, he⟩ := softEntry_isSome he k
  rw [softwareOp, slotGuard_none hslot, guarded, he] at hi
  exact ⟨_, entry, hi, rfl, (flushed_flush _ _).congr⟩

/-- A Delayed Branch misplaced in a delay slot (R426 (b)). -/
theorem flushesCache_misplaced {c : Cond} {rel : Rel} (hi : exec i s = delayedBranchOp c rel s) (hlen : i.length = rel.length)
    (hslot : s.inSlot = true) (hc : c.Met s.sr) : FlushesCache i s := by
  rw [delayedBranchOp, if_pos hslot] at hi
  obtain ⟨t, ht, _, hb, hf⟩ := (branchAlways_outcome hi hlen).1 (Cond.holds_iff.mpr hc)
  exact ⟨t, _, ht, hb.pc, hf⟩
end

/-- A Return flushes the cache, and an illegal one by its error exception once more (R130, R446). -/
theorem returnFrom_flushes {a b : Word} {s : State} (he : (trapEntry s.mcr 60).isSome = true) :
    ∃ t target, returnFrom a b s = .next t ∧ t.pc = clearBit0 target ∧ t.lookBack = alignWord target ∧
      t.lookAhead = alignWord target ∧ t.stale = [] := by
  obtain ⟨entry, he⟩ := Option.isSome_iff_exists.mp he
  unfold returnFrom
  dsimp only
  split
  · obtain ⟨t, ht, hent⟩ := takeException_next (k := 60) (irq := false) (s := s.returned a b) (by simpa using he)
    exact ⟨t, entry, ht, hent.pc, hent.flushed.lookBack, hent.flushed.lookAhead, hent.flushed.stale⟩
  · have hf : Flushed a _ (s.returned a b) := flushed_flush _ a
    refine ⟨_, a, rfl, ?_, ?_, ?_, ?_⟩
    · rw [State.bump_pc, State.pulls_pc]
      rfl
    · rw [State.bump_lookBack, State.pulls_lookBack, hf.lookBack]
    · rw [State.bump_lookAhead, State.pulls_lookAhead, hf.lookAhead]
    · rw [State.bump_stale, State.pulls_stale, hf.stale]

theorem exec_ret {rs : Reg} {s : State} (hw : s.window = false) (hp : rs.isPC = false) (hs : rs.isSR = false)
    (hn : rs ≠ .glob 15#4) (hslot : s.inSlot = false) :
    ∃ q, exec (.ret rs) s = returnFrom (source 1 rs s.opened) (s.opened.get 1 q) s.opened := by
  obtain ⟨q, hq⟩ := Option.ne_none_iff_exists'.mp (mt (nextPlace_eq_none_iff (s := s)).mp hn)
  refine ⟨q, ?_⟩
  show execRet rs s = _
  rw [execRet, windowGuard_none (usable_closed hw), hp, hs, slotGuard_none hslot, hq]
  rfl

/-! ### How far the cache is filled (R127 to R129, R412) -/

/-- What the prefetch reached says nothing but of the cache and of the bus lock. -/
theorem CacheReaches.congr {ahead : Word} {s s' t t' : State} (h : CacheReaches ahead s' t)
    (hs : s'.lookAhead = s.lookAhead ∧ s'.lookBack = s.lookBack ∧ s'.stale = s.stale ∧ s'.busLock = s.busLock ∧
      s'.fcr = s.fcr := by exact ⟨rfl, rfl, rfl, rfl, rfl⟩)
    (ht : t'.lookAhead = t.lookAhead ∧ t'.lookBack = t.lookBack ∧ t'.stale = t.stale ∧ t'.busLock = t.busLock := by
      exact ⟨rfl, rfl, rfl, rfl⟩) : CacheReaches ahead s t' := by
  obtain ⟨hsa, hsb, hss, hsl, hsf⟩ := hs
  obtain ⟨hta, htb, hts, htl⟩ := ht
  exact ⟨hta.trans h.lookAhead, by rw [htb, h.lookBack, hsb], by rw [hts, h.stale, hss], by rw [htl, h.lock, hsl, hsf, hsa]⟩

theorem cacheReaches_prefetchTo (s : State) (w : Word) : CacheReaches (higher s.lookAhead w) s (s.prefetchTo w) :=
  cacheReaches_cachedTo s _

/-- FETCH with the window closed and outside a delay slot. -/
theorem exec_fetch {n : BitVec 4} {s : State} (hw : s.window = false) (hslot : s.inSlot = false) :
    exec (.fetch n) s = retire 1 (s.opened.prefetchTo (alignWord (s.pc + BitVec.ofNat 32 (2 * n.toNat + 2)))) := by
  show execFetch n s = _
  rw [execFetch, if_neg (by simp [hw]), windowGuard_none (usable_closed hw), slotGuard_none hslot]
  rfl

/-- The prefetch runs a free number of words on, through the eighth after the word that follows the instruction (R128). -/
theorem fetchedAhead_prefetched (a : Word) (len : Nat) (s : State) :
    FetchedAhead a len s (s.prefetched (a + BitVec.ofNat 32 (2 * len))) := by
  refine ⟨_, ?_, cacheReaches_cachedTo s _⟩
  show 4 * (_ % (above _ (higher _ _) / 4 + 1)) ≤ above _ (higher _ _)
  generalize above _ (higher _ _) = room
  have : (s.free 4 .prefetch).toNat % (room / 4 + 1) < room / 4 + 1 := Nat.mod_lt _ (Nat.zero_lt_succ _)
  omega

/-- The bus lock after a delay instruction that was read before its branch flushed the cache (R128, R165). -/
theorem fetchLock_higher (s : State) (low own : Word) :
    s.fetchLock low (higher low own) = (s.busLock || (!s.fcr.getLsbD 17 && decide (above own low ≠ 0 ∧
      (regionOf (low + 4#32) = .external ∨ regionOf own = .external)))) := by
  by_cases h : above own low = 0
  · rw [higher, if_pos h, State.fetchLock]
    simp [h]
  · have hne : own ≠ low := by
      rintro rfl
      exact h (by simp [above])
    rw [higher, if_neg h, State.fetchLock, bne_iff_ne.mpr hne, Bool.and_true]
    simp [h, BEq.beq]

/-! ### The fetch at a boundary -/

/-- Nothing is fetched in power-down or at a Reset. -/
theorem fetchAhead_idle {s : State} (h : s.powerDown = true ∨ s.resetRequest = true) : s.fetchAhead = s :=
  if_pos (by simpa using h)

section
variable {i : Instr} {s : State}

/-- What the fetch of an instruction leaves, by whether it is a delay instruction and whether its branch flushed. -/
theorem fetchAhead_ok (hf : s.fetch = .ok i) (hp : s.powerDown = false) (hr : s.resetRequest = false) :
    (s.delayPending = false → s.fetchAhead =
      (s.noteCode s.fetchAddr i.length).prefetched (s.fetchAddr + BitVec.ofNat 32 (2 * i.length))) ∧
    (s.delayPending = true →
      let own := alignWord (s.fetchAddr + BitVec.ofNat 32 (2 * i.length) - 2#32)
      (s.slotAhead = none → s.fetchAhead = (s.noteCode s.fetchAddr i.length).prefetchTo own) ∧
      ∀ low, s.slotAhead = some low →
        s.fetchAhead = { s.noteCode s.fetchAddr i.length with busLock := s.fetchLock low (higher low own) }) := by
  unfold State.fetchAhead
  rw [hp, hr, hf]
  refine ⟨fun hd => ?_, fun hd => ⟨fun hs => ?_, fun low hs => ?_⟩⟩
  · simp [hd]
  · simp [hd, hs]
  · simp [hd, hs]
end

/-- What the program relies on is noted at each fetch alike, wherever the prefetch goes on (R112). -/
theorem fetchAhead_iramRelied {i : Instr} {s : State} (hf : s.fetch = .ok i) (hp : s.powerDown = false)
    (hr : s.resetRequest = false) : s.fetchAhead.iramRelied = (s.noteCode s.fetchAddr i.length).iramRelied := by
  obtain ⟨hseq, hslot⟩ := fetchAhead_ok hf hp hr
  cases hd : s.delayPending with
  | false => rw [hseq hd]; rfl
  | true =>
    cases hs : s.slotAhead with
    | none => rw [(hslot hd).1 hs]; rfl
    | some low => rw [(hslot hd).2 low hs]

/-- Settles O59: each branch taken is one of the shapes above, and the fetch is the prefetch from the instruction's own word. -/
theorem takenBranchesAndTheCache : Obligations.TakenBranchesAndTheCache := by
  intro rd rs rel ld ls n k imm c s target keeps slots flushes
  refine ⟨fun hslot => ?outside, fun hslot => ?misplaced, fun hin => ?noInput, fetchAhead_idle, fun i hf hp hr => ?fetched⟩
  case outside =>
    have hbranch (c : Cond) (i j : Instr) (hi : exec i s = branchOp c rel s) (hj : exec j s = delayedBranchOp c rel s)
        (hlen : i.length = rel.length) (hc : c.Met s.sr) : keeps i ∧ slots j := by
      obtain ⟨t, ht, _, _, hcache⟩ := (branchOp_outcome hi hlen hslot).1 (Cond.holds_iff.mpr hc)
      obtain ⟨u, hu, _, _, _, _, _, htaken, _⟩ := delayedBranchOp_outcome hj hslot
      obtain ⟨_, _, _, hcache', hfetched⟩ := htaken (Cond.holds_iff.mpr hc)
      exact ⟨⟨t, ht, hcache⟩, u, hu, hcache', hfetched⟩
    refine ⟨hbranch .v (.bv rel) (.dbv rel) rfl rfl rfl, hbranch .nv (.bnv rel) (.dbnv rel) rfl rfl rfl,
      hbranch .e (.be rel) (.dbe rel) rfl rfl rfl, hbranch .ne (.bne rel) (.dbne rel) rfl rfl rfl,
      hbranch .st (.bst rel) (.dbst rel) rfl rfl rfl, hbranch .he (.bhe rel) (.dbhe rel) rfl rfl rfl,
      hbranch .se (.bse rel) (.dbse rel) rfl rfl rfl, hbranch .ht (.bht rel) (.dbht rel) rfl rfl rfl,
      hbranch .lt (.blt rel) (.dblt rel) rfl rfl rfl, hbranch .ge (.bge rel) (.dbge rel) rfl rfl rfl,
      hbranch .le (.ble rel) (.dble rel) rfl rfl rfl, hbranch .gt (.bgt rel) (.dbgt rel) rfl rfl rfl,
      (hbranch .always (.br rel) (.dbr rel) rfl rfl rfl trivial).1, (hbranch .always (.br rel) (.dbr rel) rfl rfl rfl trivial).2,
      fun hu => flushesCache_call hu hslot, fun he => ?traps, fun he => ?software, fun hw hp hs hn he => ?ret,
      fun hw hp => ?pcDestination, fun hw => ?fetchInstr⟩
    case traps =>
      have htrap (c : Cond) (i : Instr) (hi : exec i s = trapOp c k s) (hc : c.Met s.sr) : flushes i :=
        flushesCache_trapOp hi hslot he hc
      exact ⟨htrap .le (.traple k) rfl, htrap .gt (.trapgt k) rfl, htrap .lt (.traplt k) rfl, htrap .ge (.trapge k) rfl,
        htrap .se (.trapse k) rfl, htrap .ht (.trapht k) rfl, htrap .st (.trapst k) rfl, htrap .he (.traphe k) rfl,
        htrap .e (.trape k) rfl, htrap .ne (.trapne k) rfl, htrap .v (.trapv k) rfl, htrap .always (.trap k) rfl trivial⟩
    case software =>
      have hsoft (j : Nat) {i : Instr} (hi : exec i s = softwareOp j ld ls s) : flushes i := flushesCache_softwareOp hi hslot he
      exact ⟨hsoft 0 rfl, hsoft 1 rfl, hsoft 2 rfl, hsoft 3 rfl, hsoft 4 rfl, hsoft 5 rfl, hsoft 6 rfl, hsoft 7 rfl, hsoft 8 rfl,
        hsoft 9 rfl, hsoft 10 rfl, hsoft 11 rfl, hsoft 12 rfl, hsoft 13 rfl, hsoft 15 rfl⟩
    case ret =>
      obtain ⟨q, hi⟩ := exec_ret hw hp hs hn hslot
      rw [hi]
      exact returnFrom_flushes he
    case pcDestination =>
      exact ⟨flushesCache_moveLow (if_neg (by simp [hw]) : execMov rd rs s = _) hp hslot,
        flushesCache_moveLow (if_neg (by simp [hw]) : execMovi rd imm s = _) hp hslot,
        flushesCache_branchableOp (rfl : execAdd rd rs s = _) hp hw hslot,
        flushesCache_branchableOp (rfl : execAddi rd imm s = _) hp hw hslot,
        flushesCache_branchableOp (rfl : execSum rd rs c s = _) hp hw hslot,
        flushesCache_branchableOp (rfl : execSub rd rs s = _) hp hw hslot⟩
    case fetchInstr =>
      exact ⟨_, exec_fetch hw hslot, (cacheReaches_prefetchTo s.opened _).congr (ht := by simp)⟩
  case misplaced =>
    have hmisplaced (c : Cond) (i : Instr) (hi : exec i s = delayedBranchOp c rel s) (hlen : i.length = rel.length)
        (hc : c.Met s.sr) : flushes i := flushesCache_misplaced hi hlen hslot hc
    exact ⟨hmisplaced .v (.dbv rel) rfl rfl, hmisplaced .nv (.dbnv rel) rfl rfl, hmisplaced .e (.dbe rel) rfl rfl,
      hmisplaced .ne (.dbne rel) rfl rfl, hmisplaced .st (.dbst rel) rfl rfl, hmisplaced .he (.dbhe rel) rfl rfl,
      hmisplaced .se (.dbse rel) rfl rfl, hmisplaced .ht (.dbht rel) rfl rfl, hmisplaced .lt (.dblt rel) rfl rfl,
      hmisplaced .ge (.dbge rel) rfl rfl, hmisplaced .le (.dble rel) rfl rfl, hmisplaced .gt (.dbgt rel) rfl rfl,
      hmisplaced .always (.dbr rel) rfl rfl trivial⟩
  case noInput => rw [State.takeInput, hin]
  case fetched =>
    obtain ⟨hseq, hdelay⟩ := fetchAhead_ok hf hp hr
    refine ⟨fetchAhead_iramRelied hf hp hr, fun hd => ?_, fun hd => ?_⟩
    · rw [hseq hd]
      obtain ⟨m, hm, hc⟩ := fetchedAhead_prefetched s.fetchAddr i.length (s.noteCode s.fetchAddr i.length)
      exact ⟨m, hm, hc.congr⟩
    · obtain ⟨hnone, hsome⟩ := hdelay hd
      refine ⟨fun hs => ?_, fun low hs => ?_⟩
      · rw [hnone hs]
        exact (cacheReaches_prefetchTo (s.noteCode s.fetchAddr i.length) _).congr
      · rw [hsome low hs]
        exact ⟨rfl, rfl, rfl, fetchLock_higher s low _⟩

end Sys2Proof.Machine
end

section
/-! The bus (R109, R112, R113, R123, R125, R165): what another bus master's writes leave in memory, which loads, stores and I/O accesses
start the bus lock and what they note of the IRAM, and the statement O60. -/

namespace Sys2Proof.Machine

/-! ### What another bus master writes -/

/-- The cells that writes of another bus master go to. -/
def State.writtenCells (s : State) (writes : List (Word × Byte)) : List Nat :=
  writes.filterMap fun e => s.cell .external e.1

/-- In `t` each fitted byte holds the last of the values written to it, and every other byte what it held in `s` (R123). -/
def Landed (writes : List (Word × Byte)) (s t : State) : Prop :=
  (∀ k, k ∉ s.writtenCells writes → Memory.read t.mem k = Memory.read s.mem k) ∧
    ∀ early late a b k, writes = early ++ (a, b) :: late → s.cell .external a = some k → k ∉ s.writtenCells late →
      Memory.read t.mem k = b

/-- The writes of another bus master while the processor does not hold the bus. -/
def State.writeBytes (s : State) (writes : List (Word × Byte)) : State :=
  writes.foldl (fun t e => t.writeByte .external e.1 e.2) s

theorem State.writeBytes_cons (s : State) (e : Word × Byte) (rest : List (Word × Byte)) :
    s.writeBytes (e :: rest) = (s.writeByte .external e.1 e.2).writeBytes rest := rfl

theorem writtenCells_congr {s t : State} (h : t.platform = s.platform) : t.writtenCells = s.writtenCells := by
  funext writes
  exact congrArg (writes.filterMap ·) (funext fun e => cell_congr h .external e.1)

/-- Writes keep the canonical form and what is fitted. -/
theorem writeBytes_keeps {s : State} (h : Memory.wf s.mem = true) (writes : List (Word × Byte)) :
    Memory.wf (s.writeBytes writes).mem = true ∧ (s.writeBytes writes).platform = s.platform := by
  induction writes generalizing s with
  | nil => exact ⟨h, rfl⟩
  | cons e rest ih =>
    obtain ⟨hwf, hp⟩ := ih (State.wf_writeByte h .external e.1 e.2)
    exact ⟨hwf, hp.trans (State.writeByte_platform ..)⟩

/-- A byte written has its value, and every other cell is unchanged. -/
theorem read_writeByte {s : State} (h : Memory.wf s.mem = true) (r : Region) (a : Word) (b : Byte) (k : Nat) :
    Memory.read (s.writeByte r a b).mem k = if s.cell r a = some k then b else Memory.read s.mem k := by
  have hn : Memory.wf (s.noteStale r a).mem = true := by simpa using h
  have hc : (s.noteStale r a).cell r a = s.cell r a := cell_congr (by simp) r a
  split
  · rename_i hk
    exact State.read_putByte_same hn r a b (hc.trans hk)
  · rename_i hk
    exact (State.read_putByte_other hn r a b (hc ▸ hk)).trans (by simp)

/-- A cell that none of the writes goes to is unchanged. -/
theorem read_writeBytes_other {s : State} (h : Memory.wf s.mem = true) (writes : List (Word × Byte)) {k : Nat}
    (hk : k ∉ s.writtenCells writes) : Memory.read (s.writeBytes writes).mem k = Memory.read s.mem k := by
  induction writes generalizing s with
  | nil => rfl
  | cons e rest ih =>
    have hcells : k ∉ s.writtenCells rest ∧ s.cell .external e.1 ≠ some k := by
      simp only [State.writtenCells, List.mem_filterMap, not_exists, not_and, List.mem_cons] at hk ⊢
      exact ⟨fun x hx => hk x (.inr hx), hk e (.inl rfl)⟩
    rw [State.writeBytes_cons, ih (State.wf_writeByte h ..), read_writeByte h, if_neg hcells.2]
    rw [writtenCells_congr (State.writeByte_platform ..)]
    exact hcells.1

/-- What the writes leave. -/
theorem landed_writeBytes {s : State} (h : Memory.wf s.mem = true) (writes : List (Word × Byte)) :
    Landed writes s (s.writeBytes writes) := by
  refine ⟨fun k => read_writeBytes_other h writes, ?_⟩
  rintro early late a b k rfl hk hlate
  obtain ⟨hwf, hp⟩ := writeBytes_keeps h early
  have hsplit : s.writeBytes (early ++ (a, b) :: late) = ((s.writeBytes early).writeByte .external a b).writeBytes late :=
    List.foldl_append
  rw [hsplit, read_writeBytes_other (State.wf_writeByte hwf ..), read_writeByte hwf, if_pos ((cell_congr hp ..).trans hk)]
  rw [writtenCells_congr ((State.writeByte_platform ..).trans hp)]
  exact hlate

/-- Only memory and what is fitted matter. -/
theorem Landed.congr {writes : List (Word × Byte)} {s s' t t' : State} (h : Landed writes s' t) (hm : s'.mem = s.mem)
    (hp : s'.platform = s.platform) (ht : t'.mem = t.mem) : Landed writes s t' := by
  unfold Landed at h ⊢
  rw [ht]
  rw [hm, writtenCells_congr hp] at h
  exact ⟨h.1, fun early late a b k hw hk => h.2 early late a b k hw ((cell_congr hp ..).trans hk)⟩

/-- While the processor holds the bus, another master writes nothing (R165). -/
theorem dma_of_act {s : State} (h : s.act = true) (writes : List (Word × Byte)) : s.dma writes = s := if_pos h

/-- While it does not, the writes land (R123). -/
theorem landed_dma {s : State} (hwf : Memory.wf s.mem = true) (h : s.act = false) (writes : List (Word × Byte)) :
    Landed writes s (s.dma writes) := by
  have hd : s.dma writes = s.writeBytes writes := if_neg (by simp [h])
  rw [hd]
  exact landed_writeBytes hwf writes

/-- ACT by GRANT# and the bus lock (R165). -/
theorem act_eq_true_iff {s : State} : s.act = true ↔ s.pins.grant = false ∨ s.busLock = true := by
  simp [State.act]

theorem act_eq_false_iff {s : State} : s.act = false ↔ s.pins.grant = true ∧ s.busLock = false := by
  simp [State.act]

/-- What the inputs of a boundary leave in memory: what the other master wrote with the new level of GRANT#. -/
theorem receive_mem (s : State) (i : Input) : (s.receive i).mem = ({ s with pins := i.pins }.dma i.dma).mem := by
  rw [State.receive, State.evalIO3_mem]
  have h := (dma_memory (s := { s with pins := i.pins })
    (t := { s with
      pins := i.pins
      pinsDriven := true
      between := i.between
      parityPending := s.parityPending || parityHit s.bcr i.parity
      resetRequest := s.resetRequest || i.reset }) i.dma rfl rfl rfl).1
  exact h

/-- An access starts the bus lock before what another master writes after it (R109, R165). -/
theorem noteAccess_busLock_eq_true_iff {s : State} {r : Region} :
    (s.noteAccess r).busLock = true ↔ s.busLock = true ∨ r = .external ∧ s.fcr.getLsbD 17 = false := by
  simp [noteAccess_busLock]

/-! ### What an instruction leaves of the bus lock, and notes of the IRAM -/

/-- The instruction answers a next state; where it `locks`, the bus lock has started if FCR(17) = 0, and where it `relies` on what
refresh does not guarantee, that is noted (R112, R165). -/
def Ends (i : Instr) (locks relies : Bool) (s : State) : Prop :=
  ∃ t, exec i s = .next t ∧ t.busLock = (s.busLock || (locks && !s.fcr.getLsbD 17)) ∧ t.iramRelied = (s.iramRelied || relies)

/-- A load from the unit `r` of bytes at addresses, each with how many they are. -/
def Reads (i : Instr) (r : Region) (bytes : List (Word × Nat)) (s : State) : Prop :=
  Ends i (decide (r = .external)) (bytes.any fun x => !s.guarantees r x.1 x.2) s

/-- A store to the unit `r`. -/
def Writes (i : Instr) (r : Region) (s : State) : Prop := Ends i (decide (r = .external)) false s

theorem ends_of_retire {i : Instr} {len : Nat} {locks relies : Bool} {s u : State} (hi : exec i s = retire len u)
    (hl : u.busLock = (s.busLock || (locks && !s.fcr.getLsbD 17))) (hr : u.iramRelied = (s.iramRelied || relies)) :
    Ends i locks relies s := ⟨_, hi, by simpa using hl, by simpa using hr⟩

/-- How many bytes a data type has (R231). -/
def DataType.bytes : DataType → Nat
  | .bs => 1
  | .bu => 1
  | .hu => 2
  | .hs => 2
  | .w => 4

/-- The read of a data type is one of its bytes from its aligned address on (R104). -/
theorem noteLoad_eq (s : State) (ty : DataType) (r : Region) (a : Word) :
    s.noteLoad ty r a = s.noteRead r (dataAddress ty a) ty.bytes := by
  cases ty <;> rfl

theorem noteLoad_busLock (s : State) (ty : DataType) (r : Region) (a : Word) :
    (s.noteLoad ty r a).busLock = (s.busLock || (decide (r = .external) && !s.fcr.getLsbD 17)) := by
  rw [noteLoad_eq]
  exact noteAccess_busLock _ r

theorem noteLoad_iramRelied (s : State) (ty : DataType) (r : Region) (a : Word) :
    (s.noteLoad ty r a).iramRelied = (s.iramRelied || !s.guarantees r (dataAddress ty a) ty.bytes) := by
  rw [noteLoad_eq]
  rfl

theorem guarantees_congr {s t : State} (h : t.iramKept = s.iramKept) (r : Region) (a : Word) (n : Nat) :
    t.guarantees r a n = s.guarantees r a n := by
  unfold State.guarantees
  rw [h]

/-- Which bytes are guaranteed does not depend on the start of the instruction or on the address register. -/
theorem guarantees_updated (s : State) (a : Access) (r : Region) (b : Word) (n : Nat) :
    (s.opened.updateAddress a).guarantees r b n = s.guarantees r b n := guarantees_congr (by simp) r b n

theorem noteIoRead_busLock (s : State) (a : Word) : (s.noteIoRead a).busLock = (s.busLock || !s.fcr.getLsbD 17) :=
  noteAccess_busLock _ .external

theorem ioWrite_busLock (s : State) (a v : Word) : (s.ioWrite a v).busLock = (s.busLock || !s.fcr.getLsbD 17) :=
  noteAccess_busLock _ .external

theorem storeValue_opened {len : Nat} {rs : Reg} {regs : List Reg} {s : State} (hu : Usable regs s) (hr : rs ∈ regs) :
    storeValue len rs s.opened = storeValue len rs s := by
  unfold storeValue
  rw [source_opened len hu hr]

/-! ### The shapes of loads, stores and I/O accesses -/

/-- A load or store of `rs` whose checks pass, by an access `a` whose address register, if any, is not zero. -/
structure Ready (len : Nat) (fields : List Reg) (rs : Reg) (check : Option Result) (access : State → Access) (a : Access)
    (s : State) : Prop where
  usable : Usable (rs :: fields) s
  passes : check = none
  accesses : access s.opened = a
  nonzero : a.null = false

namespace Ready
variable {len : Nat} {fields : List Reg} {rs : Reg} {check : Option Result} {access : State → Access} {a : Access} {s : State}

/-- A load. -/
theorem loadOp_reads (h : Ready len fields rs check access a s) (hr : Loadable rs) (ty : DataType) (i : Instr)
    (hi : exec i s = loadOp len ty fields rs check access s) : Reads i a.region [(dataAddress ty a.addr, ty.bytes)] s := by
  rw [loadOp, windowGuard_none (dst := none) h.usable, h.passes, loadGuard_none hr] at hi
  simp only [guarded, andThen, h.accesses, h.nonzero, Bool.false_eq_true, if_false] at hi
  refine ends_of_retire hi ?_ ?_
  · simp [noteLoad_busLock]
  · simp [noteLoad_iramRelied, guarantees_updated]

/-- A double-word load: what another bus master writes between its words marks nothing of the IRAM (R109, R112). -/
theorem loadDoubleOp_reads {q : Place} (h : Ready len fields rs check access a s) (hr : LoadablePair rs) (hq : nextPlace rs s = some q)
    (i : Instr) (hi : exec i s = loadDoubleOp len fields rs check access s) :
    Reads i a.region [(alignWord a.addr, 4), (alignWord (a.addr + 4#32), 4)] s := by
  rw [loadDoubleOp, windowGuard_none (dst := none) h.usable, h.passes, loadGuard_pair hr, hq] at hi
  simp only [guarded, andThen, h.accesses, h.nonzero, Bool.false_eq_true, if_false] at hi
  have hkept : ((s.opened.updateAddress a).noteLoad .w a.region a.addr).interlude.iramKept = s.iramKept := by simp
  refine ends_of_retire hi ?_ ?_
  · simp [noteLoad_busLock]
  · simp [noteLoad_iramRelied, guarantees_updated, guarantees_congr hkept, dataAddress, DataType.bytes, Bool.or_assoc]

/-- A store whose value is in the range of its type (R233). -/
theorem storeOp_writes (h : Ready len fields rs check access a s) (ty : DataType) (ht : storeTraps ty (storeValue len rs s) = false)
    (i : Instr) (hi : exec i s = storeOp len ty fields rs check access s) : Writes i a.region s := by
  rw [storeOp, windowGuard_none (dst := none) h.usable, h.passes] at hi
  simp only [guarded, andThen, h.accesses, h.nonzero, storeValue_opened h.usable List.mem_cons_self, ht, Bool.false_eq_true,
    if_false] at hi
  refine ends_of_retire hi ?_ ?_
  · simp [noteAccess_busLock]
  · simp

/-- A double-word store. -/
theorem storeDoubleOp_writes {q : Place} (h : Ready len fields rs check access a s) (hq : nextPlace rs s = some q) (i : Instr)
    (hi : exec i s = storeDoubleOp len fields rs check access s) : Writes i a.region s := by
  rw [storeDoubleOp, windowGuard_none (dst := none) h.usable, h.passes] at hi
  simp only [guarded, andThen, h.accesses, h.nonzero, storeFollower_some hq, Bool.false_eq_true, if_false] at hi
  refine ends_of_retire hi ?_ ?_
  · simp [noteAccess_busLock]
  · simp

/-- An I/O load. -/
theorem ioLoadOp_ends (h : Ready len fields rs check access a s) (hr : Loadable rs) (i : Instr)
    (hi : exec i s = ioLoadOp len fields rs access s) : Ends i true false s := by
  rw [ioLoadOp, windowGuard_none (dst := none) h.usable, loadGuard_none hr] at hi
  simp only [guarded, andThen, h.accesses, h.nonzero, Bool.false_eq_true, if_false] at hi
  refine ends_of_retire hi ?_ ?_
  · simp [noteIoRead_busLock]
  · simp

/-- An I/O load of two words. -/
theorem ioLoadDoubleOp_ends {q : Place} (h : Ready len fields rs check access a s) (hr : LoadablePair rs) (hq : nextPlace rs s = some q)
    (i : Instr) (hi : exec i s = ioLoadDoubleOp len fields rs access s) : Ends i true false s := by
  rw [ioLoadDoubleOp, windowGuard_none (dst := none) h.usable, loadGuard_pair hr, hq] at hi
  simp only [guarded, andThen, h.accesses, h.nonzero, Bool.false_eq_true, if_false] at hi
  refine ends_of_retire hi ?_ ?_
  · simp [noteIoRead_busLock]
  · simp

/-- An I/O store. -/
theorem ioStoreOp_ends (h : Ready len fields rs check access a s) (i : Instr) (hi : exec i s = ioStoreOp len fields rs access s) :
    Ends i true false s := by
  rw [ioStoreOp, windowGuard_none (dst := none) h.usable] at hi
  simp only [guarded, h.accesses, h.nonzero, Bool.false_eq_true, if_false] at hi
  refine ends_of_retire hi ?_ ?_
  · simp [ioWrite_busLock]
  · simp

/-- An I/O store of two words. -/
theorem ioStoreDoubleOp_ends {q : Place} (h : Ready len fields rs check access a s) (hq : nextPlace rs s = some q) (i : Instr)
    (hi : exec i s = ioStoreDoubleOp len fields rs access s) : Ends i true false s := by
  rw [ioStoreDoubleOp, windowGuard_none (dst := none) h.usable] at hi
  simp only [guarded, h.accesses, h.nonzero, storeFollower_some hq, Bool.false_eq_true, if_false] at hi
  refine ends_of_retire hi ?_ ?_
  · simp [ioWrite_busLock]
  · simp
end Ready

/-! ### The address modes -/

section
variable {rd rs : Reg} {ld : BitVec 4} {dis : Dis} {s : State}

/-- .D and .IOD (R244, R250). -/
theorem ready_displacement (hu : Usable [rd, rs] s) (hb : source dis.length rd s ≠ 0#32) :
    Ready dis.length [rd] rs none (displacementAccess rd dis) (displacementAccess rd dis s) s where
  usable := fun hw r hr => hu hw r (by simpa [or_comm] using hr)
  passes := rfl
  accesses := by unfold displacementAccess; rw [source_opened _ hu (by simp)]
  nonzero := beq_false_of_ne hb

/-- .A and .IOA (R245, R251): the SR stands in the place of Rd. -/
theorem ready_absolute (hw : s.window = false) :
    Ready dis.length [.sr] rs none (fun _ => absoluteAccess dis) (absoluteAccess dis) s where
  usable := usable_closed hw
  passes := rfl
  accesses := rfl
  nonzero := rfl

/-- .N and .S (R246, R247). -/
theorem ready_next (hu : Usable [rd, rs] s) (hp : rd.isPC = false) (hs : rd.isSR = false) (hb : source dis.length rd s ≠ 0#32) :
    Ready dis.length [rd] rs (addressGuard rd) (nextAccess rd dis) (nextAccess rd dis s) s where
  usable := fun hw r hr => hu hw r (by simpa [or_comm] using hr)
  passes := addressGuard_none hp hs
  accesses := by unfold nextAccess; rw [source_opened _ hu (by simp), place_opened]
  nonzero := beq_false_of_ne hb

/-- .R (R240, R241). -/
theorem ready_register (hu : Usable [rs] s) (hb : s.lr ld.toNat ≠ 0#32) :
    Ready 1 [] rs none (registerAccess ld) (registerAccess ld s) s where
  usable := hu
  passes := rfl
  accesses := by unfold registerAccess; rw [lr_opened]
  nonzero := beq_false_of_ne hb

/-- .P (R242, R243). -/
theorem ready_post (size : Word) (hu : Usable [rs] s) (hb : s.lr ld.toNat ≠ 0#32) :
    Ready 1 [] rs none (postAccess size ld) (postAccess size ld s) s where
  usable := hu
  passes := rfl
  accesses := by unfold postAccess; rw [lr_opened, place_opened]
  nonzero := beq_false_of_ne hb

/-- LDW.S below SP reads memory, elsewhere a local register (R118, R247). -/
theorem ldwS_ends {a : Access} (h : Ready dis.length [rd] rs (addressGuard rd) (nextAccess rd dis) a s) (hr : Loadable rs) :
    if a.addr.toNat < s.sp.toNat then Reads (.ldwS rd rs dis) (regionOf a.addr) [(alignWord a.addr, 4)] s
    else Ends (.ldwS rd rs dis) false false s := by
  have hi : exec (.ldwS rd rs dis) s = execLdwS rd rs dis s := rfl
  rw [execLdwS, windowGuard_none (dst := none) h.usable, h.passes, loadGuard_none hr] at hi
  simp only [guarded, andThen, h.accesses, h.nonzero, Bool.false_eq_true, if_false, State.noteStackRead, State.updateAddress_sp,
    State.opened_sp] at hi
  split
  · rename_i hbelow
    rw [if_pos hbelow] at hi
    refine ends_of_retire hi ?_ ?_
    · simp [noteLoad_busLock]
    · simp [noteLoad_iramRelied, guarantees_updated, dataAddress, DataType.bytes]
  · rename_i hbelow
    rw [if_neg hbelow] at hi
    exact ends_of_retire hi (by simp) (by simp)

/-- STW.S below SP writes memory, elsewhere a local register (R118, R261). -/
theorem stwS_ends {a : Access} (h : Ready dis.length [rd] rs (addressGuard rd) (nextAccess rd dis) a s) :
    if a.addr.toNat < s.sp.toNat then Writes (.stwS rd rs dis) (regionOf a.addr) s
    else Ends (.stwS rd rs dis) false false s := by
  have hi : exec (.stwS rd rs dis) s = execStwS rd rs dis s := rfl
  rw [execStwS, windowGuard_none (dst := none) h.usable, h.passes] at hi
  simp only [guarded, andThen, h.accesses, h.nonzero, Bool.false_eq_true, if_false, State.stackWrite, State.updateAddress_sp,
    State.opened_sp] at hi
  split
  · rename_i hbelow
    rw [if_pos hbelow] at hi
    exact ends_of_retire hi (by simp [noteAccess_busLock]) (by simp)
  · rename_i hbelow
    rw [if_neg hbelow] at hi
    exact ends_of_retire hi (by simp) (by simp)
end

theorem nop_ends (s : State) : Ends .nop false false s :=
  ends_of_retire (u := s.opened) rfl (by simp) (by simp)

/-! ### The other master at a boundary and between two words -/

/-- At a boundary the level of GRANT# is the input's, and no access is made (R123, R165). -/
theorem receive_landed {s : State} (h : Memory.wf s.mem = true) (i : Input) :
    (i.pins.grant = false ∨ s.busLock = true → (s.receive i).mem = s.mem) ∧
      (i.pins.grant = true → s.busLock = false → Landed i.dma s (s.receive i)) := by
  refine ⟨fun hact => ?_, fun hg hl => ?_⟩
  · rw [receive_mem, dma_of_act (act_eq_true_iff.mpr hact)]
  · exact (landed_dma (s := { s with pins := i.pins }) h (act_eq_false_iff.mpr ⟨hg, hl⟩) i.dma).congr rfl rfl (receive_mem s i)

/-- Between the two words of a double-word access the first word's access may have started the bus lock (R109, R165). -/
theorem interlude_landed {s : State} (h : Memory.wf s.mem = true) (r : Region) :
    (s.pins.grant = false ∨ s.busLock = true ∨ r = .external ∧ s.fcr.getLsbD 17 = false →
      (s.noteAccess r).interlude.mem = s.mem) ∧
      (s.pins.grant = true → s.busLock = false → r = .iram ∨ s.fcr.getLsbD 17 = true →
        Landed s.between s (s.noteAccess r).interlude) := by
  refine ⟨fun hact => ?_, fun hg hl hr => ?_⟩
  · have : (s.noteAccess r).act = true :=
      act_eq_true_iff.mpr (hact.imp id noteAccess_busLock_eq_true_iff.mpr)
    rw [State.interlude, dma_of_act this]
    rfl
  · have hlock : (s.noteAccess r).busLock = false := by
      rcases hr with rfl | hr <;> simp [noteAccess_busLock, *]
    exact (landed_dma (s := s.noteAccess r) h (act_eq_false_iff.mpr ⟨hg, hlock⟩) s.between).congr rfl rfl rfl

/-- Settles O60: each access mode is ready where its address register is not zero, and each shape of instruction then locks the bus
and notes the IRAM as its access does. -/
theorem busLockAndOtherMasters : Obligations.BusLockAndOtherMasters := by
  intro i rd rs ld dis q s hwf u cellsOf ends reads writes loadable loadable2 landed
  obtain ⟨hkept, hlanded⟩ := receive_landed hwf i
  refine ⟨hkept, hlanded, by simp [u, State.receive], fun r => interlude_landed hwf r, nop_ends s, ?displacement, ?absolute,
    ?register⟩
  case displacement =>
    intro v b hu hb
    have h := ready_displacement hu hb
    refine ⟨fun hr => ⟨h.ioLoadOp_ends hr (.ldwIOD rd rs dis) rfl, h.loadOp_reads hr .bs (.ldbsD rd rs dis) rfl,
        h.loadOp_reads hr .bu (.ldbuD rd rs dis) rfl, h.loadOp_reads hr .hu (.ldhuD rd rs dis) rfl,
        h.loadOp_reads hr .hs (.ldhsD rd rs dis) rfl, h.loadOp_reads hr .w (.ldwD rd rs dis) rfl⟩,
      fun hr hq => ⟨h.ioLoadDoubleOp_ends hr hq (.lddIOD rd rs dis) rfl, h.loadDoubleOp_reads hr hq (.lddD rd rs dis) rfl⟩,
      fun ht => h.storeOp_writes .bs ht (.stbsD rd rs dis) rfl, h.storeOp_writes .bu rfl (.stbuD rd rs dis) rfl,
      h.storeOp_writes .hu rfl (.sthuD rd rs dis) rfl, fun ht => h.storeOp_writes .hs ht (.sthsD rd rs dis) rfl,
      h.storeOp_writes .w rfl (.stwD rd rs dis) rfl, h.ioStoreOp_ends (.stwIOD rd rs dis) rfl,
      fun hq => ⟨h.storeDoubleOp_writes hq (.stdD rd rs dis) rfl, h.ioStoreDoubleOp_ends hq (.stdIOD rd rs dis) rfl⟩,
      fun hp hs => ?next⟩
    case next =>
      have h := ready_next hu hp hs hb
      exact ⟨fun hr => ⟨h.loadOp_reads hr .bs (.ldbsN rd rs dis) rfl, h.loadOp_reads hr .bu (.ldbuN rd rs dis) rfl,
          h.loadOp_reads hr .hu (.ldhuN rd rs dis) rfl, h.loadOp_reads hr .hs (.ldhsN rd rs dis) rfl,
          h.loadOp_reads hr .w (.ldwN rd rs dis) rfl, ldwS_ends h hr⟩,
        fun hr hq => h.loadDoubleOp_reads hr hq (.lddN rd rs dis) rfl,
        fun ht => h.storeOp_writes .bs ht (.stbsN rd rs dis) rfl, h.storeOp_writes .bu rfl (.stbuN rd rs dis) rfl,
        h.storeOp_writes .hu rfl (.sthuN rd rs dis) rfl, fun ht => h.storeOp_writes .hs ht (.sthsN rd rs dis) rfl,
        h.storeOp_writes .w rfl (.stwN rd rs dis) rfl, fun hq => h.storeDoubleOp_writes hq (.stdN rd rs dis) rfl, stwS_ends h⟩
  case absolute =>
    intro v e hw
    have h : Ready dis.length [.sr] rs none (fun _ => absoluteAccess dis) (absoluteAccess dis) s := ready_absolute hw
    exact ⟨fun hr => ⟨h.ioLoadOp_ends hr (.ldwIOA rs dis) rfl, h.loadOp_reads hr .bs (.ldbsA rs dis) rfl,
        h.loadOp_reads hr .bu (.ldbuA rs dis) rfl, h.loadOp_reads hr .hu (.ldhuA rs dis) rfl,
        h.loadOp_reads hr .hs (.ldhsA rs dis) rfl, h.loadOp_reads hr .w (.ldwA rs dis) rfl⟩,
      fun hr hq => ⟨h.ioLoadDoubleOp_ends hr hq (.lddIOA rs dis) rfl, h.loadDoubleOp_reads hr hq (.lddA rs dis) rfl⟩,
      fun ht => h.storeOp_writes .bs ht (.stbsA rs dis) rfl, h.storeOp_writes .bu rfl (.stbuA rs dis) rfl,
      h.storeOp_writes .hu rfl (.sthuA rs dis) rfl, fun ht => h.storeOp_writes .hs ht (.sthsA rs dis) rfl,
      h.storeOp_writes .w rfl (.stwA rs dis) rfl, h.ioStoreOp_ends (.stwIOA rs dis) rfl,
      fun hq => ⟨h.storeDoubleOp_writes hq (.stdA rs dis) rfl, h.ioStoreDoubleOp_ends hq (.stdIOA rs dis) rfl⟩⟩
  case register =>
    intro b hu hb
    have h := ready_register hu hb
    have hword := ready_post 4#32 hu hb
    have hpair := ready_post 8#32 hu hb
    exact ⟨fun hr => ⟨h.loadOp_reads hr .w (.ldwR ld rs) rfl, hword.loadOp_reads hr .w (.ldwP ld rs) rfl⟩,
      fun hr hq => ⟨h.loadDoubleOp_reads hr hq (.lddR ld rs) rfl, hpair.loadDoubleOp_reads hr hq (.lddP ld rs) rfl⟩,
      h.storeOp_writes .w rfl (.stwR ld rs) rfl, hword.storeOp_writes .w rfl (.stwP ld rs) rfl,
      fun hq => ⟨h.storeDoubleOp_writes hq (.stdR ld rs) rfl, hpair.storeDoubleOp_writes hq (.stdP ld rs) rfl⟩⟩

end Sys2Proof.Machine
end

section
/-! Reserved opcodes, forbidden operands and the entry tables (R201, R205 to R209, R236, R246, R247, R385, R446, D10): with the H
window closed the window check passes and the check of the operands decides, and the statements O3, O38 and O42. -/

namespace Sys2Proof.Machine

/-! ### The checks of the operands -/

section
variable {rd rs : Reg} {c : BitVec 4}

/-- The PC, the SR, G14 and G15 are not loaded (R236). -/
theorem loadGuard_refused (isDouble : Bool) (hc : c = 0#4 ∨ c = 1#4 ∨ c = 14#4 ∨ c = 15#4) :
    loadGuard isDouble (.glob c) = some (.refused .loadDestination) := by
  obtain rfl | rfl | rfl | rfl := hc <;> simp [loadGuard]

/-- G13 is not loaded with a double-word either: the register after it is G14 (R236). -/
theorem loadGuard_refused_pair (hc : c = 0#4 ∨ c = 1#4 ∨ c = 13#4 ∨ c = 14#4 ∨ c = 15#4) :
    loadGuard true (.glob c) = some (.refused .loadDestination) := by
  by_cases h13 : c = 13#4
  · simp [loadGuard, h13]
  · exact loadGuard_refused true (by simpa [h13] using hc)

/-- The PC and the SR are no address registers (R246, R247) and no source of RET (R446). -/
theorem addressGuard_refused (h : rd.isPC = true ∨ rd.isSR = true) : addressGuard rd = some (.refused .pcOrSrDenoted) :=
  if_pos (by simpa using h)

/-- The SR is no operand of an index move (R385). -/
theorem indexGuard_refused (hp : rd.isPC = false) (h : rd.isSR = true ∨ rs.isSR = true) :
    indexGuard rd rs = some (.refused .pcOrSrDenoted) := by
  simp [indexGuard, hp, h]
end

/-! ### The instructions with such a check -/

/-- The check of the operands that an instruction makes after the window check: what it stops with. -/
def operandCheck : Instr → Option Result
  | .ldbsD _ rs _ | .ldbuD _ rs _ | .ldhuD _ rs _ | .ldhsD _ rs _ | .ldwD _ rs _ | .ldwIOD _ rs _ | .ldbsA rs _ | .ldbuA rs _
  | .ldhuA rs _ | .ldhsA rs _ | .ldwA rs _ | .ldwIOA rs _ | .ldwR _ rs | .ldwP _ rs => loadGuard false rs
  | .lddD _ rs _ | .lddIOD _ rs _ | .lddA rs _ | .lddIOA rs _ | .lddR _ rs | .lddP _ rs => loadGuard true rs
  | .ldbsN rd rs _ | .ldbuN rd rs _ | .ldhuN rd rs _ | .ldhsN rd rs _ | .ldwN rd rs _ | .ldwS rd rs _ =>
    andThen (addressGuard rd) (loadGuard false rs)
  | .lddN rd rs _ => andThen (addressGuard rd) (loadGuard true rs)
  | .stbsN rd _ _ | .stbuN rd _ _ | .sthuN rd _ _ | .sthsN rd _ _ | .stwN rd _ _ | .stdN rd _ _ | .stwS rd _ _ =>
    addressGuard rd
  | .ret rs => addressGuard rs
  | .xm1 rd rs _ | .xm2 rd rs _ | .xm4 rd rs _ | .xm8 rd rs _ | .xx1 rd rs _ | .xx2 rd rs _ | .xx4 rd rs _ | .xx8 rd rs _ =>
    indexGuard rd rs
  | _ => none

section
variable {s : State} {stop : Result}

/-- Where the first check passes, the second may stop. -/
theorem andThen_passed {first second : Option Result} (h1 : first = none) (h2 : second = some stop) :
    andThen first second = some stop := by
  rw [h1]
  exact h2

/-- With the H window closed, the check after the window check decides. -/
theorem guarded_closed {len : Nat} {dst : Option Reg} {srcs : List Reg} {check : Option Result} {run : Result}
    (hw : s.window = false) (h : check = some stop) : guarded (andThen (windowGuard len dst srcs s) check) run = stop :=
  guarded_stop (andThen_passed (windowGuard_none (usable_closed hw)) h)

/-- With the H window closed, what the check of the operands stops with the instruction answers; RET checks for a delay slot
after it (R446). -/
theorem exec_of_operandCheck {i : Instr} (hw : s.window = false) (h : operandCheck i = some stop) : exec i s = stop := by
  cases i
  case ldbsD | ldbuD | ldhuD | ldhsD | ldwD | ldwIOD | ldbsA | ldbuA | ldhuA | ldhsA | ldwA | ldwIOA | ldwR | ldwP | lddD | lddIOD
      | lddA | lddIOA | lddR | lddP | ldbsN | ldbuN | ldhuN | ldhsN | ldwN | ldwS | lddN | stbsN | stbuN | sthuN | sthsN | stwN | stdN
      | stwS | xm1 | xm2 | xm4 | xm8 | xx1 | xx2 | xx4 | xx8 =>
    exact guarded_closed hw h
  case ret => exact guarded_closed hw (andThen_stop h)
  all_goals exact absurd h nofun
end

/-- Settles O38: each instruction answers what the check of its operands stops with. -/
theorem reservedOperandRefusals : Obligations.ReservedOperandRefusals := by
  intro rd rs x y ld dis lim s
  refine ⟨rfl, rfl, fun hw => ?_⟩
  intro unloadable stops
  have hload {i : Instr} (h : operandCheck i = some (.refused .loadDestination)) : unloadable i := exec_of_operandCheck hw h
  have hstop {i : Instr} (h : operandCheck i = some (.refused .pcOrSrDenoted)) : stops i := exec_of_operandCheck hw h
  refine ⟨fun c hc => ?word, fun c hc => ?pair, fun ha => ?address, fun hp hs => ?index⟩
  case word =>
    have h := loadGuard_refused false hc
    iterate 14 refine ⟨hload h, ?_⟩
    intro hp hs
    have hn := andThen_passed (addressGuard_none hp hs) h
    exact ⟨hload hn, hload hn, hload hn, hload hn, hload hn, hload hn⟩
  case pair =>
    have h := loadGuard_refused_pair hc
    iterate 6 refine ⟨hload h, ?_⟩
    exact fun hp hs => hload (andThen_passed (addressGuard_none hp hs) h)
  case address =>
    have h := addressGuard_refused ha
    iterate 7 refine ⟨hstop (andThen_stop h), ?_⟩
    iterate 7 refine ⟨hstop h, ?_⟩
    exact hstop h
  case index =>
    have h := indexGuard_refused hp hs
    exact ⟨hstop h, hstop h, hstop h, hstop h, hstop h, hstop h, hstop h, hstop h⟩

/-! ### The entry tables -/

section
variable {mcr : Word}

/-- Code 111 maps the entry tables to MEM3 (R205, R209). -/
theorem tableBase_mem3 (h : mcr.extractLsb' 12 3 = 7#3) : tableBase mcr = some 0xF#4 := by
  simp [tableBase, h]

/-- A code up to 011 is the memory area that the entry tables begin (R206, R208, R209). -/
theorem tableBase_low (h : (mcr.extractLsb' 12 3).toNat ≤ 3) : ∃ x : BitVec 4, tableBase mcr = some x ∧ x ≠ 0xF#4 ∧
    x ++ 0#28 = BitVec.ofNat 32 (0x40000000 * (mcr.extractLsb' 12 3).toNat) := by
  unfold tableBase
  generalize (mcr.extractLsb' 12 3).toNat = code at h
  interval_cases code
  · exact ⟨0x0#4, rfl, by decide⟩
  · exact ⟨0x4#4, rfl, by decide⟩
  · exact ⟨0x8#4, rfl, by decide⟩
  · exact ⟨0xC#4, rfl, by decide⟩

/-- The other codes map the entry tables nowhere (R209, I11). -/
theorem tableBase_reserved (h : mcr.extractLsb' 12 3 = 4#3 ∨ mcr.extractLsb' 12 3 = 5#3 ∨ mcr.extractLsb' 12 3 = 6#3) :
    tableBase mcr = none := by
  obtain h | h | h := h <;> simp [tableBase, h]

/-- The entries of tables in MEM3 (R205, R207). -/
theorem entries_mem3 (h : tableBase mcr = some 0xF#4) (k : Nat) :
    trapEntry mcr k = some (0xFFFFFF00#32 + BitVec.ofNat 32 (4 * k)) ∧
    softEntry mcr k = some (0xFFFFFE00#32 + BitVec.ofNat 32 (16 * k)) := by
  simp [trapEntry, softEntry, h]

/-- The entries of tables elsewhere, in descending order (R206, R208). -/
theorem entries_low {x : BitVec 4} (h : tableBase mcr = some x) (hx : x ≠ 0xF#4) (k : Nat) :
    trapEntry mcr k = some ((x ++ 0#28) + BitVec.ofNat 32 (4 * (63 - k))) ∧
    softEntry mcr k = some ((x ++ 0#28) + BitVec.ofNat 32 (0x10C + 16 * (15 - k))) := by
  simp [trapEntry, softEntry, h, hx]

/-- Tables that are mapped nowhere have no entries (R209, I11). -/
theorem entries_none (h : tableBase mcr = none) (k : Nat) : trapEntry mcr k = none ∧ softEntry mcr k = none := by
  simp [trapEntry, softEntry, h]
end

section
variable {s : State} (h : tableBase s.mcr = none)
include h

/-- An exception has no entry to go on at (I11). -/
theorem takeException_unmapped (k : Nat) (irq : Bool) : takeException k irq s = .fault .reservedEntryTable := by
  rw [takeException, (entries_none h k).1]

/-- A Trap instruction whose condition holds has none (I11). -/
theorem trapOp_unmapped (hslot : s.inSlot = false) {c : Cond} (hc : c.Met s.sr) (k : BitVec 6) :
    trapOp c k s = .fault .reservedEntryTable := by
  rw [trapOp, slotGuard_none hslot, guarded, if_pos (Cond.holds_iff.mpr hc), (entries_none h k.toNat).1]

/-- A Software instruction has none (I11). -/
theorem softwareOp_unmapped (hslot : s.inSlot = false) (k : Nat) (ld ls : BitVec 4) :
    softwareOp k ld ls s = .fault .reservedEntryTable := by
  rw [softwareOp, slotGuard_none hslot, guarded, (entries_none h k).2]
end

/-- Settles O42: the entries follow from where MCR(14..12) maps the tables, and where it maps them nowhere each way to an entry
stops. -/
theorem entryTablesAndReservedCodes : Obligations.EntryTablesAndReservedCodes := by
  intro mcr k j s n irq ld ls code
  refine ⟨fun h7 => ?mem3, fun hlow => ?low, fun hreserved hmcr => ?reserved⟩
  case mem3 =>
    have h := entries_mem3 (tableBase_mem3 h7)
    exact ⟨(h k.toNat).1, (h j.toNat).2⟩
  case low =>
    obtain ⟨x, hbase, hx, hbits⟩ := tableBase_low hlow
    have h := entries_low hbase hx
    rw [hbits] at h
    exact ⟨(h k.toNat).1, (h j.toNat).2⟩
  case reserved =>
    subst hmcr
    have h := tableBase_reserved hreserved
    refine ⟨takeException_unmapped h n irq, fun hslot => ?_⟩
    intro stops
    have htrap {i : Instr} (c : Cond) (hi : exec i s = trapOp c k s) (hc : c.Met s.sr) : stops i :=
      hi.trans (trapOp_unmapped h hslot hc k)
    have hsoft {i : Instr} (m : Nat) (hi : exec i s = softwareOp m ld ls s) : stops i :=
      hi.trans (softwareOp_unmapped h hslot m ld ls)
    exact ⟨htrap .le rfl, htrap .gt rfl, htrap .lt rfl, htrap .ge rfl, htrap .se rfl, htrap .ht rfl, htrap .st rfl,
      htrap .he rfl, htrap .e rfl, htrap .ne rfl, htrap .v rfl, htrap .always rfl trivial,
      hsoft 0 rfl, hsoft 1 rfl, hsoft 2 rfl, hsoft 3 rfl, hsoft 4 rfl, hsoft 5 rfl, hsoft 6 rfl, hsoft 7 rfl, hsoft 8 rfl,
      hsoft 9 rfl, hsoft 10 rfl, hsoft 11 rfl, hsoft 12 rfl, hsoft 13 rfl, hsoft 15 rfl⟩

/-! ### Encodings printed in the spec -/

/-- Settles O3: the decoder evaluated on each printed word. -/
theorem printedEncodingsDecode : Obligations.PrintedEncodingsDecode := by
  unfold Obligations.PrintedEncodingsDecode
  decide

end Sys2Proof.Machine
end

section
/-! The fields of the instruction formats (R181 to R200, R231): for each format, a halfword is what the encoder packs of its operands
exactly if the decoder takes these operands out of it. -/

namespace Sys2Proof

/-! ### Fields -/

/-- Two fields make up a number. -/
theorem append_eq_iff {a b : Nat} {hi : BitVec a} {lo : BitVec b} {x : BitVec (a + b)} :
    hi ++ lo = x ↔ hi = x.extractLsb' b a ∧ lo = x.extractLsb' 0 b := by
  constructor
  · rintro rfl
    exact ⟨BitVec.extractLsb'_append_eq_left.symm, BitVec.extractLsb'_append_eq_right.symm⟩
  · rintro ⟨rfl, rfl⟩
    exact (BitVec.extractLsb'_append_extractLsb'_eq_extractLsb' (Nat.zero_add b).symm).trans BitVec.extractLsb'_eq_self

theorem extract_extract {n start len start' len' : Nat} (x : BitVec n) (h : start' + len' ≤ len) :
    (x.extractLsb' start len).extractLsb' start' len' = x.extractLsb' (start + start') len' := by
  apply BitVec.eq_of_getLsbD_eq
  intro i hi
  simp [BitVec.getLsbD_extractLsb', Nat.add_assoc, show start' + i < len by omega]

/-- Two fields make up a field. -/
theorem append_eq_extract_iff {a b n start : Nat} {hi : BitVec a} {lo : BitVec b} {x : BitVec n} :
    hi ++ lo = x.extractLsb' start (a + b) ↔ hi = x.extractLsb' (start + b) a ∧ lo = x.extractLsb' start b := by
  rw [append_eq_iff, extract_extract x (by omega), extract_extract x (by omega), Nat.add_zero]

/-- A register field (R184, R197). -/
theorem eq_regOf_iff {b : BitVec 1} {c : BitVec 4} {r : Reg} : r = regOf b c ↔ r.bank = b ∧ r.code = c := by
  obtain rfl | rfl := BitVec.eq_zero_or_eq_one b <;> cases r <;> simp [regOf, Reg.bank, Reg.code]

theorem Reg.isSR_iff {r : Reg} : r.isSR = true ↔ r = .sr := beq_iff_eq

theorem Reg.isPC_iff {r : Reg} : r.isPC = true ↔ r = .pc := beq_iff_eq

/-! ### The first halfword -/

section
variable {rd rs : Reg} {ld ls : BitVec 4} {n : BitVec 5} {h : Half}

/-- n = hw1(8)//hw1(3..0) (R185, R186). -/
theorem eq_nOf_iff : n = nOf h ↔ n.extractLsb' 4 1 = h.extractLsb' 8 1 ∧ n.extractLsb' 0 4 = h.extractLsb' 0 4 := by
  rw [eq_comm, nOf, append_eq_iff (a := 1) (b := 4), eq_comm, @eq_comm _ (h.extractLsb' 0 4)]

/-- Format RR, of which RRconst, RRdis and RRlim have the first halfword (R184). -/
theorem packRR_eq_iff {op : BitVec 6} : packRR op rd rs = h ↔ op = h.extractLsb' 10 6 ∧ rd = rdOf h ∧ rs = rsOf h := by
  refine (append_eq_iff (a := 12) (b := 4)).trans ?_
  rw [append_eq_extract_iff (a := 8) (b := 4), append_eq_extract_iff (a := 7) (b := 1), append_eq_extract_iff (a := 6) (b := 1),
    rdOf, rsOf, eq_regOf_iff, eq_regOf_iff]
  tauto

/-- Format Rn, of which Rimm has the first halfword (R186, R192). -/
theorem packRn_eq_iff {op : BitVec 6} : packRn op rd n = h ↔ op = h.extractLsb' 10 6 ∧ rd = rdOf h ∧ n = nOf h := by
  refine (append_eq_iff (a := 12) (b := 4)).trans ?_
  rw [append_eq_extract_iff (a := 8) (b := 4), append_eq_extract_iff (a := 7) (b := 1), append_eq_extract_iff (a := 6) (b := 1),
    rdOf, eq_regOf_iff, eq_nOf_iff]
  tauto

/-- Formats LL and LLext (R181). -/
theorem packLL_eq_iff {op : BitVec 8} : packLL op ld ls = h ↔ op = h.extractLsb' 8 8 ∧ ld = ldOf h ∧ ls = lsOf h := by
  refine (append_eq_iff (a := 12) (b := 4)).trans ?_
  rw [append_eq_extract_iff (a := 8) (b := 4), and_assoc]
  rfl

/-- Formats LR and LRconst (R183, R189). -/
theorem packLR_eq_iff {op : BitVec 7} : packLR op ld rs = h ↔ op = h.extractLsb' 9 7 ∧ ld = ldOf h ∧ rs = rsOf h := by
  refine (append_eq_iff (a := 12) (b := 4)).trans ?_
  rw [append_eq_extract_iff (a := 8) (b := 4), append_eq_extract_iff (a := 7) (b := 1), ldOf, rsOf, eq_regOf_iff]
  tauto

/-- Format Ln (R185). -/
theorem packLn_eq_iff {op : BitVec 7} : packLn op ld n = h ↔ op = h.extractLsb' 9 7 ∧ ld = ldOf h ∧ n = nOf h := by
  refine (append_eq_iff (a := 12) (b := 4)).trans ?_
  rw [append_eq_extract_iff (a := 8) (b := 4), append_eq_extract_iff (a := 7) (b := 1), ldOf, eq_nOf_iff]
  tauto

/-- Format PCadr with its condition (R187, R199 (g)). -/
theorem packTrap_eq_iff {op : BitVec 8} {k : BitVec 6} {cond : BitVec 2} :
    packTrap op k cond = h ↔ op = h.extractLsb' 8 8 ∧ k = h.extractLsb' 2 6 ∧ cond = h.extractLsb' 0 2 := by
  refine (append_eq_iff (a := 14) (b := 2)).trans ?_
  rw [append_eq_extract_iff (a := 8) (b := 6), and_assoc]
end

/-! ### The operand halfwords -/

theorem eq_append_iff {a b : Nat} {hi : BitVec a} {lo : BitVec b} {x : BitVec (a + b)} :
    x = hi ++ lo ↔ x.extractLsb' b a = hi ∧ x.extractLsb' 0 b = lo := by
  rw [eq_comm, append_eq_iff, @eq_comm _ hi, @eq_comm _ lo]

theorem eq_append_append_iff {a b c : Nat} {x : BitVec a} {y : BitVec b} {z : BitVec c} {v : BitVec (a + b + c)} :
    v = x ++ y ++ z ↔ v.extractLsb' (c + b) a = x ∧ v.extractLsb' c b = y ∧ v.extractLsb' 0 c = z := by
  rw [eq_append_iff, @eq_comm _ _ (x ++ y), append_eq_extract_iff, and_assoc, @eq_comm _ x, @eq_comm _ y]

section
variable {h1 h2 h3 : Half}

/-- Formats LRconst and RRconst (R189). -/
theorem eq_constOf_iff {c : Const} : c = constOf h2 h3 ↔ c.halfwords <+: [h2, h3] := by
  have hpack {e : BitVec 1} {v : BitVec 15} : (e ++ v : Half) = h2 ↔ e = h2.extractLsb' 15 1 ∧ v = h2.extractLsb' 0 15 :=
    append_eq_iff (a := 1) (b := 15)
  unfold constOf
  obtain he | he := BitVec.eq_zero_or_eq_one (h2.extractLsb' 15 1) <;> cases c <;>
    simp [Const.halfwords, List.cons_prefix_cons, hpack, he, eq_append_iff (a := 15) (b := 16)]

/-- Format RRlim with its X-code (R193, R199 (c)). -/
theorem eq_limOf_iff {lim : Lim} {x : BitVec 3} : x = h2.extractLsb' 12 3 ∧ lim = limOf h2 h3 ↔ lim.halfwords x <+: [h2, h3] := by
  have hpack {e : BitVec 1} {v : BitVec 12} :
      (e ++ x ++ v : Half) = h2 ↔ e = h2.extractLsb' 15 1 ∧ x = h2.extractLsb' 12 3 ∧ v = h2.extractLsb' 0 12 := by
    refine (append_eq_iff (a := 4) (b := 12)).trans ?_
    rw [append_eq_extract_iff (a := 1) (b := 3), and_assoc]
  unfold limOf
  obtain he | he := BitVec.eq_zero_or_eq_one (h2.extractLsb' 15 1) <;> cases lim <;>
    simp [Lim.halfwords, List.cons_prefix_cons, hpack, he, eq_append_iff (a := 12) (b := 16), and_assoc]

/-- Format RRdis with its type bits DD (R191, R231). -/
theorem eq_disOf_iff {d : Dis} {dd : BitVec 2} : dd = h2.extractLsb' 12 2 ∧ d = disOf h2 h3 ↔ d.halfwords dd <+: [h2, h3] := by
  have hpack {e s : BitVec 1} {v : BitVec 12} : (e ++ s ++ dd ++ v : Half) = h2 ↔
      e = h2.extractLsb' 15 1 ∧ s = h2.extractLsb' 14 1 ∧ dd = h2.extractLsb' 12 2 ∧ v = h2.extractLsb' 0 12 := by
    refine (append_eq_iff (a := 4) (b := 12)).trans ?_
    rw [append_eq_extract_iff (a := 2) (b := 2), append_eq_extract_iff (a := 1) (b := 1), and_assoc, and_assoc]
  unfold disOf
  obtain he | he := BitVec.eq_zero_or_eq_one (h2.extractLsb' 15 1) <;> cases d <;>
    simp [Dis.halfwords, List.cons_prefix_cons, hpack, he, eq_append_iff (a := 1) (b := 12),
      eq_append_append_iff (a := 1) (b := 12) (c := 16)]
  all_goals tauto

/-- Format PCrel (R188). -/
theorem eq_relOf_iff {rel : Rel} {op : BitVec 8} :
    op = h1.extractLsb' 8 8 ∧ rel = relOf h1 h2 ↔ rel.halfwords op <+: [h1, h2, h3] := by
  have hshort {e : BitVec 1} {v : BitVec 6} {s : BitVec 1} : (op ++ e ++ v ++ s : Half) = h1 ↔
      op = h1.extractLsb' 8 8 ∧ e = h1.extractLsb' 7 1 ∧ v = h1.extractLsb' 1 6 ∧ s = h1.extractLsb' 0 1 := by
    refine (append_eq_iff (a := 15) (b := 1)).trans ?_
    rw [append_eq_extract_iff (a := 9) (b := 6), append_eq_extract_iff (a := 8) (b := 1), and_assoc, and_assoc]
  have hlong {e : BitVec 1} {v : BitVec 7} : (op ++ e ++ v : Half) = h1 ↔
      op = h1.extractLsb' 8 8 ∧ e = h1.extractLsb' 7 1 ∧ v = h1.extractLsb' 0 7 := by
    refine (append_eq_iff (a := 9) (b := 7)).trans ?_
    rw [append_eq_extract_iff (a := 8) (b := 1), and_assoc]
  have hlow {v : BitVec 15} {s : BitVec 1} : (v ++ s : Half) = h2 ↔ v = h2.extractLsb' 1 15 ∧ s = h2.extractLsb' 0 1 :=
    append_eq_iff (a := 15) (b := 1)
  unfold relOf
  obtain he | he := BitVec.eq_zero_or_eq_one (h1.extractLsb' 7 1) <;> cases rel <;>
    simp [Rel.halfwords, List.cons_prefix_cons, hshort, hlong, hlow, he, eq_append_iff (a := 1) (b := 6),
      eq_append_append_iff (a := 1) (b := 7) (c := 15)]
  all_goals tauto

/-- Format Rimm with its n (R192, R194). -/
theorem eq_immOf_iff {imm : Imm} :
    imm = immOf h1 h2 h3 ↔ imm.wf = true ∧ imm.n = nOf h1 ∧ imm.halfwords <+: [h2, h3] := by
  unfold immOf
  split_ifs with h17 h18 h19 <;> cases imm <;>
    simp [Imm.wf, Imm.n, Imm.halfwords, List.cons_prefix_cons, eq_append_iff (a := 16) (b := 16), *]
  all_goals grind
end
/-! ### The type selector in the displacement (R231) -/

theorem Dis.low_setBit0 (d : Dis) (b : BitVec 1) : (d.setBit0 b).low.extractLsb' 0 1 = b := by
  cases d <;> exact (extract_extract _ (by decide)).trans BitVec.extractLsb'_append_eq_right

theorem Dis.low_setLow (d : Dis) (b : BitVec 2) : (d.setLow b).low = b := by
  cases d <;> exact BitVec.extractLsb'_append_eq_right

theorem Dis.setBit0_setBit0 (d : Dis) (b c : BitVec 1) : (d.setBit0 b).setBit0 c = d.setBit0 c := by
  cases d with
  | short v => exact congrArg (fun x => Dis.short (x ++ c)) BitVec.extractLsb'_append_eq_left
  | long v => exact congrArg (fun x => Dis.long (x ++ c)) BitVec.extractLsb'_append_eq_left

theorem Dis.setLow_setLow (d : Dis) (b c : BitVec 2) : (d.setLow b).setLow c = d.setLow c := by
  cases d with
  | short v => exact congrArg (fun x => Dis.short (x ++ c)) BitVec.extractLsb'_append_eq_left
  | long v => exact congrArg (fun x => Dis.long (x ++ c)) BitVec.extractLsb'_append_eq_left

theorem Dis.setBit0_of_low {d : Dis} {b : BitVec 1} (h : d.low.extractLsb' 0 1 = b) : d.setBit0 b = d := by
  subst h
  cases d with
  | short v =>
    rw [Dis.low, extract_extract v (by decide)]
    exact congrArg Dis.short ((append_eq_iff (a := 12) (b := 1)).mpr ⟨rfl, rfl⟩)
  | long v =>
    rw [Dis.low, extract_extract v (by decide)]
    exact congrArg Dis.long ((append_eq_iff (a := 28) (b := 1)).mpr ⟨rfl, rfl⟩)

theorem Dis.setLow_of_low {d : Dis} {b : BitVec 2} (h : d.low = b) : d.setLow b = d := by
  subst h
  cases d with
  | short v => exact congrArg Dis.short ((append_eq_iff (a := 11) (b := 2)).mpr ⟨rfl, rfl⟩)
  | long v => exact congrArg Dis.long ((append_eq_iff (a := 27) (b := 2)).mpr ⟨rfl, rfl⟩)

theorem Dis.wfHalf_iff {d : Dis} : d.wfHalf = true ↔ d.low.extractLsb' 0 1 = 0#1 := by
  cases d with
  | short v => rw [Dis.low, extract_extract v (by decide)]; exact beq_iff_eq
  | long v => rw [Dis.low, extract_extract v (by decide)]; exact beq_iff_eq

theorem Dis.wfWord_iff {d : Dis} : d.wfWord = true ↔ d.low = 0#2 := by
  cases d <;> exact beq_iff_eq

theorem Dis.wfHalf_setBit0 (d : Dis) : (d.setBit0 0#1).wfHalf = true := by
  cases d <;> exact beq_iff_eq.mpr BitVec.extractLsb'_append_eq_right

theorem Dis.wfWord_setLow (d : Dis) : (d.setLow 0#2).wfWord = true := by
  cases d <;> exact beq_iff_eq.mpr BitVec.extractLsb'_append_eq_right

end Sys2Proof
end

section
/-! The decoder reads back what the encoder wrote (O1): for each format, the arm of the operation code is taken and finds the operands
in their fields. -/

namespace Sys2Proof

/-- Whatever halfwords begin with the encoding of the instruction, the decoder reads it from them. -/
def DecodesBack (i : Instr) : Prop := ∀ h1 h2 h3 : Half, encode i <+: [h1, h2, h3] → decode h1 h2 h3 = .ok i

/-! ### Operation codes of seven and of eight bits -/

/-- An operation code of eight bits is the one of six and the two bits below. -/
theorem opcode_of_op8 {h : Half} {op : BitVec 8} (hop : op = h.extractLsb' 8 8) :
    op.extractLsb' 2 6 = h.extractLsb' 10 6 ∧ op.extractLsb' 0 2 = h.extractLsb' 8 2 := by
  subst hop
  exact ⟨extract_extract h (by decide), extract_extract h (by decide)⟩

/-- An operation code of seven bits is the one of six and the bit below; the next bit belongs to an operand. -/
theorem opcode_of_op7 {h : Half} {op : BitVec 7} (hop : op = h.extractLsb' 9 7) :
    op.extractLsb' 1 6 = h.extractLsb' 10 6 ∧
      (op.extractLsb' 0 1 ++ 0#1 = h.extractLsb' 8 2 ∨ op.extractLsb' 0 1 ++ 1#1 = h.extractLsb' 8 2) := by
  subst hop
  refine ⟨extract_extract h (by decide), ?_⟩
  rw [append_eq_extract_iff (a := 1) (b := 1), append_eq_extract_iff (a := 1) (b := 1), extract_extract h (by decide)]
  exact (BitVec.eq_zero_or_eq_one _).imp (fun hb => ⟨rfl, hb.symm⟩) (fun hb => ⟨rfl, hb.symm⟩)

/-! ### The formats, for an instruction whose arm of the decoder is known -/

section
variable {rd rs : Reg} {ld ls : BitVec 4} {n : BitVec 5} {i : Instr}

/-- Format RR. -/
theorem decodesBack_rr {op : BitVec 6} {f : Reg → Reg → Instr} (henc : encode (f rd rs) = [packRR op rd rs])
    (harm : ∀ {h1 h2 h3 : Half}, op = h1.extractLsb' 10 6 → decode h1 h2 h3 = .ok (f (rdOf h1) (rsOf h1))) :
    DecodesBack (f rd rs) := by
  intro h1 h2 h3 hp
  rw [henc, List.cons_prefix_cons, packRR_eq_iff] at hp
  obtain ⟨⟨hop, rfl, rfl⟩, -⟩ := hp
  exact harm hop

/-- Format Rn. -/
theorem decodesBack_rn {op : BitVec 6} {f : Reg → BitVec 5 → Instr} (henc : encode (f rd n) = [packRn op rd n])
    (harm : ∀ {h1 h2 h3 : Half}, op = h1.extractLsb' 10 6 → decode h1 h2 h3 = .ok (f (rdOf h1) (nOf h1))) :
    DecodesBack (f rd n) := by
  intro h1 h2 h3 hp
  rw [henc, List.cons_prefix_cons, packRn_eq_iff] at hp
  obtain ⟨⟨hop, rfl, rfl⟩, -⟩ := hp
  exact harm hop

/-- Format LL. -/
theorem decodesBack_ll {op : BitVec 8} {f : BitVec 4 → BitVec 4 → Instr} (henc : encode (f ld ls) = [packLL op ld ls])
    (harm : ∀ {h1 h2 h3 : Half}, op.extractLsb' 2 6 = h1.extractLsb' 10 6 → op.extractLsb' 0 2 = h1.extractLsb' 8 2 →
      decode h1 h2 h3 = .ok (f (ldOf h1) (lsOf h1))) : DecodesBack (f ld ls) := by
  intro h1 h2 h3 hp
  rw [henc, List.cons_prefix_cons, packLL_eq_iff] at hp
  obtain ⟨⟨hop, rfl, rfl⟩, -⟩ := hp
  obtain ⟨hop6, hsub⟩ := opcode_of_op8 hop
  exact harm hop6 hsub

/-- Format LLext (R200). -/
theorem decodesBack_extend {hw2 : Half} {f : BitVec 4 → BitVec 4 → Instr}
    (henc : encode (f ld ls) = [packLL 0xce#8 ld ls, hw2])
    (harm : ∀ {h1 : Half}, decodeExtend h1 hw2 = .ok (f (ldOf h1) (lsOf h1))) : DecodesBack (f ld ls) := by
  intro h1 h2 h3 hp
  rw [henc, List.cons_prefix_cons, packLL_eq_iff, List.cons_prefix_cons] at hp
  obtain ⟨⟨hop, rfl, rfl⟩, rfl, -⟩ := hp
  obtain ⟨hop6, hsub⟩ := opcode_of_op8 hop
  rw [← harm, decode, ← hop6, ← hsub]
  rfl

/-- Format LR. -/
theorem decodesBack_lr {op : BitVec 7} {f : BitVec 4 → Reg → Instr} (henc : encode (f ld rs) = [packLR op ld rs])
    (harm : ∀ {h1 h2 h3 : Half}, op.extractLsb' 1 6 = h1.extractLsb' 10 6 →
      (op.extractLsb' 0 1 ++ 0#1 = h1.extractLsb' 8 2 ∨ op.extractLsb' 0 1 ++ 1#1 = h1.extractLsb' 8 2) →
      decode h1 h2 h3 = .ok (f (ldOf h1) (rsOf h1))) : DecodesBack (f ld rs) := by
  intro h1 h2 h3 hp
  rw [henc, List.cons_prefix_cons, packLR_eq_iff] at hp
  obtain ⟨⟨hop, rfl, rfl⟩, -⟩ := hp
  obtain ⟨hop6, hsub⟩ := opcode_of_op7 hop
  exact harm hop6 hsub

/-- Format Ln. -/
theorem decodesBack_ln {op : BitVec 7} {f : BitVec 4 → BitVec 5 → Instr} (henc : encode (f ld n) = [packLn op ld n])
    (harm : ∀ {h1 h2 h3 : Half}, op.extractLsb' 1 6 = h1.extractLsb' 10 6 →
      (op.extractLsb' 0 1 ++ 0#1 = h1.extractLsb' 8 2 ∨ op.extractLsb' 0 1 ++ 1#1 = h1.extractLsb' 8 2) →
      decode h1 h2 h3 = .ok (f (ldOf h1) (nOf h1))) : DecodesBack (f ld n) := by
  intro h1 h2 h3 hp
  rw [henc, List.cons_prefix_cons, packLn_eq_iff] at hp
  obtain ⟨⟨hop, rfl, rfl⟩, -⟩ := hp
  obtain ⟨hop6, hsub⟩ := opcode_of_op7 hop
  exact harm hop6 hsub

/-- Format PCadr with its condition. -/
theorem decodesBack_trap {op : BitVec 8} {k : BitVec 6} {cond : BitVec 2} {f : BitVec 6 → Instr}
    (henc : encode (f k) = [packTrap op k cond])
    (harm : ∀ {h1 h2 h3 : Half}, op.extractLsb' 2 6 = h1.extractLsb' 10 6 → op.extractLsb' 0 2 = h1.extractLsb' 8 2 →
      cond = h1.extractLsb' 0 2 → decode h1 h2 h3 = .ok (f (h1.extractLsb' 2 6))) : DecodesBack (f k) := by
  intro h1 h2 h3 hp
  rw [henc, List.cons_prefix_cons, packTrap_eq_iff] at hp
  obtain ⟨⟨hop, rfl, hcond⟩, -⟩ := hp
  obtain ⟨hop6, hsub⟩ := opcode_of_op8 hop
  exact harm hop6 hsub hcond

/-- Format PCrel. -/
theorem decodesBack_rel {op : BitVec 8} {rel : Rel} {f : Rel → Instr} (henc : encode (f rel) = rel.halfwords op)
    (harm : ∀ {h1 h2 h3 : Half}, op.extractLsb' 2 6 = h1.extractLsb' 10 6 → op.extractLsb' 0 2 = h1.extractLsb' 8 2 →
      decode h1 h2 h3 = .ok (f (relOf h1 h2))) : DecodesBack (f rel) := by
  intro h1 h2 h3 hp
  rw [henc, ← eq_relOf_iff] at hp
  obtain ⟨hop, rfl⟩ := hp
  obtain ⟨hop6, hsub⟩ := opcode_of_op8 hop
  exact harm hop6 hsub

/-- Format Rimm. -/
theorem decodesBack_rimm {op : BitVec 6} {imm : Imm} {f : Reg → Imm → Instr} (hwf : imm.wf = true)
    (henc : encode (f rd imm) = packRn op rd imm.n :: imm.halfwords)
    (harm : ∀ {h1 h2 h3 : Half}, op = h1.extractLsb' 10 6 → decode h1 h2 h3 = .ok (f (rdOf h1) (immOf h1 h2 h3))) :
    DecodesBack (f rd imm) := by
  intro h1 h2 h3 hp
  rw [henc, List.cons_prefix_cons, packRn_eq_iff] at hp
  obtain ⟨⟨hop, rfl, hn⟩, himm⟩ := hp
  rw [eq_immOf_iff.mpr ⟨hwf, hn, himm⟩]
  exact harm hop

/-- Format RRconst. -/
theorem decodesBack_rrConst {op : BitVec 6} {c : Const} {f : Reg → Reg → Const → Instr}
    (henc : encode (f rd rs c) = packRR op rd rs :: c.halfwords)
    (harm : ∀ {h1 h2 h3 : Half}, op = h1.extractLsb' 10 6 → decode h1 h2 h3 = .ok (f (rdOf h1) (rsOf h1) (constOf h2 h3))) :
    DecodesBack (f rd rs c) := by
  intro h1 h2 h3 hp
  rw [henc, List.cons_prefix_cons, packRR_eq_iff, ← eq_constOf_iff] at hp
  obtain ⟨⟨hop, rfl, rfl⟩, rfl⟩ := hp
  exact harm hop

/-- Format LRconst: CALL. -/
theorem decodesBack_call {c : Const} : DecodesBack (.call ld rs c) := by
  intro h1 h2 h3 hp
  rw [encode, List.cons_prefix_cons, packLR_eq_iff, ← eq_constOf_iff] at hp
  obtain ⟨⟨hop, rfl, rfl⟩, rfl⟩ := hp
  obtain ⟨hop6, hsub | hsub⟩ := opcode_of_op7 hop <;> rw [decode, ← hop6, ← hsub] <;> rfl

/-- Format RRlim: the index moves. -/
theorem decodesBack_rrLim {lim : Lim} {x : BitVec 3} {f : Reg → Reg → Lim → Instr}
    (henc : encode (f rd rs lim) = packRR 4#6 rd rs :: lim.halfwords x)
    (harm : ∀ {h1 h2 h3 : Half}, x = h2.extractLsb' 12 3 → decodeIndex h1 h2 h3 = f (rdOf h1) (rsOf h1) (limOf h2 h3)) :
    DecodesBack (f rd rs lim) := by
  intro h1 h2 h3 hp
  rw [henc, List.cons_prefix_cons, packRR_eq_iff, ← eq_limOf_iff] at hp
  obtain ⟨⟨hop, rfl, rfl⟩, hx, rfl⟩ := hp
  rw [← harm hx, decode, ← hop]
  rfl

/-- The SETxx instructions, of format Rn with a fixed n (R404). -/
theorem decodesBack_set {f : Reg → Instr} (henc : encode (f rd) = [packRn 46#6 rd n]) (hsr : (!rd.isSR) = true)
    (harm : ∀ {h1 : Half}, (rdOf h1).isSR = false → n = nOf h1 → decodeSet h1 = .ok (f (rdOf h1))) : DecodesBack (f rd) := by
  intro h1 h2 h3 hp
  rw [henc, List.cons_prefix_cons, packRn_eq_iff] at hp
  obtain ⟨⟨hop, rfl, hn⟩, -⟩ := hp
  rw [← harm (by simpa using hsr) hn, decode, ← hop]
  rfl

/-- FETCH, of format Rn with the SR in the place of Rd and an even n (R412). -/
theorem decodesBack_fetch {half : BitVec 4} : DecodesBack (.fetch half) := by
  intro h1 h2 h3 hp
  rw [encode, List.cons_prefix_cons, packRn_eq_iff] at hp
  obtain ⟨⟨hop, hrd, hn⟩, -⟩ := hp
  obtain ⟨hhalf, hbit⟩ := (append_eq_iff (a := 4) (b := 1)).mp hn
  rw [decode, ← hop]
  show decodeSet h1 = _
  rw [decodeSet, ← hrd, ← hbit, ← hhalf]
  rfl

/-- Format RRdis, by all that its halfwords say (R191, R231). -/
theorem decodesBack_dis {op : BitVec 6} {d : Dis} {dd : BitVec 2} (henc : encode i = packRR op rd rs :: d.halfwords dd)
    (harm : ∀ {h1 h2 h3 : Half}, op = h1.extractLsb' 10 6 → rd = rdOf h1 → rs = rsOf h1 → dd = h2.extractLsb' 12 2 →
      d = disOf h2 h3 → decode h1 h2 h3 = .ok i) : DecodesBack i := by
  intro h1 h2 h3 hp
  rw [henc, List.cons_prefix_cons, packRR_eq_iff, ← eq_disOf_iff] at hp
  obtain ⟨⟨hop, hrd, hrs⟩, hdd, hd⟩ := hp
  exact harm hop hrd hrs hdd hd

/-! ### Rows that share an operation code with another (R199 (a), (b)), and the reserved ones (R201) -/

/-- NOP is the CHK of L0 with itself. -/
theorem eq_nopWord_iff {h : Half} : h = 0x0300#16 ↔ 0#6 = h.extractLsb' 10 6 ∧ .loc 0#4 = rdOf h ∧ .loc 0#4 = rsOf h := by
  rw [← packRR_eq_iff, eq_comm]
  rfl

theorem decodesBack_chk (hwf : (Instr.chk rd rs).wf = true) : DecodesBack (.chk rd rs) := by
  intro h1 h2 h3 hp
  obtain ⟨hsr, hnop⟩ : rs.isSR = false ∧ (rd ≠ .loc 0#4 ∨ rs ≠ .loc 0#4) := by simpa [Instr.wf] using hwf
  rw [encode, List.cons_prefix_cons, packRR_eq_iff] at hp
  obtain ⟨⟨hop, rfl, rfl⟩, -⟩ := hp
  have hword : h1 ≠ 0x0300#16 := fun h => by
    obtain ⟨-, hrd, hrs⟩ := eq_nopWord_iff.mp h
    exact hnop.elim (· hrd.symm) (· hrs.symm)
  rw [decode, ← hop]
  show Except.ok (decodeCheck h1) = _
  rw [decodeCheck, if_neg hword, hsr]
  rfl

theorem decodesBack_chkz : DecodesBack (.chkz rd) := by
  intro h1 h2 h3 hp
  rw [encode, List.cons_prefix_cons, packRR_eq_iff] at hp
  obtain ⟨⟨hop, rfl, hrs⟩, -⟩ := hp
  have hword : h1 ≠ 0x0300#16 := fun h => nomatch hrs.trans (eq_nopWord_iff.mp h).2.2.symm
  rw [decode, ← hop]
  show Except.ok (decodeCheck h1) = _
  rw [decodeCheck, if_neg hword, ← hrs]
  rfl

theorem decodesBack_nop : DecodesBack .nop := by
  intro h1 h2 h3 hp
  obtain ⟨rfl, -⟩ := List.cons_prefix_cons.mp hp
  rfl

theorem decodesBack_movd (hwf : (Instr.movd rd rs).wf = true) : DecodesBack (.movd rd rs) := by
  intro h1 h2 h3 hp
  have hpc : rd.isPC = false := by simpa [Instr.wf] using hwf
  rw [encode, List.cons_prefix_cons, packRR_eq_iff] at hp
  obtain ⟨⟨hop, rfl, rfl⟩, -⟩ := hp
  rw [decode, ← hop]
  show Except.ok (decodeMovd h1) = _
  rw [decodeMovd, hpc]
  rfl

theorem decodesBack_ret : DecodesBack (.ret rs) := by
  intro h1 h2 h3 hp
  rw [encode, List.cons_prefix_cons, packRR_eq_iff] at hp
  obtain ⟨⟨hop, hrd, rfl⟩, -⟩ := hp
  rw [decode, ← hop]
  show Except.ok (decodeMovd h1) = _
  rw [decodeMovd, ← hrd]
  rfl

theorem decodesBack_reserved8C8D {operands : BitVec 9} : DecodesBack (.reserved8C8D operands) := by
  intro h1 h2 h3 hp
  rw [encode, List.cons_prefix_cons, append_eq_iff (a := 7) (b := 9)] at hp
  obtain ⟨⟨hop, rfl⟩, -⟩ := hp
  obtain ⟨hop6, hsub | hsub⟩ := opcode_of_op7 hop <;> rw [decode, ← hop6, ← hsub] <;> rfl

theorem decodesBack_reservedACAF {operands : BitVec 10} : DecodesBack (.reservedACAF operands) := by
  intro h1 h2 h3 hp
  rw [encode, List.cons_prefix_cons, append_eq_iff (a := 6) (b := 10)] at hp
  obtain ⟨⟨hop, rfl⟩, -⟩ := hp
  rw [decode, ← hop]
  rfl
end

/-! ### Every instruction -/

theorem decode_load {h1 h2 h3 : Half} (hop : 36#6 = h1.extractLsb' 10 6) : decode h1 h2 h3 = .ok (decodeLoad h1 h2 h3) := by
  rw [decode, ← hop]
  rfl

theorem decode_loadNext {h1 h2 h3 : Half} (hop : 37#6 = h1.extractLsb' 10 6) : decode h1 h2 h3 = decodeLoadNext h1 h2 h3 := by
  rw [decode, ← hop]
  rfl

theorem decode_store {h1 h2 h3 : Half} (hop : 38#6 = h1.extractLsb' 10 6) : decode h1 h2 h3 = .ok (decodeStore h1 h2 h3) := by
  rw [decode, ← hop]
  rfl

theorem decode_storeNext {h1 h2 h3 : Half} (hop : 39#6 = h1.extractLsb' 10 6) : decode h1 h2 h3 = decodeStoreNext h1 h2 h3 := by
  rw [decode, ← hop]
  rfl

theorem decodesBack_of_wf (i : Instr) (hwf : i.wf = true) : DecodesBack i := by
  cases i with
  | chk rd rs => exact decodesBack_chk hwf
  | chkz rd => exact decodesBack_chkz
  | nop => exact decodesBack_nop
  | movd rd rs => exact decodesBack_movd hwf
  | ret rs => exact decodesBack_ret
  | divu rd rs | divs rd rs | cmp rd rs | mov rd rs | add rd rs | adds rd rs | cmpb rd rs | andn rd rs | or rd rs | xor rd rs
  | subc rd rs | not rd rs | sub rd rs | subs rd rs | addc rd rs | and rd rs | neg rd rs | negs rd rs | mulu rd rs | muls rd rs
  | mul rd rs => exact decodesBack_rr rfl fun hop => by rw [decode, ← hop]; rfl
  | mask rd rs c | sum rd rs c | sums rd rs c => exact decodesBack_rrConst rfl fun hop => by rw [decode, ← hop]; rfl
  | call ld rs c => exact decodesBack_call
  | xm1 rd rs lim | xm2 rd rs lim | xm4 rd rs lim | xm8 rd rs lim | xx1 rd rs lim | xx2 rd rs lim | xx4 rd rs lim
  | xx8 rd rs lim => exact decodesBack_rrLim rfl fun hx => by rw [decodeIndex, ← hx]; rfl
  | cmpi rd imm | movi rd imm | addi rd imm | addsi rd imm | cmpbi rd imm | andni rd imm | ori rd imm | xori rd imm =>
    exact decodesBack_rimm hwf rfl fun hop => by rw [decode, ← hop]; rfl
  | shrdi ld n | sardi ld n | shldi ld n =>
    exact decodesBack_ln rfl fun hop hsub => by rw [decode, ← hop]; obtain hsub | hsub := hsub <;> rw [← hsub] <;> rfl
  | ldwR ld rs | lddR ld rs | ldwP ld rs | lddP ld rs | stwR ld rs | stdR ld rs | stwP ld rs | stdP ld rs =>
    exact decodesBack_lr rfl fun hop hsub => by rw [decode, ← hop]; obtain hsub | hsub := hsub <;> rw [← hsub] <;> rfl
  | shrd ld ls | shr ld ls | sard ld ls | sar ld ls | shld ld ls | shl ld ls | testlz ld ls | rol ld ls | fadd ld ls | faddd ld ls
  | fsub ld ls | fsubd ld ls | fmul ld ls | fmuld ld ls | fdiv ld ls | fdivd ld ls | fcmp ld ls | fcmpd ld ls | fcmpu ld ls
  | fcmpud ld ls | fcvt ld ls | fcvtd ld ls | softDo ld ls | frame ld ls =>
    exact decodesBack_ll rfl fun hop hsub => by rw [decode, ← hop, ← hsub]; rfl
  | emul ld ls | emulu ld ls | emuls ld ls | emac ld ls | emacd ld ls | emsub ld ls | emsubd ld ls | ehmac ld ls | ehmacd ld ls
  | ehcmuld ld ls | ehcmacd ld ls | ehcsumd ld ls | ehcfftd ld ls => exact decodesBack_extend rfl rfl
  | ldbsD rd rs dis | ldbuD rd rs dis | stbsD rd rs dis | stbuD rd rs dis =>
    have hsr : rd.isSR = false := by simpa [Instr.wf] using hwf
    exact decodesBack_dis rfl fun hop hrd hrs hdd hd => by
      simp [decode_load, decode_store, decodeLoad, decodeStore, ← hop, ← hrd, ← hrs, ← hdd, ← hd, hsr]
  | ldbsA rs dis | ldbuA rs dis | stbsA rs dis | stbuA rs dis =>
    exact decodesBack_dis rfl fun hop hrd hrs hdd hd => by
      simp [decode_load, decode_store, decodeLoad, decodeStore, ← hop, ← hrd, ← hrs, ← hdd, ← hd, Reg.isSR_iff]
  | ldhuD rd rs dis | ldhsD rd rs dis | sthuD rd rs dis | sthsD rd rs dis =>
    obtain ⟨hsr, hlow⟩ : rd.isSR = false ∧ dis.low.extractLsb' 0 1 = 0#1 := by simpa [Instr.wf, Dis.wfHalf_iff] using hwf
    exact decodesBack_dis rfl fun hop hrd hrs hdd hd => by
      simp [decode_load, decode_store, decodeLoad, decodeStore, ← hop, ← hrd, ← hrs, ← hdd, ← hd, hsr, Dis.low_setBit0, Dis.setBit0_setBit0,
        Dis.setBit0_of_low hlow, hlow]
  | ldhuA rs dis | ldhsA rs dis | sthuA rs dis | sthsA rs dis =>
    have hlow := Dis.wfHalf_iff.mp hwf
    exact decodesBack_dis rfl fun hop hrd hrs hdd hd => by
      simp [decode_load, decode_store, decodeLoad, decodeStore, ← hop, ← hrd, ← hrs, ← hdd, ← hd, Reg.isSR_iff, Dis.low_setBit0, Dis.setBit0_setBit0,
        Dis.setBit0_of_low hlow, hlow]
  | ldwD rd rs dis | lddD rd rs dis | ldwIOD rd rs dis | lddIOD rd rs dis | stwD rd rs dis | stdD rd rs dis | stwIOD rd rs dis | stdIOD rd rs dis =>
    obtain ⟨hsr, hlow⟩ : rd.isSR = false ∧ dis.low = 0#2 := by simpa [Instr.wf, Dis.wfWord_iff] using hwf
    exact decodesBack_dis rfl fun hop hrd hrs hdd hd => by
      simp [decode_load, decode_store, decodeLoad, decodeStore, ← hop, ← hrd, ← hrs, ← hdd, ← hd, hsr, Dis.low_setLow, Dis.setLow_setLow,
        Dis.setLow_of_low hlow, hlow]
  | ldwA rs dis | lddA rs dis | ldwIOA rs dis | lddIOA rs dis | stwA rs dis | stdA rs dis | stwIOA rs dis | stdIOA rs dis =>
    have hlow := Dis.wfWord_iff.mp hwf
    exact decodesBack_dis rfl fun hop hrd hrs hdd hd => by
      simp [decode_load, decode_store, decodeLoad, decodeStore, ← hop, ← hrd, ← hrs, ← hdd, ← hd, Reg.isSR_iff, Dis.low_setLow, Dis.setLow_setLow,
        Dis.setLow_of_low hlow, hlow]
  | ldbsN rd rs dis | ldbuN rd rs dis | stbsN rd rs dis | stbuN rd rs dis =>
    exact decodesBack_dis rfl fun hop hrd hrs hdd hd => by
      simp [decode_loadNext, decode_storeNext, decodeLoadNext, decodeStoreNext, ← hop, ← hrd, ← hrs, ← hdd, ← hd]
  | ldhuN rd rs dis | ldhsN rd rs dis | sthuN rd rs dis | sthsN rd rs dis =>
    have hlow := Dis.wfHalf_iff.mp hwf
    exact decodesBack_dis rfl fun hop hrd hrs hdd hd => by
      simp [decode_loadNext, decode_storeNext, decodeLoadNext, decodeStoreNext, ← hop, ← hrd, ← hrs, ← hdd, ← hd, Dis.low_setBit0, Dis.setBit0_setBit0,
        Dis.setBit0_of_low hlow, hlow]
  | ldwN rd rs dis | lddN rd rs dis | ldwS rd rs dis | stwN rd rs dis | stdN rd rs dis | stwS rd rs dis =>
    have hlow := Dis.wfWord_iff.mp hwf
    exact decodesBack_dis rfl fun hop hrd hrs hdd hd => by
      simp [decode_loadNext, decode_storeNext, decodeLoadNext, decodeStoreNext, ← hop, ← hrd, ← hrs, ← hdd, ← hd, Dis.low_setLow, Dis.setLow_setLow,
        Dis.setLow_of_low hlow, hlow]
  | shri rd n | sari rd n | shli rd n => exact decodesBack_rn rfl fun hop => by rw [decode, ← hop]; rfl
  | setadr rd | set1 rd | set0 rd | setle rd | setgt rd | setlt rd | setge rd | setse rd | setht rd | setst rd | sethe rd | sete rd
  | setne rd | setv rd | setnv rd | set1m rd | setlem rd | setgtm rd | setltm rd | setgem rd | setsem rd | sethtm rd | setstm rd
  | sethem rd | setem rd | setnem rd | setvm rd | setnvm rd =>
    exact decodesBack_set rfl hwf fun hsr hn => by rw [decodeSet, hsr, ← hn]; rfl
  | fetch half => exact decodesBack_fetch
  | dbv rel | dbnv rel | dbe rel | dbne rel | dbst rel | dbhe rel | dbse rel | dbht rel | dblt rel | dbge rel | dble rel | dbgt rel
  | dbr rel | bv rel | bnv rel | be rel | bne rel | bst rel | bhe rel | bse rel | bht rel | blt rel | bge rel | ble rel | bgt rel
  | br rel => exact decodesBack_rel rfl fun hop hsub => by rw [decode, ← hop, ← hsub]; rfl
  | traple k | trapgt k | traplt k | trapge k | trapse k | trapht k | trapst k | traphe k | trape k | trapne k | trapv k | trap k =>
    exact decodesBack_trap rfl fun hop hsub hcond => by
      rw [decode, ← hop, decodeTrap, ← hsub, ← hcond]; rfl
  | reserved8C8D operands => exact decodesBack_reserved8C8D
  | reservedACAF operands => exact decodesBack_reservedACAF

/-! ### Bytes (R103) -/

theorem length_encode (i : Instr) : (encode i).length = i.length ∧ i.length ≤ 3 := by
  cases i with
  | xm1 rd rs x | xm2 rd rs x | xm4 rd rs x | xm8 rd rs x | xx1 rd rs x | xx2 rd rs x | xx4 rd rs x | xx8 rd rs x
  | mask rd rs x | sum rd rs x | sums rd rs x | call ld rs x
  | cmpi rd x | movi rd x | addi rd x | addsi rd x | cmpbi rd x | andni rd x | ori rd x | xori rd x
  | ldbsD rd rs x | ldbuD rd rs x | ldhuD rd rs x | ldhsD rd rs x | ldwD rd rs x | lddD rd rs x
  | ldbsA rs x | ldbuA rs x | ldhuA rs x | ldhsA rs x | ldwA rs x | lddA rs x
  | ldwIOD rd rs x | lddIOD rd rs x | ldwIOA rs x | lddIOA rs x
  | ldbsN rd rs x | ldbuN rd rs x | ldhuN rd rs x | ldhsN rd rs x | ldwN rd rs x | lddN rd rs x | ldwS rd rs x
  | stbsD rd rs x | stbuD rd rs x | sthuD rd rs x | sthsD rd rs x | stwD rd rs x | stdD rd rs x
  | stbsA rs x | stbuA rs x | sthuA rs x | sthsA rs x | stwA rs x | stdA rs x
  | stwIOD rd rs x | stdIOD rd rs x | stwIOA rs x | stdIOA rs x
  | stbsN rd rs x | stbuN rd rs x | sthuN rd rs x | sthsN rd rs x | stwN rd rs x | stdN rd rs x | stwS rd rs x
  | dbv x | dbnv x | dbe x | dbne x | dbst x | dbhe x | dbse x | dbht x | dblt x | dbge x | dble x | dbgt x | dbr x
  | bv x | bnv x | be x | bne x | bst x | bhe x | bse x | bht x | blt x | bge x | ble x | bgt x | br x =>
    cases x <;> exact ⟨rfl, Nat.le_of_ble_eq_true rfl⟩
  | _ => exact ⟨rfl, Nat.le_of_ble_eq_true rfl⟩

theorem halfOfBytes_bytesOfHalf (h : Half) : halfOfBytes (h.extractLsb' 8 8) (h.extractLsb' 0 8) = h :=
  (append_eq_iff (a := 8) (b := 8)).mpr ⟨rfl, rfl⟩

theorem length_flatMap_bytesOfHalf (l : List Half) : (l.flatMap bytesOfHalf).length = 2 * l.length := by
  induction l with
  | nil => rfl
  | cons h l ih => rw [List.flatMap_cons, List.length_append, ih, List.length_cons, bytesOfHalf]; simp; omega

/-- Halfwords put into bytes are read back. -/
theorem prefix_halfAt {l : List Half} (hl : l.length ≤ 3) (rest : List Byte) :
    let bytes := l.flatMap bytesOfHalf ++ rest
    l <+: [halfAt bytes 0, halfAt bytes 1, halfAt bytes 2] := by
  match l, hl with
  | [], _ => exact List.nil_prefix
  | [a], _ => simp [halfAt, bytesOfHalf, halfOfBytes_bytesOfHalf]
  | [a, b], _ => simp [halfAt, bytesOfHalf, halfOfBytes_bytesOfHalf]
  | [a, b, c], _ => simp [halfAt, bytesOfHalf, halfOfBytes_bytesOfHalf]

/-- Settles O1: the halfwords of the encoding are those at the front of the bytes, and as many as the instruction is long. -/
theorem encodedInstructionsDecodeBack : Obligations.EncodedInstructionsDecodeBack := by
  intro i rest hwf
  obtain ⟨hlen, hle⟩ := length_encode i
  have hbytes : ((encode i).flatMap bytesOfHalf).length = 2 * i.length := by rw [length_flatMap_bytesOfHalf, hlen]
  have hdec := decodesBack_of_wf i hwf _ _ _ (prefix_halfAt (hlen ▸ hle) rest)
  rw [decodeBytes, hdec]
  show (if _ then _ else _) = _
  rw [if_neg (by rw [List.length_append, hbytes]; omega), ← hbytes, List.drop_left]

end Sys2Proof
end

section
/-! What the decoder reads encodes back (O2): each arm of the decoder takes every bit of its halfwords as operation code or operand, in
the format the encoder packs. -/

namespace Sys2Proof

/-- The answer is an error, or a well-formed instruction with whose encoding the halfwords begin. -/
def Rereads (h1 h2 h3 : Half) (answer : Except DecodeError Instr) : Prop :=
  ∀ i, answer = .ok i → i.wf = true ∧ encode i <+: [h1, h2, h3]

section
variable {h1 h2 h3 : Half} {k j : Nat} {i : Instr}

theorem rereads_error (e : DecodeError) : Rereads h1 h2 h3 (.error e) := fun _ h => nomatch h

theorem rereads_ok (hwf : i.wf = true) (henc : encode i <+: [h1, h2, h3]) : Rereads h1 h2 h3 (.ok i) := by
  rintro _ ⟨⟩
  exact ⟨hwf, henc⟩

/-- An instruction of one halfword. -/
theorem rereads_single {hw : Half} (hwf : i.wf = true) (henc : encode i = [hw]) (hhw : hw = h1) : Rereads h1 h2 h3 (.ok i) :=
  rereads_ok hwf (by rw [henc, hhw]; exact List.prefix_append [h1] _)

/-- An instruction with operand halfwords. -/
theorem rereads_cons {hw : Half} {rest : List Half} (hwf : i.wf = true) (henc : encode i = hw :: rest) (hhw : hw = h1)
    (hrest : rest <+: [h2, h3]) : Rereads h1 h2 h3 (.ok i) :=
  rereads_ok hwf (by rw [henc]; exact List.cons_prefix_cons.mpr ⟨hhw, hrest⟩)

/-! ### Operation codes as the decoder's arms give them -/

theorem ofNat_eq_field {h : Half} {len start : Nat} (hk : (h.extractLsb' start len).toNat = k) :
    BitVec.ofNat len k = h.extractLsb' start len := by
  rw [← hk, BitVec.ofNat_toNat, BitVec.setWidth_eq]

theorem toNat_append_eq {n m : Nat} (x : BitVec n) (y : BitVec m) : (x ++ y).toNat = x.toNat * 2 ^ m + y.toNat := by
  rw [BitVec.toNat_append, ← Nat.shiftLeft_add_eq_or_of_lt y.isLt, Nat.shiftLeft_eq]

/-- The two bits below an operation code of six. -/
theorem two_bits (x : BitVec 2) : x.toNat = 0 ∨ x.toNat = 1 ∨ x.toNat = 2 ∨ x.toNat = 3 := by omega

theorem op8_of_opcode (hop : (h1.extractLsb' 10 6).toNat = k) (hsub : (h1.extractLsb' 8 2).toNat = j) :
    BitVec.ofNat 8 (4 * k + j) = h1.extractLsb' 8 8 := by
  apply BitVec.eq_of_toNat_eq
  simp only [BitVec.extractLsb'_toNat, Nat.shiftRight_eq_div_pow, BitVec.toNat_ofNat] at *
  omega

theorem op7_of_opcode (hop : (h1.extractLsb' 10 6).toNat = k) (hsub : (h1.extractLsb' 8 2).toNat = j) :
    BitVec.ofNat 7 (2 * k + j / 2) = h1.extractLsb' 9 7 := by
  apply BitVec.eq_of_toNat_eq
  simp only [BitVec.extractLsb'_toNat, Nat.shiftRight_eq_div_pow, BitVec.toNat_ofNat] at *
  omega

/-! ### The formats: the arm of operation code `k`, and of the two bits `j` below it -/

section
variable (hop : (h1.extractLsb' 10 6).toNat = k) (hwf : i.wf = true)
include hop hwf

/-- Format RR. -/
theorem rereads_rr (henc : encode i = [packRR (BitVec.ofNat 6 k) (rdOf h1) (rsOf h1)]) : Rereads h1 h2 h3 (.ok i) :=
  rereads_single hwf henc (packRR_eq_iff.mpr ⟨ofNat_eq_field hop, rfl, rfl⟩)

/-- Format Rn. -/
theorem rereads_rn (henc : encode i = [packRn (BitVec.ofNat 6 k) (rdOf h1) (nOf h1)]) : Rereads h1 h2 h3 (.ok i) :=
  rereads_single hwf henc (packRn_eq_iff.mpr ⟨ofNat_eq_field hop, rfl, rfl⟩)

/-- Format Rimm. -/
theorem rereads_rimm (henc : encode i =
    packRn (BitVec.ofNat 6 k) (rdOf h1) (immOf h1 h2 h3).n :: (immOf h1 h2 h3).halfwords) : Rereads h1 h2 h3 (.ok i) := by
  obtain ⟨-, hn, hrest⟩ := eq_immOf_iff.mp (rfl : immOf h1 h2 h3 = _)
  exact rereads_cons hwf henc (packRn_eq_iff.mpr ⟨ofNat_eq_field hop, rfl, hn⟩) hrest

/-- Format RRconst. -/
theorem rereads_rrConst (henc : encode i = packRR (BitVec.ofNat 6 k) (rdOf h1) (rsOf h1) :: (constOf h2 h3).halfwords) :
    Rereads h1 h2 h3 (.ok i) :=
  rereads_cons hwf henc (packRR_eq_iff.mpr ⟨ofNat_eq_field hop, rfl, rfl⟩) (eq_constOf_iff.mp rfl)

/-- Format RRlim, with X-code `j`. -/
theorem rereads_rrLim (hx : (h2.extractLsb' 12 3).toNat = j)
    (henc : encode i = packRR (BitVec.ofNat 6 k) (rdOf h1) (rsOf h1) :: (limOf h2 h3).halfwords (BitVec.ofNat 3 j)) :
    Rereads h1 h2 h3 (.ok i) :=
  rereads_cons hwf henc (packRR_eq_iff.mpr ⟨ofNat_eq_field hop, rfl, rfl⟩) (eq_limOf_iff.mp ⟨ofNat_eq_field hx, rfl⟩)

/-- Format RRdis, with type bits `j`: the displacement encoded has the selector in it again (R231). -/
theorem rereads_dis {rd : Reg} {d : Dis} (hdd : (h2.extractLsb' 12 2).toNat = j) (hrd : rd = rdOf h1) (hd : d = disOf h2 h3)
    (henc : encode i = packRR (BitVec.ofNat 6 k) rd (rsOf h1) :: d.halfwords (BitVec.ofNat 2 j)) : Rereads h1 h2 h3 (.ok i) :=
  rereads_cons hwf henc (packRR_eq_iff.mpr ⟨ofNat_eq_field hop, hrd, rfl⟩) (eq_disOf_iff.mp ⟨ofNat_eq_field hdd, hd⟩)

section
variable (hsub : (h1.extractLsb' 8 2).toNat = j)
include hsub

/-- Format LL. -/
theorem rereads_ll (henc : encode i = [packLL (BitVec.ofNat 8 (4 * k + j)) (ldOf h1) (lsOf h1)]) : Rereads h1 h2 h3 (.ok i) :=
  rereads_single hwf henc (packLL_eq_iff.mpr ⟨op8_of_opcode hop hsub, rfl, rfl⟩)

/-- Format LLext, with extension code `x`. -/
theorem rereads_extend {x : Nat} (hx : h2.toNat = x)
    (henc : encode i = [packLL (BitVec.ofNat 8 (4 * k + j)) (ldOf h1) (lsOf h1), BitVec.ofNat 16 x]) :
    Rereads h1 h2 h3 (.ok i) := by
  refine rereads_cons hwf henc (packLL_eq_iff.mpr ⟨op8_of_opcode hop hsub, rfl, rfl⟩) ?_
  rw [← hx, BitVec.ofNat_toNat, BitVec.setWidth_eq]
  exact List.prefix_append [h2] _

/-- Format LR. -/
theorem rereads_lr (henc : encode i = [packLR (BitVec.ofNat 7 (2 * k + j / 2)) (ldOf h1) (rsOf h1)]) :
    Rereads h1 h2 h3 (.ok i) :=
  rereads_single hwf henc (packLR_eq_iff.mpr ⟨op7_of_opcode hop hsub, rfl, rfl⟩)

/-- Format LRconst. -/
theorem rereads_lrConst
    (henc : encode i = packLR (BitVec.ofNat 7 (2 * k + j / 2)) (ldOf h1) (rsOf h1) :: (constOf h2 h3).halfwords) :
    Rereads h1 h2 h3 (.ok i) :=
  rereads_cons hwf henc (packLR_eq_iff.mpr ⟨op7_of_opcode hop hsub, rfl, rfl⟩) (eq_constOf_iff.mp rfl)

/-- Format Ln. -/
theorem rereads_ln (henc : encode i = [packLn (BitVec.ofNat 7 (2 * k + j / 2)) (ldOf h1) (nOf h1)]) :
    Rereads h1 h2 h3 (.ok i) :=
  rereads_single hwf henc (packLn_eq_iff.mpr ⟨op7_of_opcode hop hsub, rfl, rfl⟩)

/-- Format PCrel. -/
theorem rereads_rel (henc : encode i = (relOf h1 h2).halfwords (BitVec.ofNat 8 (4 * k + j))) : Rereads h1 h2 h3 (.ok i) :=
  rereads_ok hwf (henc ▸ eq_relOf_iff.mp ⟨op8_of_opcode hop hsub, rfl⟩)

/-- Format PCadr, with condition bits `c`. -/
theorem rereads_trap {c : Nat} (hc : (h1.extractLsb' 0 2).toNat = c)
    (henc : encode i = [packTrap (BitVec.ofNat 8 (4 * k + j)) (h1.extractLsb' 2 6) (BitVec.ofNat 2 c)]) :
    Rereads h1 h2 h3 (.ok i) :=
  rereads_single hwf henc (packTrap_eq_iff.mpr ⟨op8_of_opcode hop hsub, rfl, ofNat_eq_field hc⟩)
end
end

/-! ### The operation codes with rows of their own -/

/-- Opcodes 00..03. -/
theorem rereads_check (hop : (h1.extractLsb' 10 6).toNat = 0) : Rereads h1 h2 h3 (.ok (decodeCheck h1)) := by
  unfold decodeCheck
  split_ifs with hnop hsr
  case pos => exact rereads_single rfl rfl hnop.symm
  case pos => exact rereads_single rfl rfl (packRR_eq_iff.mpr ⟨ofNat_eq_field hop, rfl, (Reg.isSR_iff.mp hsr).symm⟩)
  case neg =>
    refine rereads_rr hop ?_ rfl
    have hne : .loc 0#4 = rdOf h1 → .loc 0#4 ≠ rsOf h1 := fun hrd hrs =>
      hnop (eq_nopWord_iff.mpr ⟨ofNat_eq_field hop, hrd, hrs⟩)
    simpa [Instr.wf, hsr, imp_iff_not_or, @eq_comm _ (Reg.loc 0#4)] using hne

/-- Opcodes 04..07. -/
theorem rereads_movd (hop : (h1.extractLsb' 10 6).toNat = 1) : Rereads h1 h2 h3 (.ok (decodeMovd h1)) := by
  unfold decodeMovd
  split_ifs with hpc
  case pos => exact rereads_single rfl rfl (packRR_eq_iff.mpr ⟨ofNat_eq_field hop, (Reg.isPC_iff.mp hpc).symm, rfl⟩)
  case neg => exact rereads_rr hop (by simp [Instr.wf, hpc]) rfl

/-- Opcodes 10..13, by the X-code. -/
theorem rereads_index (hop : (h1.extractLsb' 10 6).toNat = 4) : Rereads h1 h2 h3 (.ok (decodeIndex h1 h2 h3)) := by
  have hlt := (h2.extractLsb' 12 3).isLt
  unfold decodeIndex
  split
  case h_1 hx | h_2 hx | h_3 hx | h_4 hx | h_5 hx | h_6 hx | h_7 hx => exact rereads_rrLim hop rfl hx rfl
  case h_8 =>
    have hx : (h2.extractLsb' 12 3).toNat = 7 := by grind
    exact rereads_rrLim hop rfl hx rfl

/-- Displacement or absolute mode: the SR in the place of Rd selects (R231). -/
theorem rereads_mode {a d : Instr} {e : Dis} (hop : (h1.extractLsb' 10 6).toNat = k) (hdd : (h2.extractLsb' 12 2).toNat = j)
    (he : e = disOf h2 h3) (hawf : a.wf = true) (hdwf : d.wf = !(rdOf h1).isSR)
    (ha : encode a = packRR (BitVec.ofNat 6 k) .sr (rsOf h1) :: e.halfwords (BitVec.ofNat 2 j))
    (hd : encode d = packRR (BitVec.ofNat 6 k) (rdOf h1) (rsOf h1) :: e.halfwords (BitVec.ofNat 2 j)) :
    Rereads h1 h2 h3 (.ok (if (rdOf h1).isSR then a else d)) := by
  split_ifs with hsr
  case pos => exact rereads_dis hop hawf hdd (Reg.isSR_iff.mp hsr).symm he ha
  case neg => exact rereads_dis hop (by simp [hdwf, hsr]) hdd rfl he hd

section
variable {d : Dis}

/-- The selector of a halfword type put back. -/
theorem reselect_half {b : BitVec 1} (h : d.low.extractLsb' 0 1 = b) : (d.setBit0 0#1).setBit0 b = d := by
  rw [Dis.setBit0_setBit0, Dis.setBit0_of_low h]

/-- The selector of a word type put back. -/
theorem reselect_word (h : d.low.toNat = k) : (d.setLow 0#2).setLow (BitVec.ofNat 2 k) = d := by
  rw [Dis.setLow_setLow, Dis.setLow_of_low]
  rw [← h, BitVec.ofNat_toNat, BitVec.setWidth_eq]

theorem wf_half {b : Bool} : (b && (d.setBit0 0#1).wfHalf) = b := by rw [Dis.wfHalf_setBit0, Bool.and_true]

theorem wf_word {b : Bool} : (b && (d.setLow 0#2).wfWord) = b := by rw [Dis.wfWord_setLow, Bool.and_true]
end

/-- Opcodes 90..93 and 98..9B: the rows of Loads and Stores in the displacement, absolute and I/O modes. -/
theorem rereads_loadStore {row : Half → Half → Half → Instr} (hrow : k = 36 ∧ row = decodeLoad ∨ k = 38 ∧ row = decodeStore)
    (hop : (h1.extractLsb' 10 6).toNat = k) : Rereads h1 h2 h3 (.ok (row h1 h2 h3)) := by
  obtain ⟨rfl, rfl⟩ | ⟨rfl, rfl⟩ := hrow
  all_goals
    obtain hdd | hdd | hdd | hdd := two_bits (h2.extractLsb' 12 2) <;> simp only [decodeLoad, decodeStore, hdd]
    · exact rereads_mode hop hdd rfl rfl rfl rfl rfl
    · exact rereads_mode hop hdd rfl rfl rfl rfl rfl
    · obtain hb | hb := BitVec.eq_zero_or_eq_one ((disOf h2 h3).low.extractLsb' 0 1)
      · simp only [hb]
        exact rereads_mode hop hdd (reselect_half hb) (Dis.wfHalf_setBit0 _) wf_half rfl rfl
      · simp only [hb]
        exact rereads_mode hop hdd (reselect_half hb) (Dis.wfHalf_setBit0 _) wf_half rfl rfl
    · obtain hw | hw | hw | hw := two_bits (disOf h2 h3).low <;> simp only [hw] <;>
        exact rereads_mode hop hdd (reselect_word hw) (Dis.wfWord_setLow _) wf_word rfl rfl

/-- Opcodes 94..97 and 9C..9F: the rows of Loads and Stores in the next-address and stack modes. -/
theorem rereads_loadStoreNext {row : Half → Half → Half → Except DecodeError Instr}
    (hrow : k = 37 ∧ row = decodeLoadNext ∨ k = 39 ∧ row = decodeStoreNext) (hop : (h1.extractLsb' 10 6).toNat = k) :
    Rereads h1 h2 h3 (row h1 h2 h3) := by
  obtain ⟨rfl, rfl⟩ | ⟨rfl, rfl⟩ := hrow
  all_goals
    obtain hdd | hdd | hdd | hdd := two_bits (h2.extractLsb' 12 2) <;> simp only [decodeLoadNext, decodeStoreNext, hdd]
    · exact rereads_dis hop rfl hdd rfl rfl rfl
    · exact rereads_dis hop rfl hdd rfl rfl rfl
    · obtain hb | hb := BitVec.eq_zero_or_eq_one ((disOf h2 h3).low.extractLsb' 0 1)
      · simp only [hb]
        exact rereads_dis hop (Dis.wfHalf_setBit0 _) hdd rfl (reselect_half hb) rfl
      · simp only [hb]
        exact rereads_dis hop (Dis.wfHalf_setBit0 _) hdd rfl (reselect_half hb) rfl
    · obtain hw | hw | hw | hw := two_bits (disOf h2 h3).low <;> simp only [hw]
      · exact rereads_dis hop (Dis.wfWord_setLow _) hdd rfl (reselect_word hw) rfl
      · exact rereads_dis hop (Dis.wfWord_setLow _) hdd rfl (reselect_word hw) rfl
      · exact rereads_error _
      · exact rereads_dis hop (Dis.wfWord_setLow _) hdd rfl (reselect_word hw) rfl

/-- Opcodes B8..BB: SETADR and SETxx by n, FETCH where Rd denotes the SR. -/
theorem rereads_set (hop : (h1.extractLsb' 10 6).toNat = 46) : Rereads h1 h2 h3 (decodeSet h1) := by
  simp only [decodeSet]
  split_ifs with hsr heven
  case pos =>
    refine rereads_single rfl rfl (packRn_eq_iff.mpr ⟨ofNat_eq_field hop, (Reg.isSR_iff.mp hsr).symm, ?_⟩)
    exact (append_eq_iff (a := 4) (b := 1)).mpr ⟨rfl, heven.symm⟩
  case neg => exact rereads_error _
  case neg =>
    have hset {n : Nat} {i : Instr} (hn : (nOf h1).toNat = n) (hwf : i.wf = !(rdOf h1).isSR)
        (henc : encode i = [packRn 46#6 (rdOf h1) (BitVec.ofNat 5 n)]) : Rereads h1 h2 h3 (.ok i) := by
      refine rereads_rn hop (by rw [hwf]; simpa using hsr) (henc.trans ?_)
      rw [← hn, BitVec.ofNat_toNat, BitVec.setWidth_eq]
    split
    case h_29 => exact rereads_error _
    all_goals exact hset ‹_› rfl rfl

/-- Opcode CE: the Extended DSP instructions by the second halfword. -/
theorem rereads_dsp (hop : (h1.extractLsb' 10 6).toNat = 51) (hsub : (h1.extractLsb' 8 2).toNat = 2) :
    Rereads h1 h2 h3 (decodeExtend h1 h2) := by
  unfold decodeExtend
  split
  case h_14 => exact rereads_error _
  all_goals exact rereads_extend hop rfl hsub ‹_› rfl

/-- Opcodes FD..FF: the Trap instructions by their condition. -/
theorem rereads_traps (hop : (h1.extractLsb' 10 6).toNat = 63) (hsub : (h1.extractLsb' 8 2).toNat ≠ 0) :
    Rereads h1 h2 h3 (.ok (decodeTrap h1)) := by
  have hcond : (h1.extractLsb' 8 2 ++ h1.extractLsb' 0 2).toNat = 4 * (h1.extractLsb' 8 2).toNat + (h1.extractLsb' 0 2).toNat := by
    rw [toNat_append_eq]
    omega
  obtain hj | hj | hj | hj := two_bits (h1.extractLsb' 8 2)
  · exact absurd hj hsub
  all_goals
    obtain hc | hc | hc | hc := two_bits (h1.extractLsb' 0 2) <;> rw [hj, hc] at hcond <;> simp only [decodeTrap, hcond] <;>
      exact rereads_trap hop rfl hj hc rfl

/-! ### Every operation code -/

/-- By the operation code, then by the two bits below it where the code leaves them open. -/
theorem rereads_decode (h1 h2 h3 : Half) : Rereads h1 h2 h3 (decode h1 h2 h3) := by
  have hlt := (h1.extractLsb' 10 6).isLt
  have hsub := two_bits (h1.extractLsb' 8 2)
  unfold decode
  split
  case h_1 hop => exact rereads_check hop
  case h_2 hop => exact rereads_movd hop
  case h_3 hop | h_4 hop | h_9 hop | h_10 hop | h_11 hop | h_12 hop | h_13 hop | h_14 hop | h_15 hop | h_16 hop | h_17 hop
      | h_18 hop | h_19 hop | h_20 hop | h_21 hop | h_22 hop | h_23 hop | h_24 hop | h_45 hop | h_46 hop | h_48 hop =>
    exact rereads_rr hop rfl rfl
  case h_5 hop => exact rereads_index hop
  case h_6 hop | h_7 hop | h_8 hop => exact rereads_rrConst hop rfl rfl
  case h_25 hop | h_26 hop | h_27 hop | h_28 hop | h_29 hop | h_30 hop | h_31 hop | h_32 hop =>
    exact rereads_rimm hop (eq_immOf_iff.mp rfl).1 rfl
  case h_33 hop | h_34 hop | h_35 hop =>
    obtain hsub | hsub | hsub | hsub := hsub <;> rw [hsub]
    · exact rereads_ln hop rfl hsub rfl
    · exact rereads_ln hop rfl hsub rfl
    · exact rereads_ll hop rfl hsub rfl
    · exact rereads_ll hop rfl hsub rfl
  case h_36 hop =>
    obtain hsub | hsub | hsub | hsub := hsub <;> rw [hsub]
    · exact rereads_single rfl rfl ((append_eq_iff (a := 7) (b := 9)).mpr ⟨op7_of_opcode hop hsub, rfl⟩)
    · exact rereads_single rfl rfl ((append_eq_iff (a := 7) (b := 9)).mpr ⟨op7_of_opcode hop hsub, rfl⟩)
    · exact rereads_ll hop rfl hsub rfl
    · exact rereads_ll hop rfl hsub rfl
  case h_37 hop => exact rereads_loadStore (.inl ⟨rfl, rfl⟩) hop
  case h_38 hop => exact rereads_loadStoreNext (.inl ⟨rfl, rfl⟩) hop
  case h_39 hop => exact rereads_loadStore (.inr ⟨rfl, rfl⟩) hop
  case h_40 hop => exact rereads_loadStoreNext (.inr ⟨rfl, rfl⟩) hop
  case h_41 hop | h_42 hop | h_43 hop => exact rereads_rn hop rfl rfl
  case h_44 hop => exact rereads_single rfl rfl ((append_eq_iff (a := 6) (b := 10)).mpr ⟨ofNat_eq_field hop, rfl⟩)
  case h_47 hop => exact rereads_set hop
  case h_49 hop | h_50 hop | h_51 hop =>
    obtain hsub | hsub | hsub | hsub := hsub <;> rw [hsub] <;> exact rereads_ll hop rfl hsub rfl
  case h_52 hop =>
    obtain hsub | hsub | hsub | hsub := hsub <;> rw [hsub]
    · exact rereads_ll hop rfl hsub rfl
    · exact rereads_ll hop rfl hsub rfl
    · exact rereads_dsp hop hsub
    · exact rereads_ll hop rfl hsub rfl
  case h_53 hop | h_54 hop | h_55 hop | h_56 hop =>
    obtain hsub | hsub | hsub | hsub := hsub <;> rw [hsub] <;> exact rereads_lr hop rfl hsub rfl
  case h_57 hop | h_58 hop | h_59 hop | h_61 hop | h_62 hop | h_63 hop =>
    obtain hsub | hsub | hsub | hsub := hsub <;> rw [hsub] <;> exact rereads_rel hop rfl hsub rfl
  case h_60 hop =>
    obtain hsub | hsub | hsub | hsub := hsub <;> rw [hsub]
    · exact rereads_rel hop rfl hsub rfl
    · exact rereads_ll hop rfl hsub rfl
    · exact rereads_lrConst hop rfl hsub rfl
    · exact rereads_lrConst hop rfl hsub rfl
  case h_64 =>
    have hop : (h1.extractLsb' 10 6).toNat = 63 := by grind
    obtain hsub | hsub | hsub | hsub := hsub <;> rw [hsub]
    · exact rereads_rel hop rfl hsub rfl
    all_goals exact rereads_traps hop (by omega)

end

/-- Settles O2: each arm of the decoder takes every bit of the halfwords it reads, and the encoder puts each back in its place. -/
theorem decodedInstructionsEncodeBack : Obligations.DecodedInstructionsEncodeBack := by
  intro h1 h2 h3 i h
  obtain ⟨hwf, hprefix⟩ := rereads_decode h1 h2 h3 i h
  exact ⟨hwf, (length_encode i).1 ▸ List.prefix_iff_eq_take.mp hprefix⟩

end Sys2Proof
end

section
/-! What the loads leave (O23 to O25): every address mode has its access made ready, and each shape of load then places what it reads. -/

namespace Sys2Proof.Machine

/-! ### The bytes of a value -/

/-- The bytes of a word, the most significant one first. -/
theorem extract_fourBytes (b0 b1 b2 b3 : Byte) :
    (b0 ++ b1 ++ b2 ++ b3 : Word).extractLsb' 24 8 = b0 ∧ (b0 ++ b1 ++ b2 ++ b3 : Word).extractLsb' 16 8 = b1 ∧
      (b0 ++ b1 ++ b2 ++ b3 : Word).extractLsb' 8 8 = b2 ∧ (b0 ++ b1 ++ b2 ++ b3 : Word).extractLsb' 0 8 = b3 := by
  refine ⟨?_, ?_, ?_, ?_⟩ <;> apply BitVec.eq_of_toNat_eq <;>
    simp only [BitVec.extractLsb'_toNat, toNat_append_eq, Nat.shiftRight_eq_div_pow] <;> omega

/-- The halfwords of a word. -/
theorem extract_twoHalves (b0 b1 b2 b3 : Byte) :
    (b0 ++ b1 ++ b2 ++ b3 : Word).extractLsb' 16 16 = b0 ++ b1 ∧ (b0 ++ b1 ++ b2 ++ b3 : Word).extractLsb' 0 16 = b2 ++ b3 := by
  refine ⟨?_, ?_⟩ <;> apply BitVec.eq_of_toNat_eq <;>
    simp only [BitVec.extractLsb'_toNat, toNat_append_eq, Nat.shiftRight_eq_div_pow] <;> omega

/-- An address by its word and its place in it (R104). -/
theorem eq_alignWord_add (a : Word) : a = alignWord a + BitVec.ofNat 32 (a.toNat % 4) := by
  apply BitVec.eq_of_toNat_eq
  rw [BitVec.toNat_add, alignWord_toNat, BitVec.toNat_ofNat]
  omega

/-- A halfword's address by its word and its place in it (R104). -/
theorem alignHalf_eq_alignWord_add (a : Word) : alignHalf a = alignWord a + BitVec.ofNat 32 (2 * (a.toNat / 2 % 2)) := by
  apply BitVec.eq_of_toNat_eq
  rw [alignHalf_toNat, BitVec.toNat_add, alignWord_toNat, BitVec.toNat_ofNat]
  omega

/-- The byte read is a byte of the word read (R103). -/
theorem readByte_of_word (s : State) (r : Region) (a : Word) :
    s.readByte r a = (s.readWord r a).extractLsb' (24 - 8 * (a.toNat % 4)) 8 := by
  obtain ⟨h0, h1, h2, h3⟩ := extract_fourBytes (s.readByte r (alignWord a)) (s.readByte r (alignWord a + 1#32))
    (s.readByte r (alignWord a + 2#32)) (s.readByte r (alignWord a + 3#32))
  have ha := eq_alignWord_add a
  have hj : a.toNat % 4 = 0 ∨ a.toNat % 4 = 1 ∨ a.toNat % 4 = 2 ∨ a.toNat % 4 = 3 := by omega
  rcases hj with hj | hj | hj | hj <;> rw [hj] at ha ⊢
  · exact (congrArg _ (ha.trans (BitVec.add_zero _))).trans h0.symm
  · exact (congrArg _ ha).trans h1.symm
  · exact (congrArg _ ha).trans h2.symm
  · exact (congrArg _ ha).trans h3.symm

/-- The halfword read is a halfword of the word read (R103). -/
theorem readHalf_of_word (s : State) (r : Region) (a : Word) :
    s.readHalf r a = (s.readWord r a).extractLsb' (16 - 16 * (a.toNat / 2 % 2)) 16 := by
  obtain ⟨h0, h1⟩ := extract_twoHalves (s.readByte r (alignWord a)) (s.readByte r (alignWord a + 1#32))
    (s.readByte r (alignWord a + 2#32)) (s.readByte r (alignWord a + 3#32))
  have ha := alignHalf_eq_alignWord_add a
  have hj : a.toNat / 2 % 2 = 0 ∨ a.toNat / 2 % 2 = 1 := by omega
  rw [State.readHalf]
  rcases hj with hj | hj <;> rw [hj] at ha ⊢ <;> rw [ha]
  · rw [Nat.mul_zero, BitVec.add_zero]
    exact h0.symm
  · rw [BitVec.add_assoc]
    exact h1.symm

/-- The data loaded, by the bytes of its type (R235). -/
theorem extracts (r : Region) (a : Word) (s : State) : Extracts r a s where
  byteSigned := BitVec.toInt_signExtend_of_le (by decide)
  byteUnsigned := BitVec.toNat_setWidth_of_le (by decide)
  halfSigned := BitVec.toInt_signExtend_of_le (by decide)
  halfUnsigned := by
    rw [State.loadValue, BitVec.toNat_setWidth_of_le (by decide), State.readHalf, toNat_append_eq]
    omega
  word := by
    rw [State.loadValue, State.readWord, toNat_append_eq, toNat_append_eq, toNat_append_eq]
    omega
  containing := ⟨readByte_of_word s r a, readHalf_of_word s r a⟩

/-! ### The address modes update no PC and no SR -/

section
variable {rd : Reg} {ld : BitVec 4} {dis : Dis} {s : State} {size : Word}

theorem plain_displacement : (displacementAccess rd dis s).Plain := fun _ _ h => nomatch h

theorem plain_absolute : (absoluteAccess dis).Plain := fun _ _ h => nomatch h

theorem plain_register : (registerAccess ld s).Plain := fun _ _ h => nomatch h

theorem plain_next (hp : rd.isPC = false) (hs : rd.isSR = false) : (nextAccess rd dis s).Plain := by
  rintro _ _ ⟨⟩
  exact place_plain s hp hs

theorem plain_post : (postAccess size ld s).Plain := by
  rintro _ _ ⟨⟩
  exact place_plain s rfl rfl
end

/-! ### The shapes of loads -/

namespace Ready
variable {len : Nat} {fields : List Reg} {rs : Reg} {check : Option Result} {access : State → Access} {a : Access} {s : State}

/-- A load. -/
theorem loadsWord (h : Ready len fields rs check access a s) (hpl : a.Plain) (hr : Loadable rs) (ty : DataType) (i : Instr)
    (hi : exec i s = loadOp len ty fields rs check access s) (hlen : i.length = len) :
    LoadsWord i rs (s.loadValue ty a.region a.addr) a.update s :=
  loadOp_loads hi hlen h.usable h.passes hr h.accesses hpl h.nonzero rfl

/-- A double-word load. -/
theorem loadsPair {q : Place} (h : Ready len fields rs check access a s) (hpl : a.Plain) (hr : LoadablePair rs)
    (hq : nextPlace rs s = some q) (i : Instr) (hi : exec i s = loadDoubleOp len fields rs check access s)
    (hlen : i.length = len) : LoadsPair i rs q a.region a.addr a.update s :=
  loadDoubleOp_loads hi hlen h.usable h.passes hr hq h.accesses hpl h.nonzero
end Ready

/-- Settles O23: .D, .A and .R are ready, and the shape of a load places what the type reads there. -/
theorem loadResults : Obligations.LoadResults := by
  intro rd rs ld dis s hr
  refine ⟨?displacement, ?absolute, ?register, fun r a => extracts r a s⟩
  case displacement =>
    intro b a r hu hb
    have h := (ready_displacement hu hb).loadsWord plain_displacement hr
    exact ⟨h .bs (.ldbsD rd rs dis) rfl rfl, h .bu (.ldbuD rd rs dis) rfl rfl, h .hu (.ldhuD rd rs dis) rfl rfl,
      h .hs (.ldhsD rd rs dis) rfl rfl, h .w (.ldwD rd rs dis) rfl rfl⟩
  case absolute =>
    intro e hw
    have h := (ready_absolute (dis := dis) hw).loadsWord plain_absolute hr
    exact ⟨h .bs (.ldbsA rs dis) rfl rfl, h .bu (.ldbuA rs dis) rfl rfl, h .hu (.ldhuA rs dis) rfl rfl,
      h .hs (.ldhsA rs dis) rfl rfl, h .w (.ldwA rs dis) rfl rfl⟩
  case register =>
    intro e hu hb
    exact (ready_register hu hb).loadsWord plain_register hr .w (.ldwR ld rs) rfl rfl

/-! ### The stack load -/

/-- What a stack read gives after the address register's update: above SP that register may be the one read (R118). -/
theorem stackRead_updated {rd : Reg} {dis : Dis} {s : State} (hp : rd.isPC = false) (hs : rd.isSR = false) (b : Word) :
    (s.opened.updateAddress (nextAccess rd dis s)).stackRead b =
      if b.toNat < s.sp.toNat then s.readWord (regionOf b) b
      else if place rd s = .loc (b.extractLsb' 2 6) then source dis.length rd s + disValue dis
      else s.getLocal (b.extractLsb' 2 6) := by
  rw [State.stackRead, State.updateAddress_sp, State.opened_sp]
  split_ifs with hbelow hplace
  · exact readWord_congr (by simp) (by simp) (by simp) _ _
  · have hheld := held_updateAddress (plain_next (dis := dis) (s := s) hp hs) s.opened rfl
    rw [hplace] at hheld
    exact hheld
  · have hkept := (frame_opened s).trans (frame_updateAddress s.opened (nextAccess rd dis s)) (by simp)
    exact hkept.registers (.loc (b.extractLsb' 2 6)) (by simp) (by simp) (by simpa [updatedPlaces, nextAccess] using Ne.symm hplace)

/-- LDW.S. -/
theorem ldwS_loads {rd rs : Reg} {dis : Dis} {s : State}
    (h : Ready dis.length [rd] rs (addressGuard rd) (nextAccess rd dis) (nextAccess rd dis s) s)
    (hpl : (nextAccess rd dis s).Plain) (hr : Loadable rs) :
    LoadsWord (.ldwS rd rs dis) rs
      ((s.opened.updateAddress (nextAccess rd dis s)).stackRead (source dis.length rd s))
      (nextAccess rd dis s).update s := by
  obtain ⟨hp, hs⟩ := hr.place_ne s
  refine loads_retire (len := dis.length) ?_ rfl (busFrame_noteStackRead _ (source dis.length rd s)) hp hs hpl
  show execLdwS rd rs dis s = _
  rw [execLdwS, windowGuard_none (dst := none) h.usable, h.passes, loadGuard_none hr]
  simp only [guarded, andThen, h.accesses, h.nonzero, Bool.false_eq_true, if_false]
  rfl

/-- Settles O24: .N, .S and .P are ready; the stack load reads what the address update left. -/
theorem updatingLoadResults : Obligations.UpdatingLoadResults := by
  intro rd rs ld dis s hr
  refine ⟨?next, fun hu hb => (ready_post 4#32 hu hb).loadsWord plain_post hr .w (.ldwP ld rs) rfl rfl⟩
  intro b hu hp hs hb
  have hready := ready_next hu hp hs hb
  have hpl : (nextAccess rd dis s).Plain := plain_next hp hs
  have h := hready.loadsWord hpl hr
  exact ⟨h .bs (.ldbsN rd rs dis) rfl rfl, h .bu (.ldbuN rd rs dis) rfl rfl, h .hu (.ldhuN rd rs dis) rfl rfl,
    h .hs (.ldhsN rd rs dis) rfl rfl, h .w (.ldwN rd rs dis) rfl rfl, stackRead_updated hp hs b ▸ ldwS_loads hready hpl hr⟩

/-- Settles O25: every mode of LDD is ready. -/
theorem doubleLoadResults : Obligations.DoubleLoadResults := by
  intro rd rs ld dis q s hr hq
  refine ⟨?address, ?absolute, ?register⟩
  case address =>
    intro b hu hb
    exact ⟨(ready_displacement hu hb).loadsPair plain_displacement hr hq (.lddD rd rs dis) rfl rfl,
      fun hp hs => (ready_next hu hp hs hb).loadsPair (plain_next hp hs) hr hq (.lddN rd rs dis) rfl rfl⟩
  case absolute =>
    intro a hw
    exact (ready_absolute hw).loadsPair plain_absolute hr hq (.lddA rs dis) rfl rfl
  case register =>
    intro b hu hb
    exact ⟨(ready_register hu hb).loadsPair plain_register hr hq (.lddR ld rs) rfl rfl,
      (ready_post 8#32 hu hb).loadsPair plain_post hr hq (.lddP ld rs) rfl rfl⟩

end Sys2Proof.Machine
end

section
/-! What the I/O accesses and the stores leave (O26 to O29): the second register of a double-word store as the address update leaves it,
then the shapes of I/O accesses and stores at every address mode. -/

namespace Sys2Proof.Machine

/-! ### The register after Rs -/

section
variable {rs : Reg} {regs : List Reg} {p q : Place} {s : State}

/-- No register is followed by the PC. -/
theorem nextPlace_ne_pc (hq : nextPlace rs s = some q) : q ≠ .pc := by
  cases rs with
  | loc c =>
    obtain rfl := Option.some.inj hq
    exact Place.noConfusion
  | glob c =>
    have hall : ∀ c : BitVec 4, c ≠ 15#4 → globalPlace (c + 1#4) ≠ .pc := by decide
    rw [nextPlace] at hq
    split_ifs at hq with hlast
    obtain rfl := Option.some.inj hq
    exact hall c hlast

/-- The SR follows a global register, so it is named with the H window closed only. -/
theorem window_of_next_sr (hu : Usable regs s) (hr : rs ∈ regs) (hq : nextPlace rs s = some .sr) : s.window = false := by
  cases rs with
  | loc c => exact Place.noConfusion (Option.some.inj hq)
  | glob c => exact Bool.eq_false_iff.mpr fun hw => Bool.noConfusion (hu hw _ hr)

/-- The register after a usable one reads the same after the start of the instruction. -/
theorem get_opened_next (len : Nat) (hu : Usable regs s) (hr : rs ∈ regs) (hq : nextPlace rs s = some q) :
    s.opened.get len q = s.get len q := by
  by_cases hsr : q = .sr
  · subst hsr
    exact setH_of_not_srH (window_of_next_sr hu hr hq)
  · exact get_opened s len hsr

theorem get_eq_held (len : Nat) (hq : q ≠ .pc) : s.get len q = s.held q := by
  cases q with
  | pc => exact absurd rfl hq
  | sr | fer | gpr i | loc i => rfl

/-- What a place reads after a result was placed. -/
theorem get_put (len : Nat) (v : Word) (hpc : p ≠ .pc) (hsr : p ≠ .sr) (hq : q ≠ .pc) :
    (s.put p v).get len q = if p = q then v else s.get len q := by
  rw [get_eq_held len hq, get_eq_held len hq]
  split_ifs with hpq
  · exact hpq ▸ held_put_same s p v hpc hsr
  · exact held_put_other s p q v (Ne.symm hpq)

/-- The register after Rs as the address update leaves it (R238). -/
theorem get_updateAddress_next {a : Access} {w : Word} (len : Nat) (hpl : a.Plain) (hup : a.update = some (p, w))
    (hq : nextPlace rs s = some q) : (s.updateAddress a).get len q = if p = q then w else s.get len q := by
  rw [State.updateAddress, hup]
  exact get_put len w (hpl p w hup).1 (hpl p w hup).2 (nextPlace_ne_pc hq)
end

/-! ### The shapes of I/O accesses and stores -/

namespace Ready
variable {len : Nat} {fields : List Reg} {rs : Reg} {check : Option Result} {access : State → Access} {a : Access} {s : State}

/-- An I/O load. -/
theorem ioLoads (h : Ready len fields rs check access a s) (hr : Loadable rs) (i : Instr)
    (hi : exec i s = ioLoadOp len fields rs access s) :
    ∃ t, exec i s = .next t ∧ IoDone [place rs s] [.read (alignWord a.addr)] len s t ∧
      t.held (place rs s) = s.ioReadValue a.addr :=
  ioLoadOp_done hi h.usable hr h.accesses h.nonzero

/-- An I/O load of two words. -/
theorem ioLoadsPair {q : Place} (h : Ready len fields rs check access a s) (hr : LoadablePair rs) (hq : nextPlace rs s = some q)
    (i : Instr) (hi : exec i s = ioLoadDoubleOp len fields rs access s) :
    ∃ t, exec i s = .next t ∧
      IoDone [place rs s, q] [.read (alignWord (a.addr + 4#32)), .read (alignWord a.addr)] len s t ∧
      t.held (place rs s) = s.ioReadValue a.addr ∧ t.held q = (s.noteIoRead a.addr).ioReadValue (a.addr + 4#32) :=
  ioLoadDoubleOp_done hi h.usable hr hq h.accesses h.nonzero

/-- An I/O store. -/
theorem ioStores (h : Ready len fields rs check access a s) (i : Instr) (hi : exec i s = ioStoreOp len fields rs access s) :
    ∃ t, exec i s = .next t ∧ IoDone [] [.write (alignWord a.addr) (storeValue len rs s)] len s t :=
  ioStoreOp_done hi h.usable h.accesses h.nonzero

/-- An I/O store of two words. -/
theorem ioStoresPair {q : Place} (h : Ready len fields rs check access a s) (hq : nextPlace rs s = some q) (i : Instr)
    (hi : exec i s = ioStoreDoubleOp len fields rs access s) :
    ∃ t, exec i s = .next t ∧
      IoDone [] [.write (alignWord (a.addr + 4#32)) (if rs.isSR then 0#32 else s.get len q),
        .write (alignWord a.addr) (storeValue len rs s)] len s t :=
  ioStoreDoubleOp_done hi h.usable
    ((storeFollower_some hq).trans (by rw [get_opened_next len h.usable List.mem_cons_self hq])) h.accesses h.nonzero

/-- A store. -/
theorem storesBytes (h : Ready len fields rs check access a s) (hpl : a.Plain) (hwf : Memory.wf s.mem = true) (ty : DataType)
    (i : Instr) (hi : exec i s = storeOp len ty fields rs check access s) (hlen : i.length = len) :
    StoresBytes i a.region (dataAddress ty a.addr) (dataBytes ty (storeValue len rs s)) a.update
      (storeTraps ty (storeValue len rs s)) s :=
  storeOp_stores hi hlen hwf h.usable h.passes h.accesses hpl h.nonzero rfl rfl

/-- A double-word store without address update. -/
theorem storesPair {q : Place} (h : Ready len fields rs check access a s) (hup : a.update = none) (hwf : Memory.wf s.mem = true)
    (hq : nextPlace rs s = some q) (i : Instr) (hi : exec i s = storeDoubleOp len fields rs check access s)
    (hlen : i.length = len) :
    StoresPair i a.region a.addr (storeValue len rs s) (if rs.isSR then 0#32 else s.get len q) none s := by
  have hpl : a.Plain := fun p w hsome => nomatch hup.symm.trans hsome
  have hlow : (s.opened.updateAddress a).get len q = s.get len q := by
    rw [State.updateAddress, hup]
    exact get_opened_next len h.usable List.mem_cons_self hq
  exact hup ▸ storeDoubleOp_stores hi hlen hwf h.usable h.passes h.accesses hpl h.nonzero rfl (hlow ▸ storeFollower_some hq)

/-- A double-word store with address update. -/
theorem storesPairUpdating {p q : Place} {w : Word} (h : Ready len fields rs check access a s) (hpl : a.Plain)
    (hup : a.update = some (p, w)) (hwf : Memory.wf s.mem = true) (hq : nextPlace rs s = some q) (i : Instr)
    (hi : exec i s = storeDoubleOp len fields rs check access s) (hlen : i.length = len) :
    StoresPair i a.region a.addr (storeValue len rs s) (if rs.isSR then 0#32 else if p = q then w else s.get len q)
      (some (p, w)) s := by
  have hlow : (s.opened.updateAddress a).get len q = if p = q then w else s.get len q := by
    rw [get_updateAddress_next len hpl hup ((nextPlace_opened rs s).trans hq), get_opened_next len h.usable List.mem_cons_self hq]
  exact hup ▸ storeDoubleOp_stores hi hlen hwf h.usable h.passes h.accesses hpl h.nonzero rfl (hlow ▸ storeFollower_some hq)
end Ready

/-- Settles O26: .IOD and .IOA are ready, and each shape of I/O access leaves what its `IoDone` says. -/
theorem ioAccessResults : Obligations.IoAccessResults := by
  intro rd rs dis s b done loads stores
  have hloaded {i : Instr} {regs : List Place} {trace : List IoEvent} {loaded : State → Prop}
      (h : ∃ t, exec i s = .next t ∧ IoDone regs trace i.length s t ∧ loaded t) : done i regs trace loaded := by
    obtain ⟨t, ht, hio, hl⟩ := h
    exact ⟨t, ht, hl, hio.trace, hio.flags, hio.status.1, hio.status.2, hio.registers, hio.special, hio.memory, hio.continues⟩
  have hstored {i : Instr} {trace : List IoEvent} (h : ∃ t, exec i s = .next t ∧ IoDone [] trace i.length s t) :
      done i [] trace fun _ => True := by
    obtain ⟨t, ht, hio⟩ := h
    exact hloaded ⟨t, ht, hio, trivial⟩
  refine ⟨fun hu hb => ?displacement, fun hw => ?absolute⟩
  case displacement =>
    have h := ready_displacement hu hb
    exact ⟨⟨fun hr => hloaded (h.ioLoads hr (.ldwIOD rd rs dis) rfl),
        fun _ hr hq => hloaded (h.ioLoadsPair hr hq (.lddIOD rd rs dis) rfl)⟩,
      hstored (h.ioStores (.stwIOD rd rs dis) rfl), fun _ hq => hstored (h.ioStoresPair hq (.stdIOD rd rs dis) rfl)⟩
  case absolute =>
    have h := ready_absolute (dis := dis) (rs := rs) hw
    exact ⟨⟨fun hr => hloaded (h.ioLoads hr (.ldwIOA rs dis) rfl),
        fun _ hr hq => hloaded (h.ioLoadsPair hr hq (.lddIOA rs dis) rfl)⟩,
      hstored (h.ioStores (.stwIOA rs dis) rfl), fun _ hq => hstored (h.ioStoresPair hq (.stdIOA rs dis) rfl)⟩

/-- Settles O27: every mode is ready, and the shape of a store writes the bytes of its type there. -/
theorem storeResults : Obligations.StoreResults := by
  intro rd rs ld dis s hwf
  refine ⟨?address, ?absolute, ?register⟩
  case address =>
    intro v b a r hu hb
    have h := (ready_displacement hu hb).storesBytes plain_displacement hwf
    refine ⟨h .bs (.stbsD rd rs dis) rfl rfl, h .bu (.stbuD rd rs dis) rfl rfl, h .hu (.sthuD rd rs dis) rfl rfl,
      h .hs (.sthsD rd rs dis) rfl rfl, h .w (.stwD rd rs dis) rfl rfl, fun hp hs => ?_⟩
    have h := (ready_next hu hp hs hb).storesBytes (plain_next hp hs) hwf
    exact ⟨h .bs (.stbsN rd rs dis) rfl rfl, h .bu (.stbuN rd rs dis) rfl rfl, h .hu (.sthuN rd rs dis) rfl rfl,
      h .hs (.sthsN rd rs dis) rfl rfl, h .w (.stwN rd rs dis) rfl rfl⟩
  case absolute =>
    intro v e hw
    have h := (ready_absolute (dis := dis) (rs := rs) hw).storesBytes plain_absolute hwf
    exact ⟨h .bs (.stbsA rs dis) rfl rfl, h .bu (.stbuA rs dis) rfl rfl, h .hu (.sthuA rs dis) rfl rfl,
      h .hs (.sthsA rs dis) rfl rfl, h .w (.stwA rs dis) rfl rfl⟩
  case register =>
    intro v b hu hb
    exact ⟨(ready_register hu hb).storesBytes plain_register hwf .w (.stwR ld rs) rfl rfl,
      (ready_post 4#32 hu hb).storesBytes plain_post hwf .w (.stwP ld rs) rfl rfl⟩

/-- Settles O28: every mode of STD is ready; its second word is read after the address update. -/
theorem doubleStoreResults : Obligations.DoubleStoreResults := by
  intro rd rs ld dis q s hwf hq hi lo
  refine ⟨?address, ?absolute, ?register⟩
  case address =>
    intro b a hu hb
    exact ⟨(ready_displacement hu hb).storesPair rfl hwf hq (.stdD rd rs dis) rfl rfl,
      fun hp hs => (ready_next hu hp hs hb).storesPairUpdating (plain_next hp hs) rfl hwf hq (.stdN rd rs dis) rfl rfl⟩
  case absolute =>
    intro e hw
    exact (ready_absolute hw).storesPair rfl hwf hq (.stdA rs dis) rfl rfl
  case register =>
    intro b hu hb
    exact ⟨(ready_register hu hb).storesPair rfl hwf hq (.stdR ld rs) rfl rfl,
      (ready_post 8#32 hu hb).storesPairUpdating plain_post rfl hwf hq (.stdP ld rs) rfl rfl⟩

/-! ### The stack store -/

/-- STW.S past its checks. -/
theorem exec_stwS {rd rs : Reg} {dis : Dis} {s : State}
    (h : Ready dis.length [rd] rs (addressGuard rd) (nextAccess rd dis) (nextAccess rd dis s) s) :
    exec (.stwS rd rs dis) s = retire dis.length
      ((s.opened.updateAddress (nextAccess rd dis s)).stackWrite (source dis.length rd s) (storeValue dis.length rs s)) := by
  show execStwS rd rs dis s = _
  rw [execStwS, windowGuard_none (dst := none) h.usable, h.passes, h.accesses, storeValue_opened h.usable List.mem_cons_self]
  simp only [guarded, andThen, h.nonzero, Bool.false_eq_true, if_false]
  rfl

/-- A result placed after the address update, at the end of the instruction. -/
theorem put_retired {a : Access} {p : Place} {v : Word} {len : Nat} {s : State} (hpl : a.Plain) (hpc : p ≠ .pc) (hsr : p ≠ .sr) :
    let t := (((s.opened.updateAddress a).put p v).settle len).bump
    t.held p = v ∧ AddressDone a.update [p] s t ∧ Continues len s t ∧ Frame (p :: updatedPlaces a.update) s t := by
  intro t
  have hstatus : ((s.opened.updateAddress a).put p v).sr = setH s.sr false := by
    rw [put_sr _ _ _ hsr]
    exact updateAddress_sr hpl _
  have hheld {x : Place} (h1 : x ≠ .pc) (h2 : x ≠ .sr) : t.held x = ((s.opened.updateAddress a).put p v).held x :=
    held_eq_of_eq h1 h2 (by simp [t]) (by simp [t]) (by simp [t])
  refine ⟨(hheld hpc hsr).trans (held_put_same _ _ _ hpc hsr), addressDone (hstatus ▸ sameButEnd_settle _ len) ?_,
    continues_retire ?_ (by simp) (by simp) (by simp), ?_⟩
  · intro x w hx hne
    obtain ⟨h1, h2⟩ := hpl x w hx
    rw [hheld h1 h2, held_put_other _ _ _ _ (by simpa using hne)]
    exact held_updateAddress hpl _ hx
  · rw [put_pc _ _ _ hpc]
    exact updateAddress_pc hpl _
  · have hopened := (frame_opened s).trans (frame_updateAddress _ a) (by simp)
    have hput := hopened.trans ((frame_put _ p v).mono (w2 := p :: updatedPlaces a.update) (by simp))
      fun _ h => List.mem_cons_of_mem _ h
    exact hput.trans ((frame_settle _ len).mono (by simp)) fun _ h => h

/-- Settles O29: STW.S stores the word below SP and else places it in the local register, both after the address update. -/
theorem stackStoreResults : Obligations.StackStoreResults := by
  intro rd rs dis s hwf hu hp hs v b update hb
  have hready := ready_next hu hp hs hb
  have hpl : (nextAccess rd dis s).Plain := plain_next hp hs
  have hexec := exec_stwS hready
  rw [State.stackWrite, State.updateAddress_sp, State.opened_sp] at hexec
  refine ⟨fun hbelow => ?_, fun habove => ?_⟩
  · rw [if_pos hbelow] at hexec
    exact stores_retire (a := nextAccess rd dis s) (trap := false) hexec rfl hpl (busFrame_noteAccess _ _)
      (stores_writeWord (by simpa using hwf) _ _ _) (memFrame_writeWord _ _ _ _)
  · rw [if_neg (Nat.not_lt.mpr habove)] at hexec
    exact ⟨_, hexec, put_retired (p := .loc (b.extractLsb' 2 6)) hpl Place.noConfusion Place.noConfusion⟩

end Sys2Proof.Machine
end

section
/-! Moves and logical instructions (spec/41_move_logical.md): past its checks each of them ends in one result, or one result pair,
placed with its flags, and the statements O8, O9 and O10. -/

namespace Sys2Proof.Machine

section
variable {i : Instr} {rd rs : Reg} {len : Nat} {v : Word} {f : FlagUpdate} {s : State}

/-! ### MOV and MOVI -/

/-- With the H window open a local destination is written like that of any register instruction (R33). -/
theorem moveHigh_of_local (h : regIsGlobal rd = false) : moveHigh len rd v f s = finish len (place rd s) v f false s.opened := by
  cases rd with
  | loc c => rfl
  | glob c => exact nomatch h

/-- A result for a place other than the PC is no branch. -/
theorem finishBranch_of_ne_pc {p : Place} (h : p ≠ .pc) : finishBranch len p v f s = finish len p v f false s := by
  cases p with
  | pc => exact absurd rfl h
  | sr | fer | gpr _ | loc _ => rfl

/-- With the H window closed a destination other than the PC is written like that of any register instruction (R280 (b)). -/
theorem moveLow_of_not_pc (hp : rd.isPC = false) : moveLow len rd v f s = finish len (place rd s) v f false s.opened := by
  rw [moveLow, hp, if_neg Bool.false_ne_true]
  exact finishBranch_of_ne_pc fun h => by simp [place_eq_pc.mp h] at hp

/-- With the H window open a local source is read like that of any register instruction (R33). -/
theorem windowSource_of_local (h : regIsGlobal rs = false) : windowSource rs s = source len rs s := by
  cases rs with
  | loc c => rfl
  | glob c => exact nomatch h

/-- MOV ends alike with the H window open and closed, where it names only what the window lets it name. -/
theorem execMov_eq_finish (hp : rd.isPC = false) (hu : Usable [rd, rs] s) :
    execMov rd rs s = finish 1 (place rd s) (source 1 rs s) (s.moveFlags (source 1 rs s)) false s.opened := by
  unfold execMov
  split
  · rename_i hw
    rw [windowSource_of_local (len := 1) (hu hw rs (by simp)), moveHigh_of_local (hu hw rd (by simp))]
  · exact moveLow_of_not_pc hp

theorem execMovi_eq_finish {imm : Imm} (hp : rd.isPC = false) (hu : Usable [rd] s) :
    execMovi rd imm s = finish imm.length (place rd s) (immValue imm) (moveImmFlags (immValue imm)) false s.opened := by
  unfold execMovi
  split
  · rename_i hw
    exact moveHigh_of_local (hu hw rd (by simp))
  · exact moveLow_of_not_pc hp

/-! ### MOVD -/

/-- A double-word is zero where both its words are. -/
theorem double_eq_zero (hi lo : Word) : (double hi lo == 0#64) = (hi == 0#32 && lo == 0#32) := by
  rw [Bool.eq_iff_iff, Bool.and_eq_true, beq_iff_eq, beq_iff_eq, beq_iff_eq, double]
  exact append_eq_iff

/-- The flags of MOVD: V is open (R283). -/
theorem moveDoubleFlags_follows (s : State) (hi lo : Word) :
    FlagClaim.Follows { s.sameFlags with z := some (hi == 0#32 && lo == 0#32), n := some (hi.getLsbD 31), v := none }
      ((s.moveDoubleFlags hi lo).claim s) :=
  FlagClaim.follows_of (.inr rfl) (.inr (congrArg some (double_eq_zero hi lo).symm)) (.inr rfl) (.inl rfl)

/-- MOVD from the SR clears the pair (R283). -/
theorem execMovd_of_sr {q : Place} (hp : rd.isPC = false) (hu : Usable [rd, rs] s) (hq : nextPlace rd s = some q)
    (hs : rs.isSR = true) :
    execMovd rd rs s = finishPair 1 (place rd s) q 0#32 0#32 (s.moveDoubleFlags 0#32 0#32) false s.opened := by
  simp only [execMovd, windowGuard_none (dst := some rd) hu, pcGuard_none hp, andThen, guarded, hq, hs, if_true]

/-- MOVD from another pair reads its second word after the first is written (R283). -/
theorem execMovd_of_pair {p q : Place} (hp : rd.isPC = false) (hu : Usable [rd, rs] s) (hq : nextPlace rd s = some q)
    (hs : rs.isSR = false) (hpair : nextPlace rs s = some p) :
    let hi := source 1 rs s
    let lo := (s.opened.put (place rd s) hi).get 1 p
    execMovd rd rs s = finishPair 1 (place rd s) q hi lo (s.moveDoubleFlags hi lo) false s.opened := by
  have hsource : source 1 rs s.opened = source 1 rs s := source_opened 1 hu (by simp)
  simp only [execMovd, windowGuard_none (dst := some rd) hu, pcGuard_none hp, andThen, guarded, hq, hs, hpair, hsource,
    Bool.false_eq_true, if_false]

/-! ### Logical instructions -/

/-- A register instruction that writes Z alone (R284). -/
theorem zeroFlag_yields {srcs : List Reg} (compute : State → Word)
    (hi : exec i s = registerOp len rd srcs (fun t => { value := compute t, flags := zeroFlag (compute t) }) s)
    (hlen : i.length = len) (hp : rd.isPC = false) (hu : Usable (rd :: srcs) s) (hv : compute s.opened = v) :
    Yields i rd v { s.sameFlags with z := some (v == 0#32) } false s := by
  subst hv
  exact registerOp_results hi hlen hp hu rfl rfl (FlagClaim.follows_refl _)

/-- AND, ANDN, OR and XOR. -/
theorem logicalOp_yields (op : Word → Word → Word) (hi : exec i s = logicalOp rd rs op s) (hlen : i.length = 1)
    (hp : rd.isPC = false) (hu : Usable [rd, rs] s) :
    Yields i rd (op (source 1 rd s) (source 1 rs s)) { s.sameFlags with z := some (op (source 1 rd s) (source 1 rs s) == 0#32) }
      false s :=
  zeroFlag_yields (fun t => op (source 1 rd t) (source 1 rs t)) hi hlen hp hu
    (by rw [source_opened 1 hu (r := rd) (by simp), source_opened 1 hu (r := rs) (by simp)])

/-- ANDNI, ORI and XORI. -/
theorem logicalImmOp_yields {imm : Imm} (op : Word → Word) (hi : exec i s = logicalImmOp rd imm op s) (hlen : i.length = imm.length)
    (hp : rd.isPC = false) (hu : Usable [rd] s) :
    Yields i rd (op (source imm.length rd s)) { s.sameFlags with z := some (op (source imm.length rd s) == 0#32) } false s :=
  zeroFlag_yields (fun t => op (source imm.length rd t)) hi hlen hp hu (by rw [source_opened _ hu (by simp)])

end

/-! ### The statements -/

/-- Settles O8: with the H window open and closed alike, MOV and MOVI finish as any register instruction. -/
theorem moveResults : Obligations.MoveResults := by
  intro rd rs imm s hp hu
  have hmov := execMov_eq_finish hp hu
  have hmovi := execMovi_eq_finish (imm := imm) hp (hu.mono (by simp))
  exact ⟨finish_yields (i := .mov rd rs) hmov rfl hp (moveFlags_follows s _),
    finish_yields (i := .movi rd imm) hmovi rfl hp (moveImmFlags_follows s _)⟩

/-- Settles O9: MOVD finishes as a result pair, of zeros where Rs denotes the SR and else of the words of Rs as they are copied. -/
theorem movdCopiesTheHighWordFirst : Obligations.MovdCopiesTheHighWordFirst := by
  intro rd rs q s hp hu hq
  refine ⟨fun hs => ?sr, fun p hs hpair => ?pair⟩
  case sr => exact finishPair_yields (i := .movd rd rs) (execMovd_of_sr hp hu hq hs) rfl hp hq (moveDoubleFlags_follows s _ _)
  case pair =>
    exact finishPair_yields (i := .movd rd rs) (execMovd_of_pair hp hu hq hs hpair) rfl hp hq (moveDoubleFlags_follows s _ _)

/-- Settles O10, by the shape of each instruction: two registers, a register and an immediate, or a result of Rs alone. -/
theorem logicalResults : Obligations.LogicalResults := by
  intro rd rs imm c s hp hu
  have hrd : Usable [rd] s := hu.mono (by simp)
  have hsource (len : Nat) : source len rs s.opened = source len rs s := source_opened len hu (by simp)
  refine ⟨?and, ?andn, ?or, ?xor, ?not, ?mask, ?andni, ?ori, ?xori⟩
  case and => exact logicalOp_yields (i := .and rd rs) (fun a b => a &&& b) rfl rfl hp hu
  case andn => exact logicalOp_yields (i := .andn rd rs) (fun a b => a &&& ~~~b) rfl rfl hp hu
  case or => exact logicalOp_yields (i := .or rd rs) (fun a b => a ||| b) rfl rfl hp hu
  case xor => exact logicalOp_yields (i := .xor rd rs) (fun a b => a ^^^ b) rfl rfl hp hu
  case not => exact zeroFlag_yields (i := .not rd rs) (fun t => ~~~source 1 rs t) rfl rfl hp hu (by rw [hsource])
  case mask =>
    exact zeroFlag_yields (i := .mask rd rs c) (fun t => source c.length rs t &&& constValue c) rfl rfl hp hu (by rw [hsource])
  case andni => exact logicalImmOp_yields (i := .andni rd imm) (fun a => a &&& ~~~immMaskValue imm) rfl rfl hp hrd
  case ori => exact logicalImmOp_yields (i := .ori rd imm) (fun a => a ||| immValue imm) rfl rfl hp hrd
  case xori => exact logicalImmOp_yields (i := .xori rd imm) (fun a => a ^^^ immValue imm) rfl rfl hp hrd

end Sys2Proof.Machine
end

section
/-! Integer arithmetic (spec/42_arithmetic.md): what each shape of instruction places and with which flags, and the statements
O11 to O15. -/

namespace Sys2Proof.Machine

section
variable {i : Instr} {rd rs : Reg} {len : Nat} {srcs : List Reg} {s : State}

/-! ### Add, sum, subtract and negate -/

section
variable {a b : State → Word} {x y : Word}

/-- ADD, ADDI and SUM (R313, R316, R318). -/
theorem sum_yields (hi : exec i s = branchableOp len rd srcs (fun t => sumOf (a t) (b t) false) s) (hlen : i.length = len)
    (hp : rd.isPC = false) (hu : Usable (rd :: srcs) s) (ha : a s.opened = x) (hb : b s.opened = y) :
    Yields i rd (x + y)
      { c := some (decide (2 ^ 32 ≤ x.toNat + y.toNat)), z := some (x + y == 0#32), n := some ((x + y).getLsbD 31),
        v := some (outsideSigned 32 (x.toInt + y.toInt)) } false s := by
  subst ha hb
  have h := branchableOp_yields hi hlen hp hu rfl (FlagClaim.follows_refl _)
  rwa [sumOf_value, sumOf_claim] at h

/-- A trapping form keeps C and traps where V comes out one (R310, R312). -/
theorem trapped_yields {compute : State → Computed} {overflow : Bool}
    (hi : exec i s = registerOp len rd srcs (fun t => (compute t).trapped) s) (hlen : i.length = len) (hp : rd.isPC = false)
    (hu : Usable (rd :: srcs) s) (hv : (compute s.opened).flags.v = some overflow) :
    Yields i rd (compute s.opened).value { (compute s.opened).flags.claim s with c := some (srC s.sr) } overflow s := by
  have htrap : (compute s.opened).trapped.trap = overflow := by simp [Computed.trapped, trapping, hv]
  exact registerOp_results hi hlen hp hu rfl htrap (FlagClaim.follows_refl _)

/-- ADDS, ADDSI and SUMS (R314, R317, R319). -/
theorem trappedSum_yields (hi : exec i s = registerOp len rd srcs (fun t => (sumOf (a t) (b t) false).trapped) s)
    (hlen : i.length = len) (hp : rd.isPC = false) (hu : Usable (rd :: srcs) s) (ha : a s.opened = x) (hb : b s.opened = y) :
    Yields i rd (x + y)
      { s.sameFlags with z := some (x + y == 0#32), n := some ((x + y).getLsbD 31),
                         v := some (outsideSigned 32 (x.toInt + y.toInt)) }
      (outsideSigned 32 (x.toInt + y.toInt)) s := by
  subst ha hb
  have h := trapped_yields (overflow := outsideSigned 32 ((a s.opened).toInt + (b s.opened).toInt)) hi hlen hp hu
    (by simp [sumOf, addFlags, overflowAdd])
  rwa [sumOf_value, sumOf_claim] at h

/-- SUBS and NEGS (R321, R324). -/
theorem trappedDifference_yields (hi : exec i s = registerOp len rd srcs (fun t => (differenceOf (a t) (b t) false).trapped) s)
    (hlen : i.length = len) (hp : rd.isPC = false) (hu : Usable (rd :: srcs) s) (ha : a s.opened = x) (hb : b s.opened = y) :
    Yields i rd (x - y)
      { s.sameFlags with z := some (x - y == 0#32), n := some ((x - y).getLsbD 31),
                         v := some (outsideSigned 32 (x.toInt - y.toInt)) }
      (outsideSigned 32 (x.toInt - y.toInt)) s := by
  subst ha hb
  have h := trapped_yields (overflow := outsideSigned 32 ((a s.opened).toInt - (b s.opened).toInt)) hi hlen hp hu
    (by simp [differenceOf, subFlags, overflowSub])
  rwa [differenceOf_value, differenceOf_claim] at h

end

/-- The second operand of ADDC and SUBC reads the same after the start of the instruction. -/
theorem sourceBesideCarry_opened {regs : List Reg} (hu : Usable regs s) (hr : rs ∈ regs) :
    sourceBesideCarry rs s.opened = sourceBesideCarry rs s := by
  simp only [sourceBesideCarry, source_opened 1 hu hr]

/-! ### Multiply -/

/-- Neither operand is the PC or the SR, so that the result is defined (R325 to R329). -/
theorem denotesPcOrSr_eq_false (hdpc : rd.isPC = false) (hdsr : rd.isSR = false) (hspc : rs.isPC = false) (hssr : rs.isSR = false) :
    denotesPcOrSr rd rs = false := by simp [denotesPcOrSr, hdpc, hdsr, hspc, hssr]

/-- MULS and MULU: the product of the operands, a free one where the PC or the SR is denoted (R326, R327). -/
theorem multiplyDouble_yields {q : Place} (product : Word → Word → Double) (hi : exec i s = multiplyDouble rd rs product s)
    (hlen : i.length = 1) (hp : rd.isPC = false) (hu : Usable [rd, rs] s) (hq : nextPlace rd s = some q) :
    ∃ p : Double, (rd.isSR = false ∧ rs.isPC = false ∧ rs.isSR = false → p = product (source 1 rd s) (source 1 rs s)) ∧
      YieldsPair i rd q (highWord p) (lowWord p)
        { c := none, z := some (p == 0#64), n := some (p.getLsbD 63), v := none } false s := by
  refine ⟨_, fun ⟨hdsr, hspc, hssr⟩ => ?_,
    pairOp_results hi hlen hp hu hq rfl rfl rfl (FlagClaim.follows_of (.inl rfl) (.inr rfl) (.inr rfl) (.inl rfl))⟩
  rw [denotesPcOrSr_eq_false hp hdsr hspc hssr, if_neg Bool.false_ne_true, source_opened 1 hu (by simp),
    source_opened 1 hu (by simp)]

/-! ### Divide -/

/-- DIVS divides the signed dividend: the cases that trap are those of R328, and elsewhere the dividend is its own magnitude. -/
theorem divideSigned_eq (d : Double) (u : Word) :
    divideSigned d u =
      let q := d.toInt.tdiv u.toInt
      if u = 0#32 ∨ d.toInt < 0 ∨ q < -2 ^ 31 ∨ 2 ^ 31 ≤ q then none
      else some { quotient := BitVec.ofInt 32 q, remainder := BitVec.ofInt 32 (d.toInt - q * u.toInt) } := by
  have hsign : d.getLsbD 63 = decide (d.toInt < 0) := (BitVec.msb_eq_getLsbD_last d).symm.trans BitVec.msb_eq_toInt
  by_cases hneg : d.toInt < 0
  · simp only [divideSigned, hsign, hneg, decide_true, true_or, or_true, if_true]
  · have hnat : (d.toNat : Int) = d.toInt := (BitVec.toInt_eq_toNat_of_msb (by simp [BitVec.msb_eq_toInt, hneg])).symm
    simp only [divideSigned, hsign, hneg, hnat, outsideSigned, decide_eq_true_eq]

/-- Past its checks a division, of operands whose result is defined, places what the divider answers. -/
theorem divideOp_yields {divide : Double → Word → Option Division} {p : Place} {g : FlagClaim} {answer : Option Division}
    (hi : exec i s = divideOp rd rs divide s) (hlen : i.length = 1) (hdpc : rd.isPC = false)
    (hdefined : denotesPcOrSr rd rs = false) (hu : Usable [rd, rs] s) (hp : nextPlace rd s = some p)
    (hne : place rs s ≠ place rd s) (hne' : place rs s ≠ p) (hd : divide (source 1 rd s ++ s.get 1 p) (source 1 rs s) = answer)
    (hg : g.Follows ((s.opened.divided answer).flags.claim s)) :
    YieldsPair i rd p (s.opened.divided answer).high (s.opened.divided answer).low g (s.opened.divided answer).trap s := by
  refine pairOp_yields hi hlen hdpc hu hp ?_ hg
  simp [hdefined, hne, hne', source_opened 1 hu, get_opened_next 1 hu (List.mem_cons_self ..) hp, double, hd]

end

/-! ### The statements -/

/-- Settles O11: each instruction adds or subtracts, with no carry in, operands that the start of the instruction leaves alone. -/
theorem addAndSubtractResults : Obligations.AddAndSubtractResults := by
  intro rd rs imm c s hp hu addClaim subClaim
  have hrd (len : Nat) : source len rd s.opened = source len rd s := source_opened len hu (by simp)
  have hrs (len : Nat) : sourceOrCarry len rs s.opened = sourceOrCarry len rs s := sourceOrCarry_opened len hu (by simp)
  refine ⟨?add, ?addi, ?sum, ?sub, ?neg⟩
  case add => exact sum_yields (rfl : execAdd rd rs s = _) rfl hp hu (hrd 1) (hrs 1)
  case addi =>
    exact sum_yields (rfl : execAddi rd imm s = _) rfl hp (hu.mono (by simp)) (hrd _) (by rw [hrd]; exact immOrCZ_opened imm _ s)
  case sum => exact sum_yields (rfl : execSum rd rs c s = _) rfl hp hu (hrs _) rfl
  case sub =>
    have h := branchableOp_yields (i := .sub rd rs) (rfl : execSub rd rs s = _) rfl hp hu rfl (FlagClaim.follows_refl _)
    rwa [hrd, hrs, differenceOf_value, differenceOf_claim] at h
  case neg =>
    have h := registerOp_yields (i := .neg rd rs) (rfl : execNeg rd rs s = _) rfl hp hu rfl (FlagClaim.follows_refl _)
    rwa [hrs, differenceOf_value, differenceOf_claim] at h

/-- Settles O12: the operands beside the carry are those before the start of the instruction, and the rest is what `sumOf`,
`differenceOf` and the sticky Z compute. -/
theorem carryChainResults : Obligations.CarryChainResults := by
  intro rd rs s hp hu a b c
  have hrd : source 1 rd s.opened = a := source_opened 1 hu (by simp)
  have hrs : sourceBesideCarry rs s.opened = b := sourceBesideCarry_opened hu (by simp)
  have hc : srC s.opened.sr = c := srC_setH ..
  have hz : srZ s.opened.sr = srZ s.sr := srZ_setH ..
  refine ⟨?addc, ?subc⟩
  case addc =>
    have h := registerOp_yields (i := .addc rd rs) (rfl : execAddc rd rs s = _) rfl hp hu rfl (FlagClaim.follows_refl _)
    rwa [hrd, hrs, hc, hz] at h
  case subc =>
    have h := registerOp_yields (i := .subc rd rs) (rfl : execSubc rd rs s = _) rfl hp hu rfl (FlagClaim.follows_refl _)
    rwa [hrd, hrs, hc, hz] at h

/-- Settles O13: the same sums and differences as O11, each with C kept and the trap on overflow. -/
theorem trappingArithmeticResults : Obligations.TrappingArithmeticResults := by
  intro rd rs imm c s hp hu claim
  have hrd (len : Nat) : source len rd s.opened = source len rd s := source_opened len hu (by simp)
  have hrs (len : Nat) : sourceOrCarry len rs s.opened = sourceOrCarry len rs s := sourceOrCarry_opened len hu (by simp)
  refine ⟨?adds, ?addsi, ?sums, ?subs, ?negs⟩
  case adds => exact trappedSum_yields (rfl : execAdds rd rs s = _) rfl hp hu (hrd 1) (hrs 1)
  case addsi =>
    exact trappedSum_yields (rfl : execAddsi rd imm s = _) rfl hp (hu.mono (by simp)) (hrd _)
      (by rw [hrd]; exact immOrCZ_opened imm _ s)
  case sums => exact trappedSum_yields (rfl : execSums rd rs c s = _) rfl hp hu (hrs _) rfl
  case subs => exact trappedDifference_yields (rfl : execSubs rd rs s = _) rfl hp hu (hrd 1) (hrs 1)
  case negs => exact trappedDifference_yields (rfl : execNegs rd rs s = _) rfl hp hu rfl (hrs 1)

/-- Settles O14: the product is that of the operands, or a free value where the PC or the SR is denoted. -/
theorem multiplyResults : Obligations.MultiplyResults := by
  intro rd rs s hp hu defined a b
  refine ⟨?mul, fun q hq => ?muls, fun q hq => ?mulu⟩
  case mul =>
    refine ⟨_, fun ⟨hdsr, hspc, hssr⟩ => ?_, registerOp_results (rfl : execMul rd rs s = _) rfl hp hu rfl rfl
      (FlagClaim.follows_of (.inl rfl) (.inr rfl) (.inr rfl) (.inl rfl))⟩
    simp [denotesPcOrSr_eq_false hp hdsr hspc hssr, source_opened 1 hu, a, b]
  case muls => exact multiplyDouble_yields (i := .muls rd rs) _ (rfl : execMuls rd rs s = _) rfl hp hu hq
  case mulu => exact multiplyDouble_yields (i := .mulu rd rs) _ (rfl : execMulu rd rs s = _) rfl hp hu hq

/-- Settles O15: where the divider answers nothing the flags claimed are those of the trap, and else those of its quotient. -/
theorem divideResults : Obligations.DivideResults := by
  intro rd rs p s hdpc hdsr hspc hssr hu hp hne hne' dividend divisor claim trapClaim
  have hdefined := denotesPcOrSr_eq_false hdpc hdsr hspc hssr
  have traps {i : Instr} {divide : Double → Word → Option Division} (hi : exec i s = divideOp rd rs divide s)
      (hlen : i.length = 1) (hd : divide dividend divisor = none) : ∃ hi lo, YieldsPair i rd p hi lo trapClaim true s :=
    ⟨_, _, divideOp_yields hi hlen hdpc hdefined hu hp hne hne' hd
      (FlagClaim.follows_of (.inr rfl) (.inl rfl) (.inl rfl) (.inr rfl))⟩
  have divides {i : Instr} {divide : Double → Word → Option Division} {q rem : Word} (hi : exec i s = divideOp rd rs divide s)
      (hlen : i.length = 1) (hd : divide dividend divisor = some ⟨q, rem⟩) : YieldsPair i rd p rem q (claim q) false s :=
    divideOp_yields hi hlen hdpc hdefined hu hp hne hne' hd (FlagClaim.follows_refl _)
  refine ⟨?divs, ?divu⟩
  case divs =>
    intro q
    split_ifs with h
    · exact traps (rfl : execDivs rd rs s = _) rfl ((divideSigned_eq ..).trans (if_pos h))
    · exact divides (rfl : execDivs rd rs s = _) rfl ((divideSigned_eq ..).trans (if_neg h))
  case divu =>
    intro q
    split_ifs with h
    · exact traps (rfl : execDivu rd rs s = _) rfl (if_pos h)
    · exact divides (rfl : execDivu rd rs s = _) rfl (if_neg h)

end Sys2Proof.Machine
end

section
/-! Shifts and rotation (spec/43_shift_rotate.md): the flags of each direction, what each shape of shift places, and the statements
O16 and O17. -/

namespace Sys2Proof.Machine

/-! ### Operands (R350, R352) -/

theorem lastBitOut_eq {w : Nat} (a : BitVec w) (k : Nat) : lastBitOut a k = (decide (k ≠ 0) && a.getLsbD (k - 1)) := by
  by_cases h : k = 0 <;> simp [lastBitOut, h]

theorem shiftAmount_eq (ls : BitVec 4) (s : State) : shiftAmount ls s = (s.lr ls.toNat).toNat % 32 := by
  simp [shiftAmount, BitVec.extractLsb'_toNat]

@[simp] theorem shiftAmount_opened (ls : BitVec 4) (s : State) : shiftAmount ls s.opened = shiftAmount ls s := by
  simp [shiftAmount]

@[simp] theorem localPair_opened (ld : BitVec 4) (s : State) : localPair ld s.opened = localPair ld s := by simp [localPair]

theorem overlaps_iff {ld ls : BitVec 4} {s : State} :
    overlaps ld ls s = true ↔
      ¬ (localIndex s.sr ls.toNat ≠ localIndex s.sr ld.toNat ∧ localIndex s.sr ls.toNat ≠ localIndex s.sr (ld.toNat + 1)) := by
  rw [not_and_or, not_not, not_not]
  simp [overlaps]

@[simp] theorem overlaps_opened (ld ls : BitVec 4) (s : State) : overlaps ld ls s.opened = overlaps ld ls s := by
  simp [overlaps]

theorem highWord_double (hi lo : Word) : highWord (double hi lo) = hi := BitVec.extractLsb'_append_eq_left

theorem lowWord_double (hi lo : Word) : lowWord (double hi lo) = lo := BitVec.extractLsb'_append_eq_right

/-! ### Flags (R351) -/

/-- What is claimed of the flags after a shift left or rotation with result `r`: C and V are open (D11). -/
def leftClaim {w : Nat} (r : BitVec w) : FlagClaim :=
  { c := none, z := some (r == 0#w), n := some (r.getLsbD (w - 1)), v := none }

/-- What is claimed of the flags after a shift right of `a` by `k` with result `r`: V is kept. -/
def rightClaim {w : Nat} (s : State) (a : BitVec w) (k : Nat) (r : BitVec w) : FlagClaim :=
  { s.sameFlags with
    c := some (decide (k ≠ 0) && a.getLsbD (k - 1)), z := some (r == 0#w), n := some (r.getLsbD (w - 1)) }

/-- The claim when nothing is claimed of any flag (I4.6). -/
theorem follows_of_nothing (g : FlagClaim) : FlagClaim.Follows { c := none, z := none, n := none, v := none } g :=
  FlagClaim.follows_of (.inl rfl) (.inl rfl) (.inl rfl) (.inl rfl)

theorem leftFlags_follows {w : Nat} (s t : State) (r : BitVec w) :
    (leftClaim r).Follows ((t.leftFlags (r == 0#w) (r.getLsbD (w - 1))).claim s) :=
  FlagClaim.follows_of (.inl rfl) (.inr rfl) (.inr rfl) (.inl rfl)

theorem rightFlags_follows {w : Nat} (s : State) (a : BitVec w) (k : Nat) (r : BitVec w) :
    (rightClaim s a k r).Follows ((rightFlags (r == 0#w) (r.getLsbD (w - 1)) (lastBitOut a k)).claim s) :=
  FlagClaim.follows_of (.inr (congrArg some (lastBitOut_eq a k).symm)) (.inr rfl) (.inr rfl) (.inr rfl)

/-! ### Single-word shapes -/

section
variable {i : Instr} {rd : Reg} {srcs : List Reg} {compute : State → Computed} {a r : Word} {k : Nat} {s : State}

/-- SHLI, SHL and ROL (R353, R355, R365). -/
theorem leftWord_yields (hi : exec i s = registerOp 1 rd srcs compute s) (hlen : i.length = 1) (hp : rd.isPC = false)
    (hu : Usable (rd :: srcs) s) (hr : compute s.opened = s.opened.leftWord r) : Yields i rd r (leftClaim r) false s :=
  registerOp_yields hi hlen hp hu hr (leftFlags_follows s s.opened r)

/-- SARI, SAR, SHRI and SHR (R357, R359, R361, R363). -/
theorem rightWord_yields (hi : exec i s = registerOp 1 rd srcs compute s) (hlen : i.length = 1) (hp : rd.isPC = false)
    (hu : Usable (rd :: srcs) s) (hr : compute s.opened = rightWord a k r) : Yields i rd r (rightClaim s a k r) false s :=
  registerOp_yields hi hlen hp hu hr (rightFlags_follows s a k r)

end

/-! ### Double-word shapes -/

section
variable {i : Instr} {ld : BitVec 4} {srcs : List Reg} {compute : State → Place → ComputedPair} {a r : Double} {k : Nat}
  {s : State}

/-- A double-word shift names local registers alone, so that its checks pass and Ldf is the next place. -/
theorem localPairOp_yields {p : ComputedPair} {g : FlagClaim} (hi : exec i s = pairOp (.loc ld) srcs compute s)
    (hlen : i.length = 1) (hsrcs : ∀ x ∈ srcs, regIsGlobal x = false)
    (hp : compute s.opened (.loc (localIndex s.sr (ld.toNat + 1))) = p) (hg : g.Follows (p.flags.claim s)) :
    YieldsPair i (.loc ld) (.loc (localIndex s.sr (ld.toNat + 1))) p.high p.low g p.trap s :=
  pairOp_yields hi hlen rfl (usable_locals (List.forall_mem_cons.mpr ⟨rfl, hsrcs⟩)) rfl hp hg

/-- SHLDI and SHLD (R354, R356). -/
theorem leftDouble_yields (hi : exec i s = pairOp (.loc ld) srcs compute s) (hlen : i.length = 1)
    (hsrcs : ∀ x ∈ srcs, regIsGlobal x = false)
    (hr : compute s.opened (.loc (localIndex s.sr (ld.toNat + 1))) = s.opened.leftDouble r) :
    YieldsPair i (.loc ld) (.loc (localIndex s.sr (ld.toNat + 1))) (highWord r) (lowWord r) (leftClaim r) false s :=
  localPairOp_yields hi hlen hsrcs hr (leftFlags_follows s s.opened r)

/-- SARDI, SARD, SHRDI and SHRD (R358, R360, R362, R364). -/
theorem rightDouble_yields (hi : exec i s = pairOp (.loc ld) srcs compute s) (hlen : i.length = 1)
    (hsrcs : ∀ x ∈ srcs, regIsGlobal x = false)
    (hr : compute s.opened (.loc (localIndex s.sr (ld.toNat + 1))) = rightDouble a k r) :
    YieldsPair i (.loc ld) (.loc (localIndex s.sr (ld.toNat + 1))) (highWord r) (lowWord r) (rightClaim s a k r) false s :=
  localPairOp_yields hi hlen hsrcs hr (rightFlags_follows s a k r)

/-- SHLD, SARD and SHRD with Ls in the pair complete with the free words as their pair (R352, I4.6). -/
theorem undefinedShift_yields (hi : exec i s = pairOp (.loc ld) srcs compute s) (hlen : i.length = 1)
    (hsrcs : ∀ x ∈ srcs, regIsGlobal x = false)
    (hr : compute s.opened (.loc (localIndex s.sr (ld.toNat + 1))) = s.opened.undefinedShift) :
    ∃ r, YieldsPair i (.loc ld) (.loc (localIndex s.sr (ld.toNat + 1))) (highWord r) (lowWord r)
      { c := none, z := none, n := none, v := none } false s := by
  refine ⟨double s.opened.undefinedShift.high s.opened.undefinedShift.low, ?_⟩
  rw [highWord_double, lowWord_double]
  exact localPairOp_yields hi hlen hsrcs hr (follows_of_nothing _)

end

/-! ### The statements -/

/-- Settles O16: each instruction is a shift left or a shift right of an operand that the start of the instruction leaves alone. -/
theorem singleWordShiftResults : Obligations.SingleWordShiftResults := by
  intro rd n ld ls s left right
  refine ⟨fun hp hu => ?immediate, ?register⟩
  case immediate =>
    have hrd : source 1 rd s.opened = source 1 rd s := source_opened 1 hu (by simp)
    refine ⟨?shli, ?sari, ?shri⟩
    case shli => exact leftWord_yields (i := .shli rd n) (rfl : execShli rd n s = _) rfl hp hu (by rw [hrd])
    case sari => exact rightWord_yields (i := .sari rd n) (rfl : execSari rd n s = _) rfl hp hu (by rw [hrd])
    case shri => exact rightWord_yields (i := .shri rd n) (rfl : execShri rd n s = _) rfl hp hu (by rw [hrd])
  case register =>
    have hu : Usable [.loc ld, .loc ls] s := usable_locals (by simp [regIsGlobal])
    have hld : s.opened.lr ld.toNat = s.lr ld.toNat := lr_opened s _
    have hk : shiftAmount ls s.opened = (s.lr ls.toNat).toNat % 32 := (shiftAmount_opened ls s).trans (shiftAmount_eq ls s)
    refine ⟨?shl, ?sar, ?shr, ?rol⟩
    case shl => exact leftWord_yields (i := .shl ld ls) (rfl : execShl ld ls s = _) rfl rfl hu (by rw [hld, hk])
    case sar => exact rightWord_yields (i := .sar ld ls) (rfl : execSar ld ls s = _) rfl rfl hu (by rw [hld, hk])
    case shr => exact rightWord_yields (i := .shr ld ls) (rfl : execShr ld ls s = _) rfl rfl hu (by rw [hld, hk])
    case rol => exact leftWord_yields (i := .rol ld ls) (rfl : execRol ld ls s = _) rfl rfl hu (by rw [hld, hk])

/-- Settles O17: the immediate forms always shift, and the register forms shift or answer the free pair as Ls is apart from the
pair or in it. -/
theorem doubleWordShiftResults : Obligations.DoubleWordShiftResults := by
  intro n ld ls s q a k left right apart does open4
  have ha : localPair ld s.opened = a := localPair_opened ld s
  have hk : shiftAmount ls s.opened = k := (shiftAmount_opened ls s).trans (shiftAmount_eq ls s)
  have hls : ∀ x ∈ [Reg.loc ls], regIsGlobal x = false := by simp [regIsGlobal]
  have hin : overlaps ld ls s.opened = true ↔ ¬ apart := by rw [overlaps_opened]; exact overlaps_iff
  refine ⟨?shldi, ?sardi, ?shrdi, fun h => ?apart, fun h => ?within⟩
  case shldi => exact leftDouble_yields (i := .shldi ld n) (rfl : execShldi ld n s = _) rfl (List.forall_mem_nil _) (by rw [ha])
  case sardi => exact rightDouble_yields (i := .sardi ld n) (rfl : execSardi ld n s = _) rfl (List.forall_mem_nil _) (by rw [ha])
  case shrdi => exact rightDouble_yields (i := .shrdi ld n) (rfl : execShrdi ld n s = _) rfl (List.forall_mem_nil _) (by rw [ha])
  case apart =>
    have hout : ¬ overlaps ld ls s.opened = true := fun hin' => hin.mp hin' h
    refine ⟨?shld, ?sard, ?shrd⟩
    case shld => exact leftDouble_yields (i := .shld ld ls) (rfl : execShld ld ls s = _) rfl hls (by rw [if_neg hout, ha, hk])
    case sard => exact rightDouble_yields (i := .sard ld ls) (rfl : execSard ld ls s = _) rfl hls (by rw [if_neg hout, ha, hk])
    case shrd => exact rightDouble_yields (i := .shrd ld ls) (rfl : execShrd ld ls s = _) rfl hls (by rw [if_neg hout, ha, hk])
  case within =>
    refine ⟨?shld, ?sard, ?shrd⟩
    case shld => exact undefinedShift_yields (i := .shld ld ls) (rfl : execShld ld ls s = _) rfl hls (if_pos (hin.mpr h))
    case sard => exact undefinedShift_yields (i := .sard ld ls) (rfl : execSard ld ls s = _) rfl hls (if_pos (hin.mpr h))
    case shrd => exact undefinedShift_yields (i := .shrd ld ls) (rfl : execShrd ld ls s = _) rfl hls (if_pos (hin.mpr h))

end Sys2Proof.Machine
end

section
/-! Index moves, checks, compares, leading zeros, stack addresses and the set instructions (spec/44_index_check_compare_set.md):
what each shape of instruction places or tests, and the statements O18 to O22. -/

namespace Sys2Proof.Machine

section
variable {i : Instr} {rd rs : Reg} {len k : Nat} {s : State}

/-! ### Index moves (R385) -/

theorem indexGuard_none (hp : rd.isPC = false) (hd : rd.isSR = false) (hs : rs.isSR = false) : indexGuard rd rs = none := by
  simp [indexGuard, hp, hd, hs]

/-- XM1 to XM8: past the checks the scaled source is placed, and the unscaled one is held against the limit. -/
theorem checkedIndex_yields {limit : Word} (hi : exec i s = indexOp len rd rs k (some limit) s) (hlen : i.length = len)
    (hp : rd.isPC = false) (hd : rd.isSR = false) (hs : rs.isSR = false) (hu : Usable [rd, rs] s) :
    Yields i rd (source len rs s <<< k) s.sameFlags
      (if rs.isPC then decide (limit.toNat ≤ (source len rs s).toNat) else decide (limit.toNat < (source len rs s).toNat)) s := by
  refine finish_yields (f := noFlags) ?_ hlen hp (FlagClaim.follows_refl _)
  rw [hi, indexOp, windowGuard_none (dst := some rd) hu, indexGuard_none hp hd hs, source_opened len hu (by simp)]
  rfl

/-- XX1 to XX8: past the checks the scaled source is placed. -/
theorem uncheckedIndex_yields (hi : exec i s = indexOp len rd rs k none s) (hlen : i.length = len) (hp : rd.isPC = false)
    (hd : rd.isSR = false) (hs : rs.isSR = false) (hu : Usable [rd, rs] s) :
    Yields i rd (source len rs s <<< k) s.sameFlags false s := by
  refine finish_yields (f := noFlags) ?_ hlen hp (FlagClaim.follows_refl _)
  rw [hi, indexOp, windowGuard_none (dst := some rd) hu, indexGuard_none hp hd hs, source_opened len hu (by simp)]
  rfl

/-! ### Tests that write flags alone or none -/

/-- An instruction that writes flags and never traps passes, whatever the flags. -/
theorem testOp_passes {srcs : List Reg} {flags : State → FlagUpdate} {g : FlagClaim}
    (hi : exec i s = testOp len srcs (fun t => (flags t, false)) s) (hlen : i.length = len) (hu : Usable srcs s)
    (hg : g.Follows ((flags s.opened).claim s)) : Passes i g s :=
  (testOp_results hi hlen hu rfl hg).1 rfl

/-- FETCH with the window closed and outside a delay slot fills the cache and ends (R412). -/
theorem fetch_passes {n : BitVec 4} (hw : s.window = false) (hslot : s.inSlot = false) : Passes (.fetch n) s.sameFlags s := by
  have hopened : OnlyFlags s.sameFlags s s.opened := onlyFlags_withFlags s noFlags
  have hframe (t : State) (w : Word) : Frame [] t ((t.prefetchTo w).settle 1).bump :=
    (frame_cachedTo t _).trans (frame_settle _ 1) (by simp)
  exact ⟨_, exec_fetch hw hslot,
    hopened.congr (sameButEnd_settle (s.opened.prefetchTo _) 1) (hframe ..) (FlagClaim.follows_refl _),
    continues_retire (t := s.opened.prefetchTo _) rfl rfl rfl rfl⟩

/-! ### The flags of the compares -/

theorem compareFlags_claim (a b : Word) (s : State) : (compareFlags a b).claim s =
    { c := some (decide (a.toNat < b.toNat)), z := some (decide (a = b)), n := some (decide (a.toInt < b.toInt)),
      v := some (outsideSigned 32 (a.toInt - b.toInt)) } := by
  have hv : overflowSub a b false = outsideSigned 32 (a.toInt - b.toInt) := congrArg _ (Int.sub_zero _)
  exact congrArg (FlagClaim.mk _ _ _ <| some ·) hv

/-- The byte at bit 8 j for one of the four j is zero (R398). -/
theorem anyByteZero_eq (a : Word) : anyByteZero a = decide (∃ j : Fin 4, a.extractLsb' (8 * j.val) 8 = 0#8) := by
  rw [Bool.eq_iff_iff]
  simp only [anyByteZero, Bool.or_eq_true, beq_iff_eq, decide_eq_true_iff]
  constructor
  · rintro (((h | h) | h) | h)
    exacts [⟨3, h⟩, ⟨2, h⟩, ⟨1, h⟩, ⟨0, h⟩]
  · rintro ⟨j, hj⟩
    fin_cases j
    exacts [.inr hj, .inl (.inr hj), .inl (.inl (.inr hj)), .inl (.inl (.inl hj))]

/-- The Z of CMPBI: ANYBZ for n = 0, else the masked operand's (R398). -/
theorem byteCompareFlags_claim (imm : Imm) (a : Word) (s : State) :
    FlagUpdate.claim (if immIsZeroCode imm then { z := some (anyByteZero a) } else zeroFlag (a &&& immMaskValue imm)) s =
      { s.sameFlags with
        z := some
          (if imm = .code 0#5 then decide (∃ j : Fin 4, a.extractLsb' (8 * j.val) 8 = 0#8)
           else a &&& immMaskValue imm == 0#32) } := by
  by_cases h : imm = .code 0#5
  · rw [if_pos h, if_pos (by simp [immIsZeroCode, h]), anyByteZero_eq]
    rfl
  · rw [if_neg h, if_neg (by simp [immIsZeroCode, h])]
    rfl

/-! ### Leading zeros (R400) -/

theorem zerosAbove_le (v : Word) (n : Nat) : zerosAbove v n ≤ n := by
  induction n with
  | zero => exact Nat.le_refl 0
  | succ n ih =>
    rw [zerosAbove]
    split <;> omega

/-- The bits counted are zero. -/
theorem getLsbD_of_lt_zerosAbove {v : Word} {n j : Nat} (h : j < zerosAbove v n) : v.getLsbD (n - 1 - j) = false := by
  induction n generalizing j with
  | zero => exact absurd h (Nat.not_lt_zero j)
  | succ n ih =>
    rw [zerosAbove] at h
    split at h
    · exact absurd h (Nat.not_lt_zero j)
    · cases j with
      | zero => simp_all
      | succ j =>
        have hj := ih (j := j) (by omega)
        rwa [show n + 1 - 1 - (j + 1) = n - 1 - j by omega]

/-- The bit below those counted is one. -/
theorem getLsbD_zerosAbove {v : Word} {n : Nat} (h : zerosAbove v n < n) : v.getLsbD (n - 1 - zerosAbove v n) = true := by
  induction n with
  | zero => exact absurd h (Nat.not_lt_zero _)
  | succ n ih =>
    rw [zerosAbove] at h ⊢
    split
    · assumption
    · rename_i hbit
      rw [if_neg hbit] at h
      have hbelow := ih (by omega)
      rwa [show n + 1 - 1 - (1 + zerosAbove v n) = n - 1 - zerosAbove v n by omega]

/-! ### Results that depend on the SR and SP alone -/

/-- The carry into bit 9 as an addend (R405). -/
theorem stackAddress_eq (sr sp : Word) :
    stackAddress sr sp = (sp.extractLsb' 9 23 ++ srFP sr ++ 0#2) +
      (if sp.getLsbD 8 = true ∧ (srFP sr).getLsbD 6 = false then 0x200#32 else 0#32) := by
  by_cases h : sp.getLsbD 8 = true ∧ (srFP sr).getLsbD 6 = false
  · rw [if_pos h, stackAddress, if_pos (by rw [h.1, h.2]; rfl)]
  · rw [if_neg h, stackAddress, if_neg (by simpa using h), BitVec.add_zero]

/-- The SETxx instructions but SET0 (R406). -/
theorem setOp_yields {one : Word} {c : Cond} {cond : Bool} (hi : exec i s = setOp rd one c s) (hlen : i.length = 1)
    (hp : rd.isPC = false) (hu : Usable [rd] s) (hc : c.holds s.sr = cond) :
    Yields i rd (if cond then one else 0#32) s.sameFlags false s :=
  registerOp_results hi hlen hp hu (by rw [holds_opened, hc]) rfl (FlagClaim.follows_refl _)

end

/-! ### The statements -/

/-- Settles O18: the instructions differ only in the scale and in whether they check the limit. -/
theorem indexMoveResults : Obligations.IndexMoveResults := by
  intro rd rs lim s hp hd hs hu v trap
  refine ⟨?xm1, ?xm2, ?xm4, ?xm8, ?xx1, ?xx2, ?xx4, ?xx8⟩
  case xm1 => exact checkedIndex_yields (rfl : execXm1 rd rs lim s = _) rfl hp hd hs hu
  case xm2 => exact checkedIndex_yields (rfl : execXm2 rd rs lim s = _) rfl hp hd hs hu
  case xm4 => exact checkedIndex_yields (rfl : execXm4 rd rs lim s = _) rfl hp hd hs hu
  case xm8 => exact checkedIndex_yields (rfl : execXm8 rd rs lim s = _) rfl hp hd hs hu
  case xx1 => exact uncheckedIndex_yields (rfl : execXx1 rd rs lim s = _) rfl hp hd hs hu
  case xx2 => exact uncheckedIndex_yields (rfl : execXx2 rd rs lim s = _) rfl hp hd hs hu
  case xx4 => exact uncheckedIndex_yields (rfl : execXx4 rd rs lim s = _) rfl hp hd hs hu
  case xx8 => exact uncheckedIndex_yields (rfl : execXx8 rd rs lim s = _) rfl hp hd hs hu

/-- Settles O19: CHK and CHKZ test operands that the start of the instruction leaves alone; CHKZ names the SR as well, so that it
needs the window closed. -/
theorem checkOutcomes : Obligations.CheckOutcomes := by
  intro rd rs n s
  refine ⟨fun hu => ?chk, fun hw => ?chkz, ?nop, fun hw hslot => ?fetch⟩
  case chk =>
    have hrd : source 1 rd s.opened = source 1 rd s := source_opened 1 hu (by simp)
    have hrs : source 1 rs s.opened = source 1 rs s := source_opened 1 hu (by simp)
    exact testOp_results (i := .chk rd rs) (rfl : execChk rd rs s = _) rfl hu (by rw [hrd, hrs]) (FlagClaim.follows_refl _)
  case chkz =>
    have hu : Usable [rd, .sr] s := usable_closed hw
    exact testOp_results (i := .chkz rd) (rfl : execChkz rd s = _) rfl hu (by rw [source_opened 1 hu (by simp)])
      (FlagClaim.follows_refl _)
  case nop => exact passes_opened (i := .nop) rfl rfl
  case fetch => exact fetch_passes hw hslot

/-- Settles O20: each compare writes the flags of operands that the start of the instruction leaves alone. (The model's own
`compareFlags` has the name without the suffix.) -/
theorem compareFlags_holds : Obligations.CompareFlags := by
  intro rd rs imm s hu claim
  have hrd (len : Nat) : source len rd s.opened = source len rd s := source_opened len hu (by simp)
  have hrs : source 1 rs s.opened = source 1 rs s := source_opened 1 hu (by simp)
  have hcarry : sourceOrCarry 1 rs s.opened = sourceOrCarry 1 rs s := sourceOrCarry_opened 1 hu (by simp)
  have hu' : Usable [rd] s := hu.mono (by simp)
  refine ⟨?cmp, ?cmpi, ?cmpb, ?cmpbi⟩
  case cmp =>
    have h := testOp_passes (i := .cmp rd rs) (rfl : execCmp rd rs s = _) rfl hu (FlagClaim.follows_refl _)
    rwa [hrd, hcarry, compareFlags_claim] at h
  case cmpi =>
    have h := testOp_passes (i := .cmpi rd imm) (rfl : execCmpi rd imm s = _) rfl hu' (FlagClaim.follows_refl _)
    rwa [hrd, compareFlags_claim] at h
  case cmpb =>
    have h := testOp_passes (i := .cmpb rd rs) (rfl : execCmpb rd rs s = _) rfl hu (FlagClaim.follows_refl _)
    rwa [hrd, hrs] at h
  case cmpbi =>
    have h := testOp_passes (i := .cmpbi rd imm) (rfl : execCmpbi rd imm s = _) rfl hu' (FlagClaim.follows_refl _)
    rwa [hrd, byteCompareFlags_claim] at h

/-- Settles O21: the count that TESTLZ places is `zerosAbove` of all 32 bits. -/
theorem leadingZerosAndStackAddress : Obligations.LeadingZerosAndStackAddress := by
  intro ld ls rd s
  refine ⟨⟨zerosAbove (s.lr ls.toNat) 32, zerosAbove_le _ _, fun j => getLsbD_of_lt_zerosAbove, getLsbD_zerosAbove, ?testlz⟩,
    fun hp hd hu => ?setadr⟩
  case testlz =>
    exact registerOp_results (i := .testlz ld ls) (rfl : execTestlz ld ls s = _) rfl rfl (usable_locals (by simp [regIsGlobal]))
      (by rw [lr_opened]) rfl (FlagClaim.follows_refl _)
  case setadr =>
    exact registerOp_results (i := .setadr rd) (rfl : execSetadr rd s = _) rfl hp hu
      (by rw [stackAddress_eq, State.opened_sr, State.opened_sp, srFP_setH]) rfl (FlagClaim.follows_refl _)

/-- Settles O22: each instruction but SET0 is `setOp` at its row of the conditions of R421. -/
theorem setConditionalResults : Obligations.SetConditionalResults := by
  intro rd s hp _ hu does
  have sets {i : Instr} {one : Word} {cond : Bool} (c : Cond) (hi : exec i s = setOp rd one c s) (hlen : i.length = 1)
      (hc : c.holds s.sr = cond) : does i cond one := setOp_yields hi hlen hp hu hc
  have hgt : Cond.gt.holds s.sr = !(srN s.sr || srZ s.sr) := (Bool.not_or _ _).symm
  have hht : Cond.ht.holds s.sr = !(srC s.sr || srZ s.sr) := (Bool.not_or _ _).symm
  have hset0 : does (.set0 rd) false 1#32 :=
    registerOp_results (i := .set0 rd) (rfl : execSet0 rd s = _) rfl hp hu rfl rfl (FlagClaim.follows_refl _)
  exact ⟨sets .always rfl rfl rfl, hset0, sets .always rfl rfl rfl,
    sets .le rfl rfl rfl, sets .le rfl rfl rfl, sets .gt rfl rfl hgt, sets .gt rfl rfl hgt,
    sets .lt rfl rfl rfl, sets .lt rfl rfl rfl, sets .ge rfl rfl rfl, sets .ge rfl rfl rfl,
    sets .se rfl rfl rfl, sets .se rfl rfl rfl, sets .ht rfl rfl hht, sets .ht rfl rfl hht,
    sets .st rfl rfl rfl, sets .st rfl rfl rfl, sets .he rfl rfl rfl, sets .he rfl rfl rfl,
    sets .e rfl rfl rfl, sets .e rfl rfl rfl, sets .ne rfl rfl rfl, sets .ne rfl rfl rfl,
    sets .v rfl rfl rfl, sets .v rfl rfl rfl, sets .nv rfl rfl rfl, sets .nv rfl rfl rfl⟩

end Sys2Proof.Machine
end

section
/-! Branches, Delayed Branches and what is refused as a delay instruction or with the PC as destination (R420 to R426, I2.10, I2.11):
the statements O32 to O35 and O37. -/

namespace Sys2Proof.Machine

/-! ### Branches (R421 to R426) -/

theorem Cond.holds_eq_false_iff {c : Cond} {sr : Word} : c.holds sr = false ↔ ¬ c.Met sr := by
  rw [← Cond.holds_iff, Bool.not_eq_true]

/-- Settles O32: each Branch is `branchOp` at its row of the conditions of R421. -/
theorem branchOutcomes : Obligations.BranchOutcomes := by
  intro rel s hslot does
  have branches {i : Instr} (c : Cond) (hi : exec i s = branchOp c rel s) (hlen : i.length = rel.length) : does i (c.Met s.sr) := by
    obtain ⟨htaken, hpasses⟩ := branchOp_outcome hi hlen hslot
    refine ⟨fun hc => ?_, fun hc => hpasses (Cond.holds_eq_false_iff.mpr hc)⟩
    obtain ⟨t, ht, hflags, hgoes, _⟩ := htaken (Cond.holds_iff.mpr hc)
    exact ⟨t, ht, hflags, hgoes⟩
  exact ⟨branches .v rfl rfl, branches .nv rfl rfl, branches .e rfl rfl, branches .ne rfl rfl, branches .st rfl rfl,
    branches .he rfl rfl, branches .se rfl rfl, branches .ht rfl rfl, branches .lt rfl rfl, branches .ge rfl rfl,
    branches .le rfl rfl, branches .gt rfl rfl, branches .always rfl rfl⟩

/-- Settles O33: each Delayed Branch is `delayedBranchOp` at its row of the conditions of R421. -/
theorem delayedBranchOutcomes : Obligations.DelayedBranchOutcomes := by
  intro rel s hslot next does
  have branches {i : Instr} (c : Cond) (hi : exec i s = delayedBranchOp c rel s) : does i (c.Met s.sr) := by
    obtain ⟨t, ht, hflags, hafter, hlock, htrace, hilc, htaken, hgoes⟩ := delayedBranchOp_outcome hi hslot
    refine ⟨t, ht, hflags, hafter, hlock, htrace, hilc, fun hc => ?_, fun hc => hgoes (Cond.holds_eq_false_iff.mpr hc)⟩
    obtain ⟨hpc, hpending, haddr, _⟩ := htaken (Cond.holds_iff.mpr hc)
    exact ⟨hpc, hpending, haddr⟩
  exact ⟨branches .v rfl, branches .nv rfl, branches .e rfl, branches .ne rfl, branches .st rfl, branches .he rfl,
    branches .se rfl, branches .ht rfl, branches .lt rfl, branches .ge rfl, branches .le rfl, branches .gt rfl,
    branches .always rfl⟩

/-- Settles O34: in a delay slot `delayedBranchOp` is the Branch that flushes the cache (R426 (b)). -/
theorem misplacedDelayedBranches : Obligations.MisplacedDelayedBranches := by
  intro rel s hslot does
  have branches {i : Instr} (c : Cond) (hi : exec i s = delayedBranchOp c rel s) (hlen : i.length = rel.length) :
      does i (c.Met s.sr) := by
    obtain ⟨htaken, hpasses⟩ := branchAlways_outcome (hi.trans (if_pos hslot)) hlen
    refine ⟨fun hc => ?_, fun hc => hpasses (Cond.holds_eq_false_iff.mpr hc)⟩
    obtain ⟨t, ht, hflags, hgoes, _⟩ := htaken (Cond.holds_iff.mpr hc)
    exact ⟨t, ht, hflags, hgoes⟩
  exact ⟨branches .v rfl rfl, branches .nv rfl rfl, branches .e rfl rfl, branches .ne rfl rfl, branches .st rfl rfl,
    branches .he rfl rfl, branches .se rfl rfl, branches .ht rfl rfl, branches .lt rfl rfl, branches .ge rfl rfl,
    branches .le rfl rfl, branches .gt rfl rfl, branches .always rfl rfl⟩

/-! ### Refused delay instructions (R426 (b), I2.11) -/

/-- In a delay slot the slot check refuses. -/
theorem slotGuard_refused {s : State} (h : s.inSlot = true) : slotGuard s = some (.refused .delayInstruction) := if_pos h

/-- Settles O35: with the window closed each of them comes to the slot check, which refuses. -/
theorem slotRefusals : Obligations.SlotRefusals := by
  intro rd rs ld ls n k rel imm c s hslot hw stops
  have hstop := slotGuard_refused hslot
  have hbranch {i : Instr} (c : Cond) (hi : exec i s = branchOp c rel s) : stops i := hi.trans (guarded_stop hstop)
  have htrap {i : Instr} (c : Cond) (hi : exec i s = trapOp c k s) : stops i := hi.trans (guarded_stop hstop)
  have hsoft {i : Instr} (j : Nat) (hi : exec i s = softwareOp j ld ls s) : stops i := hi.trans (guarded_stop hstop)
  have hpc (hp : rd.isPC = true) : (if rd.isPC then slotGuard s else none) = some (.refused .delayInstruction) :=
    (if_pos hp).trans hstop
  have hmov {i : Instr} {len : Nat} {v : Word} {f : FlagUpdate} (hp : rd.isPC = true) (hi : exec i s = moveLow len rd v f s) :
      stops i := hi.trans (guarded_stop (hpc hp))
  exact ⟨hbranch .v rfl, hbranch .nv rfl, hbranch .e rfl, hbranch .ne rfl, hbranch .st rfl, hbranch .he rfl,
    hbranch .se rfl, hbranch .ht rfl, hbranch .lt rfl, hbranch .ge rfl, hbranch .le rfl, hbranch .gt rfl, hbranch .always rfl,
    htrap .le rfl, htrap .gt rfl, htrap .lt rfl, htrap .ge rfl, htrap .se rfl, htrap .ht rfl, htrap .st rfl, htrap .he rfl,
    htrap .e rfl, htrap .ne rfl, htrap .v rfl, htrap .always rfl,
    (guarded_closed hw hstop : execCall ld rs c s = _),
    fun hp hs => (guarded_closed hw (andThen_passed (addressGuard_none hp hs) hstop) : execRet rs s = _),
    (if_neg (by simp [hw]) : execFetch n s = _).trans (guarded_closed hw hstop),
    hsoft 0 rfl, hsoft 1 rfl, hsoft 2 rfl, hsoft 3 rfl, hsoft 4 rfl, hsoft 5 rfl, hsoft 6 rfl, hsoft 7 rfl, hsoft 8 rfl,
    hsoft 9 rfl, hsoft 10 rfl, hsoft 11 rfl, hsoft 12 rfl, hsoft 13 rfl, hsoft 15 rfl,
    fun hp => ⟨hmov hp (if_neg (by simp [hw]) : execMov rd rs s = _), hmov hp (if_neg (by simp [hw]) : execMovi rd imm s = _),
      guarded_closed hw (hpc hp), guarded_closed hw (hpc hp), guarded_closed hw (hpc hp), guarded_closed hw (hpc hp)⟩⟩

/-! ### Refused PC destinations (R420, I2.6, I2.7, I2.10) -/

theorem pcGuard_refused {rd : Reg} (hp : rd.isPC = true) : pcGuard rd = some (.refused .pcDestination) := if_pos hp

theorem indexGuard_pc {rd rs : Reg} (hp : rd.isPC = true) : indexGuard rd rs = some (.refused .pcDestination) := if_pos hp

/-- Settles O37: with the window closed the check of the destination decides. -/
theorem pcDestinationRefusals : Obligations.PcDestinationRefusals := by
  intro rd rs imm c lim n s hp hw stops
  have hpc := pcGuard_refused hp
  iterate 25 refine ⟨guarded_closed hw hpc, ?_⟩
  iterate 8 refine ⟨guarded_closed hw (indexGuard_pc hp), ?_⟩
  iterate 27 refine ⟨guarded_closed hw hpc, ?_⟩
  exact guarded_closed hw hpc

end Sys2Proof.Machine
end

section
/-! New stack frames, FRAME and RET (R430 to R447): what each of them answers, what is left by the words it pushes or pulls, and the
statements O39, O40, O43 and O44. -/

namespace Sys2Proof.Machine

/-! ### CALL and the Trap instructions (R430, R434) -/

section
variable {s : State} (hslot : s.inSlot = false)
include hslot

theorem delayPending_of_not_inSlot : s.delayPending = false := (Bool.or_eq_false_iff.mp hslot).1

theorem exec_call {ld : BitVec 4} {rs : Reg} {c : Const} (hu : Usable [rs] s) : exec (.call ld rs c) s =
    .next (s.called ld c.length ((if rs.isSR then 0#32 else source c.length rs s) + constValue c)).bump := by
  show execCall ld rs c s = _
  rw [execCall, windowGuard_none (dst := none) hu, slotGuard_none hslot, source_opened c.length hu (by simp)]
  rfl

theorem trapOp_taken {c : Cond} {k : BitVec 6} {entry : Word} (hc : c.Met s.sr) (he : trapEntry s.mcr k.toNat = some entry) :
    trapOp c k s = .next (s.trapped entry).bump := by
  rw [trapOp, slotGuard_none hslot, guarded, if_pos (Cond.holds_iff.mpr hc), he]

theorem trapOp_passed {c : Cond} {k : BitVec 6} (hc : ¬ c.Met s.sr) : trapOp c k s = retire 1 s.opened := by
  rw [trapOp, slotGuard_none hslot, guarded, if_neg (mt Cond.holds_iff.mp hc)]
end

/-- Settles O39: past its checks CALL is `State.called`. -/
theorem callMakesAFrame : Obligations.CallMakesAFrame := by
  intro ld rs c s hslot hu n next base
  exact ⟨_, exec_call hslot hu, called_spec ld c.length (base + constValue c) s (delayPending_of_not_inSlot hslot)⟩

/-- Settles O40: each Trap instruction is `trapOp` at its row of the conditions of R421. -/
theorem trapInstructionsEnter : Obligations.TrapInstructionsEnter := by
  intro k s hslot n does
  have traps {i : Instr} (c : Cond) (hi : exec i s = trapOp c k s) (hlen : i.length = 1) : does i (c.Met s.sr) :=
    ⟨fun hc entry he => ⟨_, hi.trans (trapOp_taken hslot hc he), trapped_spec entry s (delayPending_of_not_inSlot hslot)⟩,
      fun hc => passes_opened (hi.trans (trapOp_passed hslot hc)) hlen⟩
  exact ⟨traps .le rfl rfl, traps .gt rfl rfl, traps .lt rfl rfl, traps .ge rfl rfl, traps .se rfl rfl, traps .ht rfl rfl,
    traps .st rfl rfl, traps .he rfl rfl, traps .e rfl rfl, traps .ne rfl rfl, traps .v rfl rfl, traps .always rfl rfl⟩

/-! ### FRAME (R440, R441, R544) -/

/-- `t` is `u` but for what the end of an instruction writes: the PC, P, the ILC, the delay state and the number of draws. -/
def EndedFrom (u t : State) : Prop :=
  SameButEnd t.sr u.sr ∧ t = { u with pc := t.pc, sr := t.sr, delayPending := t.delayPending, fresh := t.fresh }

theorem endedFrom_settle (u : State) (len : Nat) : EndedFrom u (u.settle len).bump := by
  refine ⟨sameButEnd_settle u len, ?_⟩
  unfold State.settle
  split <;> rfl

theorem endedFrom_settleError (u : State) (len : Nat) : EndedFrom u (u.settleError len) := by
  refine ⟨sameButEnd_settleError u len, ?_⟩
  unfold State.settleError
  split <;> rfl

theorem EndedFrom.frame {u t : State} (h : EndedFrom u t) : Frame [] u t := by
  obtain ⟨_, ht⟩ := h
  rw [ht]
  exact frame_of_eq (registersKept_of_eq _ rfl rfl rfl) rfl

/-- The fields above the ILC are not touched by the end of an instruction. -/
theorem SameButEnd.extractLsb' {a b : Word} (h : SameButEnd a b) {lo : Nat} (hlo : 21 ≤ lo) (n : Nat) :
    a.extractLsb' lo n = b.extractLsb' lo n := by
  apply BitVec.eq_of_getLsbD_eq
  intro j hj
  rw [BitVec.getLsbD_extractLsb', BitVec.getLsbD_extractLsb', h (lo + j) (by omega) (by omega)]

/-- An SR with the four condition flags of before. -/
theorem sameFlags_meets {s : State} {sr : Word} (h : ∀ j < 4, sr.getLsbD j = s.sr.getLsbD j) : s.sameFlags.meets sr :=
  ⟨fun _ hb => (h 0 (by omega)).trans (Option.some.inj hb), fun _ hb => (h 1 (by omega)).trans (Option.some.inj hb),
    fun _ hb => (h 2 (by omega)).trans (Option.some.inj hb), fun _ hb => (h 3 (by omega)).trans (Option.some.inj hb)⟩

/-- The SP may be set to the same word on both sides. -/
theorem SpecialKept.withSp {s t : State} (h : SpecialKept s t) (a : Word) : SpecialKept { s with sp := a } { t with sp := a } :=
  { h with sp := rfl }

/-- Pushes leave all special registers but the SP. -/
theorem special_pushes (s : State) (n : Nat) : SpecialKept { s with sp := (s.pushes n).sp } (s.pushes n) := by
  constructor
  case busLock =>
    rw [busLock_pushes, Bool.and_comm]
    exact lock_starts
  all_goals simp

theorem pushCount_le (sr sp : Word) : pushCount sr sp ≤ 64 := by
  unfold pushCount
  dsimp only
  split <;> omega

section
variable (ld ls : BitVec 4) (s : State)

/-- The state in which FRAME pushes: FP, FL and M are restructured. -/
def State.framed : State := { s.opened with sr := frameSR s.opened.sr ld ls }

theorem exec_frame : exec (.frame ld ls) s =
    let n := pushCount (s.framed ld ls).sr s.sp
    let u := (s.framed ld ls).pushes n
    if 0 < n ∧ s.ub.toNat ≤ s.sp.toNat then raiseError 1 u else retire 1 u := rfl

theorem special_framed : SpecialKept s (s.framed ld ls) := .of_eq rfl (.inl rfl) (.inl rfl)

theorem srFP_framed : srFP (s.framed ld ls).sr = srFP s.sr - BitVec.ofNat 7 ls.toNat := by simp [State.framed, frameSR]

theorem srFL_framed : srFL (s.framed ld ls).sr = ld := by simp [State.framed, frameSR]

theorem srILC_framed : srILC (s.framed ld ls).sr = srILC s.sr := by simp [State.framed, frameSR]

theorem getLsbD_framed_sr {j : Nat} (h4 : j ≠ 4) (h5 : j ≠ 5) (h : j < 21) :
    (s.framed ld ls).sr.getLsbD j = s.sr.getLsbD j := by
  show (frameSR (setH s.sr false) ld ls).getLsbD j = _
  rw [frameSR, setM, getLsbD_setBit, if_neg (by omega), setFL, getLsbD_setField, if_neg (by omega), setFP, getLsbD_setField,
    if_neg (by omega), getLsbD_setH _ _ _ h5]

/-- The number of words FRAME pushes, by the fields it writes (R440). -/
theorem pushCount_framed (sp : Word) : pushCount (s.framed ld ls).sr sp =
    let d := (sp.extractLsb' 2 7 + 54#7 -
      (srFP s.sr - BitVec.ofNat 7 ls.toNat + BitVec.ofNat 7 (if ld = 0#4 then 16 else ld.toNat))).toNat
    if 64 ≤ d then 128 - d else 0 := by
  simp only [pushCount, frameLength, srFP_framed, srFL_framed]

/-- The status after FRAME. -/
theorem framed_status {sr : Word} (h : SameButEnd sr (s.framed ld ls).sr) :
    srFP sr = srFP s.sr - BitVec.ofNat 7 ls.toNat ∧ srFL sr = ld ∧ srM sr = false ∧ srH sr = false ∧ s.sameFlags.meets sr ∧
      SameBits 6 16 sr s.sr ∧ srS sr = srS s.sr := by
  have hbit {j : Nat} (h4 : j ≠ 4) (h5 : j ≠ 5) (h17 : j < 17 ∨ j = 18) : sr.getLsbD j = s.sr.getLsbD j :=
    (h j (by omega) (by omega)).trans (getLsbD_framed_sr ld ls s h4 h5 (by omega))
  have hm : srM (s.framed ld ls).sr = false := by simp [State.framed, frameSR]
  have hh : srH (s.framed ld ls).sr = false := by simp [State.framed, frameSR]
  exact ⟨(h.extractLsb' (by omega) 7).trans (srFP_framed ld ls s), (h.extractLsb' (by omega) 4).trans (srFL_framed ld ls s),
    (h 4 (by omega) (by omega)).trans hm, (h 5 (by omega) (by omega)).trans hh,
    sameFlags_meets fun j hj => hbit (by omega) (by omega) (by omega),
    fun j h6 h16 => hbit (by omega) (by omega) (by omega), hbit (by omega) (by omega) (by omega)⟩

/-- The registers, the special registers and the memory after FRAME pushed `n` words. -/
theorem framed_pushes {n : Nat} {u : State} (hwf : Memory.wf s.mem = true) (hn : n ≤ 64)
    (he : EndedFrom ((s.framed ld ls).pushes n) u) :
    u.sp = wordAt s.sp n ∧ RegistersKept [] s u ∧ SpecialKept { s with sp := u.sp } u ∧ u.ioTrace = s.ioTrace ∧
      u.busLock = (s.busLock || (!s.fcr.getLsbD 17 &&
        (List.range n).any fun j => decide (regionOf (wordAt s.sp j) = .external))) ∧ u.iramRelied = s.iramRelied ∧
      (∀ j k b, j < n → b < 4 → s.cell (regionOf (wordAt s.sp j)) (alignWord (wordAt s.sp j) + BitVec.ofNat 32 b) = some k →
        Memory.read u.mem k = (wordBytes (s.getLocal ((wordAt s.sp j).extractLsb' 2 6))).getD b 0#8) ∧
      (∀ k, (∀ j b, j < n → b < 4 →
          s.cell (regionOf (wordAt s.sp j)) (alignWord (wordAt s.sp j) + BitVec.ofNat 32 b) ≠ some k) →
        Memory.read u.mem k = Memory.read s.mem k) := by
  have hframe := he.frame
  have heq := he.2
  have hsp : u.sp = ((s.framed ld ls).pushes n).sp := hframe.special.sp
  have hmem : u.mem = ((s.framed ld ls).pushes n).mem := (congrArg State.mem heq :)
  refine ⟨hsp.trans (pushes_sp _ n), ?registers, ?special, hframe.io.trans (State.pushes_ioTrace ..),
    (congrArg State.busLock heq :).trans (busLock_pushes _ n), (congrArg State.iramRelied heq :).trans (State.pushes_iramRelied ..),
    fun j k b hj hb hk => ?pushed, fun k hk => ?other⟩
  case registers =>
    exact registersKept_of_eq [] ((congrArg State.fer heq :).trans (State.pushes_fer ..))
      ((congrArg State.gpr heq :).trans (State.pushes_gpr ..)) ((congrArg State.locals heq :).trans (State.pushes_locals ..))
  case special =>
    rw [hsp]
    exact (((special_framed ld ls s).withSp _).trans (special_pushes _ n)).trans hframe.special
  case pushed =>
    rw [hmem]
    exact read_pushes_same (s := s.framed ld ls) hwf n (by omega) hj hb hk
  case other =>
    rw [hmem]
    exact read_pushes_other (s := s.framed ld ls) hwf n hk
end

/-- Settles O43: whether control goes on or the Frame Error is taken, the end of FRAME leaves what it pushed. -/
theorem frameRestructuresTheStack : Obligations.FrameRestructuresTheStack := by
  intro ld ls s hwf word fl' fp d n done
  have hn : pushCount (s.framed ld ls).sr s.sp = n := pushCount_framed ld ls s s.sp
  have hexec := exec_frame ld ls s
  rw [hn] at hexec
  have hdone {u : State} (he : EndedFrom ((s.framed ld ls).pushes n) u) : done u := by
    have hle : n ≤ 64 := hn ▸ pushCount_le _ _
    have hsr : SameButEnd u.sr (s.framed ld ls).sr := State.pushes_sr (s.framed ld ls) n ▸ he.1
    obtain ⟨hfp, hfl, hm, hh, hflags, hbits, hs⟩ := framed_status ld ls s hsr
    exact ⟨hfp, hfl, hm, hh, hflags, hbits, hs, framed_pushes ld ls s hwf hle he⟩
  refine ⟨fun hfits => ?goesOn, fun hpos hub => ?error⟩
  case goesOn =>
    exact ⟨_, hexec.trans (if_neg hfits), hdone (endedFrom_settle _ 1),
      continues_retire (State.pushes_pc ..) (State.pushes_delayPending ..) (State.pushes_afterDelayedBranch ..)
        (State.pushes_callLockout ..)⟩
  case error =>
    refine ⟨_, hdone (endedFrom_settleError _ 1), ?_⟩
    rw [hexec.trans (if_pos ⟨hpos, hub⟩)]
    exact takesError rfl (State.pushes_pc ..) (State.pushes_delayPending ..) (State.pushes_delayAddr ..) (State.pushes_mcr ..)
      (by rw [State.pushes_sr, srILC_framed])

/-! ### RET (R446, R447, R547) -/

/-- A bit of the SR that a Return restores. -/
theorem getLsbD_returnSR (a b : Word) {j : Nat} (h : j < 18 ∨ 21 ≤ j) : (returnSR a b).getLsbD j = b.getLsbD j := by
  rw [returnSR, setS, getLsbD_setBit, if_neg (by omega), setILC, getLsbD_setField, if_neg (by omega)]

theorem srS_returnSR (a b : Word) : srS (returnSR a b) = a.getLsbD 0 := srS_setS ..

theorem srILC_returnSR (a b : Word) : srILC (returnSR a b) = 0#2 := by simp [returnSR]

theorem srFP_returnSR (a b : Word) : srFP (returnSR a b) = srFP b := by simp [returnSR]

theorem srL_returnSR (a b : Word) : srL (returnSR a b) = srL b := by simp [returnSR]

theorem returnIllegal_iff {old new : Word} : returnIllegal old new = true ↔
    (srS old = false ∧ srS new = true) ∨ (srS new = false ∧ srL old = false ∧ srL new = true) := by
  simp [returnIllegal, and_assoc]

theorem pullCount_le (sr sp : Word) : pullCount sr sp ≤ 64 := by
  unfold pullCount
  dsimp only
  split <;> omega

/-- A Return leaves all but the PC, the SR and the cache. -/
theorem frame_returned (s : State) (a b : Word) : Frame [] s (s.returned a b) :=
  (frame_of_eq (s := s) (t := { s with pc := clearBit0 a, sr := returnSR a b, delayPending := false })
    (registersKept_of_eq [] rfl rfl rfl) rfl).trans (frame_flush _ a) (by simp)

/-- Pulls leave all special registers but the SP. -/
theorem special_pulls (s : State) (n : Nat) : SpecialKept { s with sp := (s.pulls n).sp } (s.pulls n) := by
  constructor
  case busLock =>
    rw [busLock_pulls, Bool.and_comm]
    exact lock_starts
  case relied =>
    rw [iramRelied_pulls]
    generalize (List.range n).any _ = unguaranteed
    cases s.iramRelied <;> cases unguaranteed <;> simp
  all_goals simp

/-- Pulls leave all registers but the local registers of the pulled words. -/
theorem registers_pulls (s : State) (n : Nat) :
    RegistersKept ((List.range n).map fun j => .loc ((wordBelow s.sp j).extractLsb' 2 6)) s (s.pulls n) := by
  intro p hpc hsr hp
  cases p with
  | pc => exact absurd rfl hpc
  | sr => exact absurd rfl hsr
  | fer => exact State.pulls_fer s n
  | gpr i => simp [State.held]
  | loc i =>
    refine getLocal_pulls_other s n fun j hj hi => hp ?_
    rw [hi]
    exact List.mem_map_of_mem (List.mem_range.mpr hj)

/-- RET past its checks. -/
theorem exec_ret_eq_returnFrom {rs : Reg} {q : Place} {s : State} (hslot : s.inSlot = false) (hw : s.window = false)
    (hp : rs.isPC = false) (hs : rs.isSR = false) (hq : nextPlace rs s = some q) :
    exec (.ret rs) s = returnFrom (source 1 rs s) (s.get 1 q) s.opened := by
  obtain ⟨_, hqsr, _⟩ := nextPlace_ne hp hq
  rw [← source_opened 1 (usable_closed hw) (List.mem_singleton_self rs), ← get_opened s 1 hqsr]
  show execRet rs s = _
  rw [execRet, windowGuard_none (usable_closed hw), hp, hs, slotGuard_none hslot, hq]
  rfl

/-- Settles O44: the restored pair decides whether the Return is illegal, and what is pulled is counted and read after it. -/
theorem returnRestoresAndPulls : Obligations.ReturnRestoresAndPulls := by
  intro rs q s hslot hw hp hs hq a b restored illegal d n word
  have hexec : exec (.ret rs) s = returnFrom a b s.opened := exec_ret_eq_returnFrom hslot hw hp hs hq
  have hframe : Frame [] s (s.opened.returned a b) := (frame_opened s).trans (frame_returned _ a b) (by simp)
  have hrestored : restored (s.opened.returned a b) :=
    ⟨rfl, fun j _ h17 => getLsbD_returnSR a b (by omega), srS_returnSR a b, srILC_returnSR a b,
      fun j h21 _ => getLsbD_returnSR a b (by omega)⟩
  have hillegal : returnIllegal s.opened.sr (s.opened.returned a b).sr = true ↔ illegal := by
    rw [returnIllegal_iff, State.opened_sr, srS_setH, srL_setH, State.returned_sr, srS_returnSR, srL_returnSR]
    exact Iff.rfl
  refine ⟨fun h => ?traps, fun h => ?pulls⟩
  case traps =>
    refine ⟨_, hrestored, hframe, fun entry he => ?_⟩
    have he' : trapEntry (s.opened.returned a b).mcr 60 = some entry := by rwa [State.returned_mcr]
    obtain ⟨t, ht, hentered⟩ := takeException_next (irq := false) he'
    exact ⟨t, hexec.trans ((if_pos (hillegal.mpr h)).trans ht), hentered⟩
  case pulls =>
    have hn : pullCount (s.opened.returned a b).sr (s.opened.returned a b).sp = n := by
      rw [State.returned_sr, pullCount, srFP_returnSR]
      rfl
    have hle : n ≤ 64 := hn ▸ pullCount_le _ _
    have hnext : exec (.ret rs) s = .next ((s.opened.returned a b).pulls n).bump := by
      rw [hexec, returnFrom, if_neg (mt hillegal.mp h), hn]
    refine ⟨_, hnext, ?restored, pulls_sp _ n, fun j hj => getLocal_pulls_same _ n hle hj, fun p hpc hsr hmem => ?registers,
      ?special, fun k => ?memory, ?io, ?lock, ?kept, iramRelied_pulls _ n, ?delay, ?after, ?lockout⟩
    case restored => simpa only [restored, State.bump_pc, State.bump_sr, State.pulls_pc, State.pulls_sr] using hrestored
    case registers => exact (registers_pulls (s.opened.returned a b) n p hpc hsr hmem).trans (hframe.registers p hpc hsr (by simp))
    case special =>
      have hpulls := special_pulls (s.opened.returned a b) n
      exact ((hframe.special.withSp _).trans hpulls).trans (.of_eq rfl (.inl rfl) (.inl rfl))
    case memory => rw [State.bump_mem, State.pulls_mem]; exact hframe.memory k
    case io => exact (State.pulls_ioTrace ..).trans hframe.io
    case lock =>
      have hflush : (s.opened.returned a b).busLock = (s.busLock || (decide (regionOf a = .external) && !s.fcr.getLsbD 17)) :=
        (flushed_flush _ a).lock
      rw [State.bump_busLock, busLock_pulls, hflush, hframe.special.fcr, Bool.or_assoc, Bool.and_comm (decide _),
        ← Bool.and_or_distrib_left]
      rfl
    case kept => exact (State.pulls_iramKept ..).trans hframe.guaranteed
    case delay => exact State.pulls_delayPending (s.opened.returned a b) n
    case after => exact State.pulls_afterDelayedBranch (s.opened.returned a b) n
    case lockout => exact State.pulls_callLockout (s.opened.returned a b) n

end Sys2Proof.Machine
end

section
/-! The Extended DSP instructions (spec/46_extended_dsp.md): what they leave of a result in G14, G15 and the latch of the Extended
Overflow, and the statements O45 to O47. -/

namespace Sys2Proof.Machine

/-! ### The instructions -/

section
variable (ld ls : BitVec 4) (s : State)

theorem exec_emul : exec (.emul ld ls) s = dspOp ld ls (fun _ a b => { low := a * b }) s := rfl
theorem exec_emulu : exec (.emulu ld ls) s = dspOp ld ls (fun _ a b => dspDouble (a.toNat * b.toNat) false) s := rfl
theorem exec_emuls : exec (.emuls ld ls) s = dspOp ld ls (fun _ a b => dspDouble (a.toInt * b.toInt) false) s := rfl
theorem exec_emac : exec (.emac ld ls) s = dspOp ld ls (fun t a b => dspSum (t.g15.toInt + wordProduct a b)) s := rfl
theorem exec_emsub : exec (.emsub ld ls) s = dspOp ld ls (fun t a b => dspSum (t.g15.toInt - wordProduct a b)) s := rfl
theorem exec_ehmac : exec (.ehmac ld ls) s = dspOp ld ls (fun t a b => dspSum (t.g15.toInt + dotProduct a b)) s := rfl
theorem exec_emacd : exec (.emacd ld ls) s = dspOp ld ls (fun t a b => dspDoubleSum (t.acc.toInt + a.toInt * b.toInt)) s := rfl
theorem exec_emsubd : exec (.emsubd ld ls) s = dspOp ld ls (fun t a b => dspDoubleSum (t.acc.toInt - a.toInt * b.toInt)) s := rfl
theorem exec_ehmacd : exec (.ehmacd ld ls) s = dspOp ld ls (fun t a b => dspDoubleSum (t.acc.toInt + dotProduct a b)) s := rfl
theorem exec_ehcmuld : exec (.ehcmuld ld ls) s =
    dspOp ld ls (fun _ a b => dspComplex (complexReal a b) (complexImaginary a b)) s := rfl
theorem exec_ehcmacd : exec (.ehcmacd ld ls) s =
    dspOp ld ls (fun t a b => dspComplex (t.g14.toInt + complexReal a b) (t.g15.toInt + complexImaginary a b)) s := rfl
theorem exec_ehcsumd : exec (.ehcsumd ld ls) s = dspOp ld ls (fun t a _ => dspButterfly a t.g14.toInt t.g15.toInt) s := rfl
theorem exec_ehcfftd : exec (.ehcfftd ld ls) s =
    dspOp ld ls (fun t a _ => dspButterfly a (t.g14.sshiftRight 15).toInt (t.g15.sshiftRight 15).toInt) s := rfl
end

/-! ### What is placed (R470, R473) -/

theorem held_putDsp_high (s : State) (r : DspResult) : (s.putDsp r).held (.gpr 11) = r.high.getD s.gpr[11] := by
  cases h : r.high <;> simp [State.putDsp, State.held, h]

theorem held_putDsp_low (s : State) (r : DspResult) : (s.putDsp r).held (.gpr 12) = r.low := by
  simp [State.putDsp, State.held]

theorem held_putDsp_other (s : State) (r : DspResult) {p : Place} (hhigh : p ≠ .gpr 11) (hlow : p ≠ .gpr 12) :
    (s.putDsp r).held p = s.held p := by
  cases p with
  | gpr k =>
    have h11 : (11 : Nat) ≠ k.val := fun h => hhigh (congrArg Place.gpr (Fin.ext h.symm))
    have h12 : (12 : Nat) ≠ k.val := fun h => hlow (congrArg Place.gpr (Fin.ext h.symm))
    cases h : r.high <;> simp [State.putDsp, State.held, h, h11, h12]
  | pc | sr | fer | loc _ => rfl

/-- The result placed keeps the special registers but the latch of the Extended Overflow. -/
theorem special_putDsp (s : State) (r : DspResult) :
    SpecialKept { s with extOvfPending := (s.putDsp r).extOvfPending } (s.putDsp r) :=
  .of_eq rfl (.inl rfl) (.inl rfl)

/-- The instruction leaves `hi` in G14 and `lo` in G15, saves the Extended Overflow if `ovf` and FCR(16) = 0, and changes nothing
else, no flag either; control goes on two halfwords later (R470, R473). -/
def PlacesDsp (i : Instr) (hi lo : Word) (ovf : Bool) (s : State) : Prop :=
  ∃ t, exec i s = .next t ∧ t.held (.gpr 11) = hi ∧ t.held (.gpr 12) = lo ∧
    t.extOvfPending = (s.extOvfPending || (ovf && !s.fcr.getLsbD 16)) ∧
    s.sameFlags.meets t.sr ∧ srH t.sr = false ∧ StatusKept s.sr t.sr ∧ Continues 2 s t ∧
    RegistersKept [.gpr 11, .gpr 12] s t ∧ SpecialKept { s with extOvfPending := t.extOvfPending } t ∧
    MemoryKept s t ∧ t.ioTrace = s.ioTrace

/-- The state after an Extended DSP instruction with the result `q`. -/
def State.dspDone (s : State) (q : DspResult) : State := ((s.opened.putDsp q).settle 2).bump

theorem frame_dspDone (s : State) (q : DspResult) : Frame [] (s.opened.putDsp q) (s.dspDone q) := frame_settle _ 2

theorem held_dspDone (s : State) (q : DspResult) {p : Place} (hpc : p ≠ .pc) (hsr : p ≠ .sr) :
    (s.dspDone q).held p = (s.opened.putDsp q).held p :=
  (frame_dspDone s q).registers p hpc hsr List.not_mem_nil

theorem registersKept_dspDone (s : State) (q : DspResult) : RegistersKept [.gpr 11, .gpr 12] s (s.dspDone q) := by
  intro p hpc hsr hp
  simp only [List.mem_cons, List.not_mem_nil, or_false, not_or] at hp
  calc (s.dspDone q).held p
    _ = (s.opened.putDsp q).held p := held_dspDone s q hpc hsr
    _ = s.opened.held p := held_putDsp_other _ q hp.1 hp.2
    _ = s.held p := (frame_opened s).registers p hpc hsr List.not_mem_nil

theorem specialKept_dspDone (s : State) (q : DspResult) :
    SpecialKept { s with extOvfPending := (s.dspDone q).extOvfPending } (s.dspDone q) := by
  have hopened : SpecialKept { s with extOvfPending := (s.opened.putDsp q).extOvfPending }
      { s.opened with extOvfPending := (s.opened.putDsp q).extOvfPending } := .of_eq rfl (.inl rfl) (.inl rfl)
  rw [(frame_dspDone s q).special.extOvfPending]
  exact hopened.trans ((special_putDsp s.opened q).trans (frame_dspDone s q).special)

/-- What every Extended DSP instruction leaves of the result `q` of its operation. -/
theorem dspOp_places {i : Instr} {ld ls : BitVec 4} {f : State → Word → Word → DspResult} {s : State} {q : DspResult}
    (hi : exec i s = dspOp ld ls f s) (hq : f s.opened (s.lr ld.toNat) (s.lr ls.toNat) = q) :
    PlacesDsp i (q.high.getD s.gpr[11]) q.low q.ovf s := by
  have hexec : exec i s = .next (s.dspDone q) := by
    rw [hi, dspOp, lr_opened, lr_opened, hq]
    rfl
  have hhigh : (s.dspDone q).held (.gpr 11) = q.high.getD s.gpr[11] :=
    (held_dspDone s q (p := .gpr 11) nofun nofun).trans (held_putDsp_high s.opened q)
  have hlow : (s.dspDone q).held (.gpr 12) = q.low :=
    (held_dspDone s q (p := .gpr 12) nofun nofun).trans (held_putDsp_low s.opened q)
  have hframe := frame_dspDone s q
  obtain ⟨hflags, hH, hkept⟩ :=
    status_settle (w := s.opened.putDsp q) (f := noFlags) (FlagClaim.follows_refl s.sameFlags) rfl 2
  exact ⟨_, hexec, hhigh, hlow, hframe.special.extOvfPending, hflags, hH, hkept, continues_retire rfl rfl rfl rfl,
    registersKept_dspDone s q, specialKept_dspDone s q, hframe.memory, hframe.io⟩

/-- The unsigned product is the same 64 bits whether taken of natural numbers or of integers. -/
theorem ofInt_natProduct (m n : Nat) : BitVec.ofInt 64 (m * n) = BitVec.ofNat 64 (m * n) := by
  rw [← Int.natCast_mul, BitVec.ofInt_natCast]

/-! ### The statements -/

/-- Settles O45: each result is a product, of one word at EMUL. -/
theorem dspMultiplyResults : Obligations.DspMultiplyResults := by
  intro ld ls s x y does word
  have emul : does (.emul ld ls) s.gpr[11] (x * y) false := dspOp_places (exec_emul ..) rfl
  have emulu : word (.emulu ld ls) (BitVec.ofNat 64 (x.toNat * y.toNat)) := by
    rw [← ofInt_natProduct]
    exact dspOp_places (exec_emulu ..) rfl
  have emuls : word (.emuls ld ls) (BitVec.ofInt 64 (x.toInt * y.toInt)) := dspOp_places (exec_emuls ..) rfl
  exact ⟨emul, emulu, emuls⟩

/-- Settles O46: EMAC, EMSUB and EHMAC are one-word sums, EMACD, EMSUBD and EHMACD two-word sums. -/
theorem dspAccumulateResults : Obligations.DspAccumulateResults := by
  intro ld ls s x y does g acc halves word double
  have sum {i : Instr} {f : State → Word → Word → DspResult} {r : Int} (hi : exec i s = dspOp ld ls f s)
      (hf : f s.opened x y = dspSum r) : word i r := dspOp_places hi hf
  have doubleSum {i : Instr} {f : State → Word → Word → DspResult} {r : Int} (hi : exec i s = dspOp ld ls f s)
      (hf : f s.opened x y = dspDoubleSum r) : double i r := dspOp_places hi hf
  exact ⟨sum (exec_emac ..) rfl, sum (exec_emsub ..) rfl, sum (exec_ehmac ..) rfl, doubleSum (exec_emacd ..) rfl,
    doubleSum (exec_emsubd ..) rfl, doubleSum (exec_ehmacd ..) rfl⟩

/-- Settles O47: EHCMULD and EHCMACD are complex sums, EHCSUMD and EHCFFTD butterflies over Ld and the old G14 and G15. -/
theorem dspComplexResults : Obligations.DspComplexResults := by
  intro ld ls s x y does a b c d out words butterfly
  have complex {i : Instr} {f : State → Word → Word → DspResult} {re im : Int} (hi : exec i s = dspOp ld ls f s)
      (hf : f s.opened x y = dspComplex re im) : words i re im := dspOp_places hi hf
  have packed {i : Instr} {f : State → Word → Word → DspResult} {u v : Int} (hi : exec i s = dspOp ld ls f s)
      (hf : f s.opened x y = dspButterfly x u v) : butterfly i u v := dspOp_places hi hf
  exact ⟨complex (exec_ehcmuld ..) rfl, complex (exec_ehcmacd ..) rfl, packed (exec_ehcsumd ..) rfl,
    packed (exec_ehcfftd ..) rfl⟩

end Sys2Proof.Machine
end

section
/-! Entries to routines and handlers (R500 to R546): Software instructions, exceptions, the Pointer Error of a zero address register and
the Privilege Error of a move to a high global register, and the statements O30, O41, O50 and O51. -/

namespace Sys2Proof.Machine

/-! ### Software instructions (R501) and exceptions (R534) -/

theorem softwareOp_entered {k : Nat} {ld ls : BitVec 4} {entry : Word} {s : State} (hslot : s.inSlot = false)
    (he : softEntry s.mcr k = some entry) : softwareOp k ld ls s = .next (s.softEntered ld ls entry).bump := by
  rw [softwareOp, slotGuard_none hslot, guarded, he]

/-- Settles O41: past its check a Software instruction is `State.softEntered`, whose five saved words are read one by one. -/
theorem softwareInstructionsEnter : Obligations.SoftwareInstructionsEnter := by
  intro ld ls s hslot n at' does
  have enters {i : Instr} (k : Nat) (hi : exec i s = softwareOp k ld ls s) : does i k := by
    intro entry he
    obtain ⟨hpc, hwords, hrest⟩ := softEntered_spec ld ls entry s (delayPending_of_not_inSlot hslot)
    exact ⟨_, hi.trans (softwareOp_entered hslot he), hpc, hwords 0 (by decide), hwords 1 (by decide), hwords 2 (by decide),
      hwords 3 (by decide), hwords 4 (by decide), hrest⟩
  exact ⟨enters 0 rfl, enters 1 rfl, enters 2 rfl, enters 3 rfl, enters 4 rfl, enters 5 rfl, enters 6 rfl, enters 7 rfl,
    enters 8 rfl, enters 9 rfl, enters 10 rfl, enters 11 rfl, enters 12 rfl, enters 13 rfl, enters 15 rfl⟩

/-- Settles O51: `takeException` at a mapped entry. -/
theorem exceptionEntrySavesAndMasks : Obligations.ExceptionEntrySavesAndMasks :=
  fun _ _ _ _ he => takeException_next he

/-! ### Privilege Error of a move in the H window (R546) -/

/-- An error exception after flags alone were written. -/
theorem flagsError_spec {i : Instr} {len : Nat} {f : FlagUpdate} {g : FlagClaim} {s : State} (hlen : i.length = len)
    (hg : g.Follows (f.claim s)) :
    ∃ u, OnlyFlags g s u ∧ TakesError i s u (raiseError len (s.opened.withFlags f)) :=
  ⟨(s.opened.withFlags f).settleError len,
    (onlyFlags_withFlags s f).congr (sameButEnd_settleError _ len) (frame_settleError _ len) hg,
    takesError hlen rfl rfl rfl rfl ((srILC_applyFlags ..).trans (srILC_setH ..))⟩

/-- A user's move to a high global register is not made. -/
theorem moveHigh_user {len : Nat} {c : BitVec 4} {v : Word} {f : FlagUpdate} {s : State} (hu : srS s.sr = false) :
    moveHigh len (.glob c) v f s = raiseError len (s.opened.withFlags s.freeZNV) := if_pos (by simp [State.user, hu])

/-- Settles O50: with the window open both moves are `moveHigh`, which in user state writes no more than Z, N and V. -/
theorem userWritesToHighRegistersFail : Obligations.UserWritesToHighRegistersFail := by
  intro c rs imm s hw hu fails
  have hfails {i : Instr} {v : Word} {f : FlagUpdate} (hi : exec i s = moveHigh i.length (.glob c) v f s) : fails i := by
    show ∃ u, _ ∧ TakesError i s u (exec i s)
    rw [hi, moveHigh_user hu]
    exact flagsError_spec rfl (FlagClaim.follows_of (.inr rfl) (.inl rfl) (.inl rfl) (.inl rfl))
  exact ⟨hfails (if_pos hw : execMov (.glob c) rs s = _), hfails (if_pos hw : execMovi (.glob c) imm s = _)⟩

/-! ### Pointer Error of a zero address register (R232, R543) -/

/-- The access of a load or store of `rs` whose checks pass is at a zero address register, to be updated as `update` says. -/
structure AtZero (len : Nat) (fields : List Reg) (rs : Reg) (check : Option Result) (access : State → Access)
    (update : Option (Place × Word)) (s : State) : Prop where
  usable : Usable (rs :: fields) s
  passes : check = none
  null : (access s.opened).null = true
  updates : (access s.opened).update = update
  plain : (access s.opened).Plain

/-- After the register of a loadable pair there is another. -/
theorem LoadablePair.exists_next {rs : Reg} (h : LoadablePair rs) (s : State) : ∃ q, nextPlace rs s = some q := by
  refine Option.ne_none_iff_exists'.mp fun hnone => ?_
  have hle := (h 15#4 (nextPlace_eq_none_iff.mp hnone)).2
  exact absurd hle (by decide)

namespace AtZero
variable {len : Nat} {fields : List Reg} {rs : Reg} {check : Option Result} {access : State → Access}
  {update : Option (Place × Word)} {s : State} {i : Instr}

theorem loads (h : AtZero len fields rs check access update s) (hr : Loadable rs) (ty : DataType)
    (hi : exec i s = loadOp len ty fields rs check access s) (hlen : i.length = len) : PointerFails i update s :=
  h.updates ▸ loadOp_fails hi hlen h.usable h.passes hr rfl h.plain h.null

theorem loadsPair (h : AtZero len fields rs check access update s) (hr : LoadablePair rs)
    (hi : exec i s = loadDoubleOp len fields rs check access s) (hlen : i.length = len) : PointerFails i update s := by
  obtain ⟨q, hq⟩ := hr.exists_next s
  exact h.updates ▸ loadDoubleOp_fails hi hlen h.usable h.passes hr hq rfl h.plain h.null

theorem stores (h : AtZero len fields rs check access update s) (ty : DataType)
    (hi : exec i s = storeOp len ty fields rs check access s) (hlen : i.length = len) : PointerFails i update s :=
  h.updates ▸ storeOp_fails hi hlen h.usable h.passes rfl h.plain h.null

theorem storesPair {q : Place} (h : AtZero len fields rs check access update s) (hq : nextPlace rs s = some q)
    (hi : exec i s = storeDoubleOp len fields rs check access s) (hlen : i.length = len) : PointerFails i update s :=
  h.updates ▸ storeDoubleOp_fails hi hlen h.usable h.passes rfl h.plain h.null (storeFollower_some hq)

theorem ioLoads (h : AtZero len fields rs check access none s) (hr : Loadable rs)
    (hi : exec i s = ioLoadOp len fields rs access s) (hlen : i.length = len) : PointerFails i none s := by
  refine io_fails (hi.trans ?_) hlen
  rw [ioLoadOp, windowGuard_none (dst := none) h.usable, loadGuard_none hr]
  exact if_pos h.null

theorem ioLoadsPair (h : AtZero len fields rs check access none s) (hr : LoadablePair rs)
    (hi : exec i s = ioLoadDoubleOp len fields rs access s) (hlen : i.length = len) : PointerFails i none s := by
  obtain ⟨q, hq⟩ := hr.exists_next s
  refine io_fails (hi.trans ?_) hlen
  rw [ioLoadDoubleOp, windowGuard_none (dst := none) h.usable, loadGuard_pair hr, hq]
  exact if_pos h.null

theorem ioStores (h : AtZero len fields rs check access none s) (hi : exec i s = ioStoreOp len fields rs access s)
    (hlen : i.length = len) : PointerFails i none s := by
  refine io_fails (hi.trans ?_) hlen
  rw [ioStoreOp, windowGuard_none (dst := none) h.usable]
  exact if_pos h.null

theorem ioStoresPair {q : Place} (h : AtZero len fields rs check access none s) (hq : nextPlace rs s = some q)
    (hi : exec i s = ioStoreDoubleOp len fields rs access s) (hlen : i.length = len) : PointerFails i none s := by
  refine io_fails (hi.trans ?_) hlen
  rw [ioStoreDoubleOp, windowGuard_none (dst := none) h.usable, storeFollower_some hq]
  exact if_pos h.null

/-- LDW.S. -/
theorem ldwS {rd : Reg} {dis : Dis} (h : AtZero dis.length [rd] rs (addressGuard rd) (nextAccess rd dis) update s)
    (hr : Loadable rs) : PointerFails (.ldwS rd rs dis) update s := by
  refine h.updates ▸ pointer_fails (len := dis.length) ?_ rfl h.plain
  show execLdwS rd rs dis s = _
  rw [execLdwS, windowGuard_none (dst := none) h.usable, h.passes, loadGuard_none hr]
  exact if_pos h.null

/-- STW.S. -/
theorem stwS {rd : Reg} {dis : Dis} (h : AtZero dis.length [rd] rs (addressGuard rd) (nextAccess rd dis) update s) :
    PointerFails (.stwS rd rs dis) update s := by
  refine h.updates ▸ pointer_fails (len := dis.length) ?_ rfl h.plain
  show execStwS rd rs dis s = _
  rw [execStwS, windowGuard_none (dst := none) h.usable, h.passes]
  exact if_pos h.null
end AtZero

section
variable {rd rs : Reg} {ld : BitVec 4} {dis : Dis} {s : State}

/-- .D and .IOD (R244, R250). -/
theorem atZero_displacement (hu : Usable [rd, rs] s) (hb : source dis.length rd s = 0#32) :
    AtZero dis.length [rd] rs none (displacementAccess rd dis) none s where
  usable := hu.mono (by simp [or_comm])
  passes := rfl
  null := by simp [displacementAccess, source_opened _ hu, hb]
  updates := rfl
  plain := plain_displacement

/-- .N and .S (R246, R247). -/
theorem atZero_next (hu : Usable [rd, rs] s) (hp : rd.isPC = false) (hs : rd.isSR = false) (hb : source dis.length rd s = 0#32) :
    AtZero dis.length [rd] rs (addressGuard rd) (nextAccess rd dis) (some (place rd s, disValue dis)) s where
  usable := hu.mono (by simp [or_comm])
  passes := addressGuard_none hp hs
  null := by simp [nextAccess, source_opened _ hu, hb]
  updates := by simp [nextAccess, source_opened _ hu, hb]
  plain := plain_next hp hs

/-- .R (R240, R241). -/
theorem atZero_register (hu : Usable [rs] s) (hb : s.lr ld.toNat = 0#32) :
    AtZero 1 [] rs none (registerAccess ld) none s where
  usable := hu
  passes := rfl
  null := by simp [registerAccess, hb]
  updates := rfl
  plain := plain_register

/-- .P (R242, R243). -/
theorem atZero_post (size : Word) (hu : Usable [rs] s) (hb : s.lr ld.toNat = 0#32) :
    AtZero 1 [] rs none (postAccess size ld) (some (place (.loc ld) s, size)) s where
  usable := hu
  passes := rfl
  null := by simp [postAccess, hb]
  updates := by simp [postAccess, hb]
  plain := plain_post
end

/-- Settles O30: each address mode is at a zero address register, and each shape of load and store then takes the Pointer Error. -/
theorem zeroPointersFail : Obligations.ZeroPointersFail := by
  intro rd rs ld dis q s loadable loadable2 up
  refine ⟨fun hu hb => ?address, fun hu hb => ?register⟩
  case address =>
    have h := atZero_displacement (rs := rs) hu hb
    have hnext (hp : rd.isPC = false) (hs : rd.isSR = false) := atZero_next (rs := rs) hu hp hs hb
    refine ⟨fun hr => ?loads, fun hr => ?pairs, ?stores⟩
    case loads =>
      refine ⟨h.loads hr .bs rfl rfl, h.loads hr .bu rfl rfl, h.loads hr .hu rfl rfl, h.loads hr .hs rfl rfl,
        h.loads hr .w rfl rfl, h.ioLoads hr rfl rfl, fun hp hs => ?_⟩
      have h := hnext hp hs
      exact ⟨h.loads hr .bs rfl rfl, h.loads hr .bu rfl rfl, h.loads hr .hu rfl rfl, h.loads hr .hs rfl rfl,
        h.loads hr .w rfl rfl, h.ldwS hr⟩
    case pairs =>
      exact ⟨h.loadsPair hr rfl rfl, h.ioLoadsPair hr rfl rfl, fun hp hs => (hnext hp hs).loadsPair hr rfl rfl⟩
    case stores =>
      refine ⟨h.stores .bs rfl rfl, h.stores .bu rfl rfl, h.stores .hu rfl rfl, h.stores .hs rfl rfl, h.stores .w rfl rfl,
        h.ioStores rfl rfl, fun hp hs => ?_, fun hq => ⟨h.storesPair hq rfl rfl, h.ioStoresPair hq rfl rfl,
          fun hp hs => (hnext hp hs).storesPair hq rfl rfl⟩⟩
      have h := hnext hp hs
      exact ⟨h.stores .bs rfl rfl, h.stores .bu rfl rfl, h.stores .hu rfl rfl, h.stores .hs rfl rfl, h.stores .w rfl rfl,
        h.stwS⟩
  case register =>
    have h := atZero_register (rs := rs) hu hb
    have hpost (size : Word) := atZero_post (rs := rs) size hu hb
    exact ⟨fun hr => ⟨h.loads hr .w rfl rfl, (hpost 4#32).loads hr .w rfl rfl⟩,
      fun hr => ⟨h.loadsPair hr rfl rfl, (hpost 8#32).loadsPair hr rfl rfl⟩,
      h.stores .w rfl rfl, (hpost 4#32).stores .w rfl rfl,
      fun hq => ⟨h.storesPair hq rfl rfl, (hpost 8#32).storesPair hq rfl rfl⟩⟩

end Sys2Proof.Machine
end

section
/-! Time (R558 to R570): the prescaler, the IO3 modes at a tick and power-down, and the statements O53, O54 and O56. -/

namespace Sys2Proof.Machine

/-! ### The prescaler (R558) -/

theorem advance_add (s : State) (m n : Nat) : s.advance (m + n) = (s.advance m).advance n := by
  induction m generalizing s with
  | zero => rw [Nat.zero_add]; rfl
  | succ m ih => rw [Nat.succ_add]; exact ih s.cycle

/-- While the prescaler does not overflow, cycles count it up and do nothing else. -/
theorem advance_counts (s : State) {k : Nat} (h : s.prescaler + k ≤ prescale s.tpr + 1) :
    s.advance k = { s with prescaler := s.prescaler + k } := by
  induction k generalizing s with
  | zero => rfl
  | succ k ih =>
    have hcycle : s.cycle = { s with prescaler := s.prescaler + 1 } := if_neg (by omega)
    calc s.advance (k + 1)
        _ = ({ s with prescaler := s.prescaler + 1 } : State).advance k := by rw [State.advance, hcycle]
        _ = { s with prescaler := s.prescaler + 1 + k } := ih _ (by show s.prescaler + 1 + k ≤ prescale s.tpr + 1; omega)
        _ = { s with prescaler := s.prescaler + (k + 1) } := by rw [Nat.add_assoc, Nat.add_comm 1 k]

/-- The cycle at which it overflows clears it and is a time unit. -/
theorem cycle_ticks {s : State} (h : prescale s.tpr + 1 ≤ s.prescaler) : s.cycle = { s with prescaler := 0 }.tick := if_pos h

/-- Settles O53: n + 1 cycles count the prescaler up, and the next one is the time unit. -/
theorem prescalerDividesByNPlusTwo : Obligations.PrescalerDividesByNPlusTwo := by
  intro s h0 n
  have hcounts {k : Nat} (hk : k < n + 2) : s.advance k = { s with prescaler := k } := by
    have h := advance_counts s (k := k) (by rw [h0, Nat.zero_add]; exact Nat.lt_succ_iff.mp hk)
    rwa [h0, Nat.zero_add] at h
  have htick : s.advance (n + 2) = { s with prescaler := 0 }.tick := by
    rw [advance_add s (n + 1) 1, hcounts (Nat.lt_succ_self _)]
    exact cycle_ticks (Nat.le_refl _)
  refine ⟨fun k hk => by rw [hcounts hk], ?_, ?_⟩
  · rw [htick]
    exact State.evalIO3_tr ..
  · rw [htick]
    exact State.tick_prescaler _

/-! ### The IO3 modes at a tick (R564 to R568) -/

/-- What a time unit leaves of the IO3 modes. -/
theorem compares_tick (s : State) :
    Compares s.fcr s.wcr (s.tr + 1#32) s.wcrUpperOpen s.equalFlag s.eventFlag s.io3Toggle true s s.tick :=
  (compares_evalIO3 { s with tr := s.tr + 1#32 } true).congr rfl rfl rfl rfl rfl rfl rfl rfl

theorem tick_tr (s : State) : s.tick.tr = s.tr + 1#32 := State.evalIO3_tr ..

/-- The event at a time unit (R566). -/
theorem tick_eventFlag (s : State) : s.tick.eventFlag = (s.eventFlag ||
    (s.fcr.extractLsb' 12 2 == 1#2 && s.fcr.getLsbD 10 && s.pins.io.getLsbD 2 == s.fcr.getLsbD 9)) :=
  State.tick_pins s ▸ (compares_tick s).event

/-- Without a new event nothing is captured. -/
theorem tick_wcr_of_eventFlag {s : State} (h : s.tick.eventFlag = s.eventFlag) : s.tick.wcr = s.wcr := by
  rw [(compares_tick s).capture, h]
  exact if_neg (by simp)

/-- There is none but in IO3Timing mode with IO3 as input. -/
theorem tick_eventFlag_kept {s : State} (h : s.fcr.extractLsb' 12 2 = 1#2 → s.fcr.getLsbD 10 = false) :
    s.tick.eventFlag = s.eventFlag := by
  rw [tick_eventFlag]
  by_cases hm : s.fcr.extractLsb' 12 2 = 1#2
  · simp only [h hm, Bool.and_false, Bool.false_and, Bool.or_false]
  · simp only [beq_false_of_ne hm, Bool.false_and, Bool.or_false]

/-- Settles O54: in each mode the flags, the latch and the Reset request by what the time unit compares, and WCR by the event. -/
theorem io3ModesCompareWcrWithTr : Obligations.Io3ModesCompareWcrWithTr := by
  intro s equal mode t
  have h := compares_tick s
  have hevent : t.eventFlag = (s.eventFlag || (mode == 1#2 && s.fcr.getLsbD 10 && s.pins.io.getLsbD 2 == s.fcr.getLsbD 9)) :=
    tick_eventFlag s
  have hcapture : t.wcr = if !s.eventFlag && t.eventFlag then (s.tr + 1#32) &&& 0xFFFF#32 else s.wcr := h.capture
  have hopen : t.wcrUpperOpen = (s.wcrUpperOpen && !(!s.eventFlag && t.eventFlag)) := h.captured
  have hequal : t.equalFlag = (s.equalFlag ||
    (decide equal && (mode == 0#2 || (mode == 1#2 && (!s.fcr.getLsbD 10 || !t.eventFlag))))) := h.equal
  have htoggle : t.io3Toggle = (s.io3Toggle ^^ (decide equal && mode == 1#2 && !s.fcr.getLsbD 10)) := h.toggle
  have hreset : t.resetRequest = (s.resetRequest || (mode == 2#2 && decide equal)) := h.watchdog
  have hkept (h : t.eventFlag = s.eventFlag) : t.wcr = s.wcr := tick_wcr_of_eventFlag h
  have hquiet (h : mode = 1#2 → s.fcr.getLsbD 10 = false) : t.eventFlag = s.eventFlag := tick_eventFlag_kept h
  refine ⟨tick_tr s, ?_⟩
  clear_value t mode
  generalize s.fcr.getLsbD 10 = input at *
  refine ⟨?opened, fun hm => ?timer, fun hm hout => ?output, fun hm hin he hl => ?capture, fun hm hin he hl => ?waiting,
    fun hm hin => ?input, fun hm => ?watchdog, fun hm => ?standard⟩
  case opened =>
    by_cases h : mode = 1#2 → input = false
    · rw [hopen, hquiet h, Bool.and_assoc, Bool.not_and_self, Bool.and_false]
    · obtain ⟨hm, hin⟩ := Classical.not_imp.mp h
      simp [hopen, hm, hin]
  case timer =>
    have he := hquiet (by simp [hm])
    simp [hequal, htoggle, hreset, hm, he, hkept he]
  case output =>
    have he := hquiet fun _ => hout
    simp [hequal, htoggle, hreset, hm, hout, he, hkept he]
  case capture =>
    have ht : t.eventFlag = true := by rw [hevent, hl, hm, hin]; simp
    simp [hequal, hcapture, hm, hin, he, ht]
  case waiting =>
    have ht : t.eventFlag = s.eventFlag := by rw [hevent, beq_false_of_ne hl, Bool.and_false, Bool.or_false]
    simp [hequal, hm, ht, he, hkept ht]
  case input =>
    refine ⟨by simp [htoggle, hin], by simp [hreset, hm], fun he => ?_⟩
    have ht : t.eventFlag = s.eventFlag := by rw [hevent, he, Bool.true_or]
    simp [hequal, hm, hin, ht, he, hkept ht]
  case watchdog =>
    have he := hquiet (by simp [hm])
    simp [hequal, hreset, hm, hkept he]
  case standard =>
    have he := hquiet (by simp [hm])
    simp [hequal, htoggle, hreset, hm, he, hkept he]

/-! ### Power-down (R570) -/

theorem mem_sources (q : Source) : q ∈ sources := by cases q <;> decide

/-- The processor wakes exactly when L = 0 and some source requests. -/
theorem wakes_iff (s : State) : s.wakes = true ↔ srL s.sr = false ∧ ∃ q, s.request q = true := by
  simp [State.wakes, mem_sources]

/-- Whether power-down has ended is no part of what the sources request. -/
theorem request_powerDown (s : State) (b : Bool) (q : Source) : { s with powerDown := b }.request q = s.request q := by
  cases q <;> rfl

/-- After time went on in power-down, only its end is left to decide. -/
theorem sleep_eq {s : State} (hp : s.powerDown = true) (cycles : Nat) :
    s.sleep cycles = { (s.advance cycles).bump with powerDown := !(s.advance cycles).bump.wakes } := by
  have hp' : (s.advance cycles).bump.powerDown = true := (State.advance_powerDown s cycles).trans hp
  rw [State.sleep]
  generalize (s.advance cycles).bump = t at hp' ⊢
  cases hw : t.wakes with
  | true => rfl
  | false => exact congrArg (fun b => { t with powerDown := b }) hp'

/-- Settles O56: a step in power-down is a stretch of time and the wake-up condition after it. -/
theorem powerDownSleepsUntilARequest : Obligations.PowerDownSleepsUntilARequest := by
  intro s hr hp
  have hstep : step s = .next (s.takeInput.sleep s.cycles) := by
    rw [step, turn, hr, hp]
    rfl
  rw [sleep_eq hp] at hstep
  refine ⟨_, hstep, by simp, by simp, registersKept_of_eq _ (by simp) (by simp) (by simp), fun k => by simp, by simp, by simp,
    by simp, ?wakes⟩
  case wakes =>
    simp only [request_powerDown]
    rw [Bool.not_eq_false']
    exact wakes_iff _

end Sys2Proof.Machine
end

section
/-! The boundary (R112, R425, R530 to R532, R553 to R560, R590): which instruction is fetched, which exception is taken and what a Reset
leaves, and the statements O7, O52 and O55. -/

namespace Sys2Proof.Machine

/-! ### The instruction fetched (R129, R425) -/

section
variable {s : State} (hstale : s.stale = [])
include hstale

/-- With nothing modified since the last flush the fetch reads memory (R133). -/
theorem fetchHalf_eq_readHalf (a : Word) : s.fetchHalf a = s.readHalf (regionOf a) a := by
  unfold State.fetchHalf
  rw [hstale]
  cases s.cell (regionOf a) a <;> rfl

/-- So it does for each halfword but those beyond the third of a Delayed Branch with its delay instruction (R426 (a)). -/
theorem instructionHalf_eq_readHalf {i : Nat} {a : Word} (hi : s.delayPending = true → (srILC s.sr).toNat + i < 3)
    (ha : s.fetchAddr + BitVec.ofNat 32 (2 * i) = a) : s.instructionHalf i = s.readHalf (regionOf a) a := by
  have hmemory : (s.delayPending && decide (3 ≤ (srILC s.sr).toNat + i)) = false := by
    cases hd : s.delayPending with
    | false => rfl
    | true => simpa using hi hd
  rw [State.instructionHalf, hmemory, ← ha]
  exact fetchHalf_eq_readHalf hstale _
end

/-- Where no Reset, power-down or exception intervenes, a step is the instruction fetched and then the passage of its cycles. -/
theorem step_of_fetch {s : State} {i : Instr} (hr : s.takeInput.resetRequest = false) (hp : s.takeInput.powerDown = false)
    (hn : s.takeInput.pending = none) (hf : s.takeInput.fetch = .ok i) :
    step s = thenAdvance s.cycles (exec i s.takeInput) := by
  rw [step, turn, hr, hp, hn, runInstruction, hf]
  rfl

/-- Settles O7: the halfwords of the instruction are read from memory, as many as the ILC leaves of a delay instruction. -/
theorem stepRunsTheDecodedInstruction : Obligations.StepRunsTheDecodedInstruction := by
  intro s i u hr hp hn
  refine ⟨step_of_fetch hr hp hn, fun hs hd hi => ?sequential, fun hs hd hilc _ hi => ?afterShort,
    fun hs hd hilc hi => ?afterLong⟩
  all_goals
    refine step_of_fetch hr hp hn ?_
    show decode (u.instructionHalf 0) (u.instructionHalf 1) (u.instructionHalf 2) = _
  case sequential =>
    have haddr : u.fetchAddr = u.pc := if_neg (by simp [hd])
    have hmem (j : Nat) : u.delayPending = true → (srILC u.sr).toNat + j < 3 := fun h => absurd (hd.symm.trans h) (by decide)
    rw [instructionHalf_eq_readHalf hs (hmem 0) (by rw [haddr, BitVec.add_zero]),
      instructionHalf_eq_readHalf hs (hmem 1) (by rw [haddr]), instructionHalf_eq_readHalf hs (hmem 2) (by rw [haddr])]
    exact hi
  case afterShort =>
    have haddr : u.fetchAddr = u.delayAddr := if_pos hd
    rw [instructionHalf_eq_readHalf hs (i := 0) (fun _ => by rw [hilc]; decide) (by rw [haddr, BitVec.add_zero]),
      instructionHalf_eq_readHalf hs (i := 1) (fun _ => by rw [hilc]; decide) (by rw [haddr])]
    exact hi _
  case afterLong =>
    have haddr : u.fetchAddr = u.delayAddr := if_pos hd
    rw [instructionHalf_eq_readHalf hs (i := 0) (fun _ => by rw [hilc]; decide) (by rw [haddr, BitVec.add_zero])]
    exact hi _ _

/-! ### The exception taken (R531, R532, R553) -/

/-- A best exception of a list: none has a smaller priority number. -/
def Best (c : Candidate) (l : List Candidate) : Prop := c ∈ l ∧ ∀ d ∈ l, c.priority ≤ d.priority

/-- A best one is found beginning from any. -/
theorem best_bestOf (b : Candidate) (l : List Candidate) : ∃ c, bestOf (some b) l = some c ∧ Best c (b :: l) := by
  induction l generalizing b with
  | nil => exact ⟨b, rfl, by simp [Best]⟩
  | cons d rest ih =>
    rw [bestOf]
    by_cases hlt : d.priority < b.priority
    · obtain ⟨c, hc, hmem, hle⟩ := ih d
      rw [if_pos hlt]
      have hcd := hle d List.mem_cons_self
      exact ⟨c, hc, List.mem_cons_of_mem _ hmem, List.forall_mem_cons.mpr ⟨by omega, hle⟩⟩
    · obtain ⟨c, hc, hmem, hle⟩ := ih b
      rw [if_neg hlt]
      obtain ⟨hcb, hrest⟩ := List.forall_mem_cons.mp hle
      refine ⟨c, hc, ?_, List.forall_mem_cons.mpr ⟨hcb, List.forall_mem_cons.mpr ⟨by omega, hrest⟩⟩⟩
      exact (List.mem_cons.mp hmem).elim (fun h => h ▸ List.mem_cons_self)
        fun h => List.mem_cons_of_mem _ (List.mem_cons_of_mem _ h)

/-- What the choice at a boundary answers. -/
theorem bestOf_none_spec (l : List Candidate) :
    (bestOf none l = none ↔ l = []) ∧ ∀ c, bestOf none l = some c → Best c l := by
  cases l with
  | nil => exact ⟨by simp [bestOf], fun c hc => nomatch hc⟩
  | cons b rest =>
    obtain ⟨c, hc, hbest⟩ := best_bestOf b rest
    have hc : bestOf none (b :: rest) = some c := hc
    exact ⟨by simp [hc], fun d hd => Option.some.inj (hc.symm.trans hd) ▸ hbest⟩

/-- The exceptions whose conditions hold, by priority number and entry (R530, R532). -/
def State.Holds (s : State) (p e : Nat) : Prop :=
  (p = 3 ∧ e = 59 ∧ s.extOvfPending = true ∧ srL s.sr = false) ∨
  (p = 4 ∧ e = 58 ∧ s.parityPending = true ∧ srL s.sr = false) ∨
  (∃ q : Source, p = priority s.fcr q ∧ e = q.entry ∧ s.request q = true ∧ srL s.sr = false) ∨
  (p = 16 ∧ e = 57 ∧ srT s.sr = true ∧ srP s.sr = true)

theorem mem_candidateIf {c : Bool} {p e : Nat} {x : Candidate} :
    x ∈ candidateIf c p e ↔ x.priority = p ∧ x.entry = e ∧ c = true := by
  cases c <;> cases x <;> simp [candidateIf]

theorem mem_candidates {s : State} {x : Candidate} : x ∈ s.candidates ↔ s.Holds x.priority x.entry := by
  simp [State.candidates, State.Holds, mem_candidateIf, mem_sources]

/-- At a boundary that is not locked, no exception is pending where no condition holds, and else a best one. -/
theorem pending_spec {s : State} (ha : s.afterDelayedBranch = false) (hc : s.callLockout = false) :
    (s.pending = none ↔ ∀ p e, ¬ s.Holds p e) ∧
      ∀ k, s.pending = some k → ∃ p, s.Holds p k ∧ ∀ p' e', s.Holds p' e' → p ≤ p' := by
  have hpending : s.pending = (bestOf none s.candidates).map Candidate.entry := if_neg (by simp [State.locked, ha, hc])
  obtain ⟨hnone, hbest⟩ := bestOf_none_spec s.candidates
  rw [hpending]
  constructor
  · rw [Option.map_eq_none_iff, hnone, List.eq_nil_iff_forall_not_mem]
    exact ⟨fun h p e hpe => h ⟨p, e⟩ (mem_candidates.mpr hpe), fun h x hx => h _ _ (mem_candidates.mp hx)⟩
  · intro k hk
    obtain ⟨c, hc, rfl⟩ := Option.map_eq_some_iff.mp hk
    obtain ⟨hmem, hle⟩ := hbest c hc
    exact ⟨c.priority, mem_candidates.mp hmem, fun p' e' h => hle ⟨p', e'⟩ (mem_candidates.mpr h)⟩

/-- IO1 as an input. -/
theorem pinIO1_input {s : State} (h : s.fcr.getLsbD 2 = true) : s.pinIO1 = s.pins.io.getLsbD 0 := if_pos h

/-- IO2 as an input. -/
theorem pinIO2_input {s : State} (h : s.fcr.getLsbD 6 = true) : s.pinIO2 = s.pins.io.getLsbD 1 := if_pos h

/-- IO3 as an input. -/
theorem pinIO3_input {s : State} (h : s.fcr.getLsbD 10 = true) : s.pinIO3 = s.pins.io.getLsbD 2 := if_pos h

/-- IO3 requests by its level only as an input. -/
theorem io3InputRequest_eq (s : State) :
    s.io3InputRequest = (s.fcr.getLsbD 10 && !s.fcr.getLsbD 8 && s.pins.io.getLsbD 2 == s.fcr.getLsbD 9) := by
  unfold State.io3InputRequest
  cases h : s.fcr.getLsbD 10 with
  | false => rfl
  | true => rw [pinIO3_input h]

/-- The timer's priority by FCR(21..20). -/
theorem timerPriority_eq (b : BitVec 2) :
    12 - 2 * b.toNat = if b = 3#2 then 6 else if b = 2#2 then 8 else if b = 1#2 then 10 else 12 := by
  revert b
  decide

/-- FCR(13) = 1 is IO3Standard or Watchdog mode (R58). -/
theorem io3Mode_of_bit13 {fcr : Word} (h : fcr.getLsbD 13 = true) : ∃ n, (io3Mode fcr).toNat = n + 2 := by
  have hbit : (io3Mode fcr).getLsbD 1 = true := by simpa [io3Mode] using h
  generalize io3Mode fcr = m at hbit ⊢
  have hall : ∀ m : BitVec 2, m.getLsbD 1 = true → 2 ≤ m.toNat := by decide
  exact ⟨_, (Nat.sub_add_cancel (hall m hbit)).symm⟩

/-- Which sources request, and with what priority (R553 to R555, R560, R566, R567). -/
theorem requests (s : State) : Requests s where
  timer := rfl
  int1 := rfl
  int2 := rfl
  int3 := rfl
  int4 := rfl
  io1 := by
    show (s.fcr.getLsbD 2 && !s.fcr.getLsbD 0 && s.pinIO1 == s.fcr.getLsbD 1) = _
    cases h : s.fcr.getLsbD 2 with
    | false => rfl
    | true => rw [pinIO1_input h]
  io2 := fun hio => by
    show s.io2Request = _
    unfold State.io2Request
    cases h : s.fcr.getLsbD 6 with
    | false =>
      have hmask : s.fcr.getLsbD 4 = true := hio.resolve_left (Bool.eq_false_iff.mp h)
      rw [hmask]
      rfl
    | true => rw [pinIO2_input h]; rfl
  io3TimerInterrupt := fun hm => by
    show s.io3Request = _
    rw [State.io3Request, show io3Mode s.fcr = _ from hm, ← io3InputRequest_eq]
    rfl
  io3Timing := fun hm => by
    show s.io3Request = _
    rw [State.io3Request, show io3Mode s.fcr = _ from hm]
    rfl
  io3Standard := fun hm hio => by
    obtain ⟨n, hn⟩ := io3Mode_of_bit13 hm
    have hdefined : (!s.fcr.getLsbD 10 && !s.fcr.getLsbD 8) = false := by
      rcases hio with h | h <;> simp [h]
    show s.io3Request = _
    rw [State.io3Request, hn, hdefined, ← io3InputRequest_eq]
    rfl
  timerPriority := timerPriority_eq _
  priorities := ⟨rfl, rfl, rfl, rfl, rfl, rfl, rfl⟩
  entries := ⟨rfl, rfl, rfl, rfl, rfl, rfl, rfl, rfl⟩

/-- Settles O52. -/
theorem boundaryTakesTheBestException : Obligations.BoundaryTakesTheBestException := by
  intro s k u holds
  refine ⟨requests u, fun hr hp => ⟨fun hlocked => if_pos ?locked, fun ha hc => ?_⟩⟩
  case locked => simpa [State.locked] using hlocked
  obtain ⟨hnone, hsome⟩ := pending_spec ha hc
  refine ⟨hnone, fun hk => ?_⟩
  obtain ⟨p, hholds, hle⟩ := hsome k hk
  refine ⟨p, hholds, hle, fun entry he => ?_⟩
  have hstep : step s = takeAtBoundary k u := by
    rw [step, turn, hr, hp, hk]
    rfl
  obtain ⟨t, ht, hentered⟩ := takeException_next (irq := decide (48 ≤ k ∧ k ≤ 55))
    (s := { u with extOvfPending := u.extOvfPending && k != 59, parityPending := u.parityPending && k != 58 }) he
  exact ⟨_, t, hstep.trans ht, hentered, rfl⟩

/-! ### Reset (R590) -/

/-- The first cell listed for an address is its byte. -/
theorem Memory.read_eq_find {lo : Nat} {m : List Host.Cell} (h : Memory.rising lo m = true) (k : Nat) :
    Memory.read m k = ((m.find? fun c => c.1 == k).map Prod.snd).getD Memory.unlisted := by
  induction m generalizing lo with
  | nil => rfl
  | cons c rest ih =>
    obtain ⟨a, v⟩ := c
    have hrest := (Bool.and_eq_true _ _ ▸ h : _ ∧ _).2
    rw [Memory.read]
    by_cases hk : a = k
    · simp [hk]
    · rw [if_neg hk, List.find?_cons_of_neg (by simpa using hk), ← ih hrest]
      split
      · exact (Memory.read_below hrest (by omega)).symm
      · rfl

/-- Among the cells of a kind, the one of an address of that kind is found. -/
theorem find_filter_pos (m : List Host.Cell) {p : Nat → Bool} {k : Nat} (hp : p k = true) :
    (m.filter fun c => p c.1).find? (fun c => c.1 == k) = m.find? fun c => c.1 == k := by
  rw [List.find?_filter]
  congr 1
  funext c
  by_cases hc : c.1 = k <;> simp [hc, hp]

/-- One of another kind is not. -/
theorem find_filter_neg (m : List Host.Cell) {p : Nat → Bool} {k : Nat} (hp : p k = false) :
    (m.filter fun c => p c.1).find? (fun c => c.1 == k) = none := by
  rw [List.find?_filter]
  refine List.find?_eq_none.mpr fun c _ => ?_
  by_cases hc : c.1 = k <;> simp [hc, hp]

/-- Reset leaves the bytes outside the IRAM (R112, R590). -/
theorem read_afterReset {s : State} (h : Memory.wf s.mem = true) {k : Nat} (hk : k < 0xC0000000 ∨ 0xE0000000 ≤ k) :
    Memory.read s.afterReset.mem k = Memory.read s.mem k := by
  have hiram : s.undefinedIram.find? (fun c => c.1 == k) = none := List.find?_eq_none.mpr fun c hc => by
    obtain ⟨hlow, hhigh, _⟩ := (undefinedIram_cells s).2 c hc
    rw [beq_iff_eq]
    omega
  have hfind : s.afterReset.mem.find? (fun c => c.1 == k) = s.mem.find? fun c => c.1 == k := by
    rw [State.afterReset, List.find?_append, List.find?_append, hiram, Option.or_none]
    rcases hk with hk | hk
    · rw [find_filter_pos s.mem (p := fun a => decide (a < 0xC0000000)) (decide_eq_true hk),
        find_filter_neg s.mem (p := fun a => decide (0xE0000000 ≤ a)) (decide_eq_false (by omega)), Option.or_none]
    · rw [find_filter_neg s.mem (p := fun a => decide (a < 0xC0000000)) (decide_eq_false (by omega)),
        find_filter_pos s.mem (p := fun a => decide (0xE0000000 ≤ a)) (decide_eq_true hk), Option.none_or]
  rw [Memory.read_eq_find (Memory.rising_of_wf (wf_afterReset h)), Memory.read_eq_find (Memory.rising_of_wf h), hfind]

/-- Settles O55: the step is the Reset, whatever else is pending. -/
theorem resetRequestsOverruleEverything : Obligations.ResetRequestsOverruleEverything := by
  intro s hwf hr
  have hstep : step s = .next s.takeInput.afterReset := if_pos hr
  refine ⟨_, hstep, rfl, ?S, ?L, ?T, ?M, ?FL, rfl, rfl, rfl, rfl, rfl, rfl, rfl, rfl, rfl, rfl, rfl, rfl, rfl, rfl,
    fun k hk => read_afterReset hwf hk⟩
  all_goals simp [State.afterReset, State.undefinedSR]

end Sys2Proof.Machine
end
